-- ==== Sys2Proof/Word.lean ====
section
/-! DEFINITION. The word types of the block and the small enumerations its rules name
(00_scope.md R9, R10, R18, R19). Nothing here computes. -/

namespace Sys2Proof

/-- A pin level or a single bit: `true` is 1 (00_scope.md R10). -/
abbrev Bit := Bool

/-- `UInt8` of the spec (00_scope.md R10). -/
abbrev Byte := BitVec 8

/-- A name held in a name table (00_scope.md R7, R8). -/
abbrev Name := String

/-- WRITE is host to device, READ is device to host (00_scope.md R18). -/
inductive Dir where
  | write
  | read
deriving DecidableEq, Repr

/-- One data line (00_scope.md R10, R17). -/
inductive Lane where
  | mosi
  | miso
  | sda
deriving DecidableEq, Repr

/-- The two decoder stacks (00_scope.md R2). -/
inductive Stack where
  | spi
  | i2c
deriving DecidableEq, Repr

/-- The role of an SPI transfer record (10_state.md R29). -/
inductive Role where
  | header
  | data
  | excess
deriving DecidableEq, Repr

/-- The kind of an I2C transfer record (10_state.md R34). -/
inductive Kind where
  | addr
  | reg
  | data
  | raw
deriving DecidableEq, Repr

end Sys2Proof
end

