-- ==== Sys2Proof/Config.lean ====
section
/-! DEFINITION. The parameters of 00_scope.md R7 as plain data, and the minimal tables of R8.
They are the whole control surface of the block (10_state.md R39); `boundStarts` is the model's own
(notes/assumptions/28.md). A name table is a finite
association list, looked up by its first entry for a key (R16). State holds one `Config`, so a
claim about every state is a claim about every configuration (notes/assumptions/1.md). -/

namespace Sys2Proof

/-- Which chip-select level is the asserted one (00_scope.md R7, R13). -/
inductive CsPolarity where
  | activeLow
  | activeHigh
deriving DecidableEq, Repr

/-- Which SCK edge samples (00_scope.md R7, 40_sampler.md R134). -/
inductive SampleEdge where
  | rising
  | falling
deriving DecidableEq, Repr

/-- How a register address is matched against `SPI_FIFO_REGS` (42_link_header.md R204). -/
inductive RegMatch where
  | full16
  | offset12
deriving DecidableEq, Repr

/-- `I2C_ADDR_FORMAT`, which changes no rule (00_scope.md R7, 42_link_header.md R210). R7 gives it no
default: `shifted` in `I2cParams.default` is the model's choice (notes/assumptions/2.md). -/
inductive AddrFormat where
  | shifted
  | unshifted
deriving DecidableEq, Repr

/-- One field of a register byte: bits `hi` down to `lo`, with the verdict of its validity bit
(42_link_header.md R207). -/
structure FieldRec where
  fieldId : Nat
  hi : Fin 8
  lo : Fin 8
  valid : Bool
deriving DecidableEq, Repr

/-- One row of a `REG_FIELDS` table: the fields of byte `value` of register `reg` in direction `dir`,
at one data index or, where `index` is none, at every data index (00_scope.md R7;
notes/assumptions/3.md). -/
structure RegFieldRow where
  reg : Nat
  dir : Dir
  index : Option Nat
  value : Byte
  fields : List FieldRec
deriving DecidableEq, Repr

/-- The OPEN functions `REG_FIELDS(reg, dir, i, x)` that no table gives, told apart by a number
(00_scope.md R7, 42_link_header.md R207). A constant with no body: nothing is known of any of them, so
a claim about every configuration holds whichever function `REG_FIELDS` is
(notes/assumptions/3.md). -/
opaque Config.regFieldsOf : Nat → Nat → Dir → Nat → Byte → List FieldRec

/-- `REG_FIELDS`: a table, or the function `Config.regFieldsOf k` (00_scope.md R7;
notes/assumptions/3.md). -/
inductive RegFields where
  | table (rows : List RegFieldRow)
  | function (k : Nat)
deriving DecidableEq, Repr

/-- The parameters of the SPI stack (00_scope.md R7). `boundStarts` is none of them: it is the model's
own, for a point on which two rules disagree (notes/assumptions/28.md). -/
structure SpiParams where
  haveCs : Bool
  haveMosi : Bool
  haveMiso : Bool
  csPolarity : CsPolarity
  sampleEdge : SampleEdge
  fifoRegs : List (BitVec 16)
  regMatch : RegMatch
  ackBit : Fin 8
  ackLevel : Bit
  knownReg : List (BitVec 16 × Name)
  knownTag : List (BitVec 16 × Name)
  knownCc : List (BitVec 32 × Name)
  knownRc : List (BitVec 32 × Name)
  regFields : RegFields
  sampleW : Option Nat
  maxXferBytes : Option Nat
  boundStarts : Bool
deriving DecidableEq, Repr

/-- The parameters of the I2C stack (00_scope.md R7). `boundStarts` is none of them: it is the model's
own, for a point on which two rules disagree (notes/assumptions/28.md). -/
structure I2cParams where
  targetAddr : BitVec 7
  addrFormat : AddrFormat
  dataReg : Byte
  stateReg : Byte
  apduLenIncludesHeader : Bool
  knownReg : List (Byte × Name)
  knownApduCmd : List (Byte × Name)
  knownApduSta : List (Byte × Name)
  regFields : RegFields
  sampleW : Option Nat
  maxXferBytes : Option Nat
  boundStarts : Bool
deriving DecidableEq, Repr

/-- Both stacks' parameters. -/
structure Config where
  spi : SpiParams
  i2c : I2cParams
deriving DecidableEq, Repr

/-- `TPM_HDR_SIZE`: tag 2 + length 4 + code 4 (00_scope.md R7, 30_encoding.md R100). -/
def tpmHdrSize : Nat := 10

/-- `APDU_HDR_SIZE`: command 1 + parameter 1 + length 2 (00_scope.md R7, 30_encoding.md R108). -/
def apduHdrSize : Nat := 4

/-- The defaults of 00_scope.md R7 with the minimal SPI tables of R8. DESIGN CHOICE: `boundStarts`
(notes/assumptions/28.md). -/
def SpiParams.default : SpiParams where
  haveCs := true
  haveMosi := true
  haveMiso := true
  csPolarity := .activeLow
  sampleEdge := .rising
  fifoRegs := [0x0024#16, 0x0080#16]
  regMatch := .full16
  ackBit := 0
  ackLevel := true
  knownReg := [(0x0024#16, "REG_0024"), (0x0080#16, "REG_0080")]
  knownTag := [(0x8002#16, "SESSION")]
  knownCc := [(0x00000144#32, "TPM_CC_STARTUP")]
  knownRc := []
  regFields := .table []
  sampleW := none
  maxXferBytes := none
  boundStarts := true

/-- The defaults of 00_scope.md R7 with the minimal I2C tables of R8. DESIGN CHOICE: the OPEN
`I2C_TARGET_ADDR` is 0x30, the value of the spec's test vectors, and `I2C_ADDR_FORMAT`, which R7 gives
no value and no effect, is SHIFTED (notes/assumptions/2.md); `boundStarts` (28.md). -/
def I2cParams.default : I2cParams where
  targetAddr := 0x30#7
  addrFormat := .shifted
  dataReg := 0x80#8
  stateReg := 0x82#8
  apduLenIncludesHeader := false
  knownReg := [(0x80#8, "REG_80"), (0x82#8, "I2C_STATE")]
  knownApduCmd := []
  knownApduSta := []
  regFields := .table []
  sampleW := none
  maxXferBytes := none
  boundStarts := true

/-- The configuration of the spec's test vectors (95_test_vectors.md, Conventions). -/
def Config.default : Config where
  spi := .default
  i2c := .default

end Sys2Proof
end

