-- ==== Sys2Proof/Syntax.lean ====
section
/-! DEFINITION. The operands of the block's operations and the operations themselves: one
constructor of `Instr` per row of spec/opcode_table.json, in the table's order.

A row whose encoding is a byte carries that byte (or the byte's fields, where 30_encoding.md
R96 to R106 split it). A row whose operands are registers carries none. Where a docstring says
"not read", the spec's pseudocode of that row does not read the byte. -/

namespace Sys2Proof

/-- One SPI sample at the input port: four pin levels (10_state.md R20, 30_encoding.md R90). -/
structure SpiSample where
  sck : Bit
  mosi : Bit
  miso : Bit
  cs : Bit
deriving DecidableEq, Repr

/-- One I2C sample at the input port: two pin levels (10_state.md R21, 30_encoding.md R91). -/
structure I2cSample where
  scl : Bit
  sda : Bit
deriving DecidableEq, Repr

/-- An SPI sample as the condition word sees it: the chip-select level only through
`asserted(cs)`, the one way a rule reads it (00_scope.md R13, 30_encoding.md R92). -/
structure SpiLevels where
  sck : Bit
  mosi : Bit
  miso : Bit
  asserted : Bool
deriving DecidableEq, Repr

/-- A record of the SPI transfer buffer (10_state.md R29). `stop` is the spec's `end`. -/
structure SpiByteRec where
  mosi : Option Byte
  miso : Option Byte
  start : Nat
  stop : Nat
  truncated : Bool
  role : Role
  fseq : Option Nat
deriving DecidableEq, Repr

/-- A record of the I2C transfer buffer (10_state.md R34). `stop` is the spec's `end`. -/
structure I2cByteRec where
  value : Byte
  start : Nat
  stop : Nat
  truncated : Bool
  phaseNo : Nat
  kind : Kind
  dir : Option Dir
  ack : Option Bool
deriving DecidableEq, Repr

/-- A record of either stack's buffer, the operand of BufAppend and the value of BufRead. -/
inductive BufRec where
  | spi (r : SpiByteRec)
  | i2c (r : I2cByteRec)
deriving DecidableEq, Repr

/-- The operations of the block, one per row of spec/opcode_table.json. -/
inductive Instr where
  /-- SPI_BASELINE, 40_sampler.md R130. -/
  | spiBaseline (x : SpiLevels)
  /-- SPI_CS_DEASSERT, 40_sampler.md R131. -/
  | spiCsDeassert (x : SpiLevels)
  /-- SPI_CS_ASSERT, 40_sampler.md R132. -/
  | spiCsAssert (x : SpiLevels)
  /-- SPI_SCK_SAMPLE with SAMPLE_EDGE = RISING, 40_sampler.md R133. -/
  | spiSckSample (x : SpiLevels)
  /-- SPI_SCK_SAMPLE_F with SAMPLE_EDGE = FALLING, 30_encoding.md R93, 40_sampler.md R133. -/
  | spiSckSampleF (x : SpiLevels)
  /-- SPI_IDLE_STEP, 40_sampler.md R136. -/
  | spiIdleStep (x : SpiLevels)
  /-- I2C_BASELINE, 40_sampler.md R150. -/
  | i2cBaseline (x : I2cSample)
  /-- I2C_START, 40_sampler.md R151. -/
  | i2cStart (x : I2cSample)
  /-- I2C_RSTART, 40_sampler.md R152. -/
  | i2cRstart (x : I2cSample)
  /-- I2C_STOP, 40_sampler.md R155. -/
  | i2cStop (x : I2cSample)
  /-- I2C_STRAY_STOP, 40_sampler.md R156. -/
  | i2cStrayStop (x : I2cSample)
  /-- I2C_BIT, 40_sampler.md R153. -/
  | i2cBit (x : I2cSample)
  /-- I2C_ACK, 40_sampler.md R154. -/
  | i2cAck (x : I2cSample)
  /-- I2C_IDLE_STEP, 40_sampler.md R157. -/
  | i2cIdleStep (x : I2cSample)
  /-- CompleteSpiByte, 41_byte_assembler.md R173. `last_end` is `some n` exactly when truncated. -/
  | completeSpiByte (truncated : Bool)
  /-- CompleteI2cByte, 41_byte_assembler.md R177. `last_end` is `some n` exactly when truncated. -/
  | completeI2cByte (truncated : Bool)
  /-- PartialAtCondition, 41_byte_assembler.md R178. -/
  | partialAtCondition
  /-- SPI_HDR0 `dccccccc`, 42_link_header.md R201: `d` the direction, `c` the count less one. -/
  | spiHdr0 (d : Dir) (c : BitVec 7)
  /-- SPI_HDR1 `hhhhhhhh`, 42_link_header.md R202. -/
  | spiHdr1 (h : Byte)
  /-- SPI_HDR2, register address bits 15:8, 42_link_header.md R203. -/
  | spiHdr2 (a : Byte)
  /-- SPI_HDR3, register address bits 7:0, 42_link_header.md R203. -/
  | spiHdr3 (a : Byte)
  /-- AckFlag, the MISO byte 3, 42_link_header.md R206. -/
  | ackFlag (s : Byte)
  /-- SPI_DATA, 42_link_header.md R205: the data value, `none` where its lane is absent. -/
  | spiData (v : Option Byte)
  /-- SPI_EXCESS, 42_link_header.md R205: the byte is not read. -/
  | spiExcess (v : Byte)
  /-- FieldDecode, 42_link_header.md R207, of either stack. -/
  | fieldDecode (k : Stack) (x : Byte)
  /-- SpiNoHeader, 42_link_header.md R208: the byte is not read. -/
  | spiNoHeader (v : Byte)
  /-- I2C_ADDR `aaaaaaar`, 42_link_header.md R210. -/
  | i2cAddr (a : BitVec 7) (r : Dir)
  /-- I2C_RAW, 42_link_header.md R211: the byte is not read. -/
  | i2cRaw (v : Byte)
  /-- I2C_REGNUM, 42_link_header.md R212. -/
  | i2cRegnum (r : Byte)
  /-- I2C_REGDATA, 42_link_header.md R213. -/
  | i2cRegdata (v : Byte)
  /-- TPM_START, 43_command_framer.md R241: the byte is not read (TPM_HDR takes it next). -/
  | tpmStart (v : Byte)
  /-- TPM_HDR, 43_command_framer.md R242. -/
  | tpmHdr (v : Byte)
  /-- TPM_TAG_DONE, 43_command_framer.md R243: the byte is already in `facc`. -/
  | tpmTagDone (v : Byte)
  /-- TPM_LEN_DONE, 43_command_framer.md R244: the byte is already in `facc`. -/
  | tpmLenDone (v : Byte)
  /-- TPM_CODE_DONE, 43_command_framer.md R245: the byte is already in `facc`. -/
  | tpmCodeDone (v : Byte)
  /-- TPM_PAYLOAD, 43_command_framer.md R246. -/
  | tpmPayload (v : Byte)
  /-- TPM_OTHER_DIR, 43_command_framer.md R247: the byte is not read. -/
  | tpmOtherDir (v : Byte)
  /-- CloseFrame, 43_command_framer.md R248. -/
  | closeFrame
  /-- DL_FCTR `tssxffkk`, 44_datalink_apdu.md R282. -/
  | dlFctr (t : BitVec 1) (s : BitVec 2) (x : BitVec 1) (f : BitVec 2) (k : BitVec 2)
  /-- DL_LEN0, 44_datalink_apdu.md R284. -/
  | dlLen0 (l : Byte)
  /-- DL_LEN1, 44_datalink_apdu.md R286. -/
  | dlLen1 (l : Byte)
  /-- DL_PCTR `ccccphhh`, 44_datalink_apdu.md R288. -/
  | dlPctr (c : BitVec 4) (p : BitVec 1) (h : BitVec 3)
  /-- DL_SCTR `ppmmmmdd`, 44_datalink_apdu.md R290. -/
  | dlSctr (p : BitVec 2) (m : BitVec 4) (d : BitVec 2)
  /-- PayloadBegin, 44_datalink_apdu.md R294. -/
  | payloadBegin
  /-- DL_PAY, 44_datalink_apdu.md R295. -/
  | dlPay (v : Byte)
  /-- DL_FCS0, 44_datalink_apdu.md R292. -/
  | dlFcs0 (f : Byte)
  /-- DL_FCS1, 44_datalink_apdu.md R292. -/
  | dlFcs1 (f : Byte)
  /-- DL_EXCESS, 44_datalink_apdu.md R293: the byte is not read. -/
  | dlExcess (v : Byte)
  /-- DlFinish, 44_datalink_apdu.md R296. -/
  | dlFinish (complete : Bool)
  /-- APDU_CMD, 44_datalink_apdu.md R298. -/
  | apduCmd (c : Byte)
  /-- APDU_PARAM, 44_datalink_apdu.md R299. -/
  | apduParam (p : Byte)
  /-- APDU_LEN0, 44_datalink_apdu.md R299. -/
  | apduLen0 (l : Byte)
  /-- APDU_LEN1, 44_datalink_apdu.md R300. -/
  | apduLen1 (l : Byte)
  /-- APDU_DATA, 44_datalink_apdu.md R301. -/
  | apduData (v : Byte)
  /-- APDU_EXCESS, 44_datalink_apdu.md R302: the byte is not read. -/
  | apduExcess (v : Byte)
  /-- ApduFinish, 44_datalink_apdu.md R302. -/
  | apduFinish (complete : Bool)
  /-- EndPhase, 44_datalink_apdu.md R303. -/
  | endPhase
  /-- AggregateSpi, 45_aggregator.md R340. -/
  | aggregateSpi
  /-- FrameCarry, 45_aggregator.md R344. -/
  | frameCarry
  /-- AggregateI2c, 45_aggregator.md R350. -/
  | aggregateI2c
  /-- RegLen of phase `q`, 45_aggregator.md R352. -/
  | regLen (q : Nat)
  /-- BufAppend, 20_memory.md R71. -/
  | bufAppend (r : BufRec)
  /-- BufRead, 20_memory.md R72. -/
  | bufRead (k : Stack) (i : Nat)
  /-- Reset, 70_reset_and_hazards.md R400. -/
  | reset
deriving DecidableEq, Repr

end Sys2Proof
end

