-- ==== Sys2Proof/Machine/State.lean ====
section
/-! DEFINITION. The state of the block (10_state.md): both stacks' registers, buffers and result
lists, the output events, the pending inputs and the parameters, all plain data; the reasons a
model stops; the state after reset (70_reset_and_hazards.md R400). -/

namespace Sys2Proof.Machine

open Sys2Proof

/-! ### Output events (10_state.md R60 to R64) -/

/-- A span of sample positions. Every span is held as exact rationals (00_scope.md R11). -/
structure Span where
  ss : Rat
  es : Rat
deriving DecidableEq, Repr

/-- Bus state of a `BUS` event (10_state.md R61). -/
inductive BusState where
  | active
  | idle
deriving DecidableEq, Repr

/-- Kind of a `COND` event (10_state.md R61). -/
inductive CondKind where
  | start
  | rstart
  | stop
deriving DecidableEq, Repr

/-- One entry of a `BITS` event: value, start, end (10_state.md R61). -/
structure BitRec where
  value : Bit
  start : Nat
  stop : Nat
deriving DecidableEq, Repr

/-- Field names of `HDR` events (30_encoding.md R109). -/
inductive HdrField where
  | dir
  | count
  | addrHi
  | reg
  | locality
  | ack
  | i2cReg
deriving DecidableEq, Repr

/-- Layers of frame events (10_state.md R62). -/
inductive Layer where
  | tpm
  | dl
  | net
  | pres
  | apdu
deriving DecidableEq, Repr

/-- Field names of `FIELD` events (30_encoding.md R109). `len` is the LEN of DL and of APDU. -/
inductive FieldName where
  | tag
  | length
  | code
  | ftype
  | seqctr
  | rfu
  | frnr
  | acknr
  | len
  | fcs
  | channel
  | presence
  | chaining
  | protocol
  | message
  | protection
  | cmd
  | sta
  | param
deriving DecidableEq, Repr

/-- Diagnostic codes (30_encoding.md R116). -/
inductive DiagCode where
  | errUnknownReg
  | errUnknownTag
  | errUnknownCc
  | errUnknownRc
  | errUnknownI2cReg
  | errUnknownApduCmd
  | errUnknownApduSta
  | warnCsMidByte
  | warnI2cPartialByte
  | warnExcessByte
  | warnShortTransfer
  | warnHeaderIncomplete
  | warnLengthShort
  | warnFrameOpenAtIdle
  | warnNoRegister
  | warnDlTruncated
  | warnDlExcess
  | warnApduTruncated
  | warnApduExcess
  | infoFieldInvalid
deriving DecidableEq, Repr

/-- The fields of an SPI `XFER_SUM` (45_aggregator.md R341). -/
structure SpiXferSum where
  dir : Option Dir
  count : Option Nat
  reg : Option (BitVec 16)
  regName : Option Name
  ack : Option Bool
  mosi : List Byte
  miso : List Byte
  data : List Byte
  headerComplete : Bool
deriving DecidableEq, Repr

/-- One phase of an I2C `XFER_SUM` (45_aggregator.md R351). -/
structure PhaseSum where
  addr7 : BitVec 7
  dir : Dir
  matched : Bool
  ack : Option Bool
deriving DecidableEq, Repr

/-- The fields of an I2C `XFER_SUM` (45_aggregator.md R351). -/
structure I2cXferSum where
  phases : List PhaseSum
  reg : Option Byte
  bytes : List Byte
deriving DecidableEq, Repr

/-- The fields of a `CMD_SUM` (45_aggregator.md R345). -/
structure CmdSum where
  dir : Dir
  tag : BitVec 16
  tagName : Option Name
  len : BitVec 32
  code : BitVec 32
  codeName : Option Name
  pcount : Nat
  short : Bool
deriving DecidableEq, Repr

/-- A datalink frame that ended (10_state.md R37). -/
structure DlInfo where
  phaseNo : Nat
  dir : Dir
  first : Nat
  last : Nat
  fctr : Byte
  dlen : BitVec 16
  pctr : Option Byte
  sctr : Option Byte
  fcs : Option (BitVec 16)
  dpay : Nat
  apduMode : Bool
  complete : Bool
deriving DecidableEq, Repr

/-- An APDU that ended (10_state.md R37). -/
structure ApduInfo where
  phaseNo : Nat
  dir : Dir
  first : Nat
  last : Nat
  cmd : Byte
  param : Byte
  alen : BitVec 16
  adata : Nat
  complete : Bool
deriving DecidableEq, Repr

/-- An output event less its span (10_state.md R61 to R64). `prot` is the spec's `protected`. -/
inductive Event where
  | bus (state : BusState)
  | cond (kind : CondKind)
  | bits (lane : Lane) (list : List BitRec)
  | byte (lane : Lane) (value : Byte) (truncated : Bool)
  | ack (ack : Bool)
  | addr (addr7 : BitVec 7) (dir : Dir) (matched : Bool)
  | hdr (field : HdrField) (value : Nat) (name : Option Name)
  | regdata (reg : Nat) (dir : Dir) (index : Nat) (value : Byte)
  | regfield (reg : Nat) (fieldId : Nat) (value : Nat) (valid : Bool)
  | field (layer : Layer) (field : FieldName) (value : Nat) (name : Option Name)
  | payload (layer : Layer) (dir : Dir) (index : Nat) (value : Byte) (prot : Bool)
  | diag (code : DiagCode) (info : Nat)
  | spiXferSum (sum : SpiXferSum)
  | i2cXferSum (sum : I2cXferSum)
  | cmdSum (sum : CmdSum)
  | reglenSum (value : BitVec 16)
  | dlSum (info : DlInfo)
  | apduSum (info : ApduInfo)
deriving DecidableEq, Repr

/-- An event at the output port: its span and its fields (10_state.md R60). -/
structure OutEvent where
  span : Span
  event : Event
deriving DecidableEq, Repr

/-! ### The SPI stack (10_state.md R26 to R30) -/

/-- States of the framer (10_state.md R30). -/
inductive FrameSt where
  | idle
  | hdr
  | payload
deriving DecidableEq, Repr

/-- Start of a closed frame: a buffer index, or a sample fixed by an earlier pass
(10_state.md R30). -/
inductive FrameStart where
  | idx (i : Nat)
  | at (r : Rat)
deriving DecidableEq, Repr

/-- A frame closed in the open transfer (10_state.md R30). -/
structure FrameInfo where
  fseq : Nat
  dir : Dir
  tag : BitVec 16
  len : BitVec 32
  code : BitVec 32
  pcount : Nat
  short : Bool
  start : FrameStart
  last : Nat
deriving DecidableEq, Repr

/-- The registers of the SPI stack (10_state.md R26 to R30), under the spec's names in camel case.
`fStart = none` is the spec's NONE. `out` is every event the stack has emitted
(notes/assumptions/5.md). -/
structure Spi where
  first : Bool
  prevSck : Bit
  prevAsserted : Bool
  active : Bool
  tStart : Nat
  n : Nat
  bitcnt : Nat
  accMosi : Byte
  accMiso : Byte
  bitStarts : List Nat
  pos : Nat
  hdrDir : Option Dir
  hdrCount : Option Nat
  hdrAddrHi : Option Byte
  hdrRegHi : Option Byte
  hdrReg : Option (BitVec 16)
  hdrRegKnown : Bool
  hdrAck : Option Bool
  hdrRouted : Bool
  hdrB0Span : Nat × Nat
  hdrB2Start : Nat
  xfer : List SpiByteRec
  fst : FrameSt
  fh : Nat
  facc : BitVec 32
  fFieldStart : Nat
  tag : BitVec 16
  len : BitVec 32
  code : BitVec 32
  fdir : Option Dir
  remaining : BitVec 32
  pcount : Nat
  fshort : Bool
  fseq : Nat
  fStart : Option FrameStart
  closed : List FrameInfo
  out : List OutEvent
deriving DecidableEq, Repr

/-- The SPI stack after reset (70_reset_and_hazards.md R400), with nothing emitted. -/
def Spi.reset : Spi where
  first := true
  prevSck := false
  prevAsserted := false
  active := false
  tStart := 0
  n := 0
  bitcnt := 0
  accMosi := 0#8
  accMiso := 0#8
  bitStarts := []
  pos := 0
  hdrDir := none
  hdrCount := none
  hdrAddrHi := none
  hdrRegHi := none
  hdrReg := none
  hdrRegKnown := false
  hdrAck := none
  hdrRouted := false
  hdrB0Span := (0, 0)
  hdrB2Start := 0
  xfer := []
  fst := .idle
  fh := 0
  facc := 0#32
  fFieldStart := 0
  tag := 0#16
  len := 0#32
  code := 0#32
  fdir := none
  remaining := 0#32
  pcount := 0
  fshort := false
  fseq := 0
  fStart := none
  closed := []
  out := []

/-! ### The I2C stack (10_state.md R31 to R37) -/

/-- `phase` (10_state.md R33). -/
inductive Phase where
  | addr
  | data
deriving DecidableEq, Repr

/-- Datalink parse state (10_state.md R35). -/
inductive DlSt where
  | fctr
  | len0
  | len1
  | pctr
  | sctr
  | pay
  | fcs0
  | fcs1
  | done
deriving DecidableEq, Repr

/-- APDU parse state (10_state.md R36). -/
inductive ApSt where
  | cmd
  | param
  | len0
  | len1
  | data
  | done
deriving DecidableEq, Repr

/-- The datalink registers `dl` (10_state.md R35). -/
structure Dl where
  dst : DlSt
  dFirst : Option Nat
  fctr : Byte
  dlen : BitVec 16
  drem : Nat
  pctr : Option Byte
  sctr : Option Byte
  apduMode : Bool
  fcs : BitVec 16
  dpay : Nat
  dLenStart : Nat
  dFcsStart : Nat
deriving DecidableEq, Repr

/-- The reset values of `dl` (10_state.md R35). -/
def Dl.reset : Dl where
  dst := .fctr
  dFirst := none
  fctr := 0#8
  dlen := 0#16
  drem := 0
  pctr := none
  sctr := none
  apduMode := false
  fcs := 0#16
  dpay := 0
  dLenStart := 0
  dFcsStart := 0

/-- The APDU registers `ap` (10_state.md R36). -/
structure Ap where
  ast : ApSt
  aFirst : Option Nat
  cmd : Byte
  param : Byte
  alen : BitVec 16
  arem : Nat
  adata : Nat
  aLenStart : Nat
deriving DecidableEq, Repr

/-- The reset values of `ap` (10_state.md R36). -/
def Ap.reset : Ap where
  ast := .cmd
  aFirst := none
  cmd := 0#8
  param := 0#8
  alen := 0#16
  arem := 0
  adata := 0
  aLenStart := 0

/-- The registers of the I2C stack (10_state.md R31 to R37), under the spec's names in camel case.
`out` is every event the stack has emitted (notes/assumptions/5.md). -/
structure I2c where
  first : Bool
  prevScl : Bit
  prevSda : Bit
  active : Bool
  tStart : Nat
  phaseNo : Nat
  n : Nat
  bitcnt : Nat
  acc : Byte
  bitStarts : List Nat
  ackIdx : Option Nat
  phase : Phase
  rw : Option Dir
  addr7 : Option (BitVec 7)
  matched : Bool
  expectReg : Bool
  reg : Option Byte
  regKnown : Bool
  j : Nat
  xfer : List I2cByteRec
  dl : Dl
  ap : Ap
  dlDone : List DlInfo
  apduDone : List ApduInfo
  out : List OutEvent
deriving DecidableEq, Repr

/-- The I2C stack after reset (70_reset_and_hazards.md R400), with nothing emitted. -/
def I2c.reset : I2c where
  first := true
  prevScl := false
  prevSda := false
  active := false
  tStart := 0
  phaseNo := 0
  n := 0
  bitcnt := 0
  acc := 0#8
  bitStarts := []
  ackIdx := none
  phase := .addr
  rw := none
  addr7 := none
  matched := false
  expectReg := false
  reg := none
  regKnown := false
  j := 0
  xfer := []
  dl := Dl.reset
  ap := Ap.reset
  dlDone := []
  apduDone := []
  out := []

/-! ### The whole machine -/

/-- An input that waits at the block's ports (10_state.md R20, R21, R23;
70_reset_and_hazards.md R405, R406; notes/assumptions/4.md, 17.md). A sample is its word
(30_encoding.md R90, R91). -/
inductive PortInput where
  | spi (w : BitVec 4)
  | i2c (w : BitVec 2)
  | reset
  | params (c : Config)
deriving DecidableEq, Repr

/-- The machine: the parameters, both stacks, the inputs not yet taken (notes/assumptions/4.md)
and the value the BufRead row last gave its caller (notes/assumptions/6.md). -/
structure State where
  cfg : Config
  spi : Spi
  i2c : I2c
  port : List PortInput
  readOut : Option BufRec
deriving DecidableEq, Repr

/-- The machine right after reset: both stacks at the values of 70_reset_and_hazards.md R400,
nothing emitted, no input waiting. The parameters, which reset does not touch (R402), are the
defaults of 00_scope.md R7 and R8. DESIGN CHOICE: `cfg`'s OPEN entries, `port`, `out` and `readOut`
(notes/assumptions/2.md, 4.md, 5.md, 6.md). -/
def State.reset : State where
  cfg := Config.default
  spi := Spi.reset
  i2c := I2c.reset
  port := []
  readOut := none

/-! ### Stops -/

/-- A model stops here although the block has no trap (60_exceptions.md R376). Every constructor is
SAFE: the spec gives no value to go on with, and no run from reset reaches it. -/
inductive Fault where
  /-- BufRead at an index at or above the buffer's length (20_memory.md R72). Raised by BufRead and
  by every operation that reads or updates a record. -/
  | bufReadRange (index length : Nat)
  /-- The pseudocode reads a field that holds `none`; raised by operations run in a state where the
  field they need was never written (notes/assumptions/9.md). -/
  | noValue (field : String)
  /-- The pseudocode subtracts below zero on `Nat` (00_scope.md R10; notes/assumptions/9.md). -/
  | belowZero (field : String)
  /-- The assembler completes a byte while the pending bits are none, more than eight, or not as
  many as `bitcnt` says (10_state.md R27, R32; notes/assumptions/9.md). -/
  | pendingBits (bitcnt listed : Nat)
deriving DecidableEq, Repr

/-- The model refuses a run the spec gives no behaviour for (60_exceptions.md R377). Every
constructor is SAFE. -/
inductive Refusal where
  /-- An operation with no meaning yet; raised by `exec` alone. No arm answers it. -/
  | notModelled (mnemonic : String)
  /-- A byte completion beyond `MAX_XFER_BYTES` (20_memory.md R73); raised by BufAppend. -/
  | maxXferBytes (limit : Nat)
  /-- A stream of `2^SAMPLE_W` samples or more (10_state.md R22, 60_exceptions.md R377); raised by
  a step. -/
  | sampleW (width : Nat)
  /-- `HAVE_MOSI` and `HAVE_MISO` both false (70_reset_and_hazards.md R407); raised by an SPI
  step. -/
  | noDataLane
  /-- Parameters offered after the first sample since reset (70_reset_and_hazards.md R405); raised
  by a step. -/
  | paramsChanged
deriving DecidableEq, Repr

/-- Why an operation on one stack does not complete. -/
inductive Stop where
  | fault (r : Fault)
  | refused (r : Refusal)
deriving DecidableEq, Repr

end Sys2Proof.Machine
end

