-- ==== Sys2Proof/Machine/Ops.lean ====
section
/-! DEFINITION. The named operations every rule uses (00_scope.md R12): reading an optional field,
subtracting on `Nat`, emitting an event, emitting a diagnostic, and the transfer buffers
(20_memory.md R71 to R73).

The block takes no exception and returns from none (60_exceptions.md R376, R382). What other
machines do by taking one, it does by `Spi.diag` and `I2c.diag`: one event, no state, and decoding
goes on (60_exceptions.md R371, R372). -/

namespace Sys2Proof.Machine

open Sys2Proof

/-- The result of an operation on one stack: the value, or why the model stops. -/
abbrev Run (α : Type) := Except Stop α

/-- The outcome of an operation on the whole machine. -/
abbrev Result := Host.Outcome State Fault Refusal

/-- The value of an optional field the pseudocode reads as present (notes/assumptions/9.md). -/
def need {α : Type} (field : String) : Option α → Run α
  | some a => .ok a
  | none => .error (.fault (.noValue field))

/-- Subtraction on `Nat`, which the spec uses only where it does not go below zero
(00_scope.md R10; notes/assumptions/9.md). -/
def natSub (field : String) (a b : Nat) : Run Nat :=
  if b ≤ a then .ok (a - b) else .error (.fault (.belowZero field))

/-! ### Spans (00_scope.md R11, R14, R15) -/

/-- The span of two sample positions. -/
def spanOf (a b : Nat) : Span := ⟨a, b⟩

/-- The span of a point event (00_scope.md R15). -/
def pointSpan (n : Nat) : Span := ⟨n, n⟩

/-- `SubSpan`: `w` eighths of a byte's span from the `off`-th on (00_scope.md R14). -/
def subSpan (sp : Span) (off w : Nat) : Span :=
  ⟨sp.ss + (sp.es - sp.ss) * off / 8, sp.ss + (sp.es - sp.ss) * (off + w) / 8⟩

/-- The span of bits `hi` down to `lo` of a byte (30_encoding.md R112). -/
def fieldSpan (sp : Span) (hi lo : Nat) : Span := subSpan sp (7 - hi) (hi - lo + 1)

/-- The even byte width of a transfer, which has one only when it has bytes
(45_aggregator.md R331). -/
def evenWidth (t0 t1 count : Nat) : Option Rat :=
  if count = 0 then none else some (((t1 : Rat) - t0) / count)

/-! ### The SPI stack -/

/-- `emit` (00_scope.md R12, 10_state.md R60). -/
def Spi.emit (sp : Span) (e : Event) (s : Spi) : Spi := { s with out := s.out ++ [⟨sp, e⟩] }

/-- Several events, in order. -/
def Spi.emitAll (es : List OutEvent) (s : Spi) : Spi := { s with out := s.out ++ es }

/-- `diag`: one event and no other effect (60_exceptions.md R371, R372). -/
def Spi.diag (code : DiagCode) (sp : Span) (info : Nat) (s : Spi) : Spi :=
  s.emit sp (.diag code info)

/-- `BufAppend` (20_memory.md R71), refused beyond `MAX_XFER_BYTES` (R73). -/
def Spi.bufAppend (p : SpiParams) (r : SpiByteRec) (s : Spi) : Run Spi :=
  match p.maxXferBytes with
  | none => .ok { s with xfer := s.xfer ++ [r] }
  | some m =>
    if s.xfer.length + 1 ≤ m then .ok { s with xfer := s.xfer ++ [r] }
    else .error (.refused (.maxXferBytes m))

/-- `BufRead` (20_memory.md R72). -/
def Spi.bufRead (s : Spi) (i : Nat) : Run SpiByteRec :=
  match s.xfer[i]? with
  | some r => .ok r
  | none => .error (.fault (.bufReadRange i s.xfer.length))

/-- A record's field updated after it was appended (20_memory.md R71). -/
def Spi.bufUpdate (i : Nat) (f : SpiByteRec → SpiByteRec) (s : Spi) : Run Spi :=
  if i < s.xfer.length then .ok { s with xfer := s.xfer.modify i f }
  else .error (.fault (.bufReadRange i s.xfer.length))

/-- The buffer index of the byte in hand, the record appended last (42_link_header.md R209;
notes/assumptions/8.md). -/
def Spi.lastIdx (s : Spi) : Run Nat :=
  if s.xfer.length = 0 then .error (.fault (.bufReadRange 0 0)) else .ok (s.xfer.length - 1)

/-! ### The I2C stack -/

/-- `emit` (00_scope.md R12, 10_state.md R60). -/
def I2c.emit (sp : Span) (e : Event) (s : I2c) : I2c := { s with out := s.out ++ [⟨sp, e⟩] }

/-- Several events, in order. -/
def I2c.emitAll (es : List OutEvent) (s : I2c) : I2c := { s with out := s.out ++ es }

/-- `diag`: one event and no other effect (60_exceptions.md R371, R372). -/
def I2c.diag (code : DiagCode) (sp : Span) (info : Nat) (s : I2c) : I2c :=
  s.emit sp (.diag code info)

/-- `BufAppend` (20_memory.md R71), refused beyond `MAX_XFER_BYTES` (R73). -/
def I2c.bufAppend (p : I2cParams) (r : I2cByteRec) (s : I2c) : Run I2c :=
  match p.maxXferBytes with
  | none => .ok { s with xfer := s.xfer ++ [r] }
  | some m =>
    if s.xfer.length + 1 ≤ m then .ok { s with xfer := s.xfer ++ [r] }
    else .error (.refused (.maxXferBytes m))

/-- `BufRead` (20_memory.md R72). -/
def I2c.bufRead (s : I2c) (i : Nat) : Run I2cByteRec :=
  match s.xfer[i]? with
  | some r => .ok r
  | none => .error (.fault (.bufReadRange i s.xfer.length))

/-- A record's field updated after it was appended (20_memory.md R71). -/
def I2c.bufUpdate (i : Nat) (f : I2cByteRec → I2cByteRec) (s : I2c) : Run I2c :=
  if i < s.xfer.length then .ok { s with xfer := s.xfer.modify i f }
  else .error (.fault (.bufReadRange i s.xfer.length))

/-- The buffer index of the byte in hand, the record appended last (42_link_header.md R210;
notes/assumptions/8.md). -/
def I2c.lastIdx (s : I2c) : Run Nat :=
  if s.xfer.length = 0 then .error (.fault (.bufReadRange 0 0)) else .ok (s.xfer.length - 1)

/-! ### The event port (10_state.md R60, R66) -/

/-- An event with its start at most the sample `n` that emits it (10_state.md R66). -/
def OutEvent.boundBy (n : Nat) (e : OutEvent) : OutEvent :=
  { e with span := ⟨min e.span.ss n, e.span.es⟩ }

/-- What the event port has emitted after the step of sample `n`, when it had emitted `before` and the
step's operations have left `out`. With `bound`, no event of the step starts after `n`, as
10_state.md R66 and 90_conflicts.md C5 say; without it every event has the span of its pseudocode. The
two differ only for a late bit field of a byte with an extrapolated end
(notes/assumptions/28.md). -/
def portEvents (bound : Bool) (n : Nat) (before out : List OutEvent) : List OutEvent :=
  if bound then before ++ (out.drop before.length).map (OutEvent.boundBy n) else out

/-- The SPI stack after a step that began at `old`, at its event port. -/
def Spi.emitted (p : SpiParams) (s old : Spi) : Spi :=
  { s with out := portEvents p.boundStarts old.n old.out s.out }

/-- The I2C stack after a step that began at `old`, at its event port. -/
def I2c.emitted (p : I2cParams) (s old : I2c) : I2c :=
  { s with out := portEvents p.boundStarts old.n old.out s.out }

/-! ### One stack's operation on the machine -/

/-- An operation of the SPI stack as an operation of the machine: the I2C stack, the parameters and
the inputs stay (00_scope.md R2). -/
def onSpi (s : State) (f : SpiParams → Spi → Run Spi) : Result :=
  match f s.cfg.spi s.spi with
  | .ok t => .next { s with spi := t }
  | .error (.fault r) => .fault r
  | .error (.refused r) => .refused r

/-- An operation of the I2C stack as an operation of the machine: the SPI stack, the parameters and
the inputs stay (00_scope.md R2). -/
def onI2c (s : State) (f : I2cParams → I2c → Run I2c) : Result :=
  match f s.cfg.i2c s.i2c with
  | .ok t => .next { s with i2c := t }
  | .error (.fault r) => .fault r
  | .error (.refused r) => .refused r

end Sys2Proof.Machine
end

