-- ==== Sys2Proof/Machine/Control.lean ====
section
/-! DEFINITION. The buffer rows (20_memory.md R71, R72) and Reset (70_reset_and_hazards.md R400 to
R403). -/

namespace Sys2Proof.Machine

open Sys2Proof

/-- BufAppend (20_memory.md R71, R73): the record names its stack. -/
def execBufAppend (r : BufRec) (s : State) : Result :=
  match r with
  | .spi a => onSpi s fun p t => t.bufAppend p a
  | .i2c a => onI2c s fun p t => t.bufAppend p a

/-- The record at index `i` of a stack's buffer (20_memory.md R72). -/
def readBuf (k : Stack) (i : Nat) (s : State) : Run BufRec :=
  match k with
  | .spi => do .ok (.spi (← s.spi.bufRead i))
  | .i2c => do .ok (.i2c (← s.i2c.bufRead i))

/-- BufRead (20_memory.md R72): the record goes to the caller, here `readOut`
(notes/assumptions/6.md). -/
def execBufRead (k : Stack) (i : Nat) (s : State) : Result :=
  match readBuf k i s with
  | .ok r => .next { s with readOut := some r }
  | .error (.fault e) => .fault e
  | .error (.refused e) => .refused e

/-- Reset (70_reset_and_hazards.md R400): every field of both stacks at its reset value. The
parameters and the events already emitted stay (R402), and so do the inputs not yet taken
(notes/assumptions/26.md). -/
def execReset (s : State) : Result :=
  .next { s with
    spi := { Spi.reset with out := s.spi.out }
    i2c := { I2c.reset with out := s.i2c.out }
    readOut := none }

end Sys2Proof.Machine
end

