-- ==== Sys2Proof/WellFormed.lean ====
section
/-! DEFINITION. Which terms of `Instr` stand for an operation the table can select, and which
configurations are legal. A sampler row is well formed when its sample is one its condition row
admits (30_encoding.md R92 to R95). A row with numbers among its operands is well formed when
they fit the 32-bit fields of the model's operation word (notes/assumptions/10.md). -/

namespace Sys2Proof

/-- The operand fits a 32-bit field of the operation word (notes/assumptions/10.md). -/
def fits32 (k : Nat) : Bool := decide (k < 2 ^ 32)

/-- Every number of an SPI record fits the operation word. -/
def SpiByteRec.wf (r : SpiByteRec) : Bool :=
  fits32 r.start && fits32 r.stop && r.fseq.all fits32

/-- Every number of an I2C record fits the operation word. -/
def I2cByteRec.wf (r : I2cByteRec) : Bool :=
  fits32 r.start && fits32 r.stop && fits32 r.phaseNo

/-- Every number of a buffer record fits the operation word. -/
def BufRec.wf : BufRec → Bool
  | .spi r => r.wf
  | .i2c r => r.wf

/-- An operation the table can select: the sample of a sampler row satisfies the row's condition
(30_encoding.md R92 to R95), and numeric operands fit the operation word. -/
def Instr.wf : Instr → Bool
  | .spiBaseline _ => true
  | .spiCsDeassert x => !x.asserted
  | .spiCsAssert x => x.asserted
  | .spiSckSample x => x.asserted && x.sck
  | .spiSckSampleF x => x.asserted && !x.sck
  | .spiIdleStep _ => true
  | .i2cBaseline _ => true
  | .i2cStart x => x.scl && !x.sda
  | .i2cRstart x => x.scl && !x.sda
  | .i2cStop x => x.scl && x.sda
  | .i2cStrayStop x => x.scl && x.sda
  | .i2cBit x => x.scl
  | .i2cAck x => x.scl
  | .i2cIdleStep _ => true
  | .completeSpiByte _ => true
  | .completeI2cByte _ => true
  | .partialAtCondition => true
  | .spiHdr0 _ _ => true
  | .spiHdr1 _ => true
  | .spiHdr2 _ => true
  | .spiHdr3 _ => true
  | .ackFlag _ => true
  | .spiData _ => true
  | .spiExcess _ => true
  | .fieldDecode _ _ => true
  | .spiNoHeader _ => true
  | .i2cAddr _ _ => true
  | .i2cRaw _ => true
  | .i2cRegnum _ => true
  | .i2cRegdata _ => true
  | .tpmStart _ => true
  | .tpmHdr _ => true
  | .tpmTagDone _ => true
  | .tpmLenDone _ => true
  | .tpmCodeDone _ => true
  | .tpmPayload _ => true
  | .tpmOtherDir _ => true
  | .closeFrame => true
  | .dlFctr _ _ _ _ _ => true
  | .dlLen0 _ => true
  | .dlLen1 _ => true
  | .dlPctr _ _ _ => true
  | .dlSctr _ _ _ => true
  | .payloadBegin => true
  | .dlPay _ => true
  | .dlFcs0 _ => true
  | .dlFcs1 _ => true
  | .dlExcess _ => true
  | .dlFinish _ => true
  | .apduCmd _ => true
  | .apduParam _ => true
  | .apduLen0 _ => true
  | .apduLen1 _ => true
  | .apduData _ => true
  | .apduExcess _ => true
  | .apduFinish _ => true
  | .endPhase => true
  | .aggregateSpi => true
  | .frameCarry => true
  | .aggregateI2c => true
  | .regLen q => fits32 q
  | .bufAppend r => r.wf
  | .bufRead _ i => fits32 i
  | .reset => true

/-- Every field of a `REG_FIELDS` table runs from its high bit down to its low bit (42_link_header.md
R207). Of a function that is no table nothing can be checked. -/
def RegFields.wf : RegFields → Bool
  | .table rows => rows.all fun r => r.fields.all fun f => f.lo ≤ f.hi
  | .function _ => true

/-- A legal SPI configuration has at least one data lane and a legal `REG_FIELDS`
(70_reset_and_hazards.md R407). -/
def SpiParams.wf (p : SpiParams) : Bool :=
  (p.haveMosi || p.haveMiso) && p.regFields.wf

/-- A legal I2C configuration has a legal `REG_FIELDS`. -/
def I2cParams.wf (p : I2cParams) : Bool := p.regFields.wf

/-- Both stacks' parameters are legal. -/
def Config.wf (c : Config) : Bool := c.spi.wf && c.i2c.wf

/-- The table entries the source's testable properties need (00_scope.md R7,
70_reset_and_hazards.md R408). Every rule applies without them too. -/
def Config.hasRequiredEntries (c : Config) : Bool :=
  (c.spi.knownReg.lookup 0x0024#16).isSome && (c.spi.knownReg.lookup 0x0080#16).isSome
    && c.spi.knownTag.lookup 0x8002#16 == some "SESSION"
    && c.spi.knownCc.lookup 0x00000144#32 == some "TPM_CC_STARTUP"
    && (c.spi.knownCc.lookup 0x0000FFFF#32).isNone
    && (c.i2c.knownReg.lookup 0x80#8).isSome
    && c.i2c.knownReg.lookup 0x82#8 == some "I2C_STATE"

end Sys2Proof
end

