-- ==== Sys2Proof/Decode.lean ====
section
/-! DEFINITION. The sample words (30_encoding.md section 1), what selects an operation (section 2)
and how a byte's fields are read (section 3), then the decoder and the encoder of the model's
operation words.

The table's own word of a row is a condition word (CS5, CI5) or a byte; the rest of the selection
is state. The model's operation word is a list of bytes: the table's word, a selector byte that
stands for that state, then operand bytes where a row has more operands (DESIGN CHOICE,
notes/assumptions/10.md). Selector 0 is CS5, so a word with zeros above it reads as a CS5 row. -/

namespace Sys2Proof

/-! ### Fields of a byte (00_scope.md R9, 30_encoding.md R96 to R106) -/

/-- Direction bit: 0 is WRITE, 1 is READ (30_encoding.md R96, R101). -/
def dirOfBit (b : Bool) : Dir := if b then .read else .write

/-- The bit of a direction (30_encoding.md R96, R101). -/
def bitOfDir : Dir → Bool
  | .write => false
  | .read => true

/-- `d`, bit 7 of SPI header byte 0 (30_encoding.md R96). -/
def hdr0Dir (b : Byte) : Dir := dirOfBit (b.getLsbD 7)

/-- `c`, bits 6:0 of SPI header byte 0 (30_encoding.md R96). -/
def hdr0Count (b : Byte) : BitVec 7 := b.extractLsb' 0 7

/-- SPI header byte 0 from its fields, `dccccccc` (30_encoding.md R96). -/
def hdr0Byte (d : Dir) (c : BitVec 7) : Byte := BitVec.ofBool (bitOfDir d) ++ c

/-- Bits 7:1 of the I2C address byte (30_encoding.md R101). -/
def addrBits (b : Byte) : BitVec 7 := b.extractLsb' 1 7

/-- `r`, bit 0 of the I2C address byte (30_encoding.md R101). -/
def addrDir (b : Byte) : Dir := dirOfBit (b.getLsbD 0)

/-- The I2C address byte from its fields, `aaaaaaar` (30_encoding.md R101). -/
def addrByte (a : BitVec 7) (r : Dir) : Byte := a ++ BitVec.ofBool (bitOfDir r)

/-- FCTR from its fields, `tssxffkk` (30_encoding.md R103). -/
def fctrByte (t : BitVec 1) (s : BitVec 2) (x : BitVec 1) (f k : BitVec 2) : Byte :=
  t ++ s ++ x ++ f ++ k

/-- PCTR from its fields, `ccccphhh` (30_encoding.md R105). -/
def pctrByte (c : BitVec 4) (p : BitVec 1) (h : BitVec 3) : Byte := c ++ p ++ h

/-- SCTR from its fields, `ppmmmmdd` (30_encoding.md R106). -/
def sctrByte (p : BitVec 2) (m : BitVec 4) (d : BitVec 2) : Byte := p ++ m ++ d

/-! ### Sample words (30_encoding.md R90, R91): every word is a legal sample -/

/-- The levels of an SPI sample word: bit 0 SCK, bit 1 MOSI, bit 2 MISO, bit 3 CS
(30_encoding.md R90). -/
def spiSampleOfWord (w : BitVec 4) : SpiSample :=
  ⟨w.getLsbD 0, w.getLsbD 1, w.getLsbD 2, w.getLsbD 3⟩

/-- The word of an SPI sample (30_encoding.md R90). -/
def spiSampleWord (x : SpiSample) : BitVec 4 :=
  BitVec.ofBool x.cs ++ BitVec.ofBool x.miso ++ BitVec.ofBool x.mosi ++ BitVec.ofBool x.sck

/-- The levels of an I2C sample word: bit 0 SCL, bit 1 SDA (30_encoding.md R91). -/
def i2cSampleOfWord (w : BitVec 2) : I2cSample := ⟨w.getLsbD 0, w.getLsbD 1⟩

/-- The word of an I2C sample (30_encoding.md R91). -/
def i2cSampleWord (x : I2cSample) : BitVec 2 := BitVec.ofBool x.sda ++ BitVec.ofBool x.scl

/-! ### Condition words (30_encoding.md R92 to R95) -/

/-- `CS5`: first, prev_asserted, asserted, prev_sck, sck, from bit 4 down (30_encoding.md R92). -/
def cs5 (first prevAsserted : Bool) (prevSck : Bit) (x : SpiLevels) : BitVec 5 :=
  BitVec.ofBool first ++ BitVec.ofBool prevAsserted ++ BitVec.ofBool x.asserted
    ++ BitVec.ofBool prevSck ++ BitVec.ofBool x.sck

/-- `CI5`: first, prev_scl, scl, prev_sda, sda, from bit 4 down (30_encoding.md R94). -/
def ci5 (first : Bool) (prevScl prevSda : Bit) (x : I2cSample) : BitVec 5 :=
  BitVec.ofBool first ++ BitVec.ofBool prevScl ++ BitVec.ofBool x.scl
    ++ BitVec.ofBool prevSda ++ BitVec.ofBool x.sda

/-- The rows of the SPI condition table (30_encoding.md R92, R93). -/
inductive SpiRow where
  | baseline
  | csDeassert
  | csAssert
  | sckSample
  | sckSampleF
deriving DecidableEq, Repr

/-- A condition word satisfies a row: the masked bits equal the match (30_encoding.md R92). -/
def rowHit (w pattern mask : BitVec 5) : Bool := w &&& mask == pattern

/-- The SPI rows with their match and mask, in the order a step performs them
(30_encoding.md R92, R93). -/
def spiRows : List (SpiRow × BitVec 5 × BitVec 5) :=
  [(.baseline, 0b10000#5, 0b10000#5),
   (.csDeassert, 0b01000#5, 0b11100#5),
   (.csAssert, 0b00100#5, 0b11100#5),
   (.sckSample, 0b00101#5, 0b10111#5),
   (.sckSampleF, 0b00110#5, 0b10111#5)]

/-- The SPI rows a condition word satisfies, in order. -/
def spiHits (w : BitVec 5) : List SpiRow :=
  (spiRows.filter fun r => rowHit w r.2.1 r.2.2).map Prod.fst

/-- Which SPI rows a configuration has: the chip-select rows only when `HAVE_CS`, and the sampling
row of its `SAMPLE_EDGE` (30_encoding.md R92, R93). -/
def SpiRow.enabled (p : SpiParams) : SpiRow → Bool
  | .baseline => true
  | .csDeassert => p.haveCs
  | .csAssert => p.haveCs
  | .sckSample => p.sampleEdge == .rising
  | .sckSampleF => p.sampleEdge == .falling

/-- The operation of an SPI row on a sample. -/
def SpiRow.instr (x : SpiLevels) : SpiRow → Instr
  | .baseline => .spiBaseline x
  | .csDeassert => .spiCsDeassert x
  | .csAssert => .spiCsAssert x
  | .sckSample => .spiSckSample x
  | .sckSampleF => .spiSckSampleF x

/-- The operations one SPI step performs, in order; SPI_IDLE_STEP when no row matches
(30_encoding.md R92, R93; 40_sampler.md R134, R136). -/
def spiSelect (p : SpiParams) (w : BitVec 5) (x : SpiLevels) : List Instr :=
  match (spiHits w).filter (SpiRow.enabled p) with
  | [] => [.spiIdleStep x]
  | rows => rows.map (SpiRow.instr x)

/-- The conditions of the I2C table (30_encoding.md R94). -/
inductive I2cCond where
  | baseline
  | start
  | stop
  | bit
deriving DecidableEq, Repr

/-- The I2C rows with their match and mask, in priority order (30_encoding.md R94). -/
def i2cRows : List (I2cCond × BitVec 5 × BitVec 5) :=
  [(.baseline, 0b10000#5, 0b10000#5),
   (.start, 0b00110#5, 0b10111#5),
   (.stop, 0b00101#5, 0b10111#5),
   (.bit, 0b00100#5, 0b11100#5)]

/-- The first I2C condition a word satisfies, in priority order (30_encoding.md R94). -/
def i2cHit (w : BitVec 5) : Option I2cCond :=
  (i2cRows.find? fun r => rowHit w r.2.1 r.2.2).map Prod.fst

/-- The one operation an I2C step performs: the first condition, then the state that selects among
its operations (30_encoding.md R94, R95). `awaitAck` is `bitcnt = 8`. -/
def i2cSelect (w : BitVec 5) (active awaitAck : Bool) (x : I2cSample) : Instr :=
  match i2cHit w with
  | some .baseline => .i2cBaseline x
  | some .start => if active then .i2cRstart x else .i2cStart x
  | some .stop => if active then .i2cStop x else .i2cStrayStop x
  | some .bit => if active then (if awaitAck then .i2cAck x else .i2cBit x) else .i2cIdleStep x
  | none => .i2cIdleStep x

/-! ### Operation words (notes/assumptions/10.md) -/

/-- Why bytes are no operation word. -/
inductive DecodeError where
  /-- The bytes end inside the word. -/
  | outOfBytes
  /-- A bit the row's layout leaves unused is 1. -/
  | reservedBit
  /-- No row has this selector byte. -/
  | unknownSelector (b : Byte)
  /-- An operand byte outside its range. -/
  | badOperand (b : Byte)
deriving DecidableEq, Repr

/-- The selectors: the two condition-word formats, then one per remaining row of the table. -/
inductive Sel where
  | spiCond | i2cCond
  | completeSpiByte | completeI2cByte | partialAtCondition
  | spiHdr0 | spiHdr1 | spiHdr2 | spiHdr3 | ackFlag | spiData | spiExcess | fieldDecode
  | spiNoHeader | i2cAddr | i2cRaw | i2cRegnum | i2cRegdata
  | tpmStart | tpmHdr | tpmTagDone | tpmLenDone | tpmCodeDone | tpmPayload | tpmOtherDir
  | closeFrame
  | dlFctr | dlLen0 | dlLen1 | dlPctr | dlSctr | payloadBegin | dlPay | dlFcs0 | dlFcs1
  | dlExcess | dlFinish
  | apduCmd | apduParam | apduLen0 | apduLen1 | apduData | apduExcess | apduFinish | endPhase
  | aggregateSpi | frameCarry | aggregateI2c | regLen | bufAppend | bufRead | reset
deriving DecidableEq, Repr

/-- Every selector with its byte: 0 for CS5, 1 for CI5, else the row's place in
spec/opcode_table.json, counted from 0. -/
def selCodes : List (Sel × Byte) :=
  [(.spiCond, 0), (.i2cCond, 1), (.completeSpiByte, 14), (.completeI2cByte, 15),
   (.partialAtCondition, 16), (.spiHdr0, 17), (.spiHdr1, 18), (.spiHdr2, 19), (.spiHdr3, 20),
   (.ackFlag, 21), (.spiData, 22), (.spiExcess, 23), (.fieldDecode, 24), (.spiNoHeader, 25),
   (.i2cAddr, 26), (.i2cRaw, 27), (.i2cRegnum, 28), (.i2cRegdata, 29), (.tpmStart, 30),
   (.tpmHdr, 31), (.tpmTagDone, 32), (.tpmLenDone, 33), (.tpmCodeDone, 34), (.tpmPayload, 35),
   (.tpmOtherDir, 36), (.closeFrame, 37), (.dlFctr, 38), (.dlLen0, 39), (.dlLen1, 40),
   (.dlPctr, 41), (.dlSctr, 42), (.payloadBegin, 43), (.dlPay, 44), (.dlFcs0, 45),
   (.dlFcs1, 46), (.dlExcess, 47), (.dlFinish, 48), (.apduCmd, 49), (.apduParam, 50),
   (.apduLen0, 51), (.apduLen1, 52), (.apduData, 53), (.apduExcess, 54), (.apduFinish, 55),
   (.endPhase, 56), (.aggregateSpi, 57), (.frameCarry, 58), (.aggregateI2c, 59), (.regLen, 60),
   (.bufAppend, 61), (.bufRead, 62), (.reset, 63)]

/-- The byte of a selector. -/
def selByte (s : Sel) : Byte := (selCodes.lookup s).getD 0xFF#8

/-- The selector of a byte. -/
def selOfByte (b : Byte) : Except DecodeError Sel :=
  match selCodes.find? fun e => e.2 == b with
  | some e => .ok e.1
  | none => .error (.unknownSelector b)

/-- The next byte. -/
def takeByte : List Byte → Except DecodeError (Byte × List Byte)
  | [] => .error .outOfBytes
  | b :: bs => .ok (b, bs)

/-- A flag byte: 0 or 1. -/
def takeFlag (bs : List Byte) : Except DecodeError (Bool × List Byte) := do
  let (b, bs) ← takeByte bs
  if b = 0#8 then .ok (false, bs) else if b = 1#8 then .ok (true, bs) else .error (.badOperand b)

/-- A number in four bytes, the most significant first. -/
def takeNat (bs : List Byte) : Except DecodeError (Nat × List Byte) := do
  let (b3, bs) ← takeByte bs
  let (b2, bs) ← takeByte bs
  let (b1, bs) ← takeByte bs
  let (b0, bs) ← takeByte bs
  .ok ((b3 ++ b2 ++ b1 ++ b0).toNat, bs)

/-- An optional byte: a flag, then the byte (0 where absent). -/
def takeOptByte (bs : List Byte) : Except DecodeError (Option Byte × List Byte) := do
  let (f, bs) ← takeFlag bs
  let (b, bs) ← takeByte bs
  if f then .ok (some b, bs) else if b = 0#8 then .ok (none, bs) else .error (.badOperand b)

/-- An optional number: a flag, then the number (0 where absent). -/
def takeOptNat (bs : List Byte) : Except DecodeError (Option Nat × List Byte) := do
  let (f, bs) ← takeFlag bs
  let (k, bs) ← takeNat bs
  if f then .ok (some k, bs) else if k = 0 then .ok (none, bs) else .error (.badOperand 0)

/-- A stack: 0 for SPI, 1 for I2C. -/
def takeStack (bs : List Byte) : Except DecodeError (Stack × List Byte) := do
  let (f, bs) ← takeFlag bs
  .ok (if f then .i2c else .spi, bs)

/-- A role: 0 HEADER, 1 DATA, 2 EXCESS. -/
def takeRole (bs : List Byte) : Except DecodeError (Role × List Byte) := do
  let (b, bs) ← takeByte bs
  if b = 0#8 then .ok (.header, bs) else if b = 1#8 then .ok (.data, bs)
  else if b = 2#8 then .ok (.excess, bs) else .error (.badOperand b)

/-- A kind: 0 ADDR, 1 REG, 2 DATA, 3 RAW. -/
def takeKind (bs : List Byte) : Except DecodeError (Kind × List Byte) := do
  let (b, bs) ← takeByte bs
  if b = 0#8 then .ok (.addr, bs) else if b = 1#8 then .ok (.reg, bs)
  else if b = 2#8 then .ok (.data, bs) else if b = 3#8 then .ok (.raw, bs)
  else .error (.badOperand b)

/-- An optional Boolean: 0 none, 1 false, 2 true. -/
def takeOptBool (bs : List Byte) : Except DecodeError (Option Bool × List Byte) := do
  let (b, bs) ← takeByte bs
  if b = 0#8 then .ok (none, bs) else if b = 1#8 then .ok (some false, bs)
  else if b = 2#8 then .ok (some true, bs) else .error (.badOperand b)

/-- An SPI record's fields in their order. -/
def takeSpiRec (bs : List Byte) : Except DecodeError (SpiByteRec × List Byte) := do
  let (mosi, bs) ← takeOptByte bs
  let (miso, bs) ← takeOptByte bs
  let (start, bs) ← takeNat bs
  let (stop, bs) ← takeNat bs
  let (truncated, bs) ← takeFlag bs
  let (role, bs) ← takeRole bs
  let (fseq, bs) ← takeOptNat bs
  .ok (⟨mosi, miso, start, stop, truncated, role, fseq⟩, bs)

/-- An I2C record's fields in their order. -/
def takeI2cRec (bs : List Byte) : Except DecodeError (I2cByteRec × List Byte) := do
  let (value, bs) ← takeByte bs
  let (start, bs) ← takeNat bs
  let (stop, bs) ← takeNat bs
  let (truncated, bs) ← takeFlag bs
  let (phaseNo, bs) ← takeNat bs
  let (kind, bs) ← takeKind bs
  let (dir, bs) ← takeOptBool bs
  let (ack, bs) ← takeOptBool bs
  .ok (⟨value, start, stop, truncated, phaseNo, kind, dir.map dirOfBit, ack⟩, bs)

/-- A buffer record: its stack, then its fields. -/
def takeBufRec (bs : List Byte) : Except DecodeError (BufRec × List Byte) := do
  let (k, bs) ← takeStack bs
  match k with
  | .spi => do
    let (r, bs) ← takeSpiRec bs
    .ok (.spi r, bs)
  | .i2c => do
    let (r, bs) ← takeI2cRec bs
    .ok (.i2c r, bs)

/-- The row of a CS5 word: bits 4:0 the condition word, bit 5 MOSI, bit 6 MISO, bit 7 unused. Of
several matching rows the table's own word of the later one is meant (its match is the narrower);
a step performs them all (`spiSelect`). -/
def decodeCs5 (b : Byte) : Except DecodeError Instr :=
  if b.getLsbD 7 then .error .reservedBit
  else
    let x : SpiLevels := ⟨b.getLsbD 0, b.getLsbD 5, b.getLsbD 6, b.getLsbD 2⟩
    match (spiHits (b.extractLsb' 0 5)).getLast? with
    | some row => .ok (row.instr x)
    | none => .ok (.spiIdleStep x)

/-- The row of a CI5 word: bits 4:0 the condition word, bit 5 `active`, bit 6 `bitcnt = 8`, bit 7
unused (30_encoding.md R94, R95). -/
def decodeCi5 (b : Byte) : Except DecodeError Instr :=
  if b.getLsbD 7 then .error .reservedBit
  else .ok (i2cSelect (b.extractLsb' 0 5) (b.getLsbD 5) (b.getLsbD 6) ⟨b.getLsbD 2, b.getLsbD 0⟩)

/-- A row with no encoding (`--------`) has a zero table word. -/
def action (b : Byte) (r : Except DecodeError (Instr × List Byte)) :
    Except DecodeError (Instr × List Byte) :=
  if b = 0#8 then r else .error .reservedBit

/-- The row of a selector, from the table's word `b` and the operand bytes. The word of the three
assembler rows is the byte in the accumulator, which is state and no operand: any value is taken. -/
def decodeRow (s : Sel) (b : Byte) (bs : List Byte) : Except DecodeError (Instr × List Byte) :=
  match s with
  | .spiCond => do .ok (← decodeCs5 b, bs)
  | .i2cCond => do .ok (← decodeCi5 b, bs)
  | .completeSpiByte => do
    let (t, bs) ← takeFlag bs
    .ok (.completeSpiByte t, bs)
  | .completeI2cByte => do
    let (t, bs) ← takeFlag bs
    .ok (.completeI2cByte t, bs)
  | .partialAtCondition => .ok (.partialAtCondition, bs)
  | .spiHdr0 => .ok (.spiHdr0 (hdr0Dir b) (hdr0Count b), bs)
  | .spiHdr1 => .ok (.spiHdr1 b, bs)
  | .spiHdr2 => .ok (.spiHdr2 b, bs)
  | .spiHdr3 => .ok (.spiHdr3 b, bs)
  | .ackFlag => .ok (.ackFlag b, bs)
  | .spiData => do
    let (present, bs) ← takeFlag bs
    if present then .ok (.spiData (some b), bs) else action b (.ok (.spiData none, bs))
  | .spiExcess => .ok (.spiExcess b, bs)
  | .fieldDecode => do
    let (k, bs) ← takeStack bs
    .ok (.fieldDecode k b, bs)
  | .spiNoHeader => .ok (.spiNoHeader b, bs)
  | .i2cAddr => .ok (.i2cAddr (addrBits b) (addrDir b), bs)
  | .i2cRaw => .ok (.i2cRaw b, bs)
  | .i2cRegnum => .ok (.i2cRegnum b, bs)
  | .i2cRegdata => .ok (.i2cRegdata b, bs)
  | .tpmStart => .ok (.tpmStart b, bs)
  | .tpmHdr => .ok (.tpmHdr b, bs)
  | .tpmTagDone => .ok (.tpmTagDone b, bs)
  | .tpmLenDone => .ok (.tpmLenDone b, bs)
  | .tpmCodeDone => .ok (.tpmCodeDone b, bs)
  | .tpmPayload => .ok (.tpmPayload b, bs)
  | .tpmOtherDir => .ok (.tpmOtherDir b, bs)
  | .closeFrame => action b (.ok (.closeFrame, bs))
  | .dlFctr =>
    .ok (.dlFctr (b.extractLsb' 7 1) (b.extractLsb' 5 2) (b.extractLsb' 4 1) (b.extractLsb' 2 2)
      (b.extractLsb' 0 2), bs)
  | .dlLen0 => .ok (.dlLen0 b, bs)
  | .dlLen1 => .ok (.dlLen1 b, bs)
  | .dlPctr => .ok (.dlPctr (b.extractLsb' 4 4) (b.extractLsb' 3 1) (b.extractLsb' 0 3), bs)
  | .dlSctr => .ok (.dlSctr (b.extractLsb' 6 2) (b.extractLsb' 2 4) (b.extractLsb' 0 2), bs)
  | .payloadBegin => action b (.ok (.payloadBegin, bs))
  | .dlPay => .ok (.dlPay b, bs)
  | .dlFcs0 => .ok (.dlFcs0 b, bs)
  | .dlFcs1 => .ok (.dlFcs1 b, bs)
  | .dlExcess => .ok (.dlExcess b, bs)
  | .dlFinish => action b (do
    let (c, bs) ← takeFlag bs
    .ok (.dlFinish c, bs))
  | .apduCmd => .ok (.apduCmd b, bs)
  | .apduParam => .ok (.apduParam b, bs)
  | .apduLen0 => .ok (.apduLen0 b, bs)
  | .apduLen1 => .ok (.apduLen1 b, bs)
  | .apduData => .ok (.apduData b, bs)
  | .apduExcess => .ok (.apduExcess b, bs)
  | .apduFinish => action b (do
    let (c, bs) ← takeFlag bs
    .ok (.apduFinish c, bs))
  | .endPhase => action b (.ok (.endPhase, bs))
  | .aggregateSpi => action b (.ok (.aggregateSpi, bs))
  | .frameCarry => action b (.ok (.frameCarry, bs))
  | .aggregateI2c => action b (.ok (.aggregateI2c, bs))
  | .regLen => action b (do
    let (q, bs) ← takeNat bs
    .ok (.regLen q, bs))
  | .bufAppend => action b (do
    let (r, bs) ← takeBufRec bs
    .ok (.bufAppend r, bs))
  | .bufRead => action b (do
    let (k, bs) ← takeStack bs
    let (i, bs) ← takeNat bs
    .ok (.bufRead k i, bs))
  | .reset => action b (.ok (.reset, bs))

/-- The decoder: an operation and the bytes after its word, or why there is none. Total on any
bytes. -/
def decode : List Byte → Except DecodeError (Instr × List Byte)
  | b :: s :: bs => do decodeRow (← selOfByte s) b bs
  | _ => .error .outOfBytes

/-! ### The encoder -/

/-- A number in four bytes, the most significant first. -/
def natBytes (k : Nat) : List Byte :=
  let w := BitVec.ofNat 32 k
  [w.extractLsb' 24 8, w.extractLsb' 16 8, w.extractLsb' 8 8, w.extractLsb' 0 8]

/-- A flag byte. -/
def flagByte (f : Bool) : Byte := if f then 1#8 else 0#8

/-- An optional byte. -/
def optByteBytes : Option Byte → List Byte
  | some b => [1#8, b]
  | none => [0#8, 0#8]

/-- An optional number. -/
def optNatBytes : Option Nat → List Byte
  | some k => 1#8 :: natBytes k
  | none => 0#8 :: natBytes 0

/-- A stack's byte. -/
def stackByte : Stack → Byte
  | .spi => 0#8
  | .i2c => 1#8

/-- A role's byte. -/
def roleByte : Role → Byte
  | .header => 0#8
  | .data => 1#8
  | .excess => 2#8

/-- A kind's byte. -/
def kindByte : Kind → Byte
  | .addr => 0#8
  | .reg => 1#8
  | .data => 2#8
  | .raw => 3#8

/-- An optional Boolean's byte. -/
def optBoolByte : Option Bool → Byte
  | none => 0#8
  | some false => 1#8
  | some true => 2#8

/-- An SPI record's bytes. -/
def spiRecBytes (r : SpiByteRec) : List Byte :=
  optByteBytes r.mosi ++ optByteBytes r.miso ++ natBytes r.start ++ natBytes r.stop
    ++ [flagByte r.truncated, roleByte r.role] ++ optNatBytes r.fseq

/-- An I2C record's bytes. -/
def i2cRecBytes (r : I2cByteRec) : List Byte :=
  r.value :: natBytes r.start ++ natBytes r.stop ++ flagByte r.truncated :: natBytes r.phaseNo
    ++ [kindByte r.kind, optBoolByte (r.dir.map bitOfDir), optBoolByte r.ack]

/-- A buffer record's bytes. -/
def bufRecBytes : BufRec → List Byte
  | .spi r => stackByte .spi :: spiRecBytes r
  | .i2c r => stackByte .i2c :: i2cRecBytes r

/-- A CS5 word byte from the condition bits and the data levels. -/
def cs5Byte (first prevAsserted : Bool) (prevSck : Bit) (x : SpiLevels) : Byte :=
  0#1 ++ BitVec.ofBool x.miso ++ BitVec.ofBool x.mosi ++ cs5 first prevAsserted prevSck x

/-- A CI5 word byte from the condition bits and the selecting state. -/
def ci5Byte (first : Bool) (prevScl prevSda : Bit) (active awaitAck : Bool) (x : I2cSample) :
    Byte :=
  0#1 ++ BitVec.ofBool awaitAck ++ BitVec.ofBool active ++ ci5 first prevScl prevSda x

/-- The table's word, the selector and the operand bytes of an operation. For a sampler row the
bits its mask leaves open are those under which the row alone is performed. -/
def encodeRow : Instr → Byte × Sel × List Byte
  | .spiBaseline x => (cs5Byte true false false x, .spiCond, [])
  | .spiCsDeassert x => (cs5Byte false true x.sck x, .spiCond, [])
  | .spiCsAssert x => (cs5Byte false false x.sck x, .spiCond, [])
  | .spiSckSample x => (cs5Byte false true false x, .spiCond, [])
  | .spiSckSampleF x => (cs5Byte false true true x, .spiCond, [])
  | .spiIdleStep x => (cs5Byte false x.asserted x.sck x, .spiCond, [])
  | .i2cBaseline x => (ci5Byte true false false false false x, .i2cCond, [])
  | .i2cStart x => (ci5Byte false true true false false x, .i2cCond, [])
  | .i2cRstart x => (ci5Byte false true true true false x, .i2cCond, [])
  | .i2cStop x => (ci5Byte false true false true false x, .i2cCond, [])
  | .i2cStrayStop x => (ci5Byte false true false false false x, .i2cCond, [])
  | .i2cBit x => (ci5Byte false false x.sda true false x, .i2cCond, [])
  | .i2cAck x => (ci5Byte false false x.sda true true x, .i2cCond, [])
  | .i2cIdleStep x => (ci5Byte false x.scl x.sda false false x, .i2cCond, [])
  | .completeSpiByte t => (0#8, .completeSpiByte, [flagByte t])
  | .completeI2cByte t => (0#8, .completeI2cByte, [flagByte t])
  | .partialAtCondition => (0#8, .partialAtCondition, [])
  | .spiHdr0 d c => (hdr0Byte d c, .spiHdr0, [])
  | .spiHdr1 h => (h, .spiHdr1, [])
  | .spiHdr2 a => (a, .spiHdr2, [])
  | .spiHdr3 a => (a, .spiHdr3, [])
  | .ackFlag s => (s, .ackFlag, [])
  | .spiData (some v) => (v, .spiData, [1#8])
  | .spiData none => (0#8, .spiData, [0#8])
  | .spiExcess v => (v, .spiExcess, [])
  | .fieldDecode k x => (x, .fieldDecode, [stackByte k])
  | .spiNoHeader v => (v, .spiNoHeader, [])
  | .i2cAddr a r => (addrByte a r, .i2cAddr, [])
  | .i2cRaw v => (v, .i2cRaw, [])
  | .i2cRegnum r => (r, .i2cRegnum, [])
  | .i2cRegdata v => (v, .i2cRegdata, [])
  | .tpmStart v => (v, .tpmStart, [])
  | .tpmHdr v => (v, .tpmHdr, [])
  | .tpmTagDone v => (v, .tpmTagDone, [])
  | .tpmLenDone v => (v, .tpmLenDone, [])
  | .tpmCodeDone v => (v, .tpmCodeDone, [])
  | .tpmPayload v => (v, .tpmPayload, [])
  | .tpmOtherDir v => (v, .tpmOtherDir, [])
  | .closeFrame => (0#8, .closeFrame, [])
  | .dlFctr t s x f k => (fctrByte t s x f k, .dlFctr, [])
  | .dlLen0 l => (l, .dlLen0, [])
  | .dlLen1 l => (l, .dlLen1, [])
  | .dlPctr c p h => (pctrByte c p h, .dlPctr, [])
  | .dlSctr p m d => (sctrByte p m d, .dlSctr, [])
  | .payloadBegin => (0#8, .payloadBegin, [])
  | .dlPay v => (v, .dlPay, [])
  | .dlFcs0 f => (f, .dlFcs0, [])
  | .dlFcs1 f => (f, .dlFcs1, [])
  | .dlExcess v => (v, .dlExcess, [])
  | .dlFinish c => (0#8, .dlFinish, [flagByte c])
  | .apduCmd c => (c, .apduCmd, [])
  | .apduParam p => (p, .apduParam, [])
  | .apduLen0 l => (l, .apduLen0, [])
  | .apduLen1 l => (l, .apduLen1, [])
  | .apduData v => (v, .apduData, [])
  | .apduExcess v => (v, .apduExcess, [])
  | .apduFinish c => (0#8, .apduFinish, [flagByte c])
  | .endPhase => (0#8, .endPhase, [])
  | .aggregateSpi => (0#8, .aggregateSpi, [])
  | .frameCarry => (0#8, .frameCarry, [])
  | .aggregateI2c => (0#8, .aggregateI2c, [])
  | .regLen q => (0#8, .regLen, natBytes q)
  | .bufAppend r => (0#8, .bufAppend, bufRecBytes r)
  | .bufRead k i => (0#8, .bufRead, stackByte k :: natBytes i)
  | .reset => (0#8, .reset, [])

/-- The operation word of an operation. -/
def encode (i : Instr) : List Byte :=
  (encodeRow i).1 :: selByte (encodeRow i).2.1 :: (encodeRow i).2.2

/-! ### Words numbered as spec/opcode_table.json numbers them -/

/-- The longest operation word, in bytes (BufAppend of an SPI record). -/
def maxWordBytes : Nat := 22

/-- Byte `k` of a word whose bit 0 is the least significant bit of its first byte. -/
def wordByte (w k : Nat) : Byte := BitVec.ofNat 8 (w / 2 ^ (8 * k))

/-- The bytes of a table word: `nbits` bits of `w`, the first byte first, then zeros up to the
longest operation word. -/
def tableBytes (nbits w : Nat) : List Byte :=
  (List.range maxWordBytes).map (wordByte (w % 2 ^ nbits))

/-- The operation the decoder reads from a table word. A table word has no selector, so it reads
as a CS5 row: a CI5 row's word is the same number as some CS5 row's (notes/assumptions/10.md). -/
def decodeTableWord (nbits w : Nat) : Option Instr :=
  match decode (tableBytes nbits w) with
  | .ok (i, _) => some i
  | .error _ => none

end Sys2Proof
end

