-- ==== Sys2Proof/Machine/Operands.lean ====
section
/-! DEFINITION. Operand assembly (30_encoding.md R110 to R112): bits shifted in, fields accumulated,
bit fields, table lookups, and the codes and labels of events (R115 to R117). -/

namespace Sys2Proof.Machine

open Sys2Proof

/-- One bit shifted in at the bottom: `((acc << 1) | b) & 0xFF` (20_memory.md R76). -/
def shiftIn (acc : Byte) (b : Bit) : Byte := (acc <<< 1) ||| (if b then 1#8 else 0#8)

/-- `k` pending bits moved up to bit 7, zeros below: `(acc << (8 - k)) & 0xFF`
(41_byte_assembler.md R173, R175). -/
def leftAlign (acc : Byte) (k : Nat) : Byte := acc <<< (8 - k)

/-- `(acc << 8) | zext_32(b)` (30_encoding.md R111). -/
def accumulate32 (acc : BitVec 32) (b : Byte) : BitVec 32 := (acc <<< 8) ||| b.setWidth 32

/-- The high byte of a 16-bit field: `zext_16(b) << 8` (30_encoding.md R111). -/
def highByte (b : Byte) : BitVec 16 := b.setWidth 16 <<< 8

/-- The low byte joined to a 16-bit field: `acc | zext_16(b)` (30_encoding.md R111). -/
def joinLow (acc : BitVec 16) (b : Byte) : BitVec 16 := acc ||| b.setWidth 16

/-- `b[hi:lo]` as a number (00_scope.md R9). -/
def bitField (b : Byte) (hi lo : Nat) : Nat := (b.toNat >>> lo) % 2 ^ (hi - lo + 1)

/-- `hdr_count = zext_8(c) + 1` (30_encoding.md R110). -/
def declaredCount (c : BitVec 7) : Nat := c.toNat + 1

/-- `Lookup` (00_scope.md R16): the first entry of a table for a key, and no failure. -/
def lookupName {w : Nat} (table : List (BitVec w × Name)) (key : BitVec w) : Option Name :=
  table.lookup key

/-- `REG_FIELDS(reg, dir, i, x)` (42_link_header.md R207): of a table, the fields of the first row for
these keys, none where it has no such row; else the OPEN function. -/
def fieldsOf (f : RegFields) (reg : Nat) (d : Dir) (i : Nat) (x : Byte) : List FieldRec :=
  match f with
  | .table rows =>
    match rows.find? fun r =>
        r.reg == reg && r.dir == d && r.index.all (· == i) && r.value == x with
    | some r => r.fields
    | none => []
  | .function k => Config.regFieldsOf k reg d i x

/-- FieldDecode's events: each field in table order, with an INFO_FIELD_INVALID after an invalid one
(42_link_header.md R207). -/
def fieldEvents (f : RegFields) (reg : Nat) (d : Dir) (i : Nat) (x : Byte) (sp : Span) :
    List OutEvent :=
  (fieldsOf f reg d i x).flatMap fun r =>
    let fs := fieldSpan sp r.hi r.lo
    let shown : OutEvent := ⟨fs, .regfield reg r.fieldId (bitField x r.hi r.lo) r.valid⟩
    if r.valid then [shown] else [shown, ⟨fs, .diag .infoFieldInvalid r.fieldId⟩]

/-- The end of a byte's last bit (41_byte_assembler.md R171): the condition sample where one ended
the byte, else one bit interval after its start, else the next sample. -/
def lastBitEnd (starts : List Nat) (lastEnd : Option Nat) : Run Nat :=
  match lastEnd, starts.reverse with
  | some t, _ => .ok t
  | none, b :: a :: _ => do
    let width ← natSub "bit_starts" b a
    .ok (b + width)
  | none, [b] => .ok (b + 1)
  | none, [] => .error (.fault (.pendingBits 0 0))

/-- `BitEnds` (41_byte_assembler.md R171): each bit ends where the next starts. -/
def bitEnds (starts : List Nat) (lastEnd : Option Nat) : Run (List Nat) := do
  let stop ← lastBitEnd starts lastEnd
  .ok (starts.tail ++ [stop])

/-- The entries of a `BITS` event: bit `i` received is bit `7 - i` of the left-aligned value
(41_byte_assembler.md R172, R173). -/
def bitList (v : Byte) (starts ends : List Nat) : List BitRec :=
  (starts.zip ends).zipIdx.map fun e => ⟨v.getLsbD (7 - e.2), e.1.1, e.1.2⟩

/-- The kind code of an event (30_encoding.md R115). -/
def Event.kindCode : Event → Byte
  | .bus _ => 0x01#8
  | .cond _ => 0x02#8
  | .bits _ _ => 0x03#8
  | .byte _ _ _ => 0x04#8
  | .ack _ => 0x05#8
  | .addr _ _ _ => 0x06#8
  | .hdr _ _ _ => 0x07#8
  | .regdata _ _ _ _ => 0x08#8
  | .regfield _ _ _ _ => 0x09#8
  | .field _ _ _ _ => 0x0A#8
  | .payload _ _ _ _ _ => 0x0B#8
  | .diag _ _ => 0x0C#8
  | .spiXferSum _ => 0x10#8
  | .i2cXferSum _ => 0x10#8
  | .cmdSum _ => 0x11#8
  | .reglenSum _ => 0x12#8
  | .dlSum _ => 0x13#8
  | .apduSum _ => 0x14#8

/-- The code of a diagnostic (30_encoding.md R116). -/
def DiagCode.code : DiagCode → Byte
  | .errUnknownReg => 0x01#8
  | .errUnknownTag => 0x02#8
  | .errUnknownCc => 0x03#8
  | .errUnknownRc => 0x04#8
  | .errUnknownI2cReg => 0x05#8
  | .errUnknownApduCmd => 0x06#8
  | .errUnknownApduSta => 0x07#8
  | .warnCsMidByte => 0x10#8
  | .warnI2cPartialByte => 0x11#8
  | .warnExcessByte => 0x12#8
  | .warnShortTransfer => 0x13#8
  | .warnHeaderIncomplete => 0x14#8
  | .warnLengthShort => 0x15#8
  | .warnFrameOpenAtIdle => 0x16#8
  | .warnNoRegister => 0x17#8
  | .warnDlTruncated => 0x18#8
  | .warnDlExcess => 0x19#8
  | .warnApduTruncated => 0x1A#8
  | .warnApduExcess => 0x1B#8
  | .infoFieldInvalid => 0x20#8

/-- The three error classes (60_exceptions.md R370). -/
inductive ErrorClass where
  | lookupFailure
  | structural
  | unrepresentable
deriving DecidableEq, Repr

/-- The class of a diagnostic (30_encoding.md R116). -/
def DiagCode.errorClass : DiagCode → ErrorClass
  | .errUnknownReg | .errUnknownTag | .errUnknownCc | .errUnknownRc | .errUnknownI2cReg
  | .errUnknownApduCmd | .errUnknownApduSta => .lookupFailure
  | .warnCsMidByte | .warnI2cPartialByte | .warnExcessByte | .warnShortTransfer
  | .warnHeaderIncomplete | .warnLengthShort | .warnFrameOpenAtIdle | .warnNoRegister
  | .warnDlTruncated | .warnDlExcess | .warnApduTruncated | .warnApduExcess => .structural
  | .infoFieldInvalid => .unrepresentable

/-- The primary label of an event, where the source fixes one (30_encoding.md R117). -/
def Event.label : Event → Option Name
  | .hdr _ _ name => name
  | .field .tpm .length value none => some ("LENGTH:" ++ toString value)
  | .field _ _ _ name => name
  | .reglenSum value => some ("LENGTH:" ++ toString value.toNat)
  | .diag code _ => if code.errorClass = .lookupFailure then some "PROTOCOL ERROR" else none
  | _ => none

end Sys2Proof.Machine
end

