-- ==== Sys2Proof/Machine/Flags.lean ====
section
/-! DEFINITION. The conditions the rules compute from levels, registers and parameters. The block has
no condition codes (10_state.md R38). -/

namespace Sys2Proof.Machine

open Sys2Proof

/-- The asserted chip-select level (00_scope.md R13). -/
def assertedLevel : CsPolarity → Bit
  | .activeLow => false
  | .activeHigh => true

/-- `asserted(cs)`: true for every sample when `HAVE_CS` is false (00_scope.md R13). -/
def asserted (p : SpiParams) (cs : Bit) : Bool :=
  !p.haveCs || cs == assertedLevel p.csPolarity

/-- A sample as the condition word sees it (30_encoding.md R92). -/
def levelsOf (p : SpiParams) (x : SpiSample) : SpiLevels :=
  ⟨x.sck, x.mosi, x.miso, asserted p x.cs⟩

/-- `SampleEdge` (40_sampler.md R134). -/
def sampleEdge (e : SampleEdge) (prev cur : Bit) : Bool :=
  match e with
  | .rising => !prev && cur
  | .falling => prev && !cur

/-- `RegRouted` (42_link_header.md R204). -/
def regRouted (p : SpiParams) (reg : BitVec 16) : Bool :=
  match p.regMatch with
  | .full16 => p.fifoRegs.any fun r => r == reg
  | .offset12 => p.fifoRegs.any fun r => r.extractLsb' 0 12 == reg.extractLsb' 0 12

/-- `ApduMode`: CHAINING 0, MESSAGE 0 and the direction's PROTECTION bit 0, a missing SCTR counting
as zeros (44_datalink_apdu.md R297). -/
def apduModeOf (pctr : Byte) (sctr : Option Byte) (d : Dir) : Bool :=
  bitField pctr 2 0 == 0 &&
    match sctr with
    | none => true
    | some s => bitField s 5 2 == 0 && !s.getLsbD (match d with | .write => 0 | .read => 1)

/-- The open frame took a byte of this transfer (45_aggregator.md R344). -/
def Spi.touched (s : Spi) : Bool := s.xfer.any fun r => r.fseq == some s.fseq

/-- The parameters of an SPI step are legal: at least one data lane (70_reset_and_hazards.md R407). -/
def hasDataLane (p : SpiParams) : Bool := p.haveMosi || p.haveMiso

/-- One more sample makes `2^SAMPLE_W` or more (10_state.md R22, 60_exceptions.md R377). -/
def streamTooLong (sampleW : Option Nat) (n : Nat) : Bool :=
  match sampleW with
  | none => false
  | some w => decide (2 ^ w ≤ n + 1)

end Sys2Proof.Machine
end

