-- ==== Sys2Proof/Machine/Datalink.lean ====
section
/-! DEFINITION. The I2C datalink frame, its control bytes and the APDU inside it
(44_datalink_apdu.md). `idx` is the buffer index of the routed byte, `j` its register-data index,
`v` its value, `d` the phase's direction. -/

namespace Sys2Proof.Machine

open Sys2Proof

/-- The span of a buffer record. -/
def I2c.recSpan (s : I2c) (idx : Nat) : Run Span := do
  let r ← s.bufRead idx
  .ok (spanOf r.start r.stop)

/-- A FIELD event of bits `hi` to `lo` of a byte (30_encoding.md R112, 44_datalink_apdu.md R307). -/
def bitFieldEvent (layer : Layer) (f : FieldName) (v : Byte) (hi lo : Nat) (sp : Span) : OutEvent :=
  ⟨fieldSpan sp hi lo, .field layer f (bitField v hi lo) none⟩

/-- The events of FCTR (44_datalink_apdu.md R282). -/
def fctrEvents (v : Byte) (sp : Span) : List OutEvent :=
  [bitFieldEvent .dl .ftype v 7 7 sp, bitFieldEvent .dl .seqctr v 6 5 sp,
   bitFieldEvent .dl .rfu v 4 4 sp, bitFieldEvent .dl .frnr v 3 2 sp,
   bitFieldEvent .dl .acknr v 1 0 sp]

/-- The events of PCTR (44_datalink_apdu.md R288). -/
def pctrEvents (v : Byte) (sp : Span) : List OutEvent :=
  [bitFieldEvent .net .channel v 7 4 sp, bitFieldEvent .net .presence v 3 3 sp,
   bitFieldEvent .net .chaining v 2 0 sp]

/-- The events of SCTR (44_datalink_apdu.md R290). -/
def sctrEvents (v : Byte) (sp : Span) : List OutEvent :=
  [bitFieldEvent .pres .protocol v 7 6 sp, bitFieldEvent .pres .message v 5 2 sp,
   bitFieldEvent .pres .protection v 1 0 sp]

/-! ### The end of a frame and of an APDU -/

/-- DlFinish (44_datalink_apdu.md R296). -/
def I2c.dlFinish (last : Nat) (d : Dir) (complete : Bool) (s : I2c) : Run I2c := do
  let first ← need "d_first" s.dl.dFirst
  let info : DlInfo :=
    { phaseNo := s.phaseNo
      dir := d
      first := first
      last := last
      fctr := s.dl.fctr
      dlen := s.dl.dlen
      pctr := s.dl.pctr
      sctr := s.dl.sctr
      fcs := if complete then some s.dl.fcs else none
      dpay := s.dl.dpay
      apduMode := s.dl.apduMode
      complete := complete }
  .ok { s with dlDone := s.dlDone ++ [info] }

/-- ApduFinish (44_datalink_apdu.md R302). -/
def I2c.apduFinish (last : Nat) (d : Dir) (complete : Bool) (s : I2c) : Run I2c := do
  let first ← need "a_first" s.ap.aFirst
  let info : ApduInfo :=
    { phaseNo := s.phaseNo
      dir := d
      first := first
      last := last
      cmd := s.ap.cmd
      param := s.ap.param
      alen := s.ap.alen
      adata := s.ap.adata
      complete := complete }
  .ok { s with apduDone := s.apduDone ++ [info], ap := { s.ap with ast := .done } }

/-! ### APDU -/

/-- The table, field and diagnostic of APDU byte 0 by direction (44_datalink_apdu.md R298). -/
def apduHead (p : I2cParams) : Dir → List (Byte × Name) × FieldName × DiagCode
  | .write => (p.knownApduCmd, .cmd, .errUnknownApduCmd)
  | .read => (p.knownApduSta, .sta, .errUnknownApduSta)

/-- APDU_CMD (44_datalink_apdu.md R298). -/
def I2c.apduCmd (p : I2cParams) (idx : Nat) (v : Byte) (d : Dir) (s : I2c) : Run I2c := do
  let sp ← s.recSpan idx
  let s := { s with ap := { s.ap with aFirst := some idx, cmd := v, ast := .param } }
  .ok (match lookupName (apduHead p d).1 v with
    | some nm => s.emit sp (.field .apdu (apduHead p d).2.1 v.toNat (some nm))
    | none => s.diag (apduHead p d).2.2 sp v.toNat)

/-- APDU_PARAM (44_datalink_apdu.md R299). -/
def I2c.apduParam (idx : Nat) (v : Byte) (s : I2c) : Run I2c := do
  let sp ← s.recSpan idx
  .ok ({ s with ap := { s.ap with param := v, ast := .len0 } }.emit sp
    (.field .apdu .param v.toNat none))

/-- APDU_LEN0 (44_datalink_apdu.md R299). -/
def I2c.apduLen0 (idx : Nat) (v : Byte) (s : I2c) : Run I2c := do
  let r ← s.bufRead idx
  .ok { s with ap := { s.ap with aLenStart := r.start, alen := highByte v, ast := .len1 } }

/-- The data bytes an APDU length declares (44_datalink_apdu.md R300). -/
def apduDataSize (p : I2cParams) (alen : BitVec 16) : Nat :=
  if p.apduLenIncludesHeader then alen.toNat - apduHdrSize else alen.toNat

/-- APDU_LEN1 (44_datalink_apdu.md R300). -/
def I2c.apduLen1 (p : I2cParams) (idx : Nat) (v : Byte) (d : Dir) (s : I2c) : Run I2c := do
  let r ← s.bufRead idx
  let alen := joinLow s.ap.alen v
  let s := { s with ap := { s.ap with alen := alen, arem := apduDataSize p alen } }
  let s := s.emit (spanOf s.ap.aLenStart r.stop) (.field .apdu .len alen.toNat none)
  if s.ap.arem = 0 then s.apduFinish idx d true
  else .ok { s with ap := { s.ap with ast := .data } }

/-- APDU_DATA (44_datalink_apdu.md R301). -/
def I2c.apduData (idx : Nat) (v : Byte) (d : Dir) (s : I2c) : Run I2c := do
  let sp ← s.recSpan idx
  let arem ← natSub "arem" s.ap.arem 1
  let s := s.emit sp (.payload .apdu d s.ap.adata v false)
  let s := { s with ap := { s.ap with adata := s.ap.adata + 1, arem := arem } }
  if arem = 0 then s.apduFinish idx d true else .ok s

/-- APDU_EXCESS (44_datalink_apdu.md R302). -/
def I2c.apduExcess (idx : Nat) (s : I2c) : Run I2c := do
  let sp ← s.recSpan idx
  .ok (s.diag .warnApduExcess sp s.dl.dpay)

/-- ApduByte (44_datalink_apdu.md R298). -/
def I2c.apduByte (p : I2cParams) (idx : Nat) (v : Byte) (d : Dir) (s : I2c) : Run I2c :=
  match s.ap.ast with
  | .cmd => s.apduCmd p idx v d
  | .param => s.apduParam idx v
  | .len0 => s.apduLen0 idx v
  | .len1 => s.apduLen1 p idx v d
  | .data => s.apduData idx v d
  | .done => s.apduExcess idx

/-! ### Datalink frame -/

/-- DL_FCTR (44_datalink_apdu.md R282). -/
def I2c.dlFctr (idx : Nat) (v : Byte) (s : I2c) : Run I2c := do
  let sp ← s.recSpan idx
  .ok ({ s with dl := { s.dl with dFirst := some idx, fctr := v, dst := .len0 } }.emitAll
    (fctrEvents v sp))

/-- DL_LEN0 (44_datalink_apdu.md R284). -/
def I2c.dlLen0 (idx : Nat) (v : Byte) (s : I2c) : Run I2c := do
  let r ← s.bufRead idx
  .ok { s with dl := { s.dl with dLenStart := r.start, dlen := highByte v, dst := .len1 } }

/-- DL_LEN1 (44_datalink_apdu.md R286). -/
def I2c.dlLen1 (idx : Nat) (v : Byte) (s : I2c) : Run I2c := do
  let r ← s.bufRead idx
  let dlen := joinLow s.dl.dlen v
  let s := s.emit (spanOf s.dl.dLenStart r.stop) (.field .dl .len dlen.toNat none)
  .ok { s with dl := { s.dl with
    dlen := dlen
    drem := dlen.toNat
    dst := if dlen = 0#16 then .fcs0 else .pctr } }

/-- PayloadBegin (44_datalink_apdu.md R294). -/
def I2c.payloadBegin (d : Dir) (s : I2c) : Run I2c := do
  let pctr ← need "pctr" s.dl.pctr
  .ok { s with
    ap := Ap.reset
    dl := { s.dl with apduMode := apduModeOf pctr s.dl.sctr d, dst := .pay } }

/-- DL_PCTR (44_datalink_apdu.md R288). -/
def I2c.dlPctr (idx : Nat) (v : Byte) (d : Dir) (s : I2c) : Run I2c := do
  let sp ← s.recSpan idx
  let drem ← natSub "drem" s.dl.drem 1
  let s := { s with dl := { s.dl with pctr := some v, drem := drem } }.emitAll (pctrEvents v sp)
  if v.getLsbD 3 = true ∧ 0 < drem then .ok { s with dl := { s.dl with dst := .sctr } }
  else if 0 < drem then s.payloadBegin d
  else .ok { s with dl := { s.dl with dst := .fcs0 } }

/-- DL_SCTR (44_datalink_apdu.md R290). -/
def I2c.dlSctr (idx : Nat) (v : Byte) (d : Dir) (s : I2c) : Run I2c := do
  let sp ← s.recSpan idx
  let drem ← natSub "drem" s.dl.drem 1
  let s := { s with dl := { s.dl with sctr := some v, drem := drem } }.emitAll (sctrEvents v sp)
  if 0 < drem then s.payloadBegin d
  else .ok { s with dl := { s.dl with dst := .fcs0 } }

/-- An APDU still incomplete at the end of the payload is cut (44_datalink_apdu.md R295). -/
def I2c.cutApdu (idx : Nat) (d : Dir) (s : I2c) : Run I2c :=
  if s.dl.apduMode = true ∧ s.ap.ast ≠ .done then do
    let a ← need "a_first" s.ap.aFirst
    let ra ← s.bufRead a
    let r ← s.bufRead idx
    (s.diag .warnApduTruncated (spanOf ra.start r.stop) s.ap.arem).apduFinish idx d false
  else .ok s

/-- DL_PAY (44_datalink_apdu.md R295). -/
def I2c.dlPay (p : I2cParams) (idx : Nat) (v : Byte) (d : Dir) (s : I2c) : Run I2c := do
  let sp ← s.recSpan idx
  let s ← if s.dl.apduMode then s.apduByte p idx v d
    else .ok (s.emit sp (.payload .dl d s.dl.dpay v true))
  let drem ← natSub "drem" s.dl.drem 1
  let s := { s with dl := { s.dl with dpay := s.dl.dpay + 1, drem := drem } }
  if drem = 0 then do
    let s ← s.cutApdu idx d
    .ok { s with dl := { s.dl with dst := .fcs0 } }
  else .ok s

/-- DL_FCS0 (44_datalink_apdu.md R292). -/
def I2c.dlFcs0 (idx : Nat) (v : Byte) (s : I2c) : Run I2c := do
  let r ← s.bufRead idx
  .ok { s with dl := { s.dl with dFcsStart := r.start, fcs := highByte v, dst := .fcs1 } }

/-- DL_FCS1 (44_datalink_apdu.md R292): the checksum is reported, never compared (R304). -/
def I2c.dlFcs1 (idx : Nat) (v : Byte) (d : Dir) (s : I2c) : Run I2c := do
  let r ← s.bufRead idx
  let fcs := joinLow s.dl.fcs v
  let s := s.emit (spanOf s.dl.dFcsStart r.stop) (.field .dl .fcs fcs.toNat none)
  { s with dl := { s.dl with fcs := fcs, dst := .done } }.dlFinish idx d true

/-- DL_EXCESS (44_datalink_apdu.md R293). -/
def I2c.dlExcess (idx j : Nat) (s : I2c) : Run I2c := do
  let sp ← s.recSpan idx
  .ok (s.diag .warnDlExcess sp j)

/-- DlByte (44_datalink_apdu.md R280). -/
def I2c.dlByte (p : I2cParams) (idx j : Nat) (v : Byte) (d : Dir) (s : I2c) : Run I2c :=
  match s.dl.dst with
  | .fctr => s.dlFctr idx v
  | .len0 => s.dlLen0 idx v
  | .len1 => s.dlLen1 idx v
  | .pctr => s.dlPctr idx v d
  | .sctr => s.dlSctr idx v d
  | .pay => s.dlPay p idx v d
  | .fcs0 => s.dlFcs0 idx v
  | .fcs1 => s.dlFcs1 idx v d
  | .done => s.dlExcess idx j

/-! ### The end of a phase -/

/-- The APDU in progress at the end of a phase, if there is one: its first record's index
(44_datalink_apdu.md R303). -/
def I2c.openApdu (s : I2c) : Option Nat :=
  if s.dl.dst = .pay ∧ s.dl.apduMode = true ∧ s.ap.ast ≠ .done then s.ap.aFirst else none

/-- The APDU part of EndPhase (44_datalink_apdu.md R303). -/
def I2c.endApdu (last : Nat) (d : Dir) (s : I2c) : Run I2c :=
  match s.openApdu with
  | some a => do
    let ra ← s.bufRead a
    (s.diag .warnApduTruncated (spanOf ra.start s.n) s.ap.arem).apduFinish last d false
  | none => .ok s

/-- EndPhase (44_datalink_apdu.md R303). -/
def I2c.endPhase (s : I2c) : Run I2c :=
  match s.dl.dFirst with
  | none => .ok s
  | some f =>
    if s.dl.dst = .done then .ok s
    else do
      let last ← s.lastIdx
      let d ← need "rw" s.rw
      let s ← s.endApdu last d
      let rf ← s.bufRead f
      (s.diag .warnDlTruncated (spanOf rf.start s.n) s.dl.drem).dlFinish last d false

/-! ### The rows (the operands a row's byte is not: notes/assumptions/8.md) -/

/-- DL_FCTR (44_datalink_apdu.md R282). -/
def execDlFctr (t : BitVec 1) (s : BitVec 2) (x : BitVec 1) (f k : BitVec 2) (m : State) : Result :=
  onI2c m fun _ u => do
    let idx ← u.lastIdx
    u.dlFctr idx (fctrByte t s x f k)

/-- DL_LEN0 (44_datalink_apdu.md R284). -/
def execDlLen0 (l : Byte) (s : State) : Result :=
  onI2c s fun _ t => do
    let idx ← t.lastIdx
    t.dlLen0 idx l

/-- DL_LEN1 (44_datalink_apdu.md R286). -/
def execDlLen1 (l : Byte) (s : State) : Result :=
  onI2c s fun _ t => do
    let idx ← t.lastIdx
    t.dlLen1 idx l

/-- DL_PCTR (44_datalink_apdu.md R288). -/
def execDlPctr (c : BitVec 4) (p : BitVec 1) (h : BitVec 3) (s : State) : Result :=
  onI2c s fun _ t => do
    let idx ← t.lastIdx
    let d ← need "rw" t.rw
    t.dlPctr idx (pctrByte c p h) d

/-- DL_SCTR (44_datalink_apdu.md R290). -/
def execDlSctr (p : BitVec 2) (m : BitVec 4) (d : BitVec 2) (s : State) : Result :=
  onI2c s fun _ t => do
    let idx ← t.lastIdx
    let dir ← need "rw" t.rw
    t.dlSctr idx (sctrByte p m d) dir

/-- PayloadBegin (44_datalink_apdu.md R294). -/
def execPayloadBegin (s : State) : Result :=
  onI2c s fun _ t => do
    let d ← need "rw" t.rw
    t.payloadBegin d

/-- DL_PAY (44_datalink_apdu.md R295). -/
def execDlPay (v : Byte) (s : State) : Result :=
  onI2c s fun p t => do
    let idx ← t.lastIdx
    let d ← need "rw" t.rw
    t.dlPay p idx v d

/-- DL_FCS0 (44_datalink_apdu.md R292). -/
def execDlFcs0 (f : Byte) (s : State) : Result :=
  onI2c s fun _ t => do
    let idx ← t.lastIdx
    t.dlFcs0 idx f

/-- DL_FCS1 (44_datalink_apdu.md R292). -/
def execDlFcs1 (f : Byte) (s : State) : Result :=
  onI2c s fun _ t => do
    let idx ← t.lastIdx
    let d ← need "rw" t.rw
    t.dlFcs1 idx f d

/-- DL_EXCESS (44_datalink_apdu.md R293). -/
def execDlExcess (_v : Byte) (s : State) : Result :=
  onI2c s fun _ t => do
    let idx ← t.lastIdx
    let j ← natSub "j" t.j 1
    t.dlExcess idx j

/-- DlFinish (44_datalink_apdu.md R296). -/
def execDlFinish (complete : Bool) (s : State) : Result :=
  onI2c s fun _ t => do
    let last ← t.lastIdx
    let d ← need "rw" t.rw
    t.dlFinish last d complete

/-- APDU_CMD (44_datalink_apdu.md R298). -/
def execApduCmd (c : Byte) (s : State) : Result :=
  onI2c s fun p t => do
    let idx ← t.lastIdx
    let d ← need "rw" t.rw
    t.apduCmd p idx c d

/-- APDU_PARAM (44_datalink_apdu.md R299). -/
def execApduParam (b : Byte) (s : State) : Result :=
  onI2c s fun _ t => do
    let idx ← t.lastIdx
    t.apduParam idx b

/-- APDU_LEN0 (44_datalink_apdu.md R299). -/
def execApduLen0 (l : Byte) (s : State) : Result :=
  onI2c s fun _ t => do
    let idx ← t.lastIdx
    t.apduLen0 idx l

/-- APDU_LEN1 (44_datalink_apdu.md R300). -/
def execApduLen1 (l : Byte) (s : State) : Result :=
  onI2c s fun p t => do
    let idx ← t.lastIdx
    let d ← need "rw" t.rw
    t.apduLen1 p idx l d

/-- APDU_DATA (44_datalink_apdu.md R301). -/
def execApduData (v : Byte) (s : State) : Result :=
  onI2c s fun _ t => do
    let idx ← t.lastIdx
    let d ← need "rw" t.rw
    t.apduData idx v d

/-- APDU_EXCESS (44_datalink_apdu.md R302). -/
def execApduExcess (_v : Byte) (s : State) : Result :=
  onI2c s fun _ t => do
    let idx ← t.lastIdx
    t.apduExcess idx

/-- ApduFinish (44_datalink_apdu.md R302). -/
def execApduFinish (complete : Bool) (s : State) : Result :=
  onI2c s fun _ t => do
    let last ← t.lastIdx
    let d ← need "rw" t.rw
    t.apduFinish last d complete

/-- EndPhase (44_datalink_apdu.md R303). -/
def execEndPhase (s : State) : Result := onI2c s fun _ t => t.endPhase

end Sys2Proof.Machine
end

