-- ==== Sys2Proof/Machine/Aggregator.lean ====
section
/-! DEFINITION. The transfer and frame aggregator (45_aggregator.md): AggregateSpi, FrameCarry,
AggregateI2c, RegLen. In every pass `T0 = t_start` and `T1 = n`, the sample being processed. -/

namespace Sys2Proof.Machine

open Sys2Proof

/-! ### SPI pass -/

/-- The data value of a record: MOSI of a WRITE, else MISO (45_aggregator.md R341;
notes/assumptions/13.md for a transfer with no direction). -/
def dataLane (d : Option Dir) (r : SpiByteRec) : Option Byte :=
  if d = some .write then r.mosi else r.miso

/-- The fields of `XFER_SUM` (45_aggregator.md R341). -/
def Spi.xferSum (p : SpiParams) (s : Spi) : SpiXferSum where
  dir := s.hdrDir
  count := s.hdrCount
  reg := s.hdrReg
  regName := s.hdrReg.bind (lookupName p.knownReg)
  ack := s.hdrAck
  mosi := s.xfer.filterMap (·.mosi)
  miso := s.xfer.filterMap (·.miso)
  data := (s.xfer.filter fun r => r.role == .data).filterMap (dataLane s.hdrDir)
  headerComplete := p.haveMosi && decide (4 ≤ s.xfer.length)

/-- The code table of a direction (43_command_framer.md R245). -/
def codeTable (p : SpiParams) : Dir → List (BitVec 32 × Name)
  | .write => p.knownCc
  | .read => p.knownRc

/-- The fields of `CMD_SUM` (45_aggregator.md R345). -/
def cmdSumOf (p : SpiParams) (f : FrameInfo) : CmdSum where
  dir := f.dir
  tag := f.tag
  tagName := lookupName p.knownTag f.tag
  len := f.len
  code := f.code
  codeName := lookupName (codeTable p f.dir) f.code
  pcount := f.pcount
  short := f.short

/-- `Start` of a closed frame (45_aggregator.md R340). -/
def frameStartAt (t0 : Nat) (w : Rat) : FrameStart → Rat
  | .idx i => t0 + i * w
  | .at r => r

/-- The `CMD_SUM` of a closed frame (45_aggregator.md R340, R345). -/
def cmdSumEvent (p : SpiParams) (t0 : Nat) (w : Rat) (f : FrameInfo) : OutEvent :=
  ⟨⟨frameStartAt t0 w f.start, t0 + (f.last + 1) * w⟩, .cmdSum (cmdSumOf p f)⟩

/-- FrameCarry (45_aggregator.md R344): a frame still open gets its start fixed, and is flagged when
it took a byte of this transfer. `w` is absent in an empty transfer (notes/assumptions/21.md). -/
def Spi.frameCarry (s : Spi) : Run Spi :=
  if s.fst = .idle then .ok s
  else do
    let s ← match s.fStart with
      | some (.idx i) => do
        let w ← need "w" (evenWidth s.tStart s.n s.xfer.length)
        .ok { s with fStart := some (.at (s.tStart + i * w)) }
      | _ => .ok s
    if s.touched then
      match s.fStart with
      | some (.at r) => .ok (s.diag .warnFrameOpenAtIdle ⟨r, s.n⟩ s.remaining.toNat)
      | _ => .error (.fault (.noValue "f_start"))
    else .ok s

/-- The header check of the pass: WARN_HEADER_INCOMPLETE or WARN_SHORT_TRANSFER
(45_aggregator.md R340, R342, R343). -/
def Spi.headerCheck (p : SpiParams) (s : Spi) : Run Spi :=
  let count := s.xfer.length
  if !p.haveMosi then .ok s
  else if count < 4 then .ok (s.diag .warnHeaderIncomplete (spanOf s.tStart s.n) count)
  else do
    let c ← need "hdr_count" s.hdrCount
    .ok (if count - 4 < c then
        s.diag .warnShortTransfer (spanOf s.tStart s.n) (c - (count - 4))
      else s)

/-- The summaries of a transfer that has bytes (45_aggregator.md R340). -/
def Spi.summaries (p : SpiParams) (s : Spi) : Run Spi :=
  match evenWidth s.tStart s.n s.xfer.length with
  | none => .ok s
  | some w => do
    let s ← (s.emit (spanOf s.tStart s.n) (.spiXferSum (s.xferSum p))).headerCheck p
    .ok (s.emitAll (s.closed.map (cmdSumEvent p s.tStart w)))

/-- AggregateSpi (45_aggregator.md R340, R356). -/
def Spi.aggregate (p : SpiParams) (s : Spi) : Run Spi := do
  let s ← s.summaries p
  let s ← s.frameCarry
  .ok { s with closed := [] }

/-! ### I2C pass -/

/-- The address record of phase `q` (45_aggregator.md R351). -/
def I2c.addrRec (s : I2c) (q : Nat) : Option I2cByteRec :=
  s.xfer.find? fun r => r.phaseNo == q && r.kind == .addr

/-- The phase entry of an address record (45_aggregator.md R351; notes/assumptions/27.md). -/
def phaseSumOf (p : I2cParams) (r : I2cByteRec) : PhaseSum where
  addr7 := addrBits r.value
  dir := addrDir r.value
  matched := addrBits r.value == p.targetAddr
  ack := r.ack

/-- The phases of the open transfer, `1..phase_no` (45_aggregator.md R350). -/
def I2c.phases (s : I2c) : List Nat := List.range' 1 s.phaseNo

/-- The fields of `XFER_SUM` (45_aggregator.md R351). -/
def I2c.xferSum (p : I2cParams) (s : I2c) : I2cXferSum where
  phases := s.phases.filterMap fun q => (s.addrRec q).map (phaseSumOf p)
  reg := s.reg
  bytes := s.xfer.map (·.value)

/-- RegLen's event for phase `q`, if it has one (45_aggregator.md R352). A phase with no record has
none (notes/assumptions/12.md). -/
def I2c.regLenEvent (p : I2cParams) (s : I2c) (q : Nat) : Option OutEvent :=
  match evenWidth s.tStart s.n s.xfer.length, s.xfer.zipIdx.filter (fun e => e.1.phaseNo == q) with
  | some w, a :: rest =>
    if a.1.kind = .addr ∧ a.1.dir = some .write then
      match (a :: rest).filter (fun e => e.1.kind == .reg),
        (a :: rest).filter (fun e => e.1.kind == .data) with
      | [r], d0 :: d1 :: _ =>
        if r.1.value = p.stateReg then
          some ⟨⟨s.tStart + d0.2 * w, s.tStart + (d1.2 + 1) * w⟩,
            .reglenSum (joinLow (highByte d0.1.value) d1.1.value)⟩
        else none
      | _, _ => none
    else none
  | _, _ => none

/-- RegLen (45_aggregator.md R352). -/
def I2c.regLen (p : I2cParams) (q : Nat) (s : I2c) : I2c :=
  s.emitAll (s.regLenEvent p q).toList

/-- The span of buffer records `first` to `last` (45_aggregator.md R331, R353, R354). -/
def evenSpan (t0 : Nat) (w : Rat) (first last : Nat) : Span :=
  ⟨t0 + first * w, t0 + (last + 1) * w⟩

/-- The summaries of a transfer that has bytes (45_aggregator.md R350). -/
def I2c.summaries (p : I2cParams) (s : I2c) : I2c :=
  match evenWidth s.tStart s.n s.xfer.length with
  | none => s
  | some w =>
    let s1 := s.emit (spanOf s.tStart s.n) (.i2cXferSum (s.xferSum p))
    let s2 := s1.emitAll (s.phases.filterMap (s.regLenEvent p))
    let s3 := s2.emitAll
      (s.dlDone.map fun d => ⟨evenSpan s.tStart w d.first d.last, .dlSum d⟩)
    s3.emitAll (s.apduDone.map fun a => ⟨evenSpan s.tStart w a.first a.last, .apduSum a⟩)

/-- AggregateI2c (45_aggregator.md R350, R356). -/
def I2c.aggregate (p : I2cParams) (s : I2c) : I2c :=
  { s.summaries p with dlDone := [], apduDone := [] }

/-! ### The rows -/

/-- AggregateSpi (45_aggregator.md R340). -/
def execAggregateSpi (s : State) : Result := onSpi s fun p t => t.aggregate p

/-- FrameCarry (45_aggregator.md R344). -/
def execFrameCarry (s : State) : Result := onSpi s fun _ t => t.frameCarry

/-- AggregateI2c (45_aggregator.md R350). -/
def execAggregateI2c (s : State) : Result := onI2c s fun p t => .ok (t.aggregate p)

/-- RegLen (45_aggregator.md R352). -/
def execRegLen (q : Nat) (s : State) : Result := onI2c s fun p t => .ok (t.regLen p q)

end Sys2Proof.Machine
end

