-- ==== Sys2Proof/Machine/Framer.lean ====
section
/-! DEFINITION. The TPM command and response framer (43_command_framer.md). `idx` is the buffer index
of the routed byte (the spec's `p`), `x` its data value, `d` the transfer's direction. -/

namespace Sys2Proof.Machine

open Sys2Proof

/-- TPM_START (43_command_framer.md R241). -/
def Spi.tpmStart (idx : Nat) (s : Spi) : Spi :=
  { s with
    fseq := s.fseq + 1
    fStart := some (.idx idx)
    fst := .hdr
    fh := 0
    facc := 0#32
    tag := 0#16
    len := 0#32
    code := 0#32
    fdir := none
    remaining := 0#32
    pcount := 0
    fshort := false }

/-- CloseFrame (43_command_framer.md R248). -/
def Spi.closeFrame (idx : Nat) (s : Spi) : Run Spi := do
  let d ← need "fdir" s.fdir
  let a ← need "f_start" s.fStart
  let info : FrameInfo := ⟨s.fseq, d, s.tag, s.len, s.code, s.pcount, s.fshort, a, idx⟩
  .ok { s with closed := s.closed ++ [info], fst := .idle, fh := 0, fStart := none }

/-- TPM_TAG_DONE (43_command_framer.md R243). -/
def Spi.tpmTagDone (p : SpiParams) (fspan : Span) (s : Spi) : Spi :=
  let tag := s.facc.setWidth 16
  let s := { s with tag := tag }
  match lookupName p.knownTag tag with
  | some nm => s.emit fspan (.field .tpm .tag tag.toNat (some nm))
  | none => s.diag .errUnknownTag fspan tag.toNat

/-- TPM_LEN_DONE (43_command_framer.md R244). -/
def Spi.tpmLenDone (fspan : Span) (s : Spi) : Spi :=
  let s := { s with len := s.facc }
  let s := s.emit fspan (.field .tpm .length s.len.toNat none)
  if s.len.toNat < tpmHdrSize then
    { s with fshort := true }.diag .warnLengthShort fspan s.len.toNat
  else s

/-- The diagnostic of an unknown code (43_command_framer.md R245). -/
def codeError : Dir → DiagCode
  | .write => .errUnknownCc
  | .read => .errUnknownRc

/-- The payload size a length declares: nothing when it is below the header size
(43_command_framer.md R245). -/
def payloadSize (fshort : Bool) (len : BitVec 32) : Run (BitVec 32) :=
  if fshort then .ok 0#32 else do
    let k ← natSub "remaining" len.toNat tpmHdrSize
    .ok (BitVec.ofNat 32 k)

/-- The event of a complete code: its FIELD, or the diagnostic of its direction
(43_command_framer.md R245). -/
def codeEvent (p : SpiParams) (d : Dir) (code : BitVec 32) : Event :=
  match lookupName (codeTable p d) code with
  | some nm => .field .tpm .code code.toNat (some nm)
  | none => .diag (codeError d) code.toNat

/-- TPM_CODE_DONE (43_command_framer.md R245). -/
def Spi.tpmCodeDone (p : SpiParams) (idx : Nat) (d : Dir) (fspan : Span) (s : Spi) : Run Spi := do
  let s := { s with code := s.facc, fdir := some d }
  let s := s.emit fspan (codeEvent p d s.code)
  let k ← payloadSize s.fshort s.len
  let s := { s with remaining := k }
  if k = 0#32 then s.closeFrame idx else .ok { s with fst := .payload }

/-- The start of a header field: its first byte clears the accumulator (43_command_framer.md
R242). -/
def Spi.beginField (start : Nat) (s : Spi) : Spi :=
  if s.fh = 0 ∨ s.fh = 2 ∨ s.fh = 6 then { s with fFieldStart := start, facc := 0#32 } else s

/-- The field a header byte completes, if it completes one (43_command_framer.md R242). -/
def Spi.fieldDone (p : SpiParams) (idx : Nat) (d : Dir) (fspan : Span) (s : Spi) : Run Spi :=
  if s.fh = 2 then .ok (s.tpmTagDone p fspan)
  else if s.fh = 6 then .ok (s.tpmLenDone fspan)
  else if s.fh = 10 then s.tpmCodeDone p idx d fspan
  else .ok s

/-- TPM_HDR (43_command_framer.md R242). -/
def Spi.tpmHdr (p : SpiParams) (idx : Nat) (x : Byte) (d : Dir) (s : Spi) : Run Spi := do
  let s ← s.bufUpdate idx fun r => { r with fseq := some s.fseq }
  let r ← s.bufRead idx
  let s := s.beginField r.start
  let s := { s with facc := accumulate32 s.facc x, fh := s.fh + 1 }
  s.fieldDone p idx d (spanOf s.fFieldStart r.stop)

/-- TPM_PAYLOAD (43_command_framer.md R246). -/
def Spi.tpmPayload (idx : Nat) (x : Byte) (d : Dir) (s : Spi) : Run Spi := do
  let s ← s.bufUpdate idx fun r => { r with fseq := some s.fseq }
  let r ← s.bufRead idx
  let s := s.emit (spanOf r.start r.stop) (.payload .tpm d s.pcount x false)
  let s := { s with
    pcount := s.pcount + 1
    remaining := if s.remaining = 0#32 then 0#32 else s.remaining - 1#32 }
  if s.remaining = 0#32 then s.closeFrame idx else .ok s

/-- TPM_OTHER_DIR: no state change, no event (43_command_framer.md R247). -/
def Spi.tpmOtherDir (s : Spi) : Spi := s

/-- FramerByte (43_command_framer.md R240, R241). -/
def Spi.framerByte (p : SpiParams) (idx : Nat) (x : Byte) (d : Dir) (s : Spi) : Run Spi :=
  match s.fst with
  | .idle => (s.tpmStart idx).tpmHdr p idx x d
  | .hdr => s.tpmHdr p idx x d
  | .payload => if s.fdir = some d then s.tpmPayload idx x d else .ok s.tpmOtherDir

/-- The span of the field in progress, up to the end of the byte in hand (43_command_framer.md
R242). -/
def Spi.fieldSpanSoFar (s : Spi) (idx : Nat) : Run Span := do
  let r ← s.bufRead idx
  .ok (spanOf s.fFieldStart r.stop)

/-! ### The rows (the operands a row's byte is not: notes/assumptions/8.md) -/

/-- TPM_START (43_command_framer.md R241). -/
def execTpmStart (_v : Byte) (s : State) : Result :=
  onSpi s fun _ t => do
    let idx ← t.lastIdx
    .ok (t.tpmStart idx)

/-- TPM_HDR (43_command_framer.md R242). -/
def execTpmHdr (v : Byte) (s : State) : Result :=
  onSpi s fun p t => do
    let idx ← t.lastIdx
    let d ← need "hdr_dir" t.hdrDir
    t.tpmHdr p idx v d

/-- TPM_TAG_DONE (43_command_framer.md R243). -/
def execTpmTagDone (_v : Byte) (s : State) : Result :=
  onSpi s fun p t => do
    let idx ← t.lastIdx
    let fspan ← t.fieldSpanSoFar idx
    .ok (t.tpmTagDone p fspan)

/-- TPM_LEN_DONE (43_command_framer.md R244). -/
def execTpmLenDone (_v : Byte) (s : State) : Result :=
  onSpi s fun _ t => do
    let idx ← t.lastIdx
    let fspan ← t.fieldSpanSoFar idx
    .ok (t.tpmLenDone fspan)

/-- TPM_CODE_DONE (43_command_framer.md R245). -/
def execTpmCodeDone (_v : Byte) (s : State) : Result :=
  onSpi s fun p t => do
    let idx ← t.lastIdx
    let d ← need "hdr_dir" t.hdrDir
    let fspan ← t.fieldSpanSoFar idx
    t.tpmCodeDone p idx d fspan

/-- TPM_PAYLOAD (43_command_framer.md R246). -/
def execTpmPayload (v : Byte) (s : State) : Result :=
  onSpi s fun _ t => do
    let idx ← t.lastIdx
    let d ← need "hdr_dir" t.hdrDir
    t.tpmPayload idx v d

/-- TPM_OTHER_DIR (43_command_framer.md R247). -/
def execTpmOtherDir (_v : Byte) (s : State) : Result := onSpi s fun _ t => .ok t.tpmOtherDir

/-- CloseFrame (43_command_framer.md R248). -/
def execCloseFrame (s : State) : Result :=
  onSpi s fun _ t => do
    let idx ← t.lastIdx
    t.closeFrame idx

end Sys2Proof.Machine
end

