-- ==== Sys2Proof/Machine/Header.lean ====
section
/-! DEFINITION. The link-header decoder (42_link_header.md): the SPI register header and data bytes,
the I2C address, register and data bytes, and the fields of a register byte. -/

namespace Sys2Proof.Machine

open Sys2Proof

/-! ### SPI -/

/-- SPI_HDR0 on byte `b` with span `[start, stop]` (42_link_header.md R201). -/
def Spi.hdr0 (b : Byte) (start stop : Nat) (s : Spi) : Spi :=
  let sp := spanOf start stop
  let s := { s with
    hdrDir := some (hdr0Dir b)
    hdrCount := some (declaredCount (hdr0Count b))
    hdrB0Span := (start, stop) }
  (s.emit (subSpan sp 0 1) (.hdr .dir (bitField b 7 7) none)).emit (subSpan sp 1 7)
    (.hdr .count (declaredCount (hdr0Count b)) none)

/-- SPI_HDR1 (42_link_header.md R202). -/
def Spi.hdr1 (b : Byte) (start stop : Nat) (s : Spi) : Spi :=
  { s with hdrAddrHi := some b }.emit (spanOf start stop) (.hdr .addrHi b.toNat none)

/-- SPI_HDR2 (42_link_header.md R203). -/
def Spi.hdr2 (b : Byte) (start : Nat) (s : Spi) : Spi :=
  { s with hdrRegHi := some b, hdrB2Start := start }

/-- AckFlag on the MISO byte 3 (42_link_header.md R206). -/
def Spi.ackFlag (p : SpiParams) (b : Byte) (start stop : Nat) (s : Spi) : Spi :=
  if p.haveMiso then
    let k := b.getLsbD p.ackBit
    { s with hdrAck := some (k == p.ackLevel) }.emit
      (subSpan (spanOf start stop) (7 - p.ackBit) 1) (.hdr .ack k.toNat none)
  else s

/-- The register address at byte 3: looked up, reported or flagged (42_link_header.md R203). -/
def Spi.takeReg (p : SpiParams) (reg : BitVec 16) (sp : Span) (s : Spi) : Spi :=
  let s := { s with hdrReg := some reg }
  match lookupName p.knownReg reg with
  | some nm => { s with hdrRegKnown := true }.emit sp (.hdr .reg reg.toNat (some nm))
  | none => { s with hdrRegKnown := false }.diag .errUnknownReg sp reg.toNat

/-- SPI_HDR3 on the MOSI byte `b` and the MISO byte of the same record (42_link_header.md R203). -/
def Spi.hdr3 (p : SpiParams) (b : Byte) (miso : Option Byte) (start stop : Nat) (s : Spi) :
    Run Spi := do
  let hi ← need "hdr_reg_hi" s.hdrRegHi
  let reg := joinLow (highByte hi) b
  let s := s.takeReg p reg (spanOf s.hdrB2Start stop)
  let b2 ← s.bufRead 2
  let s := s.emit (subSpan (spanOf b2.start b2.stop) 0 4)
    (.hdr .locality (reg.extractLsb' 12 4).toNat none)
  let s := match s.hdrDir, miso with
    | some .read, some k => s.ackFlag p k start stop
    | _, _ => s
  .ok { s with hdrRouted := regRouted p reg }

/-- FieldDecode (42_link_header.md R207). -/
def Spi.fieldDecode (p : SpiParams) (reg : Nat) (d : Dir) (i : Nat) (x : Byte) (sp : Span)
    (s : Spi) : Spi :=
  s.emitAll (fieldEvents p.regFields reg d i x sp)

/-- SPI_EXCESS: a byte beyond the declared count (42_link_header.md R205). -/
def Spi.excessByte (idx : Nat) (s : Spi) : Run Spi := do
  let i ← natSub "pos" idx 4
  let s ← s.bufUpdate idx fun r => { r with role := .excess }
  let r ← s.bufRead idx
  .ok (s.diag .warnExcessByte (spanOf r.start r.stop) i)

/-- SPI_DATA: a byte within the declared count (42_link_header.md R205). -/
def Spi.dataByte (p : SpiParams) (idx : Nat) (v : Option Byte) (s : Spi) : Run Spi := do
  let i ← natSub "pos" idx 4
  let d ← need "hdr_dir" s.hdrDir
  let s ← s.bufUpdate idx fun r => { r with role := .data }
  let r ← s.bufRead idx
  match v, s.hdrReg with
  | some x, some reg =>
    let sp := spanOf r.start r.stop
    let s := s.emit sp (.regdata reg.toNat d i x)
    if s.hdrRouted then s.framerByte p idx x d
    else .ok (s.fieldDecode p reg.toNat d i x sp)
  | _, _ => .ok s

/-- The data lane of a direction (42_link_header.md R205). -/
def laneOf (d : Dir) (r : SpiByteRec) : Option Byte :=
  match d with
  | .write => r.mosi
  | .read => r.miso

/-- A byte at position `pos >= 4`: data up to the declared count, excess beyond it
(42_link_header.md R205; notes/assumptions/24.md). -/
def Spi.laterByte (p : SpiParams) (r : SpiByteRec) (pos : Nat) (s : Spi) : Run Spi := do
  let i ← natSub "pos" pos 4
  let d ← need "hdr_dir" s.hdrDir
  let c ← need "hdr_count" s.hdrCount
  if c ≤ i then s.excessByte pos else s.dataByte p pos (laneOf d r)

/-- SpiNoHeader (42_link_header.md R208). -/
def Spi.noHeader (pos : Nat) (s : Spi) : Run Spi :=
  s.bufUpdate pos fun r => { r with role := if pos < 4 then .header else .data }

/-- SpiHeaderByte (42_link_header.md R200). -/
def Spi.headerByte (p : SpiParams) (r : SpiByteRec) (s : Spi) : Run Spi := do
  let pos := s.pos
  let s := { s with pos := pos + 1 }
  if !p.haveMosi then s.noHeader pos
  else do
    let b ← need "mosi" r.mosi
    match pos with
    | 0 => .ok (s.hdr0 b r.start r.stop)
    | 1 => .ok (s.hdr1 b r.start r.stop)
    | 2 => .ok (s.hdr2 b r.start)
    | 3 => s.hdr3 p b r.miso r.start r.stop
    | _ => s.laterByte p r pos

/-! ### I2C -/

/-- I2C_ADDR (42_link_header.md R210). -/
def I2c.addrByteIn (p : I2cParams) (idx : Nat) (b : Byte) (s : I2c) : Run I2c := do
  let a := addrBits b
  let d := addrDir b
  let m := a == p.targetAddr
  let s := { s with addr7 := some a, rw := some d, matched := m }
  let s ← s.bufUpdate idx fun r => { r with kind := .addr, dir := some d }
  let r ← s.bufRead idx
  let s := s.emit (spanOf r.start r.stop) (.addr a d m)
  .ok { s with phase := .data, expectReg := m && d == .write }

/-- I2C_RAW (42_link_header.md R211). -/
def I2c.rawByte (idx : Nat) (s : I2c) : Run I2c :=
  s.bufUpdate idx fun r => { r with kind := .raw, dir := s.rw }

/-- I2C_REGNUM (42_link_header.md R212). -/
def I2c.regNum (p : I2cParams) (idx : Nat) (b : Byte) (s : I2c) : Run I2c := do
  let s := { s with reg := some b, expectReg := false }
  let s ← s.bufUpdate idx fun r => { r with kind := .reg, dir := some .write }
  let r ← s.bufRead idx
  .ok (match lookupName p.knownReg b with
    | some nm =>
      { s with regKnown := true }.emit (spanOf r.start r.stop) (.hdr .i2cReg b.toNat (some nm))
    | none =>
      { s with regKnown := false }.diag .errUnknownI2cReg (spanOf r.start r.stop) b.toNat)

/-- FieldDecode (42_link_header.md R207). -/
def I2c.fieldDecode (p : I2cParams) (reg : Nat) (d : Dir) (i : Nat) (x : Byte) (sp : Span)
    (s : I2c) : I2c :=
  s.emitAll (fieldEvents p.regFields reg d i x sp)

/-- I2C_REGDATA (42_link_header.md R213, R214). -/
def I2c.regData (p : I2cParams) (idx : Nat) (v : Byte) (s : I2c) : Run I2c := do
  let d ← need "rw" s.rw
  let j := s.j
  let s := { s with j := j + 1 }
  let s ← s.bufUpdate idx fun r => { r with kind := .data, dir := some d }
  let r ← s.bufRead idx
  let sp := spanOf r.start r.stop
  match s.reg with
  | none => .ok (if j = 0 then s.diag .warnNoRegister sp 0 else s)
  | some reg =>
    let s := s.emit sp (.regdata reg.toNat d j v)
    if reg = p.dataReg then s.dlByte p idx j v d
    else .ok (s.fieldDecode p reg.toNat d j v sp)

/-- I2cHeaderByte (42_link_header.md R210). -/
def I2c.headerByte (p : I2cParams) (r : I2cByteRec) (s : I2c) : Run I2c := do
  let idx ← s.lastIdx
  if s.phase = .addr then s.addrByteIn p idx r.value
  else if s.matched = false then s.rawByte idx
  else if s.expectReg then s.regNum p idx r.value
  else s.regData p idx r.value

/-! ### The rows (the operands a row's byte is not: notes/assumptions/8.md) -/

/-- SPI_HDR0 (42_link_header.md R201). -/
def execSpiHdr0 (d : Dir) (c : BitVec 7) (s : State) : Result :=
  onSpi s fun _ t => do
    let r ← t.bufRead (← t.lastIdx)
    .ok (t.hdr0 (hdr0Byte d c) r.start r.stop)

/-- SPI_HDR1 (42_link_header.md R202). -/
def execSpiHdr1 (h : Byte) (s : State) : Result :=
  onSpi s fun _ t => do
    let r ← t.bufRead (← t.lastIdx)
    .ok (t.hdr1 h r.start r.stop)

/-- SPI_HDR2 (42_link_header.md R203). -/
def execSpiHdr2 (a : Byte) (s : State) : Result :=
  onSpi s fun _ t => do
    let r ← t.bufRead (← t.lastIdx)
    .ok (t.hdr2 a r.start)

/-- SPI_HDR3 (42_link_header.md R203). -/
def execSpiHdr3 (a : Byte) (s : State) : Result :=
  onSpi s fun p t => do
    let r ← t.bufRead (← t.lastIdx)
    t.hdr3 p a r.miso r.start r.stop

/-- AckFlag (42_link_header.md R206). -/
def execAckFlag (b : Byte) (s : State) : Result :=
  onSpi s fun p t => do
    let r ← t.bufRead (← t.lastIdx)
    .ok (t.ackFlag p b r.start r.stop)

/-- SPI_DATA (42_link_header.md R205). -/
def execSpiData (v : Option Byte) (s : State) : Result :=
  onSpi s fun p t => do
    let idx ← t.lastIdx
    t.dataByte p idx v

/-- SPI_EXCESS (42_link_header.md R205). -/
def execSpiExcess (_v : Byte) (s : State) : Result :=
  onSpi s fun _ t => do
    let idx ← t.lastIdx
    t.excessByte idx

/-- FieldDecode of an SPI data byte (42_link_header.md R207). -/
def Spi.fieldDecodeLast (p : SpiParams) (x : Byte) (s : Spi) : Run Spi := do
  let idx ← s.lastIdx
  let reg ← need "hdr_reg" s.hdrReg
  let d ← need "hdr_dir" s.hdrDir
  let i ← natSub "pos" idx 4
  let r ← s.bufRead idx
  .ok (s.fieldDecode p reg.toNat d i x (spanOf r.start r.stop))

/-- FieldDecode of an I2C data byte, already counted in `j` (42_link_header.md R207, R213). -/
def I2c.fieldDecodeLast (p : I2cParams) (x : Byte) (s : I2c) : Run I2c := do
  let idx ← s.lastIdx
  let reg ← need "reg" s.reg
  let d ← need "rw" s.rw
  let j ← natSub "j" s.j 1
  let r ← s.bufRead idx
  .ok (s.fieldDecode p reg.toNat d j x (spanOf r.start r.stop))

/-- FieldDecode (42_link_header.md R207). -/
def execFieldDecode (k : Stack) (x : Byte) (s : State) : Result :=
  match k with
  | .spi => onSpi s fun p t => t.fieldDecodeLast p x
  | .i2c => onI2c s fun p t => t.fieldDecodeLast p x

/-- SpiNoHeader (42_link_header.md R208). -/
def execSpiNoHeader (_v : Byte) (s : State) : Result :=
  onSpi s fun _ t => do
    let idx ← t.lastIdx
    t.noHeader idx

/-- I2C_ADDR (42_link_header.md R210). -/
def execI2cAddr (a : BitVec 7) (r : Dir) (s : State) : Result :=
  onI2c s fun p t => do
    let idx ← t.lastIdx
    t.addrByteIn p idx (addrByte a r)

/-- I2C_RAW (42_link_header.md R211). -/
def execI2cRaw (_v : Byte) (s : State) : Result :=
  onI2c s fun _ t => do
    let idx ← t.lastIdx
    t.rawByte idx

/-- I2C_REGNUM (42_link_header.md R212). -/
def execI2cRegnum (r : Byte) (s : State) : Result :=
  onI2c s fun p t => do
    let idx ← t.lastIdx
    t.regNum p idx r

/-- I2C_REGDATA (42_link_header.md R213). -/
def execI2cRegdata (v : Byte) (s : State) : Result :=
  onI2c s fun p t => do
    let idx ← t.lastIdx
    t.regData p idx v

end Sys2Proof.Machine
end

