-- ==== Sys2Proof/Machine/Assembler.lean ====
section
/-! DEFINITION. The byte assembler (41_byte_assembler.md): CompleteSpiByte, CompleteI2cByte,
PartialAtCondition. -/

namespace Sys2Proof.Machine

open Sys2Proof

/-- The pending bits of a byte: its start, its end and the ends of its bits. Their number is
`bitcnt`, 1 to 8 (10_state.md R27, R32; 41_byte_assembler.md R171, R173). -/
def pendingByte (bitcnt : Nat) (starts : List Nat) (lastEnd : Option Nat) :
    Run (Nat × Nat × List Nat) :=
  match starts with
  | [] => .error (.fault (.pendingBits bitcnt 0))
  | s0 :: rest =>
    if bitcnt = rest.length + 1 ∧ bitcnt ≤ 8 then do
      let stop ← lastBitEnd (s0 :: rest) lastEnd
      let ends ← bitEnds (s0 :: rest) lastEnd
      .ok (s0, stop, ends)
    else .error (.fault (.pendingBits bitcnt (rest.length + 1)))

/-- The BITS and BYTE events of one lane (41_byte_assembler.md R172, R173). -/
def laneEvents (lane : Lane) (v : Byte) (starts ends : List Nat) (start stop : Nat)
    (truncated : Bool) : List OutEvent :=
  [⟨spanOf start stop, .bits lane (bitList v starts ends)⟩,
   ⟨spanOf start stop, .byte lane v truncated⟩]

/-- CompleteSpiByte (41_byte_assembler.md R173 to R175). -/
def Spi.completeByte (p : SpiParams) (truncated : Bool) (lastEnd : Option Nat) (s : Spi) :
    Run Spi := do
  let (start, stop, ends) ← pendingByte s.bitcnt s.bitStarts lastEnd
  let mv := leftAlign s.accMosi s.bitcnt
  let sv := leftAlign s.accMiso s.bitcnt
  let s := if p.haveMosi then
      s.emitAll (laneEvents .mosi mv s.bitStarts ends start stop truncated)
    else s
  let s := if p.haveMiso then
      s.emitAll (laneEvents .miso sv s.bitStarts ends start stop truncated)
    else s
  let r : SpiByteRec :=
    { mosi := if p.haveMosi then some mv else none
      miso := if p.haveMiso then some sv else none
      start := start
      stop := stop
      truncated := truncated
      role := .header
      fseq := none }
  let s ← s.bufAppend p r
  { s with bitcnt := 0, accMosi := 0#8, accMiso := 0#8, bitStarts := [] }.headerByte p r

/-- CompleteI2cByte (41_byte_assembler.md R177): a complete byte then awaits its acknowledge
bit. -/
def I2c.completeByte (p : I2cParams) (truncated : Bool) (lastEnd : Option Nat) (s : I2c) :
    Run I2c := do
  let (start, stop, ends) ← pendingByte s.bitcnt s.bitStarts lastEnd
  let v := leftAlign s.acc s.bitcnt
  let s := s.emitAll (laneEvents .sda v s.bitStarts ends start stop truncated)
  let r : I2cByteRec :=
    { value := v
      start := start
      stop := stop
      truncated := truncated
      phaseNo := s.phaseNo
      kind := .raw
      dir := s.rw
      ack := none }
  let s ← s.bufAppend p r
  let s := if truncated then s else { s with ackIdx := some (s.xfer.length - 1) }
  s.headerByte p r

/-- The accumulator cleared (40_sampler.md R154, 41_byte_assembler.md R178). -/
def I2c.clearBits (s : I2c) : I2c :=
  { s with bitcnt := 0, acc := 0#8, bitStarts := [], ackIdx := none }

/-- PartialAtCondition (41_byte_assembler.md R178). -/
def I2c.partialAtCondition (p : I2cParams) (s : I2c) : Run I2c :=
  if 2 ≤ s.bitcnt ∧ s.bitcnt ≤ 7 then do
    let b0 ← need "bit_starts" s.bitStarts.head?
    let s ← (s.diag .warnI2cPartialByte (spanOf b0 s.n) s.bitcnt).completeByte p true (some s.n)
    .ok s.clearBits
  else .ok s.clearBits

/-! ### The rows (notes/assumptions/8.md) -/

/-- CompleteSpiByte (41_byte_assembler.md R173). -/
def execCompleteSpiByte (truncated : Bool) (s : State) : Result :=
  onSpi s fun p t => t.completeByte p truncated (if truncated then some t.n else none)

/-- CompleteI2cByte (41_byte_assembler.md R177). -/
def execCompleteI2cByte (truncated : Bool) (s : State) : Result :=
  onI2c s fun p t => t.completeByte p truncated (if truncated then some t.n else none)

/-- PartialAtCondition (41_byte_assembler.md R178). -/
def execPartialAtCondition (s : State) : Result := onI2c s fun p t => t.partialAtCondition p

end Sys2Proof.Machine
end

