-- ==== Sys2Proof/Machine/Sampler.lean ====
section
/-! DEFINITION. The edge and bit samplers (40_sampler.md): the operations a sample selects, and the
epilogue of a step. The sample being processed has index `n`, the stack's own counter. -/

namespace Sys2Proof.Machine

open Sys2Proof

/-! ### SPI -/

/-- OpenTransfer (40_sampler.md R132). The framer registers stay. -/
def Spi.openTransfer (s : Spi) : Spi :=
  { s with
    active := true
    tStart := s.n
    bitcnt := 0
    accMosi := 0#8
    accMiso := 0#8
    bitStarts := []
    pos := 0
    hdrDir := none
    hdrCount := none
    hdrAddrHi := none
    hdrRegHi := none
    hdrReg := none
    hdrRegKnown := false
    hdrAck := none
    hdrRouted := false
    hdrB0Span := (0, 0)
    hdrB2Start := 0
    xfer := [] }

/-- The epilogue of an SPI step (40_sampler.md R134). -/
def Spi.epilogue (x : SpiLevels) (s : Spi) : Spi :=
  { s with prevSck := x.sck, prevAsserted := x.asserted, n := s.n + 1 }

/-- SPI_CS_ASSERT (40_sampler.md R132). -/
def Spi.csAssert (s : Spi) : Spi := s.openTransfer.emit (pointSpan s.n) (.bus .active)

/-- SPI_BASELINE (40_sampler.md R130). -/
def Spi.baseline (x : SpiLevels) (s : Spi) : Spi :=
  let s := { s with prevSck := x.sck, prevAsserted := x.asserted, first := false }
  if x.asserted then s.csAssert else s

/-- The byte in progress at a chip-select deassertion (40_sampler.md R131, 41_byte_assembler.md
R175). -/
def Spi.cutByte (p : SpiParams) (s : Spi) : Run Spi :=
  if 0 < s.bitcnt then do
    let b0 ← need "bit_starts" s.bitStarts.head?
    (s.diag .warnCsMidByte (spanOf b0 s.n) s.bitcnt).completeByte p true (some s.n)
  else .ok s

/-- SPI_CS_DEASSERT (40_sampler.md R131). -/
def Spi.csDeassert (p : SpiParams) (s : Spi) : Run Spi :=
  if s.active then do
    let s ← s.cutByte p
    let s ← (s.emit (pointSpan s.n) (.bus .idle)).aggregate p
    .ok { s with active := false }
  else .ok s

/-- One bit shifted into each present lane (40_sampler.md R133). -/
def Spi.shiftBits (p : SpiParams) (x : SpiLevels) (s : Spi) : Spi :=
  { s with
    accMosi := if p.haveMosi then shiftIn s.accMosi x.mosi else s.accMosi
    accMiso := if p.haveMiso then shiftIn s.accMiso x.miso else s.accMiso
    bitStarts := s.bitStarts ++ [s.n]
    bitcnt := s.bitcnt + 1 }

/-- SPI_SCK_SAMPLE, of either edge (40_sampler.md R133). -/
def Spi.sckSample (p : SpiParams) (x : SpiLevels) (s : Spi) : Run Spi :=
  let s := s.shiftBits p x
  if s.bitcnt = 8 then s.completeByte p false none else .ok s

/-! ### I2C -/

/-- BeginPhase (40_sampler.md R151). The register number stays (42_link_header.md R216). -/
def I2c.beginPhase (s : I2c) : I2c :=
  { s with
    phaseNo := s.phaseNo + 1
    phase := .addr
    rw := none
    addr7 := none
    matched := false
    expectReg := false
    j := 0
    bitcnt := 0
    acc := 0#8
    bitStarts := []
    ackIdx := none
    dl := Dl.reset
    ap := Ap.reset }

/-- The epilogue of an I2C step (40_sampler.md R158). -/
def I2c.epilogue (x : I2cSample) (s : I2c) : I2c :=
  { s with prevScl := x.scl, prevSda := x.sda, n := s.n + 1 }

/-- I2C_BASELINE (40_sampler.md R150). -/
def I2c.baseline (x : I2cSample) (s : I2c) : I2c := { s with first := false }.epilogue x

/-- I2C_START (40_sampler.md R151). -/
def I2c.startCond (s : I2c) : I2c :=
  let s := { s with
    active := true
    tStart := s.n
    xfer := []
    phaseNo := 0
    dlDone := []
    apduDone := [] }.beginPhase
  (s.emit (pointSpan s.n) (.bus .active)).emit (pointSpan s.n) (.cond .start)

/-- I2C_RSTART (40_sampler.md R152). -/
def I2c.rstartCond (p : I2cParams) (s : I2c) : Run I2c := do
  let s ← s.partialAtCondition p
  let s ← s.endPhase
  .ok (s.beginPhase.emit (pointSpan s.n) (.cond .rstart))

/-- I2C_BIT (40_sampler.md R153). -/
def I2c.bit (p : I2cParams) (x : I2cSample) (s : I2c) : Run I2c :=
  let s := { s with
    acc := shiftIn s.acc x.sda
    bitStarts := s.bitStarts ++ [s.n]
    bitcnt := s.bitcnt + 1 }
  if s.bitcnt = 8 then s.completeByte p false none else .ok s

/-- The acknowledge flag written to the byte that awaits it (40_sampler.md R154). -/
def I2c.writeAck (ack : Bool) (s : I2c) : Run I2c :=
  match s.ackIdx with
  | some i => s.bufUpdate i fun r => { r with ack := some ack }
  | none => .ok s

/-- I2C_ACK (40_sampler.md R154). -/
def I2c.ackBit (x : I2cSample) (s : I2c) : Run I2c := do
  let b7 ← need "bit_starts" s.bitStarts[7]?
  let w ← natSub "w" s.n b7
  let s ← (s.emit (spanOf s.n (s.n + w)) (.ack !x.sda)).writeAck !x.sda
  .ok s.clearBits

/-- I2C_STOP (40_sampler.md R155). -/
def I2c.stopCond (p : I2cParams) (s : I2c) : Run I2c := do
  let s ← s.partialAtCondition p
  let s ← s.endPhase
  let s := (s.emit (pointSpan s.n) (.cond .stop)).emit (pointSpan s.n) (.bus .idle)
  .ok { s.aggregate p with active := false }

/-! ### The rows -/

/-- SPI_BASELINE (40_sampler.md R130). -/
def execSpiBaseline (x : SpiLevels) (s : State) : Result := onSpi s fun _ t => .ok (t.baseline x)

/-- SPI_CS_DEASSERT (40_sampler.md R131): its effect reads no level of the sample. -/
def execSpiCsDeassert (_x : SpiLevels) (s : State) : Result := onSpi s fun p t => t.csDeassert p

/-- SPI_CS_ASSERT (40_sampler.md R132): its effect reads no level of the sample. -/
def execSpiCsAssert (_x : SpiLevels) (s : State) : Result := onSpi s fun _ t => .ok t.csAssert

/-- SPI_SCK_SAMPLE (40_sampler.md R133). -/
def execSpiSckSample (x : SpiLevels) (s : State) : Result := onSpi s fun p t => t.sckSample p x

/-- SPI_SCK_SAMPLE_F (30_encoding.md R93, 40_sampler.md R133). -/
def execSpiSckSampleF (x : SpiLevels) (s : State) : Result := onSpi s fun p t => t.sckSample p x

/-- SPI_IDLE_STEP: the epilogue alone (40_sampler.md R136). -/
def execSpiIdleStep (x : SpiLevels) (s : State) : Result := onSpi s fun _ t => .ok (t.epilogue x)

/-- I2C_BASELINE (40_sampler.md R150). -/
def execI2cBaseline (x : I2cSample) (s : State) : Result := onI2c s fun _ t => .ok (t.baseline x)

/-- I2C_START (40_sampler.md R151): its effect reads no level of the sample. -/
def execI2cStart (_x : I2cSample) (s : State) : Result := onI2c s fun _ t => .ok t.startCond

/-- I2C_RSTART (40_sampler.md R152): its effect reads no level of the sample. -/
def execI2cRstart (_x : I2cSample) (s : State) : Result := onI2c s fun p t => t.rstartCond p

/-- I2C_STOP (40_sampler.md R155): its effect reads no level of the sample. -/
def execI2cStop (_x : I2cSample) (s : State) : Result := onI2c s fun p t => t.stopCond p

/-- I2C_STRAY_STOP: the epilogue alone (40_sampler.md R156). -/
def execI2cStrayStop (x : I2cSample) (s : State) : Result := onI2c s fun _ t => .ok (t.epilogue x)

/-- I2C_BIT (40_sampler.md R153). -/
def execI2cBit (x : I2cSample) (s : State) : Result := onI2c s fun p t => t.bit p x

/-- I2C_ACK (40_sampler.md R154). -/
def execI2cAck (x : I2cSample) (s : State) : Result := onI2c s fun _ t => t.ackBit x

/-- I2C_IDLE_STEP: the epilogue alone (40_sampler.md R157). -/
def execI2cIdleStep (x : I2cSample) (s : State) : Result := onI2c s fun _ t => .ok (t.epilogue x)

end Sys2Proof.Machine
end

