-- ==== Sys2Proof/Machine/Dispatch.lean ====
section
/-! DEFINITION. One arm per operation: the direct call of its meaning. -/

namespace Sys2Proof.Machine

open Sys2Proof

def exec (i : Instr) (s : State) : Host.Outcome State Fault Refusal :=
  match i with
  | .spiBaseline x => Sys2Proof.Machine.execSpiBaseline x s
  | .spiCsDeassert x => Sys2Proof.Machine.execSpiCsDeassert x s
  | .spiCsAssert x => Sys2Proof.Machine.execSpiCsAssert x s
  | .spiSckSample x => Sys2Proof.Machine.execSpiSckSample x s
  | .spiSckSampleF x => Sys2Proof.Machine.execSpiSckSampleF x s
  | .spiIdleStep x => Sys2Proof.Machine.execSpiIdleStep x s
  | .i2cBaseline x => Sys2Proof.Machine.execI2cBaseline x s
  | .i2cStart x => Sys2Proof.Machine.execI2cStart x s
  | .i2cRstart x => Sys2Proof.Machine.execI2cRstart x s
  | .i2cStop x => Sys2Proof.Machine.execI2cStop x s
  | .i2cStrayStop x => Sys2Proof.Machine.execI2cStrayStop x s
  | .i2cBit x => Sys2Proof.Machine.execI2cBit x s
  | .i2cAck x => Sys2Proof.Machine.execI2cAck x s
  | .i2cIdleStep x => Sys2Proof.Machine.execI2cIdleStep x s
  | .completeSpiByte truncated => Sys2Proof.Machine.execCompleteSpiByte truncated s
  | .completeI2cByte truncated => Sys2Proof.Machine.execCompleteI2cByte truncated s
  | .partialAtCondition => Sys2Proof.Machine.execPartialAtCondition s
  | .spiHdr0 d c => Sys2Proof.Machine.execSpiHdr0 d c s
  | .spiHdr1 h => Sys2Proof.Machine.execSpiHdr1 h s
  | .spiHdr2 a => Sys2Proof.Machine.execSpiHdr2 a s
  | .spiHdr3 a => Sys2Proof.Machine.execSpiHdr3 a s
  | .ackFlag b => Sys2Proof.Machine.execAckFlag b s
  | .spiData v => Sys2Proof.Machine.execSpiData v s
  | .spiExcess v => Sys2Proof.Machine.execSpiExcess v s
  | .fieldDecode k x => Sys2Proof.Machine.execFieldDecode k x s
  | .spiNoHeader v => Sys2Proof.Machine.execSpiNoHeader v s
  | .i2cAddr a r => Sys2Proof.Machine.execI2cAddr a r s
  | .i2cRaw v => Sys2Proof.Machine.execI2cRaw v s
  | .i2cRegnum r => Sys2Proof.Machine.execI2cRegnum r s
  | .i2cRegdata v => Sys2Proof.Machine.execI2cRegdata v s
  | .tpmStart v => Sys2Proof.Machine.execTpmStart v s
  | .tpmHdr v => Sys2Proof.Machine.execTpmHdr v s
  | .tpmTagDone v => Sys2Proof.Machine.execTpmTagDone v s
  | .tpmLenDone v => Sys2Proof.Machine.execTpmLenDone v s
  | .tpmCodeDone v => Sys2Proof.Machine.execTpmCodeDone v s
  | .tpmPayload v => Sys2Proof.Machine.execTpmPayload v s
  | .tpmOtherDir v => Sys2Proof.Machine.execTpmOtherDir v s
  | .closeFrame => Sys2Proof.Machine.execCloseFrame s
  | .dlFctr t b x f k => Sys2Proof.Machine.execDlFctr t b x f k s
  | .dlLen0 l => Sys2Proof.Machine.execDlLen0 l s
  | .dlLen1 l => Sys2Proof.Machine.execDlLen1 l s
  | .dlPctr c p h => Sys2Proof.Machine.execDlPctr c p h s
  | .dlSctr p m d => Sys2Proof.Machine.execDlSctr p m d s
  | .payloadBegin => Sys2Proof.Machine.execPayloadBegin s
  | .dlPay v => Sys2Proof.Machine.execDlPay v s
  | .dlFcs0 f => Sys2Proof.Machine.execDlFcs0 f s
  | .dlFcs1 f => Sys2Proof.Machine.execDlFcs1 f s
  | .dlExcess v => Sys2Proof.Machine.execDlExcess v s
  | .dlFinish complete => Sys2Proof.Machine.execDlFinish complete s
  | .apduCmd c => Sys2Proof.Machine.execApduCmd c s
  | .apduParam p => Sys2Proof.Machine.execApduParam p s
  | .apduLen0 l => Sys2Proof.Machine.execApduLen0 l s
  | .apduLen1 l => Sys2Proof.Machine.execApduLen1 l s
  | .apduData v => Sys2Proof.Machine.execApduData v s
  | .apduExcess v => Sys2Proof.Machine.execApduExcess v s
  | .apduFinish complete => Sys2Proof.Machine.execApduFinish complete s
  | .endPhase => Sys2Proof.Machine.execEndPhase s
  | .aggregateSpi => Sys2Proof.Machine.execAggregateSpi s
  | .frameCarry => Sys2Proof.Machine.execFrameCarry s
  | .aggregateI2c => Sys2Proof.Machine.execAggregateI2c s
  | .regLen q => Sys2Proof.Machine.execRegLen q s
  | .bufAppend r => Sys2Proof.Machine.execBufAppend r s
  | .bufRead k idx => Sys2Proof.Machine.execBufRead k idx s
  | .reset => Sys2Proof.Machine.execReset s

end Sys2Proof.Machine
end

