-- ==== Sys2Proof/Machine/Fetch.lean ====
section
/-! DEFINITION. One step of either stack: which operations the sample selects, their order, the
epilogue (40_sampler.md R134, R158), and the inputs of the ports; and how a state is arranged so
that the next step runs a given operation (notes/assumptions/11.md). -/

namespace Sys2Proof.Machine

open Sys2Proof

/-- The operations of a step, in order, each on the state the one before it left
(10_state.md R65). -/
def execAll : List Instr → State → Result
  | [], s => .next s
  | i :: rest, s =>
    match exec i s with
    | .next t => execAll rest t
    | .fault r => .fault r
    | .refused r => .refused r

/-- What follows when operations go through. -/
def thenNext (r : Result) (f : State → State) : Result :=
  match r with
  | .next t => .next (f t)
  | .fault e => .fault e
  | .refused e => .refused e

/-- The operations of the SPI step for the levels `x` (30_encoding.md R92, R93). -/
def spiOps (s : State) (x : SpiLevels) : List Instr :=
  spiSelect s.cfg.spi (cs5 s.spi.first s.spi.prevAsserted s.spi.prevSck x) x

/-- The SPI step (40_sampler.md R134), its events at the port (10_state.md R60, R66). SPI_IDLE_STEP is
the epilogue itself (R136) and emits nothing, so nothing follows it (notes/assumptions/14.md). -/
def spiStep (x : SpiSample) (s : State) : Result :=
  if hasDataLane s.cfg.spi then
    if streamTooLong s.cfg.spi.sampleW s.spi.n then
      .refused (.sampleW (s.cfg.spi.sampleW.getD 0))
    else
      let l := levelsOf s.cfg.spi x
      let ops := spiOps s l
      if ops = [.spiIdleStep l] then execAll ops s
      else thenNext (execAll ops s) fun t =>
        { t with spi := (t.spi.epilogue l).emitted s.cfg.spi s.spi }
  else .refused .noDataLane

/-- The operation of the I2C step for the sample `x` (30_encoding.md R94, R95). -/
def i2cOp (s : State) (x : I2cSample) : Instr :=
  i2cSelect (ci5 s.i2c.first s.i2c.prevScl s.i2c.prevSda x) s.i2c.active
    (decide (8 ≤ s.i2c.bitcnt)) x

/-- The I2C step (40_sampler.md R158), its events at the port (10_state.md R60, R66). The baseline, the
stray STOP and the idle step hold the epilogue themselves (R150, R156, R157) and emit nothing, so
nothing follows them (notes/assumptions/14.md). -/
def i2cStep (x : I2cSample) (s : State) : Result :=
  if streamTooLong s.cfg.i2c.sampleW s.i2c.n then
    .refused (.sampleW (s.cfg.i2c.sampleW.getD 0))
  else
    let op := i2cOp s x
    if op = .i2cBaseline x ∨ op = .i2cStrayStop x ∨ op = .i2cIdleStep x then exec op s
    else thenNext (exec op s) fun t =>
      { t with i2c := (t.i2c.epilogue x).emitted s.cfg.i2c s.i2c }

/-- New parameters, only for a stack that has taken no sample since reset
(70_reset_and_hazards.md R405, R406; notes/assumptions/17.md). -/
def takeParams (c : Config) (s : State) : Result :=
  if (s.spi.first = true ∨ c.spi = s.cfg.spi) ∧ (s.i2c.first = true ∨ c.i2c = s.cfg.i2c) then
    .next { s with cfg := c }
  else .refused .paramsChanged

/-- One input of the ports (10_state.md R20, R21, R23), a sample by its word (30_encoding.md R90,
R91). -/
def takeInput (a : PortInput) (s : State) : Result :=
  match a with
  | .spi w => spiStep (spiSampleOfWord w) s
  | .i2c w => i2cStep (i2cSampleOfWord w) s
  | .reset => exec .reset s
  | .params c => takeParams c s

/-! ### Arranging the next step (notes/assumptions/11.md) -/

/-- The chip-select level with a given meaning under the parameters. -/
def csFor (p : SpiParams) (a : Bool) : Bit :=
  if a then assertedLevel p.csPolarity else !assertedLevel p.csPolarity

/-- A state whose next step is the SPI step on the levels `x` after the levels `prev...`, under a
configuration that has a chip select and samples on edge `e`. -/
def State.offerSpi (s : State) (e : SampleEdge) (first prevAsserted : Bool) (prevSck : Bit)
    (x : SpiLevels) : State :=
  let p := { s.cfg.spi with haveCs := true, sampleEdge := e }
  { s with
    cfg := { s.cfg with spi := p }
    spi := { s.spi with first := first, prevAsserted := prevAsserted, prevSck := prevSck }
    port := .spi (spiSampleWord ⟨x.sck, x.mosi, x.miso, csFor p x.asserted⟩) :: s.port }

/-- A state whose next step is the I2C step on the sample `x`. -/
def State.offerI2c (s : State) (first prevScl prevSda active : Bool) (x : I2cSample) : State :=
  { s with
    i2c := { s.i2c with first := first, prevScl := prevScl, prevSda := prevSda, active := active }
    port := .i2c (i2cSampleWord x) :: s.port }

/-- A state whose next step runs the sampler operation `i`: the levels before it are those of its
encoding (30_encoding.md R92 to R95). An operation that runs only inside another is never fetched
alone: for it the state stays as it is. -/
def State.arrange (i : Instr) (s : State) : State :=
  match i with
  | .spiBaseline x => s.offerSpi s.cfg.spi.sampleEdge true false false x
  | .spiCsDeassert x => s.offerSpi s.cfg.spi.sampleEdge false true x.sck x
  | .spiCsAssert x => s.offerSpi s.cfg.spi.sampleEdge false false x.sck x
  | .spiSckSample x => s.offerSpi .rising false true false x
  | .spiSckSampleF x => s.offerSpi .falling false true true x
  | .spiIdleStep x => s.offerSpi s.cfg.spi.sampleEdge false x.asserted x.sck x
  | .i2cBaseline x => s.offerI2c true false false false x
  | .i2cStart x => s.offerI2c false true true false x
  | .i2cRstart x => s.offerI2c false true true true x
  | .i2cStop x => s.offerI2c false true false true x
  | .i2cStrayStop x => s.offerI2c false true false false x
  | .i2cBit x => s.offerI2c false false x.sda true x
  | .i2cAck x =>
    let t := s.offerI2c false false x.sda true x
    { t with i2c := { t.i2c with bitcnt := 8, bitStarts := List.range 8, n := 8 } }
  | .i2cIdleStep x => s.offerI2c false x.scl x.sda s.i2c.active x
  | .reset => { s with port := .reset :: s.port }
  | .completeSpiByte _ | .completeI2cByte _ | .partialAtCondition | .spiHdr0 _ _ | .spiHdr1 _
  | .spiHdr2 _ | .spiHdr3 _ | .ackFlag _ | .spiData _ | .spiExcess _ | .fieldDecode _ _
  | .spiNoHeader _ | .i2cAddr _ _ | .i2cRaw _ | .i2cRegnum _ | .i2cRegdata _ | .tpmStart _
  | .tpmHdr _ | .tpmTagDone _ | .tpmLenDone _ | .tpmCodeDone _ | .tpmPayload _ | .tpmOtherDir _
  | .closeFrame | .dlFctr _ _ _ _ _ | .dlLen0 _ | .dlLen1 _ | .dlPctr _ _ _ | .dlSctr _ _ _
  | .payloadBegin | .dlPay _ | .dlFcs0 _ | .dlFcs1 _ | .dlExcess _ | .dlFinish _ | .apduCmd _
  | .apduParam _ | .apduLen0 _ | .apduLen1 _ | .apduData _ | .apduExcess _ | .apduFinish _
  | .endPhase | .aggregateSpi | .frameCarry | .aggregateI2c | .regLen _ | .bufAppend _
  | .bufRead _ _ => s

end Sys2Proof.Machine
end

