-- ==== Sys2Proof/Machine/Step.lean ====
section
/-! DEFINITION. The step of the machine: the next waiting input is taken. -/

namespace Sys2Proof.Machine

open Sys2Proof

/-- One step: the first waiting input, taken by its stack. With no input left no step happens and
the state stays as it is (10_state.md R24, R25; notes/assumptions/4.md, 7.md, 18.md). -/
def step (s : State) : Host.Outcome State Fault Refusal :=
  match s.port with
  | [] => .next s
  | a :: rest => takeInput a { s with port := rest }

/-- `s` with the operation of a table word placed so that the very next step runs it
(notes/assumptions/11.md). -/
def State.withFetchWord (s : State) (nbits w : Nat) : State :=
  match decodeTableWord nbits w with
  | some i => s.arrange i
  | none => s

end Sys2Proof.Machine
end

