-- ==== Sys2Proof/Safety.lean ====
section
/-! DEFINITION. What a sound state of the machine is: the relations between registers that the spec
derives (10_state.md R27, R32; 40_sampler.md R138; 42_link_header.md R209, R217;
43_command_framer.md R249; 44_datalink_apdu.md R306) and those its pseudocode relies on. Every
predicate is decidable. A run from reset is in a state with `State.Inv`, and a state with it never
faults: those are statements, not definitions. -/

namespace Sys2Proof.Machine

open Sys2Proof

/-! ### SPI -/

/-- Before the first sample every register has its reset value (70_reset_and_hazards.md R400). -/
abbrev Spi.FreshInv (s : Spi) : Prop := s.first = true → s = { Spi.reset with out := s.out }

/-- Pending bits are as many as `bitcnt` says, in strictly rising samples since the transfer opened
and before this one (10_state.md R27, 41_byte_assembler.md R170). -/
abbrev Spi.BitsInv (s : Spi) : Prop :=
  s.bitcnt = s.bitStarts.length ∧ s.bitStarts.Pairwise (· < ·)
    ∧ ∀ b ∈ s.bitStarts, s.tStart ≤ b ∧ b < s.n

/-- The role of the record at index `i` of a transfer (42_link_header.md R200, R205, R208). -/
def roleAt (haveMosi : Bool) (count : Option Nat) (i : Nat) : Role :=
  if i < 4 then .header
  else if haveMosi then (if i - 4 < count.getD 0 then .data else .excess) else .data

/-- The header registers against the number of bytes (42_link_header.md R209), the header byte
spans, and the role and lanes of every record. -/
abbrev Spi.HdrInv (p : SpiParams) (s : Spi) : Prop :=
  s.pos = s.xfer.length
    ∧ (s.hdrDir.isSome = true ↔ p.haveMosi = true ∧ 1 ≤ s.pos)
    ∧ (s.hdrCount.isSome = true ↔ p.haveMosi = true ∧ 1 ≤ s.pos)
    ∧ (s.hdrAddrHi.isSome = true ↔ p.haveMosi = true ∧ 2 ≤ s.pos)
    ∧ (s.hdrRegHi.isSome = true ↔ p.haveMosi = true ∧ 3 ≤ s.pos)
    ∧ (s.hdrReg.isSome = true ↔ p.haveMosi = true ∧ 4 ≤ s.pos)
    ∧ (∀ c ∈ s.hdrCount, 1 ≤ c ∧ c ≤ 128)
    ∧ s.hdrRegKnown = (s.hdrReg.bind (lookupName p.knownReg)).isSome
    ∧ s.hdrRouted = s.hdrReg.any (regRouted p)
    ∧ (∀ d ∈ s.hdrAck, s.hdrDir = some .read ∧ p.haveMiso = true)
    ∧ (p.haveMosi = true → ∀ r ∈ s.xfer[2]?, s.hdrB2Start = r.start)
    ∧ (∀ e ∈ s.xfer.zipIdx, e.1.role = roleAt p.haveMosi s.hdrCount e.2)
    ∧ ∀ r ∈ s.xfer, r.mosi.isSome = p.haveMosi ∧ r.miso.isSome = p.haveMiso

/-- Every record's span, and the transfer's start, in samples already taken
(41_byte_assembler.md R176). -/
abbrev Spi.RecInv (s : Spi) : Prop :=
  s.tStart ≤ s.n ∧ ∀ r ∈ s.xfer, s.tStart ≤ r.start ∧ r.start < r.stop ∧ r.start < s.n

/-- The framer's registers in each of its states (43_command_framer.md R240, R249). -/
abbrev Spi.FramerInv (s : Spi) : Prop :=
  (s.fst = .idle → s.fStart = none ∧ s.fh = 0)
    ∧ (s.fst = .hdr → s.fStart.isSome = true ∧ 1 ≤ s.fh ∧ s.fh ≤ 9 ∧ s.fdir = none
        ∧ s.pcount = 0 ∧ s.remaining = 0#32)
    ∧ (s.fst = .payload → s.fStart.isSome = true ∧ s.fh = 10 ∧ s.fdir.isSome = true
        ∧ s.fshort = false ∧ s.remaining ≠ 0#32
        ∧ s.pcount + s.remaining.toNat + tpmHdrSize = s.len.toNat)
    ∧ (s.fst = .hdr → s.fh < 6 → s.fshort = false)
    ∧ (s.fst = .hdr → 6 ≤ s.fh → (s.fshort = true ↔ s.len.toNat < tpmHdrSize))
    ∧ (s.fst ≠ .idle → s.fFieldStart < s.n ∧ 1 ≤ s.fseq)

/-- The payload count of a closed frame (43_command_framer.md R249). -/
abbrev FrameInfo.countOk (f : FrameInfo) : Prop :=
  (f.short = true ↔ f.len.toNat < tpmHdrSize)
    ∧ f.pcount = f.len.toNat - tpmHdrSize

/-- The start of the frame in progress: an index of the open transfer, or a sample no later than
this one and than the open transfer's start (45_aggregator.md R344). -/
def FrameStart.ok (active : Bool) (tStart n len : Nat) : FrameStart → Bool
  | .idx i => active && decide (i < len)
  | .at r => decide (r ≤ (n : Rat)) && (!active || decide (r ≤ (tStart : Rat)))

/-- The start of a closed frame is no later than its end (45_aggregator.md R345). -/
def FrameInfo.startOk (tStart : Nat) (f : FrameInfo) : Bool :=
  match f.start with
  | .idx i => decide (i ≤ f.last)
  | .at r => decide (r ≤ (tStart : Rat))

/-- Where frames start and end in the buffer (45_aggregator.md R344, R345). -/
abbrev Spi.FrameAtInv (s : Spi) : Prop :=
  (∀ a ∈ s.fStart, a.ok s.active s.tStart s.n s.xfer.length = true)
    ∧ ∀ f ∈ s.closed, f.countOk ∧ f.fseq ≤ s.fseq ∧ f.last < s.xfer.length
        ∧ f.startOk s.tStart = true

/-- A transfer is open exactly while chip select is asserted (40_sampler.md R138); without an open
transfer nothing is pending. -/
abbrev Spi.ActiveInv (p : SpiParams) (s : Spi) : Prop :=
  (s.first = false → s.active = s.prevAsserted ∧ (p.haveCs = false → s.active = true))
    ∧ (s.active = true → s.tStart < s.n)
    ∧ (s.active = false → s.bitStarts = [] ∧ s.closed = [])

/-- A sound SPI stack between steps. -/
abbrev Spi.Inv (p : SpiParams) (s : Spi) : Prop :=
  s.FreshInv ∧ s.BitsInv ∧ s.bitcnt ≤ 7 ∧ s.HdrInv p ∧ s.RecInv ∧ s.FramerInv ∧ s.FrameAtInv
    ∧ s.ActiveInv p

/-! ### I2C -/

/-- Before the first sample every register has its reset value (70_reset_and_hazards.md R400). -/
abbrev I2c.FreshInv (s : I2c) : Prop := s.first = true → s = { I2c.reset with out := s.out }

/-- Pending bits are as many as `bitcnt` says, in strictly rising samples since the transfer opened
and before this one (10_state.md R32, 41_byte_assembler.md R170). -/
abbrev I2c.BitsInv (s : I2c) : Prop :=
  s.bitcnt = s.bitStarts.length ∧ s.bitStarts.Pairwise (· < ·)
    ∧ ∀ b ∈ s.bitStarts, s.tStart ≤ b ∧ b < s.n

/-- An acknowledge bit is awaited exactly after eight data bits, for the byte appended last
(10_state.md R32, 41_byte_assembler.md R177). -/
abbrev I2c.AckInv (s : I2c) : Prop :=
  s.bitcnt ≤ 8 ∧ (s.ackIdx.isSome = true ↔ s.bitcnt = 8) ∧ ∀ i ∈ s.ackIdx, i + 1 = s.xfer.length

/-- The kinds of a phase's records, in order, from the phase's state (42_link_header.md R217):
address first; then RAW bytes where unmatched; else the register byte of a WRITE once it has come,
and `j` data bytes. -/
abbrev kindsOk (matched expectReg : Bool) (rw : Option Dir) (j : Nat) (ks : List Kind) : Prop :=
  if matched then
    if expectReg then ks = [.addr]
    else ks = .addr :: ((if rw = some .write then [.reg] else []) ++ List.replicate j .data)
  else ∃ k ∈ List.range ks.length, ks = .addr :: List.replicate k .raw

/-- The records of phase `q`. -/
def I2c.recsOf (s : I2c) (q : Nat) : List I2cByteRec := s.xfer.filter fun r => r.phaseNo == q

/-- The link-header registers of the phase in progress, and its records (42_link_header.md R210 to
R217). -/
abbrev I2c.HdrInv (p : I2cParams) (s : I2c) : Prop :=
  (s.phase = .addr → s.rw = none ∧ s.addr7 = none ∧ s.matched = false ∧ s.expectReg = false
      ∧ s.j = 0 ∧ s.dl = Dl.reset ∧ s.ap = Ap.reset)
    ∧ (s.phase = .data → s.rw.isSome = true ∧ s.addr7.isSome = true
        ∧ s.matched = (s.addr7 == some p.targetAddr)
        ∧ kindsOk s.matched s.expectReg s.rw s.j ((s.recsOf s.phaseNo).map (·.kind)))
    ∧ (s.phase = .addr → s.recsOf s.phaseNo = [])
    ∧ (s.expectReg = true → s.matched = true ∧ s.rw = some .write ∧ s.j = 0)
    ∧ s.regKnown = (s.reg.bind (lookupName p.knownReg)).isSome

/-- Every record's span, phase and direction (41_byte_assembler.md R176, R179). -/
abbrev I2c.RecInv (s : I2c) : Prop :=
  s.tStart ≤ s.n
    ∧ ∀ r ∈ s.xfer, s.tStart ≤ r.start ∧ r.start < r.stop ∧ r.start < s.n ∧ r.phaseNo ≤ s.phaseNo
        ∧ r.dir.isSome = true ∧ (r.kind = .addr → r.dir = some (addrDir r.value))

/-- The bytes of the datalink frame in progress, by its state (44_datalink_apdu.md R281, R306). -/
def Dl.taken (d : Dl) : Nat :=
  match d.dst with
  | .fctr => 0
  | .len0 => 1
  | .len1 => 2
  | .pctr => 3
  | .sctr => 4
  | .pay => 3 + (d.dlen.toNat - d.drem)
  | .fcs0 => 3 + d.dlen.toNat
  | .fcs1 => 4 + d.dlen.toNat
  | .done => 5 + d.dlen.toNat

/-- The bytes of the data field that carry no payload: PCTR, and SCTR where there is one
(44_datalink_apdu.md R306). -/
def Dl.control (d : Dl) : Nat := 1 + (if d.sctr.isSome then 1 else 0)

/-- What each datalink state has settled (44_datalink_apdu.md R282 to R295, R306). -/
def Dl.stateOk (d : Dl) (rw : Option Dir) : Bool :=
  match d.dst with
  | .fctr => decide (d = Dl.reset)
  | .len0 => d.pctr.isNone && d.sctr.isNone && d.dpay == 0 && !d.apduMode && d.drem == 0
  | .len1 => d.pctr.isNone && d.sctr.isNone && d.dpay == 0 && !d.apduMode && d.drem == 0
  | .pctr => d.pctr.isNone && d.sctr.isNone && d.dpay == 0 && !d.apduMode
      && decide (1 ≤ d.drem) && d.drem == d.dlen.toNat
  | .sctr => d.pctr.any (·.getLsbD 3) && d.sctr.isNone && d.dpay == 0 && !d.apduMode
      && decide (1 ≤ d.drem) && d.drem + 1 == d.dlen.toNat
  | .pay => d.pctr.isSome && decide (1 ≤ d.drem)
      && d.dpay + d.drem + d.control == d.dlen.toNat
      && rw.any fun w => d.pctr.any fun c => d.apduMode == apduModeOf c d.sctr w
  | .fcs0 | .fcs1 | .done => d.drem == 0
      && (if d.pctr.isSome then d.dpay + d.control == d.dlen.toNat
          else d.dlen.toNat == 0 && d.sctr.isNone && d.dpay == 0 && !d.apduMode)

/-- What each APDU state has settled (44_datalink_apdu.md R298 to R302, R306). -/
def Ap.stateOk (p : I2cParams) (a : Ap) : Bool :=
  match a.ast with
  | .cmd => decide (a = Ap.reset)
  | .param | .len0 | .len1 => a.arem == 0 && a.adata == 0
  | .data => decide (1 ≤ a.arem) && a.adata + a.arem == apduDataSize p a.alen
  | .done => true

/-- The datalink frame of the phase in progress: the registers agree with its state, it holds the
last bytes of the buffer, and only a matched phase of the data register has one
(44_datalink_apdu.md R280 to R306). -/
abbrev I2c.DlInv (p : I2cParams) (s : I2c) : Prop :=
  (s.dl.dst = .fctr ↔ s.dl.dFirst = none)
    ∧ s.dl.stateOk s.rw = true
    ∧ (s.dl.dst ≠ .fctr → s.phase = .data ∧ s.matched = true ∧ s.expectReg = false
        ∧ s.reg = some p.dataReg)
    ∧ (∀ f ∈ s.dl.dFirst, f < s.xfer.length
        ∧ (if s.dl.dst = .done then f + s.dl.taken ≤ s.xfer.length
           else f + s.dl.taken = s.xfer.length))
    ∧ (s.dl.dst = .len1 → s.dl.dLenStart < s.n)
    ∧ (s.dl.dst = .fcs1 → s.dl.dFcsStart < s.n)

/-- The APDU of the payload in progress (44_datalink_apdu.md R294 to R306). -/
abbrev I2c.ApInv (p : I2cParams) (s : I2c) : Prop :=
  (s.ap.ast = .cmd ↔ s.ap.aFirst = none)
    ∧ s.ap.stateOk p = true
    ∧ (s.ap.ast ≠ .cmd → s.dl.apduMode = true
        ∧ (s.dl.dst = .pay ∨ s.dl.dst = .fcs0 ∨ s.dl.dst = .fcs1 ∨ s.dl.dst = .done))
    ∧ (s.ap.ast ≠ .cmd → s.ap.ast ≠ .done → s.dl.dst = .pay)
    ∧ (s.dl.dst = .pay → s.dl.apduMode = true → (s.ap.ast = .cmd ↔ s.dl.dpay = 0))
    ∧ (∀ a ∈ s.ap.aFirst, a < s.xfer.length)
    ∧ (s.ap.ast = .len1 → s.ap.aLenStart < s.n)

/-- The frames and APDUs that ended in the open transfer: at most one of each a phase, in phase
order; a complete frame has LEN + 5 bytes (44_datalink_apdu.md R306). -/
abbrev I2c.DoneInv (s : I2c) : Prop :=
  s.dlDone.Pairwise (fun a b => a.phaseNo < b.phaseNo)
    ∧ s.apduDone.Pairwise (fun a b => a.phaseNo < b.phaseNo)
    ∧ (∀ d ∈ s.dlDone, d.first ≤ d.last ∧ d.last < s.xfer.length ∧ d.phaseNo ≤ s.phaseNo
        ∧ (d.phaseNo = s.phaseNo → s.dl.dst = .done)
        ∧ (d.complete = true → d.last + 1 = d.first + d.dlen.toNat + 5))
    ∧ (∀ a ∈ s.apduDone, a.first ≤ a.last ∧ a.last < s.xfer.length ∧ a.phaseNo ≤ s.phaseNo
        ∧ (a.phaseNo = s.phaseNo → s.ap.ast = .done))

/-- With no open transfer nothing is pending and no result waits (45_aggregator.md R355, R356). -/
abbrev I2c.ActiveInv (s : I2c) : Prop :=
  (s.active = true → s.tStart < s.n ∧ 1 ≤ s.phaseNo)
    ∧ (s.active = false → s.bitStarts = [] ∧ s.dlDone = [] ∧ s.apduDone = [])

/-- A sound I2C stack between steps. -/
abbrev I2c.Inv (p : I2cParams) (s : I2c) : Prop :=
  s.FreshInv ∧ s.BitsInv ∧ s.AckInv ∧ s.HdrInv p ∧ s.RecInv ∧ s.DlInv p ∧ s.ApInv p ∧ s.DoneInv
    ∧ s.ActiveInv

/-! ### The machine -/

/-- A sound machine between steps. -/
abbrev State.Inv (s : State) : Prop := s.spi.Inv s.cfg.spi ∧ s.i2c.Inv s.cfg.i2c

/-- A span does not end before it starts (00_scope.md R11). -/
abbrev Span.ok (a : Span) : Prop := a.ss ≤ a.es

/-! ### The terms of the statements -/

/-- An event with span `[a, b]`. -/
def evAt (a b : Rat) (e : Event) : OutEvent := ⟨⟨a, b⟩, e⟩

/-- A field that may lie in bits 2:0 of one byte, so start more than four eighths into its span: the ACK
flag, a register field and its diagnostic, ACKNR, CHAINING and PROTECTION (42_link_header.md R206,
R207; 44_datalink_apdu.md R282, R288, R290, R307). With an extrapolated byte end (41_byte_assembler.md
R171) its pseudocode may start it after the sample that completes the byte
(notes/assumptions/28.md). -/
def Event.lateField : Event → Bool
  | .hdr .ack _ _ | .regfield _ _ _ _ | .diag .infoFieldInvalid _ => true
  | .field _ .acknr _ _ | .field _ .chaining _ _ | .field _ .protection _ _ => true
  | _ => false

/-- What an event reports when no name is read: a lookup failure is the field it stands for
(60_exceptions.md R373), a name is left out, and the fields that `REG_FIELDS` gives are no part of it
(42_link_header.md R207). -/
def Event.unnamed : Event → Option Event
  | .hdr f v _ => some (.hdr f v none)
  | .field l f v _ => some (.field l f v none)
  | .spiXferSum x => some (.spiXferSum { x with regName := none })
  | .cmdSum c => some (.cmdSum { c with tagName := none, codeName := none })
  | .regfield _ _ _ _ | .diag .infoFieldInvalid _ => none
  | .diag .errUnknownReg v => some (.hdr .reg v none)
  | .diag .errUnknownTag v => some (.field .tpm .tag v none)
  | .diag .errUnknownCc v | .diag .errUnknownRc v => some (.field .tpm .code v none)
  | .diag .errUnknownI2cReg v => some (.hdr .i2cReg v none)
  | .diag .errUnknownApduCmd v => some (.field .apdu .cmd v none)
  | .diag .errUnknownApduSta v => some (.field .apdu .sta v none)
  | e => some e

/-- A list of events with spans, read without names. -/
def unnamedEvents (es : List OutEvent) : List OutEvent :=
  es.filterMap fun e => e.event.unnamed.map fun v => ⟨e.span, v⟩

/-- The machine goes on with the SPI stack `t` and everything else as in `s`. -/
def spiNext (s : State) (t : Spi) : Result := .next { s with spi := t }

/-- The machine goes on with the I2C stack `t` and everything else as in `s`. -/
def i2cNext (s : State) (t : I2c) : Result := .next { s with i2c := t }

/-- One more record fits the SPI transfer buffer (20_memory.md R73). -/
def Spi.room (p : SpiParams) (s : Spi) : Bool :=
  p.maxXferBytes.all fun m => decide (s.xfer.length + 1 ≤ m)

/-- One more record fits the I2C transfer buffer (20_memory.md R73). -/
def I2c.room (p : I2cParams) (s : I2c) : Bool :=
  p.maxXferBytes.all fun m => decide (s.xfer.length + 1 ≤ m)

end Sys2Proof.Machine
end

