-- ==== Sys2Proof/Certificates/Slice0/Obligations.lean ====
section
/-! DEFINITION. The statements for the provers. A row's result is an equation: the next state is
written out as an update of the state before, so it is the row's result, its frame and its
completion at once. `pre ++ [r]` is a transfer buffer whose last record is `r`: the byte in hand, the
one record the spec's own calls pass to a byte's operation (42_link_header.md R200, R209, R210;
notes/assumptions/8.md). -/

open Sys2Proof Sys2Proof.Machine

/-! ### Encoding and selection -/

/-- Decoding the operation word of a well-formed operation gives the operation back and leaves what
follows the word. The word's layout is the model's (notes/assumptions/10.md). -/
def Obligations.DecodeOfEncodeIsTheOperation : Prop :=
  ∀ (i : Instr) (rest : List Byte), i.wf = true → decode (encode i ++ rest) = .ok (i, rest)

/-- Words written out from the condition tables (30_encoding.md R92, R93, R94) and from the byte
layouts R96, R101, R105 decode to the rows they stand for. The selector byte after a word is the
model's choice (notes/assumptions/10.md). -/
def Obligations.WordsOfTheSpecDecode : Prop :=
  decodeTableWord 8 0b10000 = some (.spiBaseline ⟨false, false, false, false⟩)
    ∧ decodeTableWord 8 0b01000 = some (.spiCsDeassert ⟨false, false, false, false⟩)
    ∧ decodeTableWord 8 0b00100 = some (.spiCsAssert ⟨false, false, false, true⟩)
    ∧ decodeTableWord 8 0b00101 = some (.spiSckSample ⟨true, false, false, true⟩)
    ∧ decodeTableWord 8 0b00110 = some (.spiSckSampleF ⟨false, false, false, true⟩)
    ∧ decodeTableWord 8 0b00000 = some (.spiIdleStep ⟨false, false, false, false⟩)
    ∧ decode [0b00000110#8, 1#8] = .ok (.i2cStart ⟨true, false⟩, [])
    ∧ decode [0b00100101#8, 1#8] = .ok (.i2cStop ⟨true, true⟩, [])
    ∧ decode [0x89#8, 17#8] = .ok (.spiHdr0 .read 9#7, [])
    ∧ decode [0x61#8, 26#8] = .ok (.i2cAddr 0x30#7 .read, [])
    ∧ decode [0x28#8, 41#8] = .ok (.dlPctr 2#4 1#1 0#3, [])

/-- The rows of the SPI condition table hit exactly on the conditions the table gives in words
(30_encoding.md R92, R93); the I2C row selected is that of the first condition that holds, by the state
that selects among its operations (R94, R95). -/
def Obligations.ConditionRowsSelectOperations : Prop :=
  (∀ (first prevAsserted prevSck : Bool) (x : SpiLevels),
    let hits := spiHits (cs5 first prevAsserted prevSck x)
    (.baseline ∈ hits ↔ first = true)
      ∧ (.csDeassert ∈ hits ↔ first = false ∧ prevAsserted = true ∧ x.asserted = false)
      ∧ (.csAssert ∈ hits ↔ first = false ∧ prevAsserted = false ∧ x.asserted = true)
      ∧ (.sckSample ∈ hits ↔ first = false ∧ x.asserted = true ∧ prevSck = false ∧ x.sck = true)
      ∧ (.sckSampleF ∈ hits ↔ first = false ∧ x.asserted = true ∧ prevSck = true ∧ x.sck = false))
    ∧ ∀ (first prevScl prevSda active awaitAck : Bool) (x : I2cSample),
    i2cSelect (ci5 first prevScl prevSda x) active awaitAck x =
      if first = true then .i2cBaseline x
      else if x.scl = true ∧ prevSda = true ∧ x.sda = false then
        (if active = true then .i2cRstart x else .i2cStart x)
      else if x.scl = true ∧ prevSda = false ∧ x.sda = true then
        (if active = true then .i2cStop x else .i2cStrayStop x)
      else if prevScl = false ∧ x.scl = true ∧ active = true then
        (if awaitAck = true then .i2cAck x else .i2cBit x)
      else .i2cIdleStep x

/-- The fields of a byte, put together again, are the byte (30_encoding.md R96, R101, R103, R105,
R106), and so are the levels of a sample word, which are its bits from SCK up, and from SCL up
(R90, R91). -/
def Obligations.FieldsRebuildTheByteOrSampleWord : Prop :=
  (∀ b : Byte, hdr0Byte (hdr0Dir b) (hdr0Count b) = b
    ∧ addrByte (addrBits b) (addrDir b) = b
    ∧ fctrByte (b.extractLsb' 7 1) (b.extractLsb' 5 2) (b.extractLsb' 4 1) (b.extractLsb' 2 2)
        (b.extractLsb' 0 2) = b
    ∧ pctrByte (b.extractLsb' 4 4) (b.extractLsb' 3 1) (b.extractLsb' 0 3) = b
    ∧ sctrByte (b.extractLsb' 6 2) (b.extractLsb' 2 4) (b.extractLsb' 0 2) = b)
    ∧ (∀ w : BitVec 4, spiSampleWord (spiSampleOfWord w) = w
      ∧ ∀ sck mosi miso cs : Bit, spiSampleOfWord w = ⟨sck, mosi, miso, cs⟩ ↔
        w.toNat = sck.toNat + 2 * mosi.toNat + 4 * miso.toNat + 8 * cs.toNat)
    ∧ ∀ w : BitVec 2, i2cSampleWord (i2cSampleOfWord w) = w
      ∧ ∀ scl sda : Bit, i2cSampleOfWord w = ⟨scl, sda⟩ ↔ w.toNat = scl.toNat + 2 * sda.toNat

/-! ### The step -/

/-- An SPI step takes the levels of the sample word (30_encoding.md R90) and runs the baseline, or the
chip-select row and the sampling row whose conditions hold, in that order, then the epilogue
(40_sampler.md R134). With no row it is SPI_IDLE_STEP (R136). With `boundStarts` an event of the step
that starts after its sample starts at the sample instead (10_state.md R66); that there are the two
settings is the model's choice (notes/assumptions/28.md). -/
def Obligations.SpiStepRunsTheSelectedRows : Prop :=
  ∀ (s : State) (word : BitVec 4) (rest : List PortInput),
    s.port = .spi word :: rest → (s.cfg.spi.haveMosi = true ∨ s.cfg.spi.haveMiso = true) →
    (∀ w, s.cfg.spi.sampleW = some w → s.spi.n + 1 < 2 ^ w) →
    let p := s.cfg.spi
    let x : SpiSample :=
      ⟨word.getLsbD 0, word.getLsbD 1, word.getLsbD 2, word.getLsbD 3⟩
    let s0 : State := { s with port := rest }
    let a := !p.haveCs || (match p.csPolarity with | .activeLow => !x.cs | .activeHigh => x.cs)
    let l : SpiLevels := ⟨x.sck, x.mosi, x.miso, a⟩
    let ops : List Instr :=
      if s.spi.first = true then [.spiBaseline l]
      else
        (if p.haveCs = true ∧ s.spi.prevAsserted = true ∧ a = false then [.spiCsDeassert l] else [])
          ++ (if p.haveCs = true ∧ s.spi.prevAsserted = false ∧ a = true then [.spiCsAssert l]
              else [])
          ++ (match p.sampleEdge with
            | .rising =>
              if a = true ∧ s.spi.prevSck = false ∧ x.sck = true then [.spiSckSample l] else []
            | .falling =>
              if a = true ∧ s.spi.prevSck = true ∧ x.sck = false then [.spiSckSampleF l] else [])
    step s = thenNext (execAll ops s0) (fun t =>
        { t with spi := { t.spi with
          prevSck := x.sck, prevAsserted := a, n := t.spi.n + 1,
          out := if p.boundStarts = true then
              s.spi.out ++ (t.spi.out.drop s.spi.out.length).map fun e =>
                evAt (min e.span.ss s.spi.n) e.span.es e.event
            else t.spi.out } })
      ∧ (ops = [] → step s = exec (.spiIdleStep l) s0)

/-- An I2C step takes the levels of the sample word (30_encoding.md R91) and runs the first condition
that holds, then the epilogue; the baseline, a stray STOP and an idle sample do the epilogue alone
(40_sampler.md R158). With `boundStarts` an event of the step that starts after its sample starts at
the sample instead (10_state.md R66); that there are the two settings is the model's choice
(notes/assumptions/28.md). -/
def Obligations.I2cStepRunsTheSelectedRow : Prop :=
  ∀ (s : State) (word : BitVec 2) (rest : List PortInput),
    s.port = .i2c word :: rest → (∀ w, s.cfg.i2c.sampleW = some w → s.i2c.n + 1 < 2 ^ w) →
    let t := s.i2c
    let x : I2cSample := ⟨word.getLsbD 0, word.getLsbD 1⟩
    let s0 : State := { s with port := rest }
    let fin : State → State := fun u =>
      { u with i2c := { u.i2c with
        prevScl := x.scl, prevSda := x.sda, n := u.i2c.n + 1,
        out := if s.cfg.i2c.boundStarts = true then
            t.out ++ (u.i2c.out.drop t.out.length).map fun e =>
              evAt (min e.span.ss t.n) e.span.es e.event
          else u.i2c.out } }
    step s =
      if t.first = true then exec (.i2cBaseline x) s0
      else if x.scl = true ∧ t.prevSda = true ∧ x.sda = false then
        thenNext (exec (if t.active = true then .i2cRstart x else .i2cStart x) s0) fin
      else if x.scl = true ∧ t.prevSda = false ∧ x.sda = true then
        (if t.active = true then thenNext (exec (.i2cStop x) s0) fin
         else exec (.i2cStrayStop x) s0)
      else if t.prevScl = false ∧ x.scl = true ∧ t.active = true then
        thenNext (exec (if t.bitcnt < 8 then .i2cBit x else .i2cAck x) s0) fin
      else exec (.i2cIdleStep x) s0

/-- The steps that take no sample: no input leaves the state (10_state.md R25); a reset runs Reset;
parameters are taken before a stack's first sample and refused after it (70_reset_and_hazards.md
R405; notes/assumptions/17.md); neither data lane is refused (R407), and so is a stream of
`2^SAMPLE_W` samples (60_exceptions.md R377). -/
def Obligations.StepTakesOtherInputsOrRefuses : Prop :=
  ∀ (s : State) (rest : List PortInput),
    (s.port = [] → step s = .next s)
      ∧ (s.port = .reset :: rest → step s = exec .reset { s with port := rest })
      ∧ (∀ c, s.port = .params c :: rest → s.spi.first = true → s.i2c.first = true →
          step s = .next { s with port := rest, cfg := c })
      ∧ (∀ c, s.port = .params c :: rest →
          (s.spi.first = false ∧ c.spi ≠ s.cfg.spi ∨ s.i2c.first = false ∧ c.i2c ≠ s.cfg.i2c) →
          step s = .refused .paramsChanged)
      ∧ (∀ x, s.port = .spi x :: rest → s.cfg.spi.haveMosi = false → s.cfg.spi.haveMiso = false →
          step s = .refused .noDataLane)
      ∧ (∀ x w, s.port = .spi x :: rest → s.cfg.spi.haveMosi = true → s.cfg.spi.sampleW = some w →
          2 ^ w ≤ s.spi.n + 1 → step s = .refused (.sampleW w))
      ∧ (∀ x w, s.port = .i2c x :: rest → s.cfg.i2c.sampleW = some w → 2 ^ w ≤ s.i2c.n + 1 →
          step s = .refused (.sampleW w))

/-- A table word placed by `withFetchWord` is run by the very next step: SPI_IDLE_STEP as it is, every
other row followed by the epilogue of the step and its event port. How a word is placed, and that the
port has two settings, are the model's choices (notes/assumptions/10.md, 11.md, 28.md). -/
def Obligations.StepRunsThePlacedWord : Prop :=
  ∀ (s : State) (w : Nat) (i : Instr), w < 128 →
    (s.cfg.spi.haveMosi = true ∨ s.cfg.spi.haveMiso = true) → s.cfg.spi.sampleW = none →
    decodeTableWord 8 w = some i →
    let u := s.withFetchWord 8 w
    let u0 : State := { u with port := s.port }
    i.wf = true ∧ ∃ x : SpiLevels,
      (i = .spiIdleStep x ∧ step u = exec i u0)
        ∨ (i ∈ [.spiBaseline x, .spiCsDeassert x, .spiCsAssert x, .spiSckSample x,
              .spiSckSampleF x]
            ∧ step u = thenNext (exec i u0) (fun t =>
              { t with spi := { t.spi with
                prevSck := x.sck, prevAsserted := x.asserted, n := t.spi.n + 1,
                out := portEvents s.cfg.spi.boundStarts u.spi.n u.spi.out t.spi.out } }))

/-! ### The machine as a whole -/

/-- The state after reset, under any parameters, is sound. -/
def Obligations.ResetStateIsSound : Prop :=
  State.reset.Inv ∧ ∀ c : Config, { State.reset with cfg := c }.Inv

/-- Every step from a sound state leads to a sound state (`State.Inv`: 10_state.md R27, R32;
40_sampler.md R138; 42_link_header.md R209, R217; 43_command_framer.md R249; 44_datalink_apdu.md
R306). -/
def Obligations.StepKeepsSoundness : Prop :=
  ∀ s t : State, s.Inv → step s = .next t → t.Inv

/-- No step from a sound state faults: the faults of the model are never reached (20_memory.md R72,
60_exceptions.md R371). -/
def Obligations.SoundStateNeverFaults : Prop :=
  ∀ (s : State) (r : Fault), s.Inv → step s ≠ .fault r

/-- Every event a step from a sound state emits has a span that does not end before it starts
(00_scope.md R11). -/
def Obligations.StepEmitsOrderedSpans : Prop :=
  ∀ s t : State, s.Inv → step s = .next t →
    (∀ e ∈ t.spi.out.drop s.spi.out.length, e.span.ok)
      ∧ ∀ e ∈ t.i2c.out.drop s.i2c.out.length, e.span.ok

/-- Under `boundStarts` no event of either stack starts after the sample whose step emits it, in any
state (10_state.md R66, 90_conflicts.md C5). That the bound can be switched off, where the pseudocode
of a late bit field breaks it, is the model's choice (notes/assumptions/28.md); for every other event
StepOnlyAppendsEvents states it under both settings. -/
def Obligations.EventStartsBySampleOfItsStep : Prop :=
  ∀ s t : State, step s = .next t →
    (s.cfg.spi.boundStarts = true →
        ∀ e ∈ t.spi.out.drop s.spi.out.length, e.span.ss ≤ (s.spi.n : Rat))
      ∧ (s.cfg.i2c.boundStarts = true →
        ∀ e ∈ t.i2c.out.drop s.i2c.out.length, e.span.ss ≤ (s.i2c.n : Rat))

/-- A step only adds events at the end: none is recalled, not even by a reset (10_state.md R66,
70_reset_and_hazards.md R402). From a sound state no event but a late bit field starts after the
sample whose step emits it (R66; notes/assumptions/28.md). That State keeps the events is the model's
choice (notes/assumptions/5.md). -/
def Obligations.StepOnlyAppendsEvents : Prop :=
  ∀ s t : State, step s = .next t →
    s.spi.out <+: t.spi.out ∧ s.i2c.out <+: t.i2c.out
      ∧ (s.Inv →
        (∀ e ∈ t.spi.out.drop s.spi.out.length, e.event.lateField = false →
          e.span.ss ≤ (s.spi.n : Rat))
        ∧ ∀ e ∈ t.i2c.out.drop s.i2c.out.length, e.event.lateField = false →
          e.span.ss ≤ (s.i2c.n : Rat))

/-- A sample of one stack leaves the other stack and the parameters as they are, and what its step
does does not depend on the other stack (00_scope.md R2). -/
def Obligations.StacksShareNothing : Prop :=
  (∀ (s u t : State) (x : BitVec 4) (r q : List PortInput),
      s.port = .spi x :: r → u.port = .spi x :: q → u.cfg.spi = s.cfg.spi → u.spi = s.spi →
      step s = .next t →
      t.i2c = s.i2c ∧ t.cfg = s.cfg ∧ t.port = r ∧ ∃ v, step u = .next v ∧ v.spi = t.spi)
    ∧ ∀ (s u t : State) (x : BitVec 2) (r q : List PortInput),
      s.port = .i2c x :: r → u.port = .i2c x :: q → u.cfg.i2c = s.cfg.i2c → u.i2c = s.i2c →
      step s = .next t →
      t.spi = s.spi ∧ t.cfg = s.cfg ∧ t.port = r ∧ ∃ v, step u = .next v ∧ v.i2c = t.i2c

/-- The sample index of a stack goes up by one with every sample of it, to 0 with a reset, and is
written by nothing else (10_state.md R22). -/
def Obligations.SampleIndexCountsSamples : Prop :=
  ∀ s t : State, step s = .next t →
    match s.port with
    | .spi _ :: _ => t.spi.n = s.spi.n + 1 ∧ t.i2c.n = s.i2c.n
    | .i2c _ :: _ => t.spi.n = s.spi.n ∧ t.i2c.n = s.i2c.n + 1
    | .reset :: _ => t.spi.n = 0 ∧ t.i2c.n = 0
    | _ => t.spi.n = s.spi.n ∧ t.i2c.n = s.i2c.n

/-- After a reset the machine runs any inputs exactly as the machine that has just been reset runs
them under the same parameters; only the events emitted before stand in front
(70_reset_and_hazards.md R402 to R404). The list of waiting inputs is the model's choice
(notes/assumptions/4.md, 26.md). -/
def Obligations.ResetForgetsThePast : Prop :=
  ∀ (s : State) (inputs : List PortInput) (k : Nat),
    Host.Core.run Sys2Proof.core (k + 1) { s with port := .reset :: inputs } =
      thenNext (Host.Core.run Sys2Proof.core k { State.reset with cfg := s.cfg, port := inputs })
        (fun u => { u with
          spi := { u.spi with out := s.spi.out ++ u.spi.out }
          i2c := { u.i2c with out := s.i2c.out ++ u.i2c.out } })

/-- With other name tables and field tables a sample is decoded into the same registers, byte for
byte, but the two `known` flags, and emits the same events with the same spans in the same order, but
for names, for the lookup failures that stand for named fields, and for the fields REG_FIELDS gives
(43_command_framer.md R250, 70_reset_and_hazards.md R408, 60_exceptions.md R371, R373). -/
def Obligations.NameTablesDecideOnlyNames : Prop :=
  ∀ (s u t : State) (a : PortInput) (rest : List PortInput),
    s.port = a :: rest → u.port = a :: rest →
    ((∃ x, a = .spi x) ∨ ∃ x, a = .i2c x) →
    u.cfg.spi = { s.cfg.spi with
      knownReg := u.cfg.spi.knownReg
      knownTag := u.cfg.spi.knownTag
      knownCc := u.cfg.spi.knownCc
      knownRc := u.cfg.spi.knownRc
      regFields := u.cfg.spi.regFields } →
    u.cfg.i2c = { s.cfg.i2c with
      knownReg := u.cfg.i2c.knownReg
      knownApduCmd := u.cfg.i2c.knownApduCmd
      knownApduSta := u.cfg.i2c.knownApduSta
      regFields := u.cfg.i2c.regFields } →
    u.spi = { s.spi with out := u.spi.out, hdrRegKnown := u.spi.hdrRegKnown } →
    u.i2c = { s.i2c with out := u.i2c.out, regKnown := u.i2c.regKnown } →
    step s = .next t →
    ∃ v, step u = .next v
      ∧ v.spi = { t.spi with out := v.spi.out, hdrRegKnown := v.spi.hdrRegKnown }
      ∧ v.i2c = { t.i2c with out := v.i2c.out, regKnown := v.i2c.regKnown }
      ∧ unnamedEvents (v.spi.out.drop u.spi.out.length) =
        unnamedEvents (t.spi.out.drop s.spi.out.length)
      ∧ unnamedEvents (v.i2c.out.drop u.i2c.out.length) =
        unnamedEvents (t.i2c.out.drop s.i2c.out.length)

/-- In a sound state an I2C sample changes the register number only where a matched WRITE phase awaits
it (42_link_header.md R212, R216). -/
def Obligations.RegisterNumberChangesOnlyByRegnum : Prop :=
  ∀ (s t : State) (x : BitVec 2) (rest : List PortInput), s.Inv → s.port = .i2c x :: rest →
    step s = .next t → t.i2c.reg ≠ s.i2c.reg →
    s.i2c.active = true ∧ s.i2c.phase = .data ∧ s.i2c.matched = true
      ∧ s.i2c.rw = some .write ∧ s.i2c.expectReg = true

/-- A step completes at most one byte (40_sampler.md R137, R159). In a sound state a record that is in a
buffer already stays as it is until the buffer is cleared for the next transfer, but for the
acknowledge flag of an I2C record (20_memory.md R71, 40_sampler.md R154). -/
def Obligations.OneByteCompletesPerStep : Prop :=
  ∀ s t : State, step s = .next t →
    t.spi.xfer.length ≤ s.spi.xfer.length + 1 ∧ t.i2c.xfer.length ≤ s.i2c.xfer.length + 1
      ∧ (s.Inv → (t.spi.xfer = [] ∨ s.spi.xfer <+: t.spi.xfer)
        ∧ (t.i2c.xfer = []
          ∨ s.i2c.xfer.map (fun r => { r with ack := none })
            <+: t.i2c.xfer.map (fun r => { r with ack := none })))

/-- Without a chip-select channel the transfer never closes: no sample ends it, and no BUS event and
no summary follows (40_sampler.md R135). -/
def Obligations.WithoutChipSelectNothingCloses : Prop :=
  ∀ (s t : State) (x : BitVec 4) (rest : List PortInput), s.port = .spi x :: rest →
    s.cfg.spi.haveCs = false → s.spi.first = false → s.spi.active = true → step s = .next t →
    t.spi.active = true ∧ ∀ e ∈ t.spi.out.drop s.spi.out.length, ∀ b c d,
      e.event ≠ .bus b ∧ e.event ≠ .spiXferSum c ∧ e.event ≠ .cmdSum d

/-- Summaries are emitted only by a step that ends a transfer (45_aggregator.md R330). -/
def Obligations.SummariesOnlyAtATransferEnd : Prop :=
  ∀ (s t : State) (e : OutEvent), step s = .next t →
    (e ∈ t.spi.out.drop s.spi.out.length →
        ((∃ c, e.event = .spiXferSum c) ∨ ∃ c, e.event = .cmdSum c) →
        s.cfg.spi.haveCs = true ∧ s.spi.active = true ∧ t.spi.active = false)
      ∧ (e ∈ t.i2c.out.drop s.i2c.out.length →
        ((∃ c, e.event = .i2cXferSum c) ∨ (∃ c, e.event = .reglenSum c)
          ∨ (∃ c, e.event = .dlSum c) ∨ ∃ c, e.event = .apduSum c) →
        s.i2c.active = true ∧ t.i2c.active = false)

/-! ### Spans -/

/-- The bit ends of a byte: each bit ends where the next starts; the last ends at the condition, or
one bit interval after its start, or at the next sample (41_byte_assembler.md R171). Every bit ends
after it starts (R176). -/
def Obligations.BitEndsFollowTheNextStart : Prop :=
  ∀ (starts : List Nat) (lastEnd : Option Nat) (a : Nat), starts.getLast? = some a →
    starts.Pairwise (· < ·) → (∀ t, lastEnd = some t → a < t) →
    ∃ ends, bitEnds starts lastEnd = .ok ends ∧ ends.length = starts.length
      ∧ (∀ i, i + 1 < starts.length → ends[i]? = starts[i + 1]?)
      ∧ (∀ t, lastEnd = some t → ends.getLast? = some t)
      ∧ (lastEnd = none → ∀ b, starts[starts.length - 2]? = some b → 2 ≤ starts.length →
          ends.getLast? = some (a + (a - b)))
      ∧ (lastEnd = none → starts.length = 1 → ends.getLast? = some (a + 1))
      ∧ ∀ (i b e : Nat), starts[i]? = some b → ends[i]? = some e → b < e

/-- Sub-byte spans tile the byte and even spans tile the transfer (00_scope.md R14,
45_aggregator.md R331, R332). -/
def Obligations.SpansTileTheByteAndTheTransfer : Prop :=
  (∀ (sp : Span) (off w v : Nat), sp.ss ≤ sp.es → off + w ≤ 8 →
      (subSpan sp 0 8 = sp)
        ∧ (subSpan sp off w).es = (subSpan sp (off + w) v).ss
        ∧ sp.ss ≤ (subSpan sp off w).ss ∧ (subSpan sp off w).ss ≤ (subSpan sp off w).es
        ∧ (subSpan sp off w).es ≤ sp.es)
    ∧ ∀ (t0 t1 count : Nat) (w : Rat), t0 < t1 → evenWidth t0 t1 count = some w →
      0 < w ∧ (evenSpan t0 w 0 0).ss = t0 ∧ (evenSpan t0 w 0 (count - 1)).es = t1
        ∧ (∀ i, (evenSpan t0 w i i).es = (evenSpan t0 w (i + 1) (i + 1)).ss)
        ∧ ∀ i, i < count → (t0 : Rat) ≤ (evenSpan t0 w i i).ss ∧ (evenSpan t0 w i i).es ≤ t1

/-! ### The samplers -/

/-- SPI_CS_ASSERT opens a transfer at the sample in hand and leaves the framer as it is
(40_sampler.md R132); SPI_BASELINE takes the levels and opens a transfer when chip select is asserted
(R130). -/
def Obligations.BaselineAndAssertOpenATransfer : Prop :=
  ∀ (s : State) (x : SpiLevels),
    let opened : Spi := { s.spi with
      active := true, tStart := s.spi.n, bitcnt := 0, accMosi := 0#8, accMiso := 0#8,
      bitStarts := [], pos := 0, hdrDir := none, hdrCount := none, hdrAddrHi := none,
      hdrRegHi := none, hdrReg := none, hdrRegKnown := false, hdrAck := none, hdrRouted := false,
      hdrB0Span := (0, 0), hdrB2Start := 0, xfer := [],
      out := s.spi.out ++ [evAt s.spi.n s.spi.n (.bus .active)] }
    exec (.spiCsAssert x) s = spiNext s opened
      ∧ (x.asserted = true → exec (.spiBaseline x) s =
          spiNext s { opened with prevSck := x.sck, prevAsserted := true, first := false })
      ∧ (x.asserted = false → exec (.spiBaseline x) s =
          spiNext s { s.spi with prevSck := x.sck, prevAsserted := false, first := false })

/-- SPI_CS_DEASSERT (40_sampler.md R131): outside a transfer it does nothing; with no bit pending the
bus goes idle, the aggregator pass runs and the transfer closes; with bits pending a warning and the
truncated byte come first (41_byte_assembler.md R175). -/
def Obligations.DeassertClosesTheTransfer : Prop :=
  ∀ (s : State) (x : SpiLevels),
    let idle : State → State := fun u => { u with spi := { u.spi with
      out := u.spi.out ++ [evAt u.spi.n u.spi.n (.bus .idle)] } }
    let close : State → State := fun u => { u with spi := { u.spi with active := false } }
    (s.spi.active = false → exec (.spiCsDeassert x) s = .next s)
      ∧ (s.spi.active = true → s.spi.bitcnt = 0 →
          exec (.spiCsDeassert x) s = thenNext (exec .aggregateSpi (idle s)) close)
      ∧ (s.spi.active = true → s.spi.bitcnt = 0 → s.spi.xfer = [] → s.spi.fst = .idle →
          exec (.spiCsDeassert x) s = spiNext s { s.spi with
            active := false, closed := [],
            out := s.spi.out ++ [evAt s.spi.n s.spi.n (.bus .idle)] })
      ∧ ∀ (b : Nat) (bs : List Nat) (u : State), s.spi.active = true → 0 < s.spi.bitcnt →
          s.spi.bitStarts = b :: bs →
          exec (.completeSpiByte true) { s with spi := { s.spi with
            out := s.spi.out ++ [evAt b s.spi.n (.diag .warnCsMidByte s.spi.bitcnt)] } } = .next u →
          exec (.spiCsDeassert x) s = thenNext (exec .aggregateSpi (idle u)) close

/-- A sampling edge of either kind shifts one bit into each present lane; the eighth bit of a byte
completes it (40_sampler.md R133). -/
def Obligations.SckSampleShiftsOneBit : Prop :=
  ∀ (s : State) (x : SpiLevels) (i : Instr), (i = .spiSckSample x ∨ i = .spiSckSampleF x) →
    let t : Spi := { s.spi with
      accMosi := if s.cfg.spi.haveMosi then s.spi.accMosi.extractLsb' 0 7 ++ BitVec.ofBool x.mosi
        else s.spi.accMosi
      accMiso := if s.cfg.spi.haveMiso then s.spi.accMiso.extractLsb' 0 7 ++ BitVec.ofBool x.miso
        else s.spi.accMiso
      bitStarts := s.spi.bitStarts ++ [s.spi.n]
      bitcnt := s.spi.bitcnt + 1 }
    (s.spi.bitcnt ≠ 7 → exec i s = spiNext s t)
      ∧ (s.spi.bitcnt = 7 → exec i s = exec (.completeSpiByte false) { s with spi := t })

/-- A sample that meets no condition changes only the previous levels and the sample index
(40_sampler.md R136, R156, R157); the I2C baseline also clears `first` (R150). -/
def Obligations.IdleRowsDoTheEpilogueAlone : Prop :=
  ∀ (s : State) (x : SpiLevels) (y : I2cSample),
    exec (.spiIdleStep x) s = spiNext s { s.spi with
        prevSck := x.sck, prevAsserted := x.asserted, n := s.spi.n + 1 }
      ∧ exec (.i2cStrayStop y) s = i2cNext s { s.i2c with
        prevScl := y.scl, prevSda := y.sda, n := s.i2c.n + 1 }
      ∧ exec (.i2cIdleStep y) s = i2cNext s { s.i2c with
        prevScl := y.scl, prevSda := y.sda, n := s.i2c.n + 1 }
      ∧ exec (.i2cBaseline y) s = i2cNext s { s.i2c with
        prevScl := y.scl, prevSda := y.sda, first := false, n := s.i2c.n + 1 }

/-- I2C_START opens a transfer and its first phase; the register number stays (40_sampler.md
R151). -/
def Obligations.StartOpensATransferAndAPhase : Prop :=
  ∀ (s : State) (x : I2cSample),
    exec (.i2cStart x) s = i2cNext s { s.i2c with
      active := true, tStart := s.i2c.n, xfer := [], phaseNo := 1, dlDone := [], apduDone := [],
      phase := .addr, rw := none, addr7 := none, matched := false, expectReg := false, j := 0,
      bitcnt := 0, acc := 0#8, bitStarts := [], ackIdx := none, dl := Dl.reset, ap := Ap.reset,
      out := s.i2c.out ++ [evAt s.i2c.n s.i2c.n (.bus .active),
        evAt s.i2c.n s.i2c.n (.cond .start)] }

/-- I2C_RSTART deals with a partial byte, ends the phase and begins a new one in the same transfer
(40_sampler.md R152). With at most one bit or a whole byte pending and no datalink frame begun the
result is written out. -/
def Obligations.RstartEndsThePhaseAndBeginsOne : Prop :=
  ∀ (s : State) (x : I2cSample),
    let begun : I2c → I2c := fun t => { t with
      phaseNo := t.phaseNo + 1, phase := .addr, rw := none, addr7 := none, matched := false,
      expectReg := false, j := 0, bitcnt := 0, acc := 0#8, bitStarts := [], ackIdx := none,
      dl := Dl.reset, ap := Ap.reset,
      out := t.out ++ [evAt s.i2c.n s.i2c.n (.cond .rstart)] }
    (∀ a b : State, exec .partialAtCondition s = .next a → exec .endPhase a = .next b →
        exec (.i2cRstart x) s = i2cNext b (begun b.i2c))
      ∧ ((s.i2c.bitcnt ≤ 1 ∨ s.i2c.bitcnt = 8) → s.i2c.dl.dFirst = none →
        exec (.i2cRstart x) s = i2cNext s (begun s.i2c))

/-- I2C_STOP deals with a partial byte, ends the phase, reports the condition and the idle bus, runs
the aggregator pass and closes the transfer (40_sampler.md R155). With at most one bit or a whole byte
pending, no datalink frame begun and no byte in the transfer the result is written out. -/
def Obligations.StopEndsTheTransfer : Prop :=
  ∀ (s : State) (x : I2cSample),
    let evs : List OutEvent :=
      [evAt s.i2c.n s.i2c.n (.cond .stop), evAt s.i2c.n s.i2c.n (.bus .idle)]
    (∀ a b : State, exec .partialAtCondition s = .next a → exec .endPhase a = .next b →
        exec (.i2cStop x) s =
          thenNext (exec .aggregateI2c { b with i2c := { b.i2c with out := b.i2c.out ++ evs } })
            (fun u => { u with i2c := { u.i2c with active := false } }))
      ∧ ((s.i2c.bitcnt ≤ 1 ∨ s.i2c.bitcnt = 8) → s.i2c.dl.dFirst = none → s.i2c.xfer = [] →
        exec (.i2cStop x) s = i2cNext s { s.i2c with
          active := false, bitcnt := 0, acc := 0#8, bitStarts := [], ackIdx := none,
          dlDone := [], apduDone := [], out := s.i2c.out ++ evs })

/-- An SCL rise outside the acknowledge slot shifts one bit in; the eighth completes the byte, and the
bits stay pending for the acknowledge bit (40_sampler.md R153). The acknowledge bit is low for ACK; it
is reported with the width since the last data bit, written to the byte that awaits it, and the
accumulator clears (R154). -/
def Obligations.DataBitAndAcknowledgeBit : Prop :=
  ∀ (s : State) (x : I2cSample) (b : Nat),
    let t : I2c := { s.i2c with
      acc := s.i2c.acc.extractLsb' 0 7 ++ BitVec.ofBool x.sda
      bitStarts := s.i2c.bitStarts ++ [s.i2c.n]
      bitcnt := s.i2c.bitcnt + 1 }
    (s.i2c.bitcnt ≠ 7 → exec (.i2cBit x) s = i2cNext s t)
      ∧ (s.i2c.bitcnt = 7 → exec (.i2cBit x) s = exec (.completeI2cByte false) { s with i2c := t })
      ∧ (s.i2c.bitStarts[7]? = some b → b ≤ s.i2c.n →
    (∀ k, s.i2c.ackIdx = some k → k < s.i2c.xfer.length) →
    exec (.i2cAck x) s = i2cNext s { s.i2c with
      bitcnt := 0, acc := 0#8, bitStarts := [], ackIdx := none,
      xfer := match s.i2c.ackIdx with
        | some k => s.i2c.xfer.modify k fun r => { r with ack := some (x.sda == false) }
        | none => s.i2c.xfer
      out := s.i2c.out ++ [evAt s.i2c.n (s.i2c.n + (s.i2c.n - b)) (.ack (x.sda == false))] })

/-! ### The byte assembler -/

/-- CompleteSpiByte forms one byte per present lane from the pending bits, left aligned, reports its
bits and itself, appends one record and gives it to the header row its position selects
(41_byte_assembler.md R173 to R175, 42_link_header.md R200, R205, R208). -/
def Obligations.SpiByteGoesToItsHeaderRow : Prop :=
  ∀ (s : State) (tr : Bool) (b : Nat) (bs ends : List Nat) (stop : Nat),
    let t := s.spi
    let p := s.cfg.spi
    t.bitStarts = b :: bs → t.bitcnt = bs.length + 1 → t.bitcnt ≤ 8 →
    bitEnds t.bitStarts (if tr then some t.n else none) = .ok ends → ends.getLast? = some stop →
    t.room p = true → t.pos = t.xfer.length →
    let mv : Byte := t.accMosi <<< (8 - t.bitcnt)
    let sv : Byte := t.accMiso <<< (8 - t.bitcnt)
    let bits : Byte → List BitRec := fun v => (List.range t.bitcnt).map fun k =>
      ⟨v.getLsbD (7 - k), t.bitStarts.getD k 0, ends.getD k 0⟩
    let r : SpiByteRec := ⟨if p.haveMosi then some mv else none,
      if p.haveMiso then some sv else none, b, stop, tr, .header, none⟩
    let u : State := { s with spi := { t with
      bitcnt := 0, accMosi := 0#8, accMiso := 0#8, bitStarts := [], pos := t.pos + 1,
      xfer := t.xfer ++ [r],
      out := t.out
        ++ (if p.haveMosi then [evAt b stop (.bits .mosi (bits mv)), evAt b stop (.byte .mosi mv tr)]
            else [])
        ++ (if p.haveMiso then [evAt b stop (.bits .miso (bits sv)), evAt b stop (.byte .miso sv tr)]
            else []) } }
    (p.haveMosi = false → exec (.completeSpiByte tr) s = exec (.spiNoHeader sv) u)
      ∧ (p.haveMosi = true → t.pos = 0 →
          exec (.completeSpiByte tr) s = exec (.spiHdr0 (hdr0Dir mv) (hdr0Count mv)) u)
      ∧ (p.haveMosi = true → t.pos = 1 → exec (.completeSpiByte tr) s = exec (.spiHdr1 mv) u)
      ∧ (p.haveMosi = true → t.pos = 2 → exec (.completeSpiByte tr) s = exec (.spiHdr2 mv) u)
      ∧ (p.haveMosi = true → t.pos = 3 → exec (.completeSpiByte tr) s = exec (.spiHdr3 mv) u)
      ∧ ∀ (d : Dir) (c : Nat), p.haveMosi = true → 4 ≤ t.pos → t.hdrDir = some d →
          t.hdrCount = some c →
          exec (.completeSpiByte tr) s =
            if c ≤ t.pos - 4 then exec (.spiExcess mv) u
            else exec (.spiData (match d with | .write => r.mosi | .read => r.miso)) u

/-- CompleteI2cByte forms the byte from the pending bits, left aligned, reports its bits and itself,
appends one record, awaits the acknowledge bit of a whole byte, and gives the record to the header row
the phase selects (41_byte_assembler.md R177, R179; 42_link_header.md R210). -/
def Obligations.I2cByteGoesToItsHeaderRow : Prop :=
  ∀ (s : State) (tr : Bool) (b : Nat) (bs ends : List Nat) (stop : Nat),
    let t := s.i2c
    t.bitStarts = b :: bs → t.bitcnt = bs.length + 1 → t.bitcnt ≤ 8 →
    bitEnds t.bitStarts (if tr then some t.n else none) = .ok ends → ends.getLast? = some stop →
    t.room s.cfg.i2c = true →
    let v : Byte := t.acc <<< (8 - t.bitcnt)
    let bits : List BitRec := (List.range t.bitcnt).map fun k =>
      ⟨v.getLsbD (7 - k), t.bitStarts.getD k 0, ends.getD k 0⟩
    let r : I2cByteRec := ⟨v, b, stop, tr, t.phaseNo, .raw, t.rw, none⟩
    let u : State := { s with i2c := { t with
      xfer := t.xfer ++ [r],
      ackIdx := if tr then t.ackIdx else some t.xfer.length,
      out := t.out ++ [evAt b stop (.bits .sda bits), evAt b stop (.byte .sda v tr)] } }
    exec (.completeI2cByte tr) s =
      if t.phase = .addr then exec (.i2cAddr (addrBits v) (addrDir v)) u
      else if t.matched = false then exec (.i2cRaw v) u
      else if t.expectReg = true then exec (.i2cRegnum v) u
      else exec (.i2cRegdata v) u

/-- PartialAtCondition completes two to seven pending bits as a truncated byte after a warning; any
other number is dropped without a diagnostic; then the accumulator clears (41_byte_assembler.md
R178). -/
def Obligations.PartialByteAtACondition : Prop :=
  ∀ s : State,
    let clear : I2c → I2c := fun t =>
      { t with bitcnt := 0, acc := 0#8, bitStarts := [], ackIdx := none }
    ((s.i2c.bitcnt ≤ 1 ∨ 8 ≤ s.i2c.bitcnt) →
        exec .partialAtCondition s = i2cNext s (clear s.i2c))
      ∧ ∀ (b : Nat) (bs : List Nat), 2 ≤ s.i2c.bitcnt → s.i2c.bitcnt ≤ 7 →
        s.i2c.bitStarts = b :: bs →
        exec .partialAtCondition s =
          thenNext (exec (.completeI2cByte true) { s with i2c := { s.i2c with
            out := s.i2c.out ++ [evAt b s.i2c.n (.diag .warnI2cPartialByte s.i2c.bitcnt)] } })
            (fun u => { u with i2c := clear u.i2c })

/-- Every operation that completes an SPI byte or ends an SPI transfer goes through from a sound state
with room in the buffer, and so do the operations it hands the byte to (60_exceptions.md R371: every
rule continues decoding). -/
def Obligations.SpiRowsCompleteOnSoundStates : Prop :=
  (∀ (s : State) (x : SpiLevels) (tr : Bool), s.spi.Inv s.cfg.spi → s.spi.room s.cfg.spi = true →
      (∃ t, exec (.spiSckSample x) s = .next t)
        ∧ (∃ t, exec (.spiSckSampleF x) s = .next t)
        ∧ (∃ t, exec (.spiCsDeassert x) s = .next t)
        ∧ (∃ t, exec .aggregateSpi s = .next t)
        ∧ (∃ t, exec .frameCarry s = .next t)
        ∧ (1 ≤ s.spi.bitcnt → ∃ t, exec (.completeSpiByte tr) s = .next t))
    ∧ ∀ (s : State) (v : Option Byte) (x : Byte) (d : Dir), s.spi.FramerInv →
      5 ≤ s.spi.xfer.length → s.spi.hdrDir = some d →
      (∃ t, exec (.spiData v) s = .next t)
        ∧ (s.spi.fst = .hdr → ∃ t, exec (.tpmHdr x) s = .next t)
        ∧ (s.spi.fst = .payload → ∃ t, exec (.tpmPayload x) s = .next t)

/-- Every operation that completes an I2C byte or ends a phase goes through from a sound state with
room in the buffer, and so do the register-data and payload operations it hands the byte to
(60_exceptions.md R371: every rule continues decoding). -/
def Obligations.I2cRowsCompleteOnSoundStates : Prop :=
  (∀ (s : State) (x : I2cSample) (tr : Bool), s.i2c.Inv s.cfg.i2c → s.i2c.room s.cfg.i2c = true →
      (s.i2c.bitcnt ≤ 7 → ∃ t, exec (.i2cBit x) s = .next t)
        ∧ (s.i2c.bitcnt = 8 → ∃ t, exec (.i2cAck x) s = .next t)
        ∧ (∃ t, exec (.i2cRstart x) s = .next t)
        ∧ (∃ t, exec (.i2cStop x) s = .next t)
        ∧ (∃ t, exec .endPhase s = .next t)
        ∧ (∃ t, exec .partialAtCondition s = .next t)
        ∧ (1 ≤ s.i2c.bitcnt → ∃ t, exec (.completeI2cByte tr) s = .next t))
    ∧ ∀ (s : State) (v : Byte) (d : Dir), s.i2c.xfer ≠ [] → s.i2c.rw = some d →
      (s.i2c.dl.dst = .fctr ↔ s.i2c.dl.dFirst = none) → s.i2c.dl.stateOk (some d) = true →
      (s.i2c.ap.ast = .cmd ↔ s.i2c.ap.aFirst = none) → s.i2c.ap.stateOk s.cfg.i2c = true →
      (∀ a, s.i2c.ap.aFirst = some a → a < s.i2c.xfer.length) →
      (∃ t, exec (.i2cRegdata v) s = .next t)
        ∧ (s.i2c.dl.dst = .pay → ∃ t, exec (.dlPay v) s = .next t)

/-! ### The link header -/

/-- SPI_HDR0 gives direction and count with their spans inside the byte; SPI_HDR1 captures a byte;
SPI_HDR2 keeps the high address byte and emits nothing (42_link_header.md R201 to R203). -/
def Obligations.FirstThreeHeaderBytes : Prop :=
  ∀ (s : State) (pre : List SpiByteRec) (r : SpiByteRec) (d : Dir) (c : BitVec 7) (b : Byte),
    s.spi.xfer = pre ++ [r] →
    let w : Rat := (r.stop - r.start) / 8
    exec (.spiHdr0 d c) s = spiNext s { s.spi with
        hdrDir := some d, hdrCount := some (c.toNat + 1), hdrB0Span := (r.start, r.stop),
        out := s.spi.out ++ [
          evAt r.start (r.start + w) (.hdr .dir (match d with | .write => 0 | .read => 1) none),
          evAt (r.start + w) r.stop (.hdr .count (c.toNat + 1) none)] }
      ∧ exec (.spiHdr1 b) s = spiNext s { s.spi with
        hdrAddrHi := some b,
        out := s.spi.out ++ [evAt r.start r.stop (.hdr .addrHi b.toNat none)] }
      ∧ exec (.spiHdr2 b) s = spiNext s { s.spi with
        hdrRegHi := some b, hdrB2Start := r.start }

/-- SPI_HDR3 joins the register address, looks it up, reports its locality, takes the ACK flag of a
read and decides the routing (42_link_header.md R203, R204); AckFlag reports the flag's bit where the
MISO lane is present (R206). -/
def Obligations.FourthHeaderByteGivesTheRegister : Prop :=
  ∀ (s : State) (pre : List SpiByteRec) (r b2 : SpiByteRec) (hi a : Byte),
    s.spi.xfer = pre ++ [r] →
    let t := s.spi
    let p := s.cfg.spi
    let w : Rat := (r.stop - r.start) / 8
    let ack : Byte → Spi → Spi := fun k u => { u with
      hdrAck := some (k.getLsbD p.ackBit == p.ackLevel),
      out := u.out ++ [evAt (r.start + (7 - p.ackBit.val : Nat) * w)
        (r.start + (8 - p.ackBit.val : Nat) * w) (.hdr .ack (k.getLsbD p.ackBit).toNat none)] }
    exec (.ackFlag a) s = (if p.haveMiso then spiNext s (ack a t) else .next s)
      ∧ (t.hdrRegHi = some hi → t.xfer[2]? = some b2 →
        let reg : BitVec 16 := hi ++ a
        let nm := p.knownReg.lookup reg
        let routed : Bool := match p.regMatch with
          | .full16 => decide (reg ∈ p.fifoRegs)
          | .offset12 => decide (∃ f ∈ p.fifoRegs, f.toNat % 4096 = reg.toNat % 4096)
        let v : Spi := { t with
          hdrReg := some reg, hdrRegKnown := nm.isSome, hdrRouted := routed,
          out := t.out ++ [
            evAt t.hdrB2Start r.stop (match nm with
              | some _ => .hdr .reg reg.toNat nm
              | none => .diag .errUnknownReg reg.toNat),
            evAt b2.start (b2.start + ((b2.stop - b2.start : Rat) / 2))
              (.hdr .locality (reg.toNat / 4096) none)] }
        (t.hdrDir ≠ some .read → exec (.spiHdr3 a) s = spiNext s v)
          ∧ (t.hdrDir = some .read → exec (.spiHdr3 a) s =
            match r.miso with
            | some k => if p.haveMiso then spiNext s (ack k v) else spiNext s v
            | none => spiNext s v))

/-- SPI_DATA marks the byte DATA; with a value and a register it reports register I/O, then hands the
byte of a routed transfer to the framer row its state selects, and decodes the fields of any other
(42_link_header.md R205, 43_command_framer.md R240, R241). SPI_EXCESS marks a byte beyond the declared
count EXCESS and warns of it (R205); without a MOSI lane a byte only gets its role (R208). That each of
the two rows runs one branch of R205, and does not compare the index with the declared count itself, is
the model's choice (notes/assumptions/24.md). -/
def Obligations.SpiDataExcessAndHeaderlessBytes : Prop :=
  ∀ (s : State) (pre : List SpiByteRec) (r : SpiByteRec) (d : Dir) (b : Byte),
    s.spi.xfer = pre ++ [r] →
    let t : Spi := { s.spi with xfer := pre ++ [{ r with role := .data }] }
    exec (.spiNoHeader b) s = spiNext s { s.spi with
        xfer := pre ++ [{ r with role := if pre.length < 4 then .header else .data }] }
      ∧ (4 ≤ pre.length → exec (.spiExcess b) s = spiNext s { s.spi with
        xfer := pre ++ [{ r with role := .excess }],
        out := s.spi.out ++ [evAt r.start r.stop (.diag .warnExcessByte (pre.length - 4))] })
      ∧ (4 ≤ pre.length → s.spi.hdrDir = some d → exec (.spiData none) s = spiNext s t)
      ∧ (∀ v, 4 ≤ pre.length → s.spi.hdrDir = some d → s.spi.hdrReg = none →
          exec (.spiData v) s = spiNext s t)
      ∧ ∀ (x : Byte) (reg : BitVec 16), 4 ≤ pre.length → s.spi.hdrDir = some d →
        s.spi.hdrReg = some reg →
        let u : State := { s with spi := { t with
          out := t.out ++ [evAt r.start r.stop (.regdata reg.toNat d (pre.length - 4) x)] } }
        (s.spi.hdrRouted = false → exec (.spiData (some x)) s = exec (.fieldDecode .spi x) u)
          ∧ (s.spi.hdrRouted = true → exec (.spiData (some x)) s =
            match s.spi.fst with
            | .idle => execAll [.tpmStart x, .tpmHdr x] u
            | .hdr => exec (.tpmHdr x) u
            | .payload => if s.spi.fdir = some d then exec (.tpmPayload x) u
              else exec (.tpmOtherDir x) u)

/-- FieldDecode reports every field of the register byte, in table order, in its own span, with a
diagnostic after each invalid one, and changes nothing else (42_link_header.md R207). -/
def Obligations.FieldDecodeReportsEveryField : Prop :=
  ∀ (s : State) (x : Byte) (d : Dir) (fields : List FieldRec),
    let evs : Nat → Nat → Nat → List OutEvent := fun reg a b => fields.flatMap fun f =>
      let w : Rat := ((b : Rat) - a) / 8
      let lo : Rat := a + (7 - f.hi.val : Nat) * w
      let hi : Rat := a + (7 - f.hi.val + (f.hi.val - f.lo.val + 1) : Nat) * w
      evAt lo hi (.regfield reg f.fieldId (x.toNat / 2 ^ f.lo.val % 2 ^ (f.hi.val - f.lo.val + 1))
          f.valid)
        :: if f.valid then [] else [evAt lo hi (.diag .infoFieldInvalid f.fieldId)]
    (∀ (pre : List SpiByteRec) (r : SpiByteRec) (reg : BitVec 16), s.spi.xfer = pre ++ [r] →
        4 ≤ pre.length → s.spi.hdrReg = some reg → s.spi.hdrDir = some d →
        fieldsOf s.cfg.spi.regFields reg.toNat d (pre.length - 4) x = fields →
        exec (.fieldDecode .spi x) s = spiNext s { s.spi with
          out := s.spi.out ++ evs reg.toNat r.start r.stop })
      ∧ ∀ (pre : List I2cByteRec) (r : I2cByteRec) (reg : Byte) (k : Nat),
        s.i2c.xfer = pre ++ [r] → s.i2c.reg = some reg → s.i2c.rw = some d → s.i2c.j = k + 1 →
        fieldsOf s.cfg.i2c.regFields reg.toNat d k x = fields →
        exec (.fieldDecode .i2c x) s = i2cNext s { s.i2c with
          out := s.i2c.out ++ evs reg.toNat r.start r.stop }

/-- The address byte gives address, direction and match, reports them, and a matched WRITE awaits a
register number (42_link_header.md R210); a byte of an unmatched phase is only marked RAW (R211); the register number
is captured, looked up and reported (R212). -/
def Obligations.PhaseHeaderBytes : Prop :=
  ∀ (s : State) (pre : List I2cByteRec) (r : I2cByteRec) (a : BitVec 7) (d : Dir) (b : Byte),
    s.i2c.xfer = pre ++ [r] →
    exec (.i2cAddr a d) s = i2cNext s { s.i2c with
      addr7 := some a, rw := some d, matched := decide (a = s.cfg.i2c.targetAddr), phase := .data,
      expectReg := decide (a = s.cfg.i2c.targetAddr ∧ d = .write),
      xfer := pre ++ [{ r with kind := .addr, dir := some d }],
      out := s.i2c.out ++ [evAt r.start r.stop (.addr a d (decide (a = s.cfg.i2c.targetAddr)))] }
      ∧ exec (.i2cRaw b) s = i2cNext s { s.i2c with
        xfer := pre ++ [{ r with kind := .raw, dir := s.i2c.rw }] }
      ∧ exec (.i2cRegnum b) s = i2cNext s { s.i2c with
        reg := some b, expectReg := false, regKnown := (s.cfg.i2c.knownReg.lookup b).isSome,
        xfer := pre ++ [{ r with kind := .reg, dir := some .write }],
        out := s.i2c.out ++ [evAt r.start r.stop (match s.cfg.i2c.knownReg.lookup b with
          | some nm => .hdr .i2cReg b.toNat (some nm)
          | none => .diag .errUnknownI2cReg b.toNat)] }

/-- Register data is counted and reported; with no register captured only the first byte is warned of;
the data register's bytes go to the row the datalink state selects, any other register's fields are
decoded (42_link_header.md R213, R214; 44_datalink_apdu.md R280). -/
def Obligations.RegisterDataIsReportedAndRouted : Prop :=
  ∀ (s : State) (pre : List I2cByteRec) (r : I2cByteRec) (v : Byte) (d : Dir),
    s.i2c.xfer = pre ++ [r] → s.i2c.rw = some d →
    let t : I2c := { s.i2c with
      j := s.i2c.j + 1, xfer := pre ++ [{ r with kind := .data, dir := some d }] }
    (s.i2c.reg = none → exec (.i2cRegdata v) s = i2cNext s { t with
        out := t.out ++ (if s.i2c.j = 0 then [evAt r.start r.stop (.diag .warnNoRegister 0)]
          else []) })
      ∧ ∀ reg : Byte, s.i2c.reg = some reg →
        let u : State := { s with i2c := { t with
          out := t.out ++ [evAt r.start r.stop (.regdata reg.toNat d s.i2c.j v)] } }
        (reg ≠ s.cfg.i2c.dataReg → exec (.i2cRegdata v) s = exec (.fieldDecode .i2c v) u)
          ∧ (reg = s.cfg.i2c.dataReg → exec (.i2cRegdata v) s = exec (match s.i2c.dl.dst with
            | .fctr => .dlFctr (v.extractLsb' 7 1) (v.extractLsb' 5 2) (v.extractLsb' 4 1)
                (v.extractLsb' 2 2) (v.extractLsb' 0 2)
            | .len0 => .dlLen0 v
            | .len1 => .dlLen1 v
            | .pctr => .dlPctr (v.extractLsb' 4 4) (v.extractLsb' 3 1) (v.extractLsb' 0 3)
            | .sctr => .dlSctr (v.extractLsb' 6 2) (v.extractLsb' 2 4) (v.extractLsb' 0 2)
            | .pay => .dlPay v
            | .fcs0 => .dlFcs0 v
            | .fcs1 => .dlFcs1 v
            | .done => .dlExcess v) u)

/-! ### The framer -/

/-- TPM_START opens a frame at the byte in hand (43_command_framer.md R241), CloseFrame records it and
returns to IDLE (R248), and a byte of the other direction changes nothing (R247). -/
def Obligations.FramesOpenAndClose : Prop :=
  ∀ (s : State) (pre : List SpiByteRec) (r : SpiByteRec) (x : Byte), s.spi.xfer = pre ++ [r] →
    exec (.tpmStart x) s = spiNext s { s.spi with
        fseq := s.spi.fseq + 1, fStart := some (.idx pre.length), fst := .hdr, fh := 0,
        facc := 0#32, tag := 0#16, len := 0#32, code := 0#32, fdir := none, remaining := 0#32,
        pcount := 0, fshort := false }
      ∧ exec (.tpmOtherDir x) s = .next s
      ∧ ∀ (d : Dir) (a : FrameStart), s.spi.fdir = some d → s.spi.fStart = some a →
        exec .closeFrame s = spiNext s { s.spi with
          closed := s.spi.closed ++ [⟨s.spi.fseq, d, s.spi.tag, s.spi.len, s.spi.code,
            s.spi.pcount, s.spi.fshort, a, pre.length⟩],
          fst := .idle, fh := 0, fStart := none }

/-- TPM_HDR tags the byte's record, starts a field at counts 0, 2 and 6, accumulates the byte
big-endian and hands a complete tag, length or code to its row (43_command_framer.md R242). -/
def Obligations.FrameHeaderByteAccumulates : Prop :=
  ∀ (s : State) (pre : List SpiByteRec) (r : SpiByteRec) (x : Byte) (d : Dir),
    s.spi.xfer = pre ++ [r] → s.spi.hdrDir = some d →
    let fresh : Bool := s.spi.fh == 0 || s.spi.fh == 2 || s.spi.fh == 6
    let u : State := { s with spi := { s.spi with
      xfer := pre ++ [{ r with fseq := some s.spi.fseq }],
      fFieldStart := if fresh then r.start else s.spi.fFieldStart,
      facc := (if fresh then 0#24 else s.spi.facc.extractLsb' 0 24) ++ x,
      fh := s.spi.fh + 1 } }
    exec (.tpmHdr x) s =
      if s.spi.fh = 1 then exec (.tpmTagDone x) u
      else if s.spi.fh = 5 then exec (.tpmLenDone x) u
      else if s.spi.fh = 9 then exec (.tpmCodeDone x) u
      else .next u

/-- A complete tag is reported by name or as unknown (43_command_framer.md R243); a complete length is
reported with its value in decimal as label, and flagged when it is below the header size (R244). -/
def Obligations.TagAndLengthAreReported : Prop :=
  ∀ (s : State) (pre : List SpiByteRec) (r : SpiByteRec) (x : Byte), s.spi.xfer = pre ++ [r] →
    let t := s.spi
    let tag : BitVec 16 := t.facc.extractLsb' 0 16
    exec (.tpmTagDone x) s = spiNext s { t with
        tag := tag,
        out := t.out ++ [evAt t.fFieldStart r.stop (match s.cfg.spi.knownTag.lookup tag with
          | some nm => .field .tpm .tag tag.toNat (some nm)
          | none => .diag .errUnknownTag tag.toNat)] }
      ∧ (10 ≤ t.facc.toNat → exec (.tpmLenDone x) s = spiNext s { t with
        len := t.facc,
        out := t.out ++ [evAt t.fFieldStart r.stop (.field .tpm .length t.facc.toNat none)] })
      ∧ (t.facc.toNat < 10 → exec (.tpmLenDone x) s = spiNext s { t with
        len := t.facc, fshort := true,
        out := t.out ++ [evAt t.fFieldStart r.stop (.field .tpm .length t.facc.toNat none),
          evAt t.fFieldStart r.stop (.diag .warnLengthShort t.facc.toNat)] })
      ∧ ∀ k : Nat, (Event.field .tpm .length k none).label = some ("LENGTH:" ++ toString k)

/-- A complete code fixes the frame's direction, is reported by name or as unknown in its direction's
table, and gives the payload size; a frame with no payload closes at once (43_command_framer.md
R245). -/
def Obligations.CodeFixesDirectionAndPayload : Prop :=
  ∀ (s : State) (pre : List SpiByteRec) (r : SpiByteRec) (x : Byte) (d : Dir),
    s.spi.xfer = pre ++ [r] → s.spi.hdrDir = some d →
    (s.spi.fshort = false → 10 ≤ s.spi.len.toNat) →
    let t := s.spi
    let size : Nat := if t.fshort then 0 else t.len.toNat - 10
    let u : Spi := { t with
      code := t.facc, fdir := some d, remaining := BitVec.ofNat 32 size,
      out := t.out ++ [evAt t.fFieldStart r.stop (match d with
        | .write => match s.cfg.spi.knownCc.lookup t.facc with
          | some nm => .field .tpm .code t.facc.toNat (some nm)
          | none => .diag .errUnknownCc t.facc.toNat
        | .read => match s.cfg.spi.knownRc.lookup t.facc with
          | some nm => .field .tpm .code t.facc.toNat (some nm)
          | none => .diag .errUnknownRc t.facc.toNat)] }
    (size ≠ 0 → exec (.tpmCodeDone x) s = spiNext s { u with fst := .payload })
      ∧ (size = 0 → exec (.tpmCodeDone x) s = exec .closeFrame { s with spi := u })

/-- A payload byte is tagged, reported and counted; the last one closes the frame
(43_command_framer.md R246). -/
def Obligations.PayloadByteCountsDown : Prop :=
  ∀ (s : State) (pre : List SpiByteRec) (r : SpiByteRec) (x : Byte) (d : Dir),
    s.spi.xfer = pre ++ [r] → s.spi.hdrDir = some d →
    let t := s.spi
    let u : Spi := { t with
      xfer := pre ++ [{ r with fseq := some t.fseq }], pcount := t.pcount + 1,
      remaining := BitVec.ofNat 32 (t.remaining.toNat - 1),
      out := t.out ++ [evAt r.start r.stop (.payload .tpm d t.pcount x false)] }
    (2 ≤ t.remaining.toNat → exec (.tpmPayload x) s = spiNext s u)
      ∧ (t.remaining.toNat ≤ 1 → exec (.tpmPayload x) s = exec .closeFrame { s with spi := u })

/-! ### Datalink and APDU -/

/-- FCTR starts the frame and is reported field by field (44_datalink_apdu.md R282); the two LEN bytes
give the length (R284, R286); the first checksum byte is kept (R292). -/
def Obligations.DatalinkHeaderBytes : Prop :=
  ∀ (s : State) (pre : List I2cByteRec) (r : I2cByteRec) (v : Byte)
    (t : BitVec 1) (q : BitVec 2) (z : BitVec 1) (f k : BitVec 2), s.i2c.xfer = pre ++ [r] →
    let u := s.i2c
    let w : Rat := (r.stop - r.start) / 8
    let at8 : Nat → Rat := fun m => r.start + m * w
    let dlen : BitVec 16 := u.dl.dlen ||| v.setWidth 16
    exec (.dlFctr t q z f k) s = i2cNext s { u with
        dl := { u.dl with dFirst := some pre.length, fctr := t ++ q ++ z ++ f ++ k, dst := .len0 },
        out := u.out ++ [
          evAt (at8 0) (at8 1) (.field .dl .ftype t.toNat none),
          evAt (at8 1) (at8 3) (.field .dl .seqctr q.toNat none),
          evAt (at8 3) (at8 4) (.field .dl .rfu z.toNat none),
          evAt (at8 4) (at8 6) (.field .dl .frnr f.toNat none),
          evAt (at8 6) (at8 8) (.field .dl .acknr k.toNat none)] }
      ∧ exec (.dlLen0 v) s = i2cNext s { u with
        dl := { u.dl with dLenStart := r.start, dlen := v ++ 0#8, dst := .len1 } }
      ∧ exec (.dlLen1 v) s = i2cNext s { u with
        dl := { u.dl with
          dlen := dlen, drem := dlen.toNat, dst := if dlen = 0#16 then .fcs0 else .pctr },
        out := u.out ++ [evAt u.dl.dLenStart r.stop (.field .dl .len dlen.toNat none)] }
      ∧ exec (.dlFcs0 v) s = i2cNext s { u with
        dl := { u.dl with dFcsStart := r.start, fcs := v ++ 0#8, dst := .fcs1 } }

/-- PCTR and SCTR are reported field by field and pass on to SCTR, to the payload or to the checksum
(44_datalink_apdu.md R288, R290); PayloadBegin resets the APDU registers and decides the payload mode
(R294, R297). -/
def Obligations.ControlBytesBeginThePayload : Prop :=
  ∀ (s : State) (pre : List I2cByteRec) (r : I2cByteRec) (d : Dir) (rem : Nat)
    (c : BitVec 4) (z : BitVec 1) (h : BitVec 3) (o : BitVec 2) (m : BitVec 4) (k : BitVec 2),
    s.i2c.xfer = pre ++ [r] → s.i2c.rw = some d →
    let u := s.i2c
    let w : Rat := (r.stop - r.start) / 8
    let at8 : Nat → Rat := fun e => r.start + e * w
    let withP : I2c := { u with
      dl := { u.dl with pctr := some (c ++ z ++ h), drem := rem },
      out := u.out ++ [
        evAt (at8 0) (at8 4) (.field .net .channel c.toNat none),
        evAt (at8 4) (at8 5) (.field .net .presence z.toNat none),
        evAt (at8 5) (at8 8) (.field .net .chaining h.toNat none)] }
    let withS : I2c := { u with
      dl := { u.dl with sctr := some (o ++ m ++ k), drem := rem },
      out := u.out ++ [
        evAt (at8 0) (at8 2) (.field .pres .protocol o.toNat none),
        evAt (at8 2) (at8 6) (.field .pres .message m.toNat none),
        evAt (at8 6) (at8 8) (.field .pres .protection k.toNat none)] }
    let enter : DlSt → I2c → I2c := fun q t => { t with dl := { t.dl with dst := q } }
    (u.dl.drem = rem + 1 →
        (z = 1#1 → 0 < rem → exec (.dlPctr c z h) s = i2cNext s (enter .sctr withP))
          ∧ (z = 0#1 → 0 < rem → exec (.dlPctr c z h) s = exec .payloadBegin { s with i2c := withP })
          ∧ (rem = 0 → exec (.dlPctr c z h) s = i2cNext s (enter .fcs0 withP))
          ∧ (0 < rem → exec (.dlSctr o m k) s = exec .payloadBegin { s with i2c := withS })
          ∧ (rem = 0 → exec (.dlSctr o m k) s = i2cNext s (enter .fcs0 withS)))
      ∧ ∀ p : Byte, u.dl.pctr = some p →
        exec .payloadBegin s = i2cNext s { u with
          ap := Ap.reset,
          dl := { u.dl with
            dst := .pay,
            apduMode := decide (p.toNat % 8 = 0) && (match u.dl.sctr with
              | none => true
              | some x => decide (x.toNat / 4 % 16 = 0) && (match d with
                | .write => decide (x.toNat % 2 = 0)
                | .read => decide (x.toNat / 2 % 2 = 0))) } }

/-- A payload byte outside APDU mode is reported as protected; in APDU mode it goes to the row the
APDU state selects. The last one moves to the checksum, and cuts an APDU that is not complete
(44_datalink_apdu.md R295, R298). -/
def Obligations.DatalinkPayloadByte : Prop :=
  ∀ (s : State) (pre : List I2cByteRec) (r : I2cByteRec) (v : Byte) (d : Dir) (rem : Nat),
    s.i2c.xfer = pre ++ [r] → s.i2c.rw = some d → s.i2c.dl.drem = rem + 1 →
    let u := s.i2c
    let apdu : Instr := match u.ap.ast with
      | .cmd => .apduCmd v
      | .param => .apduParam v
      | .len0 => .apduLen0 v
      | .len1 => .apduLen1 v
      | .data => .apduData v
      | .done => .apduExcess v
    (u.dl.apduMode = false → exec (.dlPay v) s = i2cNext s { u with
        out := u.out ++ [evAt r.start r.stop (.payload .dl d u.dl.dpay v true)],
        dl := { u.dl with
          dpay := u.dl.dpay + 1, drem := rem,
          dst := if rem = 0 then .fcs0 else u.dl.dst } })
      ∧ ∀ q : State, u.dl.apduMode = true → exec apdu s = .next q →
        let counted : I2c := { q.i2c with dl := { q.i2c.dl with
          dpay := u.dl.dpay + 1, drem := rem } }
        (0 < rem → exec (.dlPay v) s = i2cNext q counted)
          ∧ (rem = 0 → q.i2c.ap.ast = .done → exec (.dlPay v) s =
            i2cNext q { counted with dl := { counted.dl with dst := .fcs0 } })
          ∧ ∀ (a : Nat) (ra : I2cByteRec), rem = 0 → q.i2c.ap.ast ≠ .done →
            q.i2c.ap.aFirst = some a → q.i2c.xfer[a]? = some ra →
            exec (.dlPay v) s =
              thenNext (exec (.apduFinish false) { q with i2c := { counted with
                out := counted.out
                  ++ [evAt ra.start r.stop (.diag .warnApduTruncated q.i2c.ap.arem)] } })
                (fun x => { x with i2c := { x.i2c with dl := { x.i2c.dl with dst := .fcs0 } } })

/-- The second checksum byte reports the checksum and completes the frame, whatever its value
(44_datalink_apdu.md R292, R304); bytes after a complete frame or APDU are warned of (R293, R302);
DlFinish and ApduFinish record what ended (R296, R302). -/
def Obligations.FramesAndApdusAreRecorded : Prop :=
  ∀ (s : State) (pre : List I2cByteRec) (r : I2cByteRec) (v : Byte) (d : Dir) (complete : Bool)
    (f : Nat), s.i2c.xfer = pre ++ [r] → s.i2c.rw = some d →
    let u := s.i2c
    let fcs : BitVec 16 := u.dl.fcs ||| v.setWidth 16
    (u.dl.dFirst = some f → exec (.dlFcs1 v) s = exec (.dlFinish true) { s with i2c := { u with
        dl := { u.dl with fcs := fcs, dst := .done },
        out := u.out ++ [evAt u.dl.dFcsStart r.stop (.field .dl .fcs fcs.toNat none)] } })
      ∧ (u.dl.dFirst = some f → exec (.dlFinish complete) s = i2cNext s { u with
        dlDone := u.dlDone ++ [⟨u.phaseNo, d, f, pre.length, u.dl.fctr, u.dl.dlen, u.dl.pctr,
          u.dl.sctr, if complete then some u.dl.fcs else none, u.dl.dpay, u.dl.apduMode,
          complete⟩] })
      ∧ (u.ap.aFirst = some f → exec (.apduFinish complete) s = i2cNext s { u with
        apduDone := u.apduDone ++ [⟨u.phaseNo, d, f, pre.length, u.ap.cmd, u.ap.param, u.ap.alen,
          u.ap.adata, complete⟩],
        ap := { u.ap with ast := .done } })
      ∧ (1 ≤ u.j → exec (.dlExcess v) s = i2cNext s { u with
        out := u.out ++ [evAt r.start r.stop (.diag .warnDlExcess (u.j - 1))] })
      ∧ exec (.apduExcess v) s = i2cNext s { u with
        out := u.out ++ [evAt r.start r.stop (.diag .warnApduExcess u.dl.dpay)] }

/-- APDU byte 0 is a command of a WRITE or a status of a READ, reported by name or as unknown
(44_datalink_apdu.md R298); byte 1 is the parameter, byte 2 the high byte of the length (R299); byte 3
completes the length and settles the number of data bytes (R300); each data byte is reported and
counted (R301); an APDU with no data byte left is recorded as complete. -/
def Obligations.ApduBytes : Prop :=
  ∀ (s : State) (pre : List I2cByteRec) (r : I2cByteRec) (v : Byte) (d : Dir),
    s.i2c.xfer = pre ++ [r] → s.i2c.rw = some d →
    let u := s.i2c
    let alen : BitVec 16 := u.ap.alen ||| v.setWidth 16
    let size : Nat := if s.cfg.i2c.apduLenIncludesHeader then alen.toNat - 4 else alen.toNat
    let withLen : I2c := { u with
      ap := { u.ap with alen := alen, arem := size },
      out := u.out ++ [evAt u.ap.aLenStart r.stop (.field .apdu .len alen.toNat none)] }
    let withData : I2c := { u with
      ap := { u.ap with adata := u.ap.adata + 1, arem := u.ap.arem - 1 },
      out := u.out ++ [evAt r.start r.stop (.payload .apdu d u.ap.adata v false)] }
    exec (.apduCmd v) s = i2cNext s { u with
        ap := { u.ap with aFirst := some pre.length, cmd := v, ast := .param },
        out := u.out ++ [evAt r.start r.stop (match d with
          | .write => match s.cfg.i2c.knownApduCmd.lookup v with
            | some nm => .field .apdu .cmd v.toNat (some nm)
            | none => .diag .errUnknownApduCmd v.toNat
          | .read => match s.cfg.i2c.knownApduSta.lookup v with
            | some nm => .field .apdu .sta v.toNat (some nm)
            | none => .diag .errUnknownApduSta v.toNat)] }
      ∧ exec (.apduParam v) s = i2cNext s { u with
        ap := { u.ap with param := v, ast := .len0 },
        out := u.out ++ [evAt r.start r.stop (.field .apdu .param v.toNat none)] }
      ∧ exec (.apduLen0 v) s = i2cNext s { u with
        ap := { u.ap with aLenStart := r.start, alen := v ++ 0#8, ast := .len1 } }
      ∧ (size ≠ 0 → exec (.apduLen1 v) s = i2cNext s { withLen with
        ap := { withLen.ap with ast := .data } })
      ∧ (size = 0 → exec (.apduLen1 v) s = exec (.apduFinish true) { s with i2c := withLen })
      ∧ (2 ≤ u.ap.arem → exec (.apduData v) s = i2cNext s withData)
      ∧ (u.ap.arem = 1 → exec (.apduData v) s = exec (.apduFinish true) { s with i2c := withData })

/-- EndPhase records nothing for a phase without a datalink byte or with a complete frame; else it
warns of and records the APDU in progress, if there is one, then the frame (44_datalink_apdu.md
R303). -/
def Obligations.EndPhaseEndsAnOpenFrame : Prop :=
  ∀ s : State,
    let u := s.i2c
    ((u.dl.dFirst = none ∨ u.dl.dst = .done) → exec .endPhase s = .next s)
      ∧ ∀ (f : Nat) (rf : I2cByteRec) (d : Dir), u.dl.dFirst = some f → u.dl.dst ≠ .done →
        u.rw = some d → u.xfer[f]? = some rf →
        let cut : State → Result := fun q => exec (.dlFinish false) { q with i2c := { q.i2c with
          out := q.i2c.out ++ [evAt rf.start u.n (.diag .warnDlTruncated u.dl.drem)] } }
        ((u.dl.dst ≠ .pay ∨ u.dl.apduMode = false ∨ u.ap.ast = .done ∨ u.ap.aFirst = none) →
            exec .endPhase s = cut s)
          ∧ ∀ (a : Nat) (ra : I2cByteRec) (q : State), u.dl.dst = .pay → u.dl.apduMode = true →
            u.ap.ast ≠ .done → u.ap.aFirst = some a → u.xfer[a]? = some ra →
            exec (.apduFinish false) { s with i2c := { u with
              out := u.out ++ [evAt ra.start u.n (.diag .warnApduTruncated u.ap.arem)] } } = .next q →
            exec .endPhase s = cut q

/-! ### The aggregator -/

/-- AggregateSpi reports the transfer, an incomplete header or missing bytes, and each closed frame
over its own bytes in even spans; then the open-frame check runs and the results clear
(45_aggregator.md R331, R333, R340 to R345, R356). That the data of a transfer with no direction comes
from MISO is the model's choice (notes/assumptions/13.md), after vector V23. -/
def Obligations.SpiPassReportsTheTransfer : Prop :=
  ∀ (s : State) (lanes : List Byte),
    let t := s.spi
    let p := s.cfg.spi
    let count := t.xfer.length
    let w : Rat := ((t.n : Rat) - t.tStart) / count
    let clear : State → State := fun u => { u with spi := { u.spi with closed := [] } }
    (count = 0 → exec .aggregateSpi s = thenNext (exec .frameCarry s) clear)
      ∧ (0 < count → (p.haveMosi = true → 4 ≤ count → t.hdrCount.isSome = true) →
        lanes = (t.xfer.filter (·.role = .data)).filterMap
          (fun r => if t.hdrDir = some .write then r.mosi else r.miso) →
        let sum : OutEvent := evAt t.tStart t.n (.spiXferSum
          { dir := t.hdrDir, count := t.hdrCount, reg := t.hdrReg,
            regName := t.hdrReg.bind fun k => p.knownReg.lookup k,
            ack := t.hdrAck, mosi := t.xfer.filterMap (·.mosi), miso := t.xfer.filterMap (·.miso),
            data := lanes, headerComplete := decide (p.haveMosi = true ∧ 4 ≤ count) })
        let header : List OutEvent :=
          if p.haveMosi = false then []
          else if count < 4 then [evAt t.tStart t.n (.diag .warnHeaderIncomplete count)]
          else match t.hdrCount with
            | some c => if count - 4 < c then
                [evAt t.tStart t.n (.diag .warnShortTransfer (c - (count - 4)))] else []
            | none => []
        let frames : List OutEvent := t.closed.map fun f =>
          evAt (match f.start with | .idx i => t.tStart + i * w | .at r => r)
            (t.tStart + (f.last + 1) * w) (.cmdSum
              { dir := f.dir, tag := f.tag, tagName := p.knownTag.lookup f.tag, len := f.len,
                code := f.code,
                codeName := (match f.dir with | .write => p.knownCc | .read => p.knownRc).lookup f.code,
                pcount := f.pcount, short := f.short })
        exec .aggregateSpi s = thenNext (exec .frameCarry { s with spi := { t with
          out := t.out ++ [sum] ++ header ++ frames } }) clear)

/-- FrameCarry leaves an idle framer alone; it fixes the start of an open frame as a sample, and flags
the frame when it took a byte of this transfer; the frame stays open (45_aggregator.md R344). -/
def Obligations.OpenFrameIsCarriedAndFlagged : Prop :=
  ∀ s : State,
    let t := s.spi
    (t.fst = .idle → exec .frameCarry s = .next s)
      ∧ ∀ a : FrameStart, t.fst ≠ .idle → t.fStart = some a →
        (∀ i, a = .idx i → 0 < t.xfer.length) →
        let r : Rat := match a with
          | .idx i => t.tStart + i * (((t.n : Rat) - t.tStart) / t.xfer.length)
          | .at r => r
        exec .frameCarry s = spiNext s { t with
          fStart := some (.at r),
          out := t.out ++ (if ∃ b ∈ t.xfer, b.fseq = some t.fseq then
            [evAt r t.n (.diag .warnFrameOpenAtIdle t.remaining.toNat)] else []) }

/-- AggregateI2c reports the transfer, then RegLen of each phase, then each datalink frame and each
APDU that ended, in even spans, and clears the results (45_aggregator.md R331, R333, R350, R351, R353,
R354, R356). That a phase's address, direction and matched flag are computed from its ADDR record is
the model's choice (notes/assumptions/27.md). -/
def Obligations.I2cPassReportsTheTransfer : Prop :=
  ∀ s : State,
    let t := s.i2c
    let w : Rat := ((t.n : Rat) - t.tStart) / t.xfer.length
    let clear : I2c → I2c := fun u => { u with dlDone := [], apduDone := [] }
    let rsp : Nat → Nat → Event → OutEvent := fun a b e =>
      evAt (t.tStart + a * w) (t.tStart + (b + 1) * w) e
    let phases : List PhaseSum := (List.range' 1 t.phaseNo).filterMap fun q =>
      (t.xfer.find? fun r => decide (r.phaseNo = q ∧ r.kind = .addr)).map fun r =>
        ⟨r.value.extractLsb' 1 7, if r.value.getLsbD 0 then .read else .write,
          decide (r.value.extractLsb' 1 7 = s.cfg.i2c.targetAddr), r.ack⟩
    (t.xfer = [] → exec .aggregateI2c s = i2cNext s (clear t))
      ∧ (t.xfer ≠ [] → exec .aggregateI2c s =
        thenNext
          (execAll ((List.range' 1 t.phaseNo).map .regLen) { s with i2c := { t with
            out := t.out ++ [evAt t.tStart t.n (.i2cXferSum
              ⟨phases, t.reg, t.xfer.map (·.value)⟩)] } })
          (fun u => { u with i2c := clear { u.i2c with
            out := u.i2c.out ++ t.dlDone.map (fun d => rsp d.first d.last (.dlSum d))
              ++ t.apduDone.map (fun a => rsp a.first a.last (.apduSum a)) } }))

/-- RegLen reports the first two data bytes of a WRITE phase whose one register byte is the state
register, big-endian, over their two even spans, and nothing for any other phase; the summary's label
is its value in decimal (45_aggregator.md R352, 30_encoding.md R117). That a phase with no record reports nothing is the
model's choice (notes/assumptions/12.md). -/
def Obligations.StateRegisterLengthSummary : Prop :=
  ∀ (s : State) (q : Nat),
    let t := s.i2c
    let w : Rat := ((t.n : Rat) - t.tStart) / t.xfer.length
    let recs := t.xfer.zipIdx.filter fun e => e.1.phaseNo = q
    let sums : I2cByteRec × Nat → I2cByteRec × Nat → Prop := fun d0 d1 =>
      (∃ a rest, recs = a :: rest ∧ a.1.kind = .addr ∧ a.1.dir = some .write)
        ∧ (∃ r, recs.filter (·.1.kind = .reg) = [r] ∧ r.1.value = s.cfg.i2c.stateReg)
        ∧ ∃ more, recs.filter (·.1.kind = .data) = d0 :: d1 :: more
    (∀ d0 d1, sums d0 d1 → exec (.regLen q) s = i2cNext s { t with
        out := t.out ++ [evAt (t.tStart + d0.2 * w) (t.tStart + (d1.2 + 1) * w)
          (.reglenSum (d0.1.value ++ d1.1.value))] })
      ∧ ((∀ d0 d1, ¬ sums d0 d1) → exec (.regLen q) s = .next s)
      ∧ ∀ v : BitVec 16, (Event.reglenSum v).label = some ("LENGTH:" ++ toString v.toNat)

/-! ### The buffers and reset -/

/-- BufAppend puts its record at the end of its stack's buffer, and is refused beyond the bound; BufRead
gives the record at an index below the length, and faults on any other (20_memory.md R71 to R73). That
the row leaves the record in `readOut` is the model's choice (notes/assumptions/6.md). -/
def Obligations.BuffersAppendReadAndRefuse : Prop :=
  (∀ (s : State) (r : SpiByteRec), exec (.bufAppend (.spi r)) s =
      if s.spi.room s.cfg.spi then spiNext s { s.spi with xfer := s.spi.xfer ++ [r] }
      else .refused (.maxXferBytes (s.cfg.spi.maxXferBytes.getD 0)))
    ∧ (∀ (s : State) (r : I2cByteRec), exec (.bufAppend (.i2c r)) s =
      if s.i2c.room s.cfg.i2c then i2cNext s { s.i2c with xfer := s.i2c.xfer ++ [r] }
      else .refused (.maxXferBytes (s.cfg.i2c.maxXferBytes.getD 0)))
    ∧ (∀ (s : State) (k : Nat), exec (.bufRead .spi k) s = match s.spi.xfer[k]? with
      | some r => .next { s with readOut := some (.spi r) }
      | none => .fault (.bufReadRange k s.spi.xfer.length))
    ∧ ∀ (s : State) (k : Nat), exec (.bufRead .i2c k) s = match s.i2c.xfer[k]? with
      | some r => .next { s with readOut := some (.i2c r) }
      | none => .fault (.bufReadRange k s.i2c.xfer.length)

/-- Reset puts every register of both stacks at the value of the reset table and keeps the parameters
and the emitted events (70_reset_and_hazards.md R400, R402). That State keeps the events, that
`readOut` is cleared and that the inputs still waiting stay are the model's choices
(notes/assumptions/5.md, 6.md, 26.md). -/
def Obligations.ResetGivesTheResetTable : Prop :=
  ∀ s : State,
    let dl0 : Dl := ⟨.fctr, none, 0#8, 0#16, 0, none, none, false, 0#16, 0, 0, 0⟩
    let ap0 : Ap := ⟨.cmd, none, 0#8, 0#8, 0#16, 0, 0, 0⟩
    exec .reset s = .next { s with
      spi := {
        first := true, prevSck := false, prevAsserted := false, active := false, tStart := 0,
        n := 0, bitcnt := 0, accMosi := 0#8, accMiso := 0#8, bitStarts := [], pos := 0,
        hdrDir := none, hdrCount := none, hdrAddrHi := none, hdrRegHi := none, hdrReg := none,
        hdrRegKnown := false, hdrAck := none, hdrRouted := false, hdrB0Span := (0, 0),
        hdrB2Start := 0, xfer := [], fst := .idle, fh := 0, facc := 0#32, fFieldStart := 0,
        tag := 0#16, len := 0#32, code := 0#32, fdir := none, remaining := 0#32, pcount := 0,
        fshort := false, fseq := 0, fStart := none, closed := [], out := s.spi.out }
      i2c := {
        first := true, prevScl := false, prevSda := false, active := false, tStart := 0,
        phaseNo := 0, n := 0, bitcnt := 0, acc := 0#8, bitStarts := [], ackIdx := none,
        phase := .addr, rw := none, addr7 := none, matched := false, expectReg := false,
        reg := none, regKnown := false, j := 0, xfer := [], dl := dl0, ap := ap0, dlDone := [],
        apduDone := [], out := s.i2c.out }
      readOut := none }
end

