-- ==== Sys2Proof/Laws/Decode.lean ====
section
/-! SUPPORT. Each sample, and each operand of an operation word, read back from the bits it is written
as. -/

namespace Sys2Proof

/-- The levels of an SPI sample are read back from its word. -/
@[simp] theorem spiSampleOfWord_spiSampleWord (x : SpiSample) :
    spiSampleOfWord (spiSampleWord x) = x := by
  rcases x with ⟨_ | _, _ | _, _ | _, _ | _⟩ <;> rfl

/-- The levels of an I2C sample are read back from its word. -/
@[simp] theorem i2cSampleOfWord_i2cSampleWord (x : I2cSample) :
    i2cSampleOfWord (i2cSampleWord x) = x := by
  rcases x with ⟨_ | _, _ | _⟩ <;> rfl

/-- A byte is read back. -/
@[simp] theorem takeByte_cons (b : Byte) (bs : List Byte) : takeByte (b :: bs) = .ok (b, bs) := rfl

/-- A flag is read back. -/
@[simp] theorem takeFlag_flagByte (f : Bool) (bs : List Byte) :
    takeFlag (flagByte f :: bs) = .ok (f, bs) := by
  cases f <;> rfl

/-- A number below `2^32` is read back. -/
theorem takeNat_natBytes (k : Nat) (bs : List Byte) (h : k < 2 ^ 32) :
    takeNat (natBytes k ++ bs) = .ok (k, bs) := by
  have hj : ∀ w : BitVec 32,
      w.extractLsb' 24 8 ++ w.extractLsb' 16 8 ++ w.extractLsb' 8 8 ++ w.extractLsb' 0 8 = w := by
    intro w
    have := w.isLt
    apply BitVec.eq_of_toNat_eq
    simp only [BitVec.toNat_append, BitVec.extractLsb'_toNat, Nat.shiftRight_eq_div_pow]
    rw [← Nat.shiftLeft_add_eq_or_of_lt (by omega), ← Nat.shiftLeft_add_eq_or_of_lt (by omega),
      ← Nat.shiftLeft_add_eq_or_of_lt (by omega)]
    simp only [Nat.shiftLeft_eq]
    omega
  simp only [takeNat, natBytes, List.cons_append, List.nil_append, takeByte_cons, bind, Except.bind]
  rw [hj]
  simpa using h

/-- An optional byte is read back. -/
@[simp] theorem takeOptByte_bytes (o : Option Byte) (bs : List Byte) :
    takeOptByte (optByteBytes o ++ bs) = .ok (o, bs) := by
  cases o <;> rfl

/-- An optional number below `2^32` is read back. -/
theorem takeOptNat_bytes (o : Option Nat) (bs : List Byte) (h : ∀ k ∈ o, k < 2 ^ 32) :
    takeOptNat (optNatBytes o ++ bs) = .ok (o, bs) := by
  cases o with
  | none =>
    simp only [takeOptNat, optNatBytes, List.cons_append]
    change (do
      let (k, bs) ← takeNat (natBytes 0 ++ bs)
      if k = 0 then Except.ok (none, bs) else .error (.badOperand 0)) = _
    rw [takeNat_natBytes 0 bs (by norm_num)]
    rfl
  | some k =>
    simp only [takeOptNat, optNatBytes, List.cons_append]
    change (do
      let (k, bs) ← takeNat (natBytes k ++ bs)
      Except.ok (some k, bs)) = _
    rw [takeNat_natBytes k bs (h k rfl)]
    rfl

/-- A stack is read back. -/
@[simp] theorem takeStack_stackByte (k : Stack) (bs : List Byte) :
    takeStack (stackByte k :: bs) = .ok (k, bs) := by
  cases k <;> rfl

/-- A role is read back. -/
@[simp] theorem takeRole_roleByte (r : Role) (bs : List Byte) :
    takeRole (roleByte r :: bs) = .ok (r, bs) := by
  cases r <;> rfl

/-- A kind is read back. -/
@[simp] theorem takeKind_kindByte (k : Kind) (bs : List Byte) :
    takeKind (kindByte k :: bs) = .ok (k, bs) := by
  cases k <;> rfl

/-- An optional Boolean is read back. -/
@[simp] theorem takeOptBool_byte (o : Option Bool) (bs : List Byte) :
    takeOptBool (optBoolByte o :: bs) = .ok (o, bs) := by
  rcases o with _ | b
  · rfl
  · cases b <;> rfl

/-- A direction written as a bit is read back. -/
@[simp] theorem dirOfBit_bitOfDir (d : Dir) : dirOfBit (bitOfDir d) = d := by
  cases d <;> rfl

/-- An optional direction written as a bit is read back. -/
theorem map_dirOfBit_bitOfDir (o : Option Dir) : (o.map bitOfDir).map dirOfBit = o := by
  cases o <;> simp

end Sys2Proof
end

