-- ==== Sys2Proof/Laws/State.lean ====
section
/-! SUPPORT. What each update of a stack's registers leaves in each field: one lemma a field, true by
unfolding, so that no proof unfolds a record update. -/

namespace Sys2Proof.Machine

open Sys2Proof

/-! ### Spi.emit: only the events grow -/

@[simp] theorem Spi.emit_first (sp : Span) (e : Event) (s : Spi) :
    (s.emit sp e).first = s.first := rfl
@[simp] theorem Spi.emit_prevSck (sp : Span) (e : Event) (s : Spi) :
    (s.emit sp e).prevSck = s.prevSck := rfl
@[simp] theorem Spi.emit_prevAsserted (sp : Span) (e : Event) (s : Spi) :
    (s.emit sp e).prevAsserted = s.prevAsserted := rfl
@[simp] theorem Spi.emit_active (sp : Span) (e : Event) (s : Spi) :
    (s.emit sp e).active = s.active := rfl
@[simp] theorem Spi.emit_tStart (sp : Span) (e : Event) (s : Spi) :
    (s.emit sp e).tStart = s.tStart := rfl
@[simp] theorem Spi.emit_n (sp : Span) (e : Event) (s : Spi) : (s.emit sp e).n = s.n := rfl
@[simp] theorem Spi.emit_bitcnt (sp : Span) (e : Event) (s : Spi) :
    (s.emit sp e).bitcnt = s.bitcnt := rfl
@[simp] theorem Spi.emit_accMosi (sp : Span) (e : Event) (s : Spi) :
    (s.emit sp e).accMosi = s.accMosi := rfl
@[simp] theorem Spi.emit_accMiso (sp : Span) (e : Event) (s : Spi) :
    (s.emit sp e).accMiso = s.accMiso := rfl
@[simp] theorem Spi.emit_bitStarts (sp : Span) (e : Event) (s : Spi) :
    (s.emit sp e).bitStarts = s.bitStarts := rfl
@[simp] theorem Spi.emit_pos (sp : Span) (e : Event) (s : Spi) : (s.emit sp e).pos = s.pos := rfl
@[simp] theorem Spi.emit_hdrDir (sp : Span) (e : Event) (s : Spi) :
    (s.emit sp e).hdrDir = s.hdrDir := rfl
@[simp] theorem Spi.emit_hdrCount (sp : Span) (e : Event) (s : Spi) :
    (s.emit sp e).hdrCount = s.hdrCount := rfl
@[simp] theorem Spi.emit_hdrAddrHi (sp : Span) (e : Event) (s : Spi) :
    (s.emit sp e).hdrAddrHi = s.hdrAddrHi := rfl
@[simp] theorem Spi.emit_hdrRegHi (sp : Span) (e : Event) (s : Spi) :
    (s.emit sp e).hdrRegHi = s.hdrRegHi := rfl
@[simp] theorem Spi.emit_hdrReg (sp : Span) (e : Event) (s : Spi) :
    (s.emit sp e).hdrReg = s.hdrReg := rfl
@[simp] theorem Spi.emit_hdrRegKnown (sp : Span) (e : Event) (s : Spi) :
    (s.emit sp e).hdrRegKnown = s.hdrRegKnown := rfl
@[simp] theorem Spi.emit_hdrAck (sp : Span) (e : Event) (s : Spi) :
    (s.emit sp e).hdrAck = s.hdrAck := rfl
@[simp] theorem Spi.emit_hdrRouted (sp : Span) (e : Event) (s : Spi) :
    (s.emit sp e).hdrRouted = s.hdrRouted := rfl
@[simp] theorem Spi.emit_hdrB0Span (sp : Span) (e : Event) (s : Spi) :
    (s.emit sp e).hdrB0Span = s.hdrB0Span := rfl
@[simp] theorem Spi.emit_hdrB2Start (sp : Span) (e : Event) (s : Spi) :
    (s.emit sp e).hdrB2Start = s.hdrB2Start := rfl
@[simp] theorem Spi.emit_xfer (sp : Span) (e : Event) (s : Spi) : (s.emit sp e).xfer = s.xfer := rfl
@[simp] theorem Spi.emit_fst (sp : Span) (e : Event) (s : Spi) : (s.emit sp e).fst = s.fst := rfl
@[simp] theorem Spi.emit_fh (sp : Span) (e : Event) (s : Spi) : (s.emit sp e).fh = s.fh := rfl
@[simp] theorem Spi.emit_facc (sp : Span) (e : Event) (s : Spi) : (s.emit sp e).facc = s.facc := rfl
@[simp] theorem Spi.emit_fFieldStart (sp : Span) (e : Event) (s : Spi) :
    (s.emit sp e).fFieldStart = s.fFieldStart := rfl
@[simp] theorem Spi.emit_tag (sp : Span) (e : Event) (s : Spi) : (s.emit sp e).tag = s.tag := rfl
@[simp] theorem Spi.emit_len (sp : Span) (e : Event) (s : Spi) : (s.emit sp e).len = s.len := rfl
@[simp] theorem Spi.emit_code (sp : Span) (e : Event) (s : Spi) : (s.emit sp e).code = s.code := rfl
@[simp] theorem Spi.emit_fdir (sp : Span) (e : Event) (s : Spi) : (s.emit sp e).fdir = s.fdir := rfl
@[simp] theorem Spi.emit_remaining (sp : Span) (e : Event) (s : Spi) :
    (s.emit sp e).remaining = s.remaining := rfl
@[simp] theorem Spi.emit_pcount (sp : Span) (e : Event) (s : Spi) :
    (s.emit sp e).pcount = s.pcount := rfl
@[simp] theorem Spi.emit_fshort (sp : Span) (e : Event) (s : Spi) :
    (s.emit sp e).fshort = s.fshort := rfl
@[simp] theorem Spi.emit_fseq (sp : Span) (e : Event) (s : Spi) : (s.emit sp e).fseq = s.fseq := rfl
@[simp] theorem Spi.emit_fStart (sp : Span) (e : Event) (s : Spi) :
    (s.emit sp e).fStart = s.fStart := rfl
@[simp] theorem Spi.emit_closed (sp : Span) (e : Event) (s : Spi) :
    (s.emit sp e).closed = s.closed := rfl
@[simp] theorem Spi.emit_out (sp : Span) (e : Event) (s : Spi) :
    (s.emit sp e).out = s.out ++ [⟨sp, e⟩] := rfl

/-! ### Spi.emitAll: only the events grow -/

@[simp] theorem Spi.emitAll_first (es : List OutEvent) (s : Spi) :
    (s.emitAll es).first = s.first := rfl
@[simp] theorem Spi.emitAll_prevSck (es : List OutEvent) (s : Spi) :
    (s.emitAll es).prevSck = s.prevSck := rfl
@[simp] theorem Spi.emitAll_prevAsserted (es : List OutEvent) (s : Spi) :
    (s.emitAll es).prevAsserted = s.prevAsserted := rfl
@[simp] theorem Spi.emitAll_active (es : List OutEvent) (s : Spi) :
    (s.emitAll es).active = s.active := rfl
@[simp] theorem Spi.emitAll_tStart (es : List OutEvent) (s : Spi) :
    (s.emitAll es).tStart = s.tStart := rfl
@[simp] theorem Spi.emitAll_n (es : List OutEvent) (s : Spi) : (s.emitAll es).n = s.n := rfl
@[simp] theorem Spi.emitAll_bitcnt (es : List OutEvent) (s : Spi) :
    (s.emitAll es).bitcnt = s.bitcnt := rfl
@[simp] theorem Spi.emitAll_accMosi (es : List OutEvent) (s : Spi) :
    (s.emitAll es).accMosi = s.accMosi := rfl
@[simp] theorem Spi.emitAll_accMiso (es : List OutEvent) (s : Spi) :
    (s.emitAll es).accMiso = s.accMiso := rfl
@[simp] theorem Spi.emitAll_bitStarts (es : List OutEvent) (s : Spi) :
    (s.emitAll es).bitStarts = s.bitStarts := rfl
@[simp] theorem Spi.emitAll_pos (es : List OutEvent) (s : Spi) : (s.emitAll es).pos = s.pos := rfl
@[simp] theorem Spi.emitAll_hdrDir (es : List OutEvent) (s : Spi) :
    (s.emitAll es).hdrDir = s.hdrDir := rfl
@[simp] theorem Spi.emitAll_hdrCount (es : List OutEvent) (s : Spi) :
    (s.emitAll es).hdrCount = s.hdrCount := rfl
@[simp] theorem Spi.emitAll_hdrAddrHi (es : List OutEvent) (s : Spi) :
    (s.emitAll es).hdrAddrHi = s.hdrAddrHi := rfl
@[simp] theorem Spi.emitAll_hdrRegHi (es : List OutEvent) (s : Spi) :
    (s.emitAll es).hdrRegHi = s.hdrRegHi := rfl
@[simp] theorem Spi.emitAll_hdrReg (es : List OutEvent) (s : Spi) :
    (s.emitAll es).hdrReg = s.hdrReg := rfl
@[simp] theorem Spi.emitAll_hdrRegKnown (es : List OutEvent) (s : Spi) :
    (s.emitAll es).hdrRegKnown = s.hdrRegKnown := rfl
@[simp] theorem Spi.emitAll_hdrAck (es : List OutEvent) (s : Spi) :
    (s.emitAll es).hdrAck = s.hdrAck := rfl
@[simp] theorem Spi.emitAll_hdrRouted (es : List OutEvent) (s : Spi) :
    (s.emitAll es).hdrRouted = s.hdrRouted := rfl
@[simp] theorem Spi.emitAll_hdrB0Span (es : List OutEvent) (s : Spi) :
    (s.emitAll es).hdrB0Span = s.hdrB0Span := rfl
@[simp] theorem Spi.emitAll_hdrB2Start (es : List OutEvent) (s : Spi) :
    (s.emitAll es).hdrB2Start = s.hdrB2Start := rfl
@[simp] theorem Spi.emitAll_xfer (es : List OutEvent) (s : Spi) :
    (s.emitAll es).xfer = s.xfer := rfl
@[simp] theorem Spi.emitAll_fst (es : List OutEvent) (s : Spi) : (s.emitAll es).fst = s.fst := rfl
@[simp] theorem Spi.emitAll_fh (es : List OutEvent) (s : Spi) : (s.emitAll es).fh = s.fh := rfl
@[simp] theorem Spi.emitAll_facc (es : List OutEvent) (s : Spi) :
    (s.emitAll es).facc = s.facc := rfl
@[simp] theorem Spi.emitAll_fFieldStart (es : List OutEvent) (s : Spi) :
    (s.emitAll es).fFieldStart = s.fFieldStart := rfl
@[simp] theorem Spi.emitAll_tag (es : List OutEvent) (s : Spi) : (s.emitAll es).tag = s.tag := rfl
@[simp] theorem Spi.emitAll_len (es : List OutEvent) (s : Spi) : (s.emitAll es).len = s.len := rfl
@[simp] theorem Spi.emitAll_code (es : List OutEvent) (s : Spi) :
    (s.emitAll es).code = s.code := rfl
@[simp] theorem Spi.emitAll_fdir (es : List OutEvent) (s : Spi) :
    (s.emitAll es).fdir = s.fdir := rfl
@[simp] theorem Spi.emitAll_remaining (es : List OutEvent) (s : Spi) :
    (s.emitAll es).remaining = s.remaining := rfl
@[simp] theorem Spi.emitAll_pcount (es : List OutEvent) (s : Spi) :
    (s.emitAll es).pcount = s.pcount := rfl
@[simp] theorem Spi.emitAll_fshort (es : List OutEvent) (s : Spi) :
    (s.emitAll es).fshort = s.fshort := rfl
@[simp] theorem Spi.emitAll_fseq (es : List OutEvent) (s : Spi) :
    (s.emitAll es).fseq = s.fseq := rfl
@[simp] theorem Spi.emitAll_fStart (es : List OutEvent) (s : Spi) :
    (s.emitAll es).fStart = s.fStart := rfl
@[simp] theorem Spi.emitAll_closed (es : List OutEvent) (s : Spi) :
    (s.emitAll es).closed = s.closed := rfl
@[simp] theorem Spi.emitAll_out (es : List OutEvent) (s : Spi) :
    (s.emitAll es).out = s.out ++ es := rfl

/-! ### Spi.diag: only the events grow (60_exceptions.md R372) -/

@[simp] theorem Spi.diag_first (c : DiagCode) (sp : Span) (k : Nat) (s : Spi) :
    (s.diag c sp k).first = s.first := rfl
@[simp] theorem Spi.diag_prevSck (c : DiagCode) (sp : Span) (k : Nat) (s : Spi) :
    (s.diag c sp k).prevSck = s.prevSck := rfl
@[simp] theorem Spi.diag_prevAsserted (c : DiagCode) (sp : Span) (k : Nat) (s : Spi) :
    (s.diag c sp k).prevAsserted = s.prevAsserted := rfl
@[simp] theorem Spi.diag_active (c : DiagCode) (sp : Span) (k : Nat) (s : Spi) :
    (s.diag c sp k).active = s.active := rfl
@[simp] theorem Spi.diag_tStart (c : DiagCode) (sp : Span) (k : Nat) (s : Spi) :
    (s.diag c sp k).tStart = s.tStart := rfl
@[simp] theorem Spi.diag_n (c : DiagCode) (sp : Span) (k : Nat) (s : Spi) :
    (s.diag c sp k).n = s.n := rfl
@[simp] theorem Spi.diag_bitcnt (c : DiagCode) (sp : Span) (k : Nat) (s : Spi) :
    (s.diag c sp k).bitcnt = s.bitcnt := rfl
@[simp] theorem Spi.diag_accMosi (c : DiagCode) (sp : Span) (k : Nat) (s : Spi) :
    (s.diag c sp k).accMosi = s.accMosi := rfl
@[simp] theorem Spi.diag_accMiso (c : DiagCode) (sp : Span) (k : Nat) (s : Spi) :
    (s.diag c sp k).accMiso = s.accMiso := rfl
@[simp] theorem Spi.diag_bitStarts (c : DiagCode) (sp : Span) (k : Nat) (s : Spi) :
    (s.diag c sp k).bitStarts = s.bitStarts := rfl
@[simp] theorem Spi.diag_pos (c : DiagCode) (sp : Span) (k : Nat) (s : Spi) :
    (s.diag c sp k).pos = s.pos := rfl
@[simp] theorem Spi.diag_hdrDir (c : DiagCode) (sp : Span) (k : Nat) (s : Spi) :
    (s.diag c sp k).hdrDir = s.hdrDir := rfl
@[simp] theorem Spi.diag_hdrCount (c : DiagCode) (sp : Span) (k : Nat) (s : Spi) :
    (s.diag c sp k).hdrCount = s.hdrCount := rfl
@[simp] theorem Spi.diag_hdrAddrHi (c : DiagCode) (sp : Span) (k : Nat) (s : Spi) :
    (s.diag c sp k).hdrAddrHi = s.hdrAddrHi := rfl
@[simp] theorem Spi.diag_hdrRegHi (c : DiagCode) (sp : Span) (k : Nat) (s : Spi) :
    (s.diag c sp k).hdrRegHi = s.hdrRegHi := rfl
@[simp] theorem Spi.diag_hdrReg (c : DiagCode) (sp : Span) (k : Nat) (s : Spi) :
    (s.diag c sp k).hdrReg = s.hdrReg := rfl
@[simp] theorem Spi.diag_hdrRegKnown (c : DiagCode) (sp : Span) (k : Nat) (s : Spi) :
    (s.diag c sp k).hdrRegKnown = s.hdrRegKnown := rfl
@[simp] theorem Spi.diag_hdrAck (c : DiagCode) (sp : Span) (k : Nat) (s : Spi) :
    (s.diag c sp k).hdrAck = s.hdrAck := rfl
@[simp] theorem Spi.diag_hdrRouted (c : DiagCode) (sp : Span) (k : Nat) (s : Spi) :
    (s.diag c sp k).hdrRouted = s.hdrRouted := rfl
@[simp] theorem Spi.diag_hdrB0Span (c : DiagCode) (sp : Span) (k : Nat) (s : Spi) :
    (s.diag c sp k).hdrB0Span = s.hdrB0Span := rfl
@[simp] theorem Spi.diag_hdrB2Start (c : DiagCode) (sp : Span) (k : Nat) (s : Spi) :
    (s.diag c sp k).hdrB2Start = s.hdrB2Start := rfl
@[simp] theorem Spi.diag_xfer (c : DiagCode) (sp : Span) (k : Nat) (s : Spi) :
    (s.diag c sp k).xfer = s.xfer := rfl
@[simp] theorem Spi.diag_fst (c : DiagCode) (sp : Span) (k : Nat) (s : Spi) :
    (s.diag c sp k).fst = s.fst := rfl
@[simp] theorem Spi.diag_fh (c : DiagCode) (sp : Span) (k : Nat) (s : Spi) :
    (s.diag c sp k).fh = s.fh := rfl
@[simp] theorem Spi.diag_facc (c : DiagCode) (sp : Span) (k : Nat) (s : Spi) :
    (s.diag c sp k).facc = s.facc := rfl
@[simp] theorem Spi.diag_fFieldStart (c : DiagCode) (sp : Span) (k : Nat) (s : Spi) :
    (s.diag c sp k).fFieldStart = s.fFieldStart := rfl
@[simp] theorem Spi.diag_tag (c : DiagCode) (sp : Span) (k : Nat) (s : Spi) :
    (s.diag c sp k).tag = s.tag := rfl
@[simp] theorem Spi.diag_len (c : DiagCode) (sp : Span) (k : Nat) (s : Spi) :
    (s.diag c sp k).len = s.len := rfl
@[simp] theorem Spi.diag_code (c : DiagCode) (sp : Span) (k : Nat) (s : Spi) :
    (s.diag c sp k).code = s.code := rfl
@[simp] theorem Spi.diag_fdir (c : DiagCode) (sp : Span) (k : Nat) (s : Spi) :
    (s.diag c sp k).fdir = s.fdir := rfl
@[simp] theorem Spi.diag_remaining (c : DiagCode) (sp : Span) (k : Nat) (s : Spi) :
    (s.diag c sp k).remaining = s.remaining := rfl
@[simp] theorem Spi.diag_pcount (c : DiagCode) (sp : Span) (k : Nat) (s : Spi) :
    (s.diag c sp k).pcount = s.pcount := rfl
@[simp] theorem Spi.diag_fshort (c : DiagCode) (sp : Span) (k : Nat) (s : Spi) :
    (s.diag c sp k).fshort = s.fshort := rfl
@[simp] theorem Spi.diag_fseq (c : DiagCode) (sp : Span) (k : Nat) (s : Spi) :
    (s.diag c sp k).fseq = s.fseq := rfl
@[simp] theorem Spi.diag_fStart (c : DiagCode) (sp : Span) (k : Nat) (s : Spi) :
    (s.diag c sp k).fStart = s.fStart := rfl
@[simp] theorem Spi.diag_closed (c : DiagCode) (sp : Span) (k : Nat) (s : Spi) :
    (s.diag c sp k).closed = s.closed := rfl
@[simp] theorem Spi.diag_out (c : DiagCode) (sp : Span) (k : Nat) (s : Spi) :
    (s.diag c sp k).out = s.out ++ [⟨sp, .diag c k⟩] := rfl

/-! ### Spi.openTransfer: the framer stays (40_sampler.md R132) -/

@[simp] theorem Spi.openTransfer_first (s : Spi) : (s.openTransfer).first = s.first := rfl
@[simp] theorem Spi.openTransfer_prevSck (s : Spi) : (s.openTransfer).prevSck = s.prevSck := rfl
@[simp] theorem Spi.openTransfer_prevAsserted (s : Spi) :
    (s.openTransfer).prevAsserted = s.prevAsserted := rfl
@[simp] theorem Spi.openTransfer_active (s : Spi) : (s.openTransfer).active = true := rfl
@[simp] theorem Spi.openTransfer_tStart (s : Spi) : (s.openTransfer).tStart = s.n := rfl
@[simp] theorem Spi.openTransfer_n (s : Spi) : (s.openTransfer).n = s.n := rfl
@[simp] theorem Spi.openTransfer_bitcnt (s : Spi) : (s.openTransfer).bitcnt = 0 := rfl
@[simp] theorem Spi.openTransfer_accMosi (s : Spi) : (s.openTransfer).accMosi = 0#8 := rfl
@[simp] theorem Spi.openTransfer_accMiso (s : Spi) : (s.openTransfer).accMiso = 0#8 := rfl
@[simp] theorem Spi.openTransfer_bitStarts (s : Spi) : (s.openTransfer).bitStarts = [] := rfl
@[simp] theorem Spi.openTransfer_pos (s : Spi) : (s.openTransfer).pos = 0 := rfl
@[simp] theorem Spi.openTransfer_hdrDir (s : Spi) : (s.openTransfer).hdrDir = none := rfl
@[simp] theorem Spi.openTransfer_hdrCount (s : Spi) : (s.openTransfer).hdrCount = none := rfl
@[simp] theorem Spi.openTransfer_hdrAddrHi (s : Spi) : (s.openTransfer).hdrAddrHi = none := rfl
@[simp] theorem Spi.openTransfer_hdrRegHi (s : Spi) : (s.openTransfer).hdrRegHi = none := rfl
@[simp] theorem Spi.openTransfer_hdrReg (s : Spi) : (s.openTransfer).hdrReg = none := rfl
@[simp] theorem Spi.openTransfer_hdrRegKnown (s : Spi) : (s.openTransfer).hdrRegKnown = false := rfl
@[simp] theorem Spi.openTransfer_hdrAck (s : Spi) : (s.openTransfer).hdrAck = none := rfl
@[simp] theorem Spi.openTransfer_hdrRouted (s : Spi) : (s.openTransfer).hdrRouted = false := rfl
@[simp] theorem Spi.openTransfer_hdrB0Span (s : Spi) : (s.openTransfer).hdrB0Span = (0, 0) := rfl
@[simp] theorem Spi.openTransfer_hdrB2Start (s : Spi) : (s.openTransfer).hdrB2Start = 0 := rfl
@[simp] theorem Spi.openTransfer_xfer (s : Spi) : (s.openTransfer).xfer = [] := rfl
@[simp] theorem Spi.openTransfer_fst (s : Spi) : (s.openTransfer).fst = s.fst := rfl
@[simp] theorem Spi.openTransfer_fh (s : Spi) : (s.openTransfer).fh = s.fh := rfl
@[simp] theorem Spi.openTransfer_facc (s : Spi) : (s.openTransfer).facc = s.facc := rfl
@[simp] theorem Spi.openTransfer_fFieldStart (s : Spi) :
    (s.openTransfer).fFieldStart = s.fFieldStart := rfl
@[simp] theorem Spi.openTransfer_tag (s : Spi) : (s.openTransfer).tag = s.tag := rfl
@[simp] theorem Spi.openTransfer_len (s : Spi) : (s.openTransfer).len = s.len := rfl
@[simp] theorem Spi.openTransfer_code (s : Spi) : (s.openTransfer).code = s.code := rfl
@[simp] theorem Spi.openTransfer_fdir (s : Spi) : (s.openTransfer).fdir = s.fdir := rfl
@[simp] theorem Spi.openTransfer_remaining (s : Spi) :
    (s.openTransfer).remaining = s.remaining := rfl
@[simp] theorem Spi.openTransfer_pcount (s : Spi) : (s.openTransfer).pcount = s.pcount := rfl
@[simp] theorem Spi.openTransfer_fshort (s : Spi) : (s.openTransfer).fshort = s.fshort := rfl
@[simp] theorem Spi.openTransfer_fseq (s : Spi) : (s.openTransfer).fseq = s.fseq := rfl
@[simp] theorem Spi.openTransfer_fStart (s : Spi) : (s.openTransfer).fStart = s.fStart := rfl
@[simp] theorem Spi.openTransfer_closed (s : Spi) : (s.openTransfer).closed = s.closed := rfl
@[simp] theorem Spi.openTransfer_out (s : Spi) : (s.openTransfer).out = s.out := rfl

/-! ### Spi.epilogue: levels and index (40_sampler.md R134) -/

@[simp] theorem Spi.epilogue_first (x : SpiLevels) (s : Spi) : (s.epilogue x).first = s.first := rfl
@[simp] theorem Spi.epilogue_prevSck (x : SpiLevels) (s : Spi) :
    (s.epilogue x).prevSck = x.sck := rfl
@[simp] theorem Spi.epilogue_prevAsserted (x : SpiLevels) (s : Spi) :
    (s.epilogue x).prevAsserted = x.asserted := rfl
@[simp] theorem Spi.epilogue_active (x : SpiLevels) (s : Spi) :
    (s.epilogue x).active = s.active := rfl
@[simp] theorem Spi.epilogue_tStart (x : SpiLevels) (s : Spi) :
    (s.epilogue x).tStart = s.tStart := rfl
@[simp] theorem Spi.epilogue_n (x : SpiLevels) (s : Spi) : (s.epilogue x).n = s.n + 1 := rfl
@[simp] theorem Spi.epilogue_bitcnt (x : SpiLevels) (s : Spi) :
    (s.epilogue x).bitcnt = s.bitcnt := rfl
@[simp] theorem Spi.epilogue_accMosi (x : SpiLevels) (s : Spi) :
    (s.epilogue x).accMosi = s.accMosi := rfl
@[simp] theorem Spi.epilogue_accMiso (x : SpiLevels) (s : Spi) :
    (s.epilogue x).accMiso = s.accMiso := rfl
@[simp] theorem Spi.epilogue_bitStarts (x : SpiLevels) (s : Spi) :
    (s.epilogue x).bitStarts = s.bitStarts := rfl
@[simp] theorem Spi.epilogue_pos (x : SpiLevels) (s : Spi) : (s.epilogue x).pos = s.pos := rfl
@[simp] theorem Spi.epilogue_hdrDir (x : SpiLevels) (s : Spi) :
    (s.epilogue x).hdrDir = s.hdrDir := rfl
@[simp] theorem Spi.epilogue_hdrCount (x : SpiLevels) (s : Spi) :
    (s.epilogue x).hdrCount = s.hdrCount := rfl
@[simp] theorem Spi.epilogue_hdrAddrHi (x : SpiLevels) (s : Spi) :
    (s.epilogue x).hdrAddrHi = s.hdrAddrHi := rfl
@[simp] theorem Spi.epilogue_hdrRegHi (x : SpiLevels) (s : Spi) :
    (s.epilogue x).hdrRegHi = s.hdrRegHi := rfl
@[simp] theorem Spi.epilogue_hdrReg (x : SpiLevels) (s : Spi) :
    (s.epilogue x).hdrReg = s.hdrReg := rfl
@[simp] theorem Spi.epilogue_hdrRegKnown (x : SpiLevels) (s : Spi) :
    (s.epilogue x).hdrRegKnown = s.hdrRegKnown := rfl
@[simp] theorem Spi.epilogue_hdrAck (x : SpiLevels) (s : Spi) :
    (s.epilogue x).hdrAck = s.hdrAck := rfl
@[simp] theorem Spi.epilogue_hdrRouted (x : SpiLevels) (s : Spi) :
    (s.epilogue x).hdrRouted = s.hdrRouted := rfl
@[simp] theorem Spi.epilogue_hdrB0Span (x : SpiLevels) (s : Spi) :
    (s.epilogue x).hdrB0Span = s.hdrB0Span := rfl
@[simp] theorem Spi.epilogue_hdrB2Start (x : SpiLevels) (s : Spi) :
    (s.epilogue x).hdrB2Start = s.hdrB2Start := rfl
@[simp] theorem Spi.epilogue_xfer (x : SpiLevels) (s : Spi) : (s.epilogue x).xfer = s.xfer := rfl
@[simp] theorem Spi.epilogue_fst (x : SpiLevels) (s : Spi) : (s.epilogue x).fst = s.fst := rfl
@[simp] theorem Spi.epilogue_fh (x : SpiLevels) (s : Spi) : (s.epilogue x).fh = s.fh := rfl
@[simp] theorem Spi.epilogue_facc (x : SpiLevels) (s : Spi) : (s.epilogue x).facc = s.facc := rfl
@[simp] theorem Spi.epilogue_fFieldStart (x : SpiLevels) (s : Spi) :
    (s.epilogue x).fFieldStart = s.fFieldStart := rfl
@[simp] theorem Spi.epilogue_tag (x : SpiLevels) (s : Spi) : (s.epilogue x).tag = s.tag := rfl
@[simp] theorem Spi.epilogue_len (x : SpiLevels) (s : Spi) : (s.epilogue x).len = s.len := rfl
@[simp] theorem Spi.epilogue_code (x : SpiLevels) (s : Spi) : (s.epilogue x).code = s.code := rfl
@[simp] theorem Spi.epilogue_fdir (x : SpiLevels) (s : Spi) : (s.epilogue x).fdir = s.fdir := rfl
@[simp] theorem Spi.epilogue_remaining (x : SpiLevels) (s : Spi) :
    (s.epilogue x).remaining = s.remaining := rfl
@[simp] theorem Spi.epilogue_pcount (x : SpiLevels) (s : Spi) :
    (s.epilogue x).pcount = s.pcount := rfl
@[simp] theorem Spi.epilogue_fshort (x : SpiLevels) (s : Spi) :
    (s.epilogue x).fshort = s.fshort := rfl
@[simp] theorem Spi.epilogue_fseq (x : SpiLevels) (s : Spi) : (s.epilogue x).fseq = s.fseq := rfl
@[simp] theorem Spi.epilogue_fStart (x : SpiLevels) (s : Spi) :
    (s.epilogue x).fStart = s.fStart := rfl
@[simp] theorem Spi.epilogue_closed (x : SpiLevels) (s : Spi) :
    (s.epilogue x).closed = s.closed := rfl
@[simp] theorem Spi.epilogue_out (x : SpiLevels) (s : Spi) : (s.epilogue x).out = s.out := rfl

/-! ### Spi.emitted: only the events (10_state.md R66) -/

@[simp] theorem Spi.emitted_first (p : SpiParams) (old : Spi) (s : Spi) :
    (s.emitted p old).first = s.first := rfl
@[simp] theorem Spi.emitted_prevSck (p : SpiParams) (old : Spi) (s : Spi) :
    (s.emitted p old).prevSck = s.prevSck := rfl
@[simp] theorem Spi.emitted_prevAsserted (p : SpiParams) (old : Spi) (s : Spi) :
    (s.emitted p old).prevAsserted = s.prevAsserted := rfl
@[simp] theorem Spi.emitted_active (p : SpiParams) (old : Spi) (s : Spi) :
    (s.emitted p old).active = s.active := rfl
@[simp] theorem Spi.emitted_tStart (p : SpiParams) (old : Spi) (s : Spi) :
    (s.emitted p old).tStart = s.tStart := rfl
@[simp] theorem Spi.emitted_n (p : SpiParams) (old : Spi) (s : Spi) :
    (s.emitted p old).n = s.n := rfl
@[simp] theorem Spi.emitted_bitcnt (p : SpiParams) (old : Spi) (s : Spi) :
    (s.emitted p old).bitcnt = s.bitcnt := rfl
@[simp] theorem Spi.emitted_accMosi (p : SpiParams) (old : Spi) (s : Spi) :
    (s.emitted p old).accMosi = s.accMosi := rfl
@[simp] theorem Spi.emitted_accMiso (p : SpiParams) (old : Spi) (s : Spi) :
    (s.emitted p old).accMiso = s.accMiso := rfl
@[simp] theorem Spi.emitted_bitStarts (p : SpiParams) (old : Spi) (s : Spi) :
    (s.emitted p old).bitStarts = s.bitStarts := rfl
@[simp] theorem Spi.emitted_pos (p : SpiParams) (old : Spi) (s : Spi) :
    (s.emitted p old).pos = s.pos := rfl
@[simp] theorem Spi.emitted_hdrDir (p : SpiParams) (old : Spi) (s : Spi) :
    (s.emitted p old).hdrDir = s.hdrDir := rfl
@[simp] theorem Spi.emitted_hdrCount (p : SpiParams) (old : Spi) (s : Spi) :
    (s.emitted p old).hdrCount = s.hdrCount := rfl
@[simp] theorem Spi.emitted_hdrAddrHi (p : SpiParams) (old : Spi) (s : Spi) :
    (s.emitted p old).hdrAddrHi = s.hdrAddrHi := rfl
@[simp] theorem Spi.emitted_hdrRegHi (p : SpiParams) (old : Spi) (s : Spi) :
    (s.emitted p old).hdrRegHi = s.hdrRegHi := rfl
@[simp] theorem Spi.emitted_hdrReg (p : SpiParams) (old : Spi) (s : Spi) :
    (s.emitted p old).hdrReg = s.hdrReg := rfl
@[simp] theorem Spi.emitted_hdrRegKnown (p : SpiParams) (old : Spi) (s : Spi) :
    (s.emitted p old).hdrRegKnown = s.hdrRegKnown := rfl
@[simp] theorem Spi.emitted_hdrAck (p : SpiParams) (old : Spi) (s : Spi) :
    (s.emitted p old).hdrAck = s.hdrAck := rfl
@[simp] theorem Spi.emitted_hdrRouted (p : SpiParams) (old : Spi) (s : Spi) :
    (s.emitted p old).hdrRouted = s.hdrRouted := rfl
@[simp] theorem Spi.emitted_hdrB0Span (p : SpiParams) (old : Spi) (s : Spi) :
    (s.emitted p old).hdrB0Span = s.hdrB0Span := rfl
@[simp] theorem Spi.emitted_hdrB2Start (p : SpiParams) (old : Spi) (s : Spi) :
    (s.emitted p old).hdrB2Start = s.hdrB2Start := rfl
@[simp] theorem Spi.emitted_xfer (p : SpiParams) (old : Spi) (s : Spi) :
    (s.emitted p old).xfer = s.xfer := rfl
@[simp] theorem Spi.emitted_fst (p : SpiParams) (old : Spi) (s : Spi) :
    (s.emitted p old).fst = s.fst := rfl
@[simp] theorem Spi.emitted_fh (p : SpiParams) (old : Spi) (s : Spi) :
    (s.emitted p old).fh = s.fh := rfl
@[simp] theorem Spi.emitted_facc (p : SpiParams) (old : Spi) (s : Spi) :
    (s.emitted p old).facc = s.facc := rfl
@[simp] theorem Spi.emitted_fFieldStart (p : SpiParams) (old : Spi) (s : Spi) :
    (s.emitted p old).fFieldStart = s.fFieldStart := rfl
@[simp] theorem Spi.emitted_tag (p : SpiParams) (old : Spi) (s : Spi) :
    (s.emitted p old).tag = s.tag := rfl
@[simp] theorem Spi.emitted_len (p : SpiParams) (old : Spi) (s : Spi) :
    (s.emitted p old).len = s.len := rfl
@[simp] theorem Spi.emitted_code (p : SpiParams) (old : Spi) (s : Spi) :
    (s.emitted p old).code = s.code := rfl
@[simp] theorem Spi.emitted_fdir (p : SpiParams) (old : Spi) (s : Spi) :
    (s.emitted p old).fdir = s.fdir := rfl
@[simp] theorem Spi.emitted_remaining (p : SpiParams) (old : Spi) (s : Spi) :
    (s.emitted p old).remaining = s.remaining := rfl
@[simp] theorem Spi.emitted_pcount (p : SpiParams) (old : Spi) (s : Spi) :
    (s.emitted p old).pcount = s.pcount := rfl
@[simp] theorem Spi.emitted_fshort (p : SpiParams) (old : Spi) (s : Spi) :
    (s.emitted p old).fshort = s.fshort := rfl
@[simp] theorem Spi.emitted_fseq (p : SpiParams) (old : Spi) (s : Spi) :
    (s.emitted p old).fseq = s.fseq := rfl
@[simp] theorem Spi.emitted_fStart (p : SpiParams) (old : Spi) (s : Spi) :
    (s.emitted p old).fStart = s.fStart := rfl
@[simp] theorem Spi.emitted_closed (p : SpiParams) (old : Spi) (s : Spi) :
    (s.emitted p old).closed = s.closed := rfl
@[simp] theorem Spi.emitted_out (p : SpiParams) (old : Spi) (s : Spi) :
    (s.emitted p old).out = portEvents p.boundStarts old.n old.out s.out := rfl

/-! ### Spi.tpmStart: only the framer (43_command_framer.md R241) -/

@[simp] theorem Spi.tpmStart_first (k : Nat) (s : Spi) : (s.tpmStart k).first = s.first := rfl
@[simp] theorem Spi.tpmStart_prevSck (k : Nat) (s : Spi) : (s.tpmStart k).prevSck = s.prevSck := rfl
@[simp] theorem Spi.tpmStart_prevAsserted (k : Nat) (s : Spi) :
    (s.tpmStart k).prevAsserted = s.prevAsserted := rfl
@[simp] theorem Spi.tpmStart_active (k : Nat) (s : Spi) : (s.tpmStart k).active = s.active := rfl
@[simp] theorem Spi.tpmStart_tStart (k : Nat) (s : Spi) : (s.tpmStart k).tStart = s.tStart := rfl
@[simp] theorem Spi.tpmStart_n (k : Nat) (s : Spi) : (s.tpmStart k).n = s.n := rfl
@[simp] theorem Spi.tpmStart_bitcnt (k : Nat) (s : Spi) : (s.tpmStart k).bitcnt = s.bitcnt := rfl
@[simp] theorem Spi.tpmStart_accMosi (k : Nat) (s : Spi) : (s.tpmStart k).accMosi = s.accMosi := rfl
@[simp] theorem Spi.tpmStart_accMiso (k : Nat) (s : Spi) : (s.tpmStart k).accMiso = s.accMiso := rfl
@[simp] theorem Spi.tpmStart_bitStarts (k : Nat) (s : Spi) :
    (s.tpmStart k).bitStarts = s.bitStarts := rfl
@[simp] theorem Spi.tpmStart_pos (k : Nat) (s : Spi) : (s.tpmStart k).pos = s.pos := rfl
@[simp] theorem Spi.tpmStart_hdrDir (k : Nat) (s : Spi) : (s.tpmStart k).hdrDir = s.hdrDir := rfl
@[simp] theorem Spi.tpmStart_hdrCount (k : Nat) (s : Spi) :
    (s.tpmStart k).hdrCount = s.hdrCount := rfl
@[simp] theorem Spi.tpmStart_hdrAddrHi (k : Nat) (s : Spi) :
    (s.tpmStart k).hdrAddrHi = s.hdrAddrHi := rfl
@[simp] theorem Spi.tpmStart_hdrRegHi (k : Nat) (s : Spi) :
    (s.tpmStart k).hdrRegHi = s.hdrRegHi := rfl
@[simp] theorem Spi.tpmStart_hdrReg (k : Nat) (s : Spi) : (s.tpmStart k).hdrReg = s.hdrReg := rfl
@[simp] theorem Spi.tpmStart_hdrRegKnown (k : Nat) (s : Spi) :
    (s.tpmStart k).hdrRegKnown = s.hdrRegKnown := rfl
@[simp] theorem Spi.tpmStart_hdrAck (k : Nat) (s : Spi) : (s.tpmStart k).hdrAck = s.hdrAck := rfl
@[simp] theorem Spi.tpmStart_hdrRouted (k : Nat) (s : Spi) :
    (s.tpmStart k).hdrRouted = s.hdrRouted := rfl
@[simp] theorem Spi.tpmStart_hdrB0Span (k : Nat) (s : Spi) :
    (s.tpmStart k).hdrB0Span = s.hdrB0Span := rfl
@[simp] theorem Spi.tpmStart_hdrB2Start (k : Nat) (s : Spi) :
    (s.tpmStart k).hdrB2Start = s.hdrB2Start := rfl
@[simp] theorem Spi.tpmStart_xfer (k : Nat) (s : Spi) : (s.tpmStart k).xfer = s.xfer := rfl
@[simp] theorem Spi.tpmStart_fst (k : Nat) (s : Spi) : (s.tpmStart k).fst = .hdr := rfl
@[simp] theorem Spi.tpmStart_fh (k : Nat) (s : Spi) : (s.tpmStart k).fh = 0 := rfl
@[simp] theorem Spi.tpmStart_facc (k : Nat) (s : Spi) : (s.tpmStart k).facc = 0#32 := rfl
@[simp] theorem Spi.tpmStart_fFieldStart (k : Nat) (s : Spi) :
    (s.tpmStart k).fFieldStart = s.fFieldStart := rfl
@[simp] theorem Spi.tpmStart_tag (k : Nat) (s : Spi) : (s.tpmStart k).tag = 0#16 := rfl
@[simp] theorem Spi.tpmStart_len (k : Nat) (s : Spi) : (s.tpmStart k).len = 0#32 := rfl
@[simp] theorem Spi.tpmStart_code (k : Nat) (s : Spi) : (s.tpmStart k).code = 0#32 := rfl
@[simp] theorem Spi.tpmStart_fdir (k : Nat) (s : Spi) : (s.tpmStart k).fdir = none := rfl
@[simp] theorem Spi.tpmStart_remaining (k : Nat) (s : Spi) : (s.tpmStart k).remaining = 0#32 := rfl
@[simp] theorem Spi.tpmStart_pcount (k : Nat) (s : Spi) : (s.tpmStart k).pcount = 0 := rfl
@[simp] theorem Spi.tpmStart_fshort (k : Nat) (s : Spi) : (s.tpmStart k).fshort = false := rfl
@[simp] theorem Spi.tpmStart_fseq (k : Nat) (s : Spi) : (s.tpmStart k).fseq = s.fseq + 1 := rfl
@[simp] theorem Spi.tpmStart_fStart (k : Nat) (s : Spi) :
    (s.tpmStart k).fStart = some (.idx k) := rfl
@[simp] theorem Spi.tpmStart_closed (k : Nat) (s : Spi) : (s.tpmStart k).closed = s.closed := rfl
@[simp] theorem Spi.tpmStart_out (k : Nat) (s : Spi) : (s.tpmStart k).out = s.out := rfl

/-! ### Spi.shiftBits: only the accumulators (40_sampler.md R133) -/

@[simp] theorem Spi.shiftBits_first (p : SpiParams) (x : SpiLevels) (s : Spi) :
    (s.shiftBits p x).first = s.first := rfl
@[simp] theorem Spi.shiftBits_prevSck (p : SpiParams) (x : SpiLevels) (s : Spi) :
    (s.shiftBits p x).prevSck = s.prevSck := rfl
@[simp] theorem Spi.shiftBits_prevAsserted (p : SpiParams) (x : SpiLevels) (s : Spi) :
    (s.shiftBits p x).prevAsserted = s.prevAsserted := rfl
@[simp] theorem Spi.shiftBits_active (p : SpiParams) (x : SpiLevels) (s : Spi) :
    (s.shiftBits p x).active = s.active := rfl
@[simp] theorem Spi.shiftBits_tStart (p : SpiParams) (x : SpiLevels) (s : Spi) :
    (s.shiftBits p x).tStart = s.tStart := rfl
@[simp] theorem Spi.shiftBits_n (p : SpiParams) (x : SpiLevels) (s : Spi) :
    (s.shiftBits p x).n = s.n := rfl
@[simp] theorem Spi.shiftBits_bitcnt (p : SpiParams) (x : SpiLevels) (s : Spi) :
    (s.shiftBits p x).bitcnt = s.bitcnt + 1 := rfl
@[simp] theorem Spi.shiftBits_accMosi (p : SpiParams) (x : SpiLevels) (s : Spi) :
    (s.shiftBits p x).accMosi = if p.haveMosi then shiftIn s.accMosi x.mosi else s.accMosi := rfl
@[simp] theorem Spi.shiftBits_accMiso (p : SpiParams) (x : SpiLevels) (s : Spi) :
    (s.shiftBits p x).accMiso = if p.haveMiso then shiftIn s.accMiso x.miso else s.accMiso := rfl
@[simp] theorem Spi.shiftBits_bitStarts (p : SpiParams) (x : SpiLevels) (s : Spi) :
    (s.shiftBits p x).bitStarts = s.bitStarts ++ [s.n] := rfl
@[simp] theorem Spi.shiftBits_pos (p : SpiParams) (x : SpiLevels) (s : Spi) :
    (s.shiftBits p x).pos = s.pos := rfl
@[simp] theorem Spi.shiftBits_hdrDir (p : SpiParams) (x : SpiLevels) (s : Spi) :
    (s.shiftBits p x).hdrDir = s.hdrDir := rfl
@[simp] theorem Spi.shiftBits_hdrCount (p : SpiParams) (x : SpiLevels) (s : Spi) :
    (s.shiftBits p x).hdrCount = s.hdrCount := rfl
@[simp] theorem Spi.shiftBits_hdrAddrHi (p : SpiParams) (x : SpiLevels) (s : Spi) :
    (s.shiftBits p x).hdrAddrHi = s.hdrAddrHi := rfl
@[simp] theorem Spi.shiftBits_hdrRegHi (p : SpiParams) (x : SpiLevels) (s : Spi) :
    (s.shiftBits p x).hdrRegHi = s.hdrRegHi := rfl
@[simp] theorem Spi.shiftBits_hdrReg (p : SpiParams) (x : SpiLevels) (s : Spi) :
    (s.shiftBits p x).hdrReg = s.hdrReg := rfl
@[simp] theorem Spi.shiftBits_hdrRegKnown (p : SpiParams) (x : SpiLevels) (s : Spi) :
    (s.shiftBits p x).hdrRegKnown = s.hdrRegKnown := rfl
@[simp] theorem Spi.shiftBits_hdrAck (p : SpiParams) (x : SpiLevels) (s : Spi) :
    (s.shiftBits p x).hdrAck = s.hdrAck := rfl
@[simp] theorem Spi.shiftBits_hdrRouted (p : SpiParams) (x : SpiLevels) (s : Spi) :
    (s.shiftBits p x).hdrRouted = s.hdrRouted := rfl
@[simp] theorem Spi.shiftBits_hdrB0Span (p : SpiParams) (x : SpiLevels) (s : Spi) :
    (s.shiftBits p x).hdrB0Span = s.hdrB0Span := rfl
@[simp] theorem Spi.shiftBits_hdrB2Start (p : SpiParams) (x : SpiLevels) (s : Spi) :
    (s.shiftBits p x).hdrB2Start = s.hdrB2Start := rfl
@[simp] theorem Spi.shiftBits_xfer (p : SpiParams) (x : SpiLevels) (s : Spi) :
    (s.shiftBits p x).xfer = s.xfer := rfl
@[simp] theorem Spi.shiftBits_fst (p : SpiParams) (x : SpiLevels) (s : Spi) :
    (s.shiftBits p x).fst = s.fst := rfl
@[simp] theorem Spi.shiftBits_fh (p : SpiParams) (x : SpiLevels) (s : Spi) :
    (s.shiftBits p x).fh = s.fh := rfl
@[simp] theorem Spi.shiftBits_facc (p : SpiParams) (x : SpiLevels) (s : Spi) :
    (s.shiftBits p x).facc = s.facc := rfl
@[simp] theorem Spi.shiftBits_fFieldStart (p : SpiParams) (x : SpiLevels) (s : Spi) :
    (s.shiftBits p x).fFieldStart = s.fFieldStart := rfl
@[simp] theorem Spi.shiftBits_tag (p : SpiParams) (x : SpiLevels) (s : Spi) :
    (s.shiftBits p x).tag = s.tag := rfl
@[simp] theorem Spi.shiftBits_len (p : SpiParams) (x : SpiLevels) (s : Spi) :
    (s.shiftBits p x).len = s.len := rfl
@[simp] theorem Spi.shiftBits_code (p : SpiParams) (x : SpiLevels) (s : Spi) :
    (s.shiftBits p x).code = s.code := rfl
@[simp] theorem Spi.shiftBits_fdir (p : SpiParams) (x : SpiLevels) (s : Spi) :
    (s.shiftBits p x).fdir = s.fdir := rfl
@[simp] theorem Spi.shiftBits_remaining (p : SpiParams) (x : SpiLevels) (s : Spi) :
    (s.shiftBits p x).remaining = s.remaining := rfl
@[simp] theorem Spi.shiftBits_pcount (p : SpiParams) (x : SpiLevels) (s : Spi) :
    (s.shiftBits p x).pcount = s.pcount := rfl
@[simp] theorem Spi.shiftBits_fshort (p : SpiParams) (x : SpiLevels) (s : Spi) :
    (s.shiftBits p x).fshort = s.fshort := rfl
@[simp] theorem Spi.shiftBits_fseq (p : SpiParams) (x : SpiLevels) (s : Spi) :
    (s.shiftBits p x).fseq = s.fseq := rfl
@[simp] theorem Spi.shiftBits_fStart (p : SpiParams) (x : SpiLevels) (s : Spi) :
    (s.shiftBits p x).fStart = s.fStart := rfl
@[simp] theorem Spi.shiftBits_closed (p : SpiParams) (x : SpiLevels) (s : Spi) :
    (s.shiftBits p x).closed = s.closed := rfl
@[simp] theorem Spi.shiftBits_out (p : SpiParams) (x : SpiLevels) (s : Spi) :
    (s.shiftBits p x).out = s.out := rfl

/-! ### I2c.emit: only the events grow -/

@[simp] theorem I2c.emit_first (sp : Span) (e : Event) (s : I2c) :
    (s.emit sp e).first = s.first := rfl
@[simp] theorem I2c.emit_prevScl (sp : Span) (e : Event) (s : I2c) :
    (s.emit sp e).prevScl = s.prevScl := rfl
@[simp] theorem I2c.emit_prevSda (sp : Span) (e : Event) (s : I2c) :
    (s.emit sp e).prevSda = s.prevSda := rfl
@[simp] theorem I2c.emit_active (sp : Span) (e : Event) (s : I2c) :
    (s.emit sp e).active = s.active := rfl
@[simp] theorem I2c.emit_tStart (sp : Span) (e : Event) (s : I2c) :
    (s.emit sp e).tStart = s.tStart := rfl
@[simp] theorem I2c.emit_phaseNo (sp : Span) (e : Event) (s : I2c) :
    (s.emit sp e).phaseNo = s.phaseNo := rfl
@[simp] theorem I2c.emit_n (sp : Span) (e : Event) (s : I2c) : (s.emit sp e).n = s.n := rfl
@[simp] theorem I2c.emit_bitcnt (sp : Span) (e : Event) (s : I2c) :
    (s.emit sp e).bitcnt = s.bitcnt := rfl
@[simp] theorem I2c.emit_acc (sp : Span) (e : Event) (s : I2c) : (s.emit sp e).acc = s.acc := rfl
@[simp] theorem I2c.emit_bitStarts (sp : Span) (e : Event) (s : I2c) :
    (s.emit sp e).bitStarts = s.bitStarts := rfl
@[simp] theorem I2c.emit_ackIdx (sp : Span) (e : Event) (s : I2c) :
    (s.emit sp e).ackIdx = s.ackIdx := rfl
@[simp] theorem I2c.emit_phase (sp : Span) (e : Event) (s : I2c) :
    (s.emit sp e).phase = s.phase := rfl
@[simp] theorem I2c.emit_rw (sp : Span) (e : Event) (s : I2c) : (s.emit sp e).rw = s.rw := rfl
@[simp] theorem I2c.emit_addr7 (sp : Span) (e : Event) (s : I2c) :
    (s.emit sp e).addr7 = s.addr7 := rfl
@[simp] theorem I2c.emit_matched (sp : Span) (e : Event) (s : I2c) :
    (s.emit sp e).matched = s.matched := rfl
@[simp] theorem I2c.emit_expectReg (sp : Span) (e : Event) (s : I2c) :
    (s.emit sp e).expectReg = s.expectReg := rfl
@[simp] theorem I2c.emit_reg (sp : Span) (e : Event) (s : I2c) : (s.emit sp e).reg = s.reg := rfl
@[simp] theorem I2c.emit_regKnown (sp : Span) (e : Event) (s : I2c) :
    (s.emit sp e).regKnown = s.regKnown := rfl
@[simp] theorem I2c.emit_j (sp : Span) (e : Event) (s : I2c) : (s.emit sp e).j = s.j := rfl
@[simp] theorem I2c.emit_xfer (sp : Span) (e : Event) (s : I2c) : (s.emit sp e).xfer = s.xfer := rfl
@[simp] theorem I2c.emit_dl (sp : Span) (e : Event) (s : I2c) : (s.emit sp e).dl = s.dl := rfl
@[simp] theorem I2c.emit_ap (sp : Span) (e : Event) (s : I2c) : (s.emit sp e).ap = s.ap := rfl
@[simp] theorem I2c.emit_dlDone (sp : Span) (e : Event) (s : I2c) :
    (s.emit sp e).dlDone = s.dlDone := rfl
@[simp] theorem I2c.emit_apduDone (sp : Span) (e : Event) (s : I2c) :
    (s.emit sp e).apduDone = s.apduDone := rfl
@[simp] theorem I2c.emit_out (sp : Span) (e : Event) (s : I2c) :
    (s.emit sp e).out = s.out ++ [⟨sp, e⟩] := rfl

/-! ### I2c.emitAll: only the events grow -/

@[simp] theorem I2c.emitAll_first (es : List OutEvent) (s : I2c) :
    (s.emitAll es).first = s.first := rfl
@[simp] theorem I2c.emitAll_prevScl (es : List OutEvent) (s : I2c) :
    (s.emitAll es).prevScl = s.prevScl := rfl
@[simp] theorem I2c.emitAll_prevSda (es : List OutEvent) (s : I2c) :
    (s.emitAll es).prevSda = s.prevSda := rfl
@[simp] theorem I2c.emitAll_active (es : List OutEvent) (s : I2c) :
    (s.emitAll es).active = s.active := rfl
@[simp] theorem I2c.emitAll_tStart (es : List OutEvent) (s : I2c) :
    (s.emitAll es).tStart = s.tStart := rfl
@[simp] theorem I2c.emitAll_phaseNo (es : List OutEvent) (s : I2c) :
    (s.emitAll es).phaseNo = s.phaseNo := rfl
@[simp] theorem I2c.emitAll_n (es : List OutEvent) (s : I2c) : (s.emitAll es).n = s.n := rfl
@[simp] theorem I2c.emitAll_bitcnt (es : List OutEvent) (s : I2c) :
    (s.emitAll es).bitcnt = s.bitcnt := rfl
@[simp] theorem I2c.emitAll_acc (es : List OutEvent) (s : I2c) : (s.emitAll es).acc = s.acc := rfl
@[simp] theorem I2c.emitAll_bitStarts (es : List OutEvent) (s : I2c) :
    (s.emitAll es).bitStarts = s.bitStarts := rfl
@[simp] theorem I2c.emitAll_ackIdx (es : List OutEvent) (s : I2c) :
    (s.emitAll es).ackIdx = s.ackIdx := rfl
@[simp] theorem I2c.emitAll_phase (es : List OutEvent) (s : I2c) :
    (s.emitAll es).phase = s.phase := rfl
@[simp] theorem I2c.emitAll_rw (es : List OutEvent) (s : I2c) : (s.emitAll es).rw = s.rw := rfl
@[simp] theorem I2c.emitAll_addr7 (es : List OutEvent) (s : I2c) :
    (s.emitAll es).addr7 = s.addr7 := rfl
@[simp] theorem I2c.emitAll_matched (es : List OutEvent) (s : I2c) :
    (s.emitAll es).matched = s.matched := rfl
@[simp] theorem I2c.emitAll_expectReg (es : List OutEvent) (s : I2c) :
    (s.emitAll es).expectReg = s.expectReg := rfl
@[simp] theorem I2c.emitAll_reg (es : List OutEvent) (s : I2c) : (s.emitAll es).reg = s.reg := rfl
@[simp] theorem I2c.emitAll_regKnown (es : List OutEvent) (s : I2c) :
    (s.emitAll es).regKnown = s.regKnown := rfl
@[simp] theorem I2c.emitAll_j (es : List OutEvent) (s : I2c) : (s.emitAll es).j = s.j := rfl
@[simp] theorem I2c.emitAll_xfer (es : List OutEvent) (s : I2c) :
    (s.emitAll es).xfer = s.xfer := rfl
@[simp] theorem I2c.emitAll_dl (es : List OutEvent) (s : I2c) : (s.emitAll es).dl = s.dl := rfl
@[simp] theorem I2c.emitAll_ap (es : List OutEvent) (s : I2c) : (s.emitAll es).ap = s.ap := rfl
@[simp] theorem I2c.emitAll_dlDone (es : List OutEvent) (s : I2c) :
    (s.emitAll es).dlDone = s.dlDone := rfl
@[simp] theorem I2c.emitAll_apduDone (es : List OutEvent) (s : I2c) :
    (s.emitAll es).apduDone = s.apduDone := rfl
@[simp] theorem I2c.emitAll_out (es : List OutEvent) (s : I2c) :
    (s.emitAll es).out = s.out ++ es := rfl

/-! ### I2c.diag: only the events grow (60_exceptions.md R372) -/

@[simp] theorem I2c.diag_first (c : DiagCode) (sp : Span) (k : Nat) (s : I2c) :
    (s.diag c sp k).first = s.first := rfl
@[simp] theorem I2c.diag_prevScl (c : DiagCode) (sp : Span) (k : Nat) (s : I2c) :
    (s.diag c sp k).prevScl = s.prevScl := rfl
@[simp] theorem I2c.diag_prevSda (c : DiagCode) (sp : Span) (k : Nat) (s : I2c) :
    (s.diag c sp k).prevSda = s.prevSda := rfl
@[simp] theorem I2c.diag_active (c : DiagCode) (sp : Span) (k : Nat) (s : I2c) :
    (s.diag c sp k).active = s.active := rfl
@[simp] theorem I2c.diag_tStart (c : DiagCode) (sp : Span) (k : Nat) (s : I2c) :
    (s.diag c sp k).tStart = s.tStart := rfl
@[simp] theorem I2c.diag_phaseNo (c : DiagCode) (sp : Span) (k : Nat) (s : I2c) :
    (s.diag c sp k).phaseNo = s.phaseNo := rfl
@[simp] theorem I2c.diag_n (c : DiagCode) (sp : Span) (k : Nat) (s : I2c) :
    (s.diag c sp k).n = s.n := rfl
@[simp] theorem I2c.diag_bitcnt (c : DiagCode) (sp : Span) (k : Nat) (s : I2c) :
    (s.diag c sp k).bitcnt = s.bitcnt := rfl
@[simp] theorem I2c.diag_acc (c : DiagCode) (sp : Span) (k : Nat) (s : I2c) :
    (s.diag c sp k).acc = s.acc := rfl
@[simp] theorem I2c.diag_bitStarts (c : DiagCode) (sp : Span) (k : Nat) (s : I2c) :
    (s.diag c sp k).bitStarts = s.bitStarts := rfl
@[simp] theorem I2c.diag_ackIdx (c : DiagCode) (sp : Span) (k : Nat) (s : I2c) :
    (s.diag c sp k).ackIdx = s.ackIdx := rfl
@[simp] theorem I2c.diag_phase (c : DiagCode) (sp : Span) (k : Nat) (s : I2c) :
    (s.diag c sp k).phase = s.phase := rfl
@[simp] theorem I2c.diag_rw (c : DiagCode) (sp : Span) (k : Nat) (s : I2c) :
    (s.diag c sp k).rw = s.rw := rfl
@[simp] theorem I2c.diag_addr7 (c : DiagCode) (sp : Span) (k : Nat) (s : I2c) :
    (s.diag c sp k).addr7 = s.addr7 := rfl
@[simp] theorem I2c.diag_matched (c : DiagCode) (sp : Span) (k : Nat) (s : I2c) :
    (s.diag c sp k).matched = s.matched := rfl
@[simp] theorem I2c.diag_expectReg (c : DiagCode) (sp : Span) (k : Nat) (s : I2c) :
    (s.diag c sp k).expectReg = s.expectReg := rfl
@[simp] theorem I2c.diag_reg (c : DiagCode) (sp : Span) (k : Nat) (s : I2c) :
    (s.diag c sp k).reg = s.reg := rfl
@[simp] theorem I2c.diag_regKnown (c : DiagCode) (sp : Span) (k : Nat) (s : I2c) :
    (s.diag c sp k).regKnown = s.regKnown := rfl
@[simp] theorem I2c.diag_j (c : DiagCode) (sp : Span) (k : Nat) (s : I2c) :
    (s.diag c sp k).j = s.j := rfl
@[simp] theorem I2c.diag_xfer (c : DiagCode) (sp : Span) (k : Nat) (s : I2c) :
    (s.diag c sp k).xfer = s.xfer := rfl
@[simp] theorem I2c.diag_dl (c : DiagCode) (sp : Span) (k : Nat) (s : I2c) :
    (s.diag c sp k).dl = s.dl := rfl
@[simp] theorem I2c.diag_ap (c : DiagCode) (sp : Span) (k : Nat) (s : I2c) :
    (s.diag c sp k).ap = s.ap := rfl
@[simp] theorem I2c.diag_dlDone (c : DiagCode) (sp : Span) (k : Nat) (s : I2c) :
    (s.diag c sp k).dlDone = s.dlDone := rfl
@[simp] theorem I2c.diag_apduDone (c : DiagCode) (sp : Span) (k : Nat) (s : I2c) :
    (s.diag c sp k).apduDone = s.apduDone := rfl
@[simp] theorem I2c.diag_out (c : DiagCode) (sp : Span) (k : Nat) (s : I2c) :
    (s.diag c sp k).out = s.out ++ [⟨sp, .diag c k⟩] := rfl

/-! ### I2c.beginPhase: the register number stays (40_sampler.md R151) -/

@[simp] theorem I2c.beginPhase_first (s : I2c) : (s.beginPhase).first = s.first := rfl
@[simp] theorem I2c.beginPhase_prevScl (s : I2c) : (s.beginPhase).prevScl = s.prevScl := rfl
@[simp] theorem I2c.beginPhase_prevSda (s : I2c) : (s.beginPhase).prevSda = s.prevSda := rfl
@[simp] theorem I2c.beginPhase_active (s : I2c) : (s.beginPhase).active = s.active := rfl
@[simp] theorem I2c.beginPhase_tStart (s : I2c) : (s.beginPhase).tStart = s.tStart := rfl
@[simp] theorem I2c.beginPhase_phaseNo (s : I2c) : (s.beginPhase).phaseNo = s.phaseNo + 1 := rfl
@[simp] theorem I2c.beginPhase_n (s : I2c) : (s.beginPhase).n = s.n := rfl
@[simp] theorem I2c.beginPhase_bitcnt (s : I2c) : (s.beginPhase).bitcnt = 0 := rfl
@[simp] theorem I2c.beginPhase_acc (s : I2c) : (s.beginPhase).acc = 0#8 := rfl
@[simp] theorem I2c.beginPhase_bitStarts (s : I2c) : (s.beginPhase).bitStarts = [] := rfl
@[simp] theorem I2c.beginPhase_ackIdx (s : I2c) : (s.beginPhase).ackIdx = none := rfl
@[simp] theorem I2c.beginPhase_phase (s : I2c) : (s.beginPhase).phase = .addr := rfl
@[simp] theorem I2c.beginPhase_rw (s : I2c) : (s.beginPhase).rw = none := rfl
@[simp] theorem I2c.beginPhase_addr7 (s : I2c) : (s.beginPhase).addr7 = none := rfl
@[simp] theorem I2c.beginPhase_matched (s : I2c) : (s.beginPhase).matched = false := rfl
@[simp] theorem I2c.beginPhase_expectReg (s : I2c) : (s.beginPhase).expectReg = false := rfl
@[simp] theorem I2c.beginPhase_reg (s : I2c) : (s.beginPhase).reg = s.reg := rfl
@[simp] theorem I2c.beginPhase_regKnown (s : I2c) : (s.beginPhase).regKnown = s.regKnown := rfl
@[simp] theorem I2c.beginPhase_j (s : I2c) : (s.beginPhase).j = 0 := rfl
@[simp] theorem I2c.beginPhase_xfer (s : I2c) : (s.beginPhase).xfer = s.xfer := rfl
@[simp] theorem I2c.beginPhase_dl (s : I2c) : (s.beginPhase).dl = Dl.reset := rfl
@[simp] theorem I2c.beginPhase_ap (s : I2c) : (s.beginPhase).ap = Ap.reset := rfl
@[simp] theorem I2c.beginPhase_dlDone (s : I2c) : (s.beginPhase).dlDone = s.dlDone := rfl
@[simp] theorem I2c.beginPhase_apduDone (s : I2c) : (s.beginPhase).apduDone = s.apduDone := rfl
@[simp] theorem I2c.beginPhase_out (s : I2c) : (s.beginPhase).out = s.out := rfl

/-! ### I2c.clearBits: only the accumulator (41_byte_assembler.md R178) -/

@[simp] theorem I2c.clearBits_first (s : I2c) : (s.clearBits).first = s.first := rfl
@[simp] theorem I2c.clearBits_prevScl (s : I2c) : (s.clearBits).prevScl = s.prevScl := rfl
@[simp] theorem I2c.clearBits_prevSda (s : I2c) : (s.clearBits).prevSda = s.prevSda := rfl
@[simp] theorem I2c.clearBits_active (s : I2c) : (s.clearBits).active = s.active := rfl
@[simp] theorem I2c.clearBits_tStart (s : I2c) : (s.clearBits).tStart = s.tStart := rfl
@[simp] theorem I2c.clearBits_phaseNo (s : I2c) : (s.clearBits).phaseNo = s.phaseNo := rfl
@[simp] theorem I2c.clearBits_n (s : I2c) : (s.clearBits).n = s.n := rfl
@[simp] theorem I2c.clearBits_bitcnt (s : I2c) : (s.clearBits).bitcnt = 0 := rfl
@[simp] theorem I2c.clearBits_acc (s : I2c) : (s.clearBits).acc = 0#8 := rfl
@[simp] theorem I2c.clearBits_bitStarts (s : I2c) : (s.clearBits).bitStarts = [] := rfl
@[simp] theorem I2c.clearBits_ackIdx (s : I2c) : (s.clearBits).ackIdx = none := rfl
@[simp] theorem I2c.clearBits_phase (s : I2c) : (s.clearBits).phase = s.phase := rfl
@[simp] theorem I2c.clearBits_rw (s : I2c) : (s.clearBits).rw = s.rw := rfl
@[simp] theorem I2c.clearBits_addr7 (s : I2c) : (s.clearBits).addr7 = s.addr7 := rfl
@[simp] theorem I2c.clearBits_matched (s : I2c) : (s.clearBits).matched = s.matched := rfl
@[simp] theorem I2c.clearBits_expectReg (s : I2c) : (s.clearBits).expectReg = s.expectReg := rfl
@[simp] theorem I2c.clearBits_reg (s : I2c) : (s.clearBits).reg = s.reg := rfl
@[simp] theorem I2c.clearBits_regKnown (s : I2c) : (s.clearBits).regKnown = s.regKnown := rfl
@[simp] theorem I2c.clearBits_j (s : I2c) : (s.clearBits).j = s.j := rfl
@[simp] theorem I2c.clearBits_xfer (s : I2c) : (s.clearBits).xfer = s.xfer := rfl
@[simp] theorem I2c.clearBits_dl (s : I2c) : (s.clearBits).dl = s.dl := rfl
@[simp] theorem I2c.clearBits_ap (s : I2c) : (s.clearBits).ap = s.ap := rfl
@[simp] theorem I2c.clearBits_dlDone (s : I2c) : (s.clearBits).dlDone = s.dlDone := rfl
@[simp] theorem I2c.clearBits_apduDone (s : I2c) : (s.clearBits).apduDone = s.apduDone := rfl
@[simp] theorem I2c.clearBits_out (s : I2c) : (s.clearBits).out = s.out := rfl

/-! ### I2c.epilogue: levels and index (40_sampler.md R158) -/

@[simp] theorem I2c.epilogue_first (x : I2cSample) (s : I2c) : (s.epilogue x).first = s.first := rfl
@[simp] theorem I2c.epilogue_prevScl (x : I2cSample) (s : I2c) :
    (s.epilogue x).prevScl = x.scl := rfl
@[simp] theorem I2c.epilogue_prevSda (x : I2cSample) (s : I2c) :
    (s.epilogue x).prevSda = x.sda := rfl
@[simp] theorem I2c.epilogue_active (x : I2cSample) (s : I2c) :
    (s.epilogue x).active = s.active := rfl
@[simp] theorem I2c.epilogue_tStart (x : I2cSample) (s : I2c) :
    (s.epilogue x).tStart = s.tStart := rfl
@[simp] theorem I2c.epilogue_phaseNo (x : I2cSample) (s : I2c) :
    (s.epilogue x).phaseNo = s.phaseNo := rfl
@[simp] theorem I2c.epilogue_n (x : I2cSample) (s : I2c) : (s.epilogue x).n = s.n + 1 := rfl
@[simp] theorem I2c.epilogue_bitcnt (x : I2cSample) (s : I2c) :
    (s.epilogue x).bitcnt = s.bitcnt := rfl
@[simp] theorem I2c.epilogue_acc (x : I2cSample) (s : I2c) : (s.epilogue x).acc = s.acc := rfl
@[simp] theorem I2c.epilogue_bitStarts (x : I2cSample) (s : I2c) :
    (s.epilogue x).bitStarts = s.bitStarts := rfl
@[simp] theorem I2c.epilogue_ackIdx (x : I2cSample) (s : I2c) :
    (s.epilogue x).ackIdx = s.ackIdx := rfl
@[simp] theorem I2c.epilogue_phase (x : I2cSample) (s : I2c) : (s.epilogue x).phase = s.phase := rfl
@[simp] theorem I2c.epilogue_rw (x : I2cSample) (s : I2c) : (s.epilogue x).rw = s.rw := rfl
@[simp] theorem I2c.epilogue_addr7 (x : I2cSample) (s : I2c) : (s.epilogue x).addr7 = s.addr7 := rfl
@[simp] theorem I2c.epilogue_matched (x : I2cSample) (s : I2c) :
    (s.epilogue x).matched = s.matched := rfl
@[simp] theorem I2c.epilogue_expectReg (x : I2cSample) (s : I2c) :
    (s.epilogue x).expectReg = s.expectReg := rfl
@[simp] theorem I2c.epilogue_reg (x : I2cSample) (s : I2c) : (s.epilogue x).reg = s.reg := rfl
@[simp] theorem I2c.epilogue_regKnown (x : I2cSample) (s : I2c) :
    (s.epilogue x).regKnown = s.regKnown := rfl
@[simp] theorem I2c.epilogue_j (x : I2cSample) (s : I2c) : (s.epilogue x).j = s.j := rfl
@[simp] theorem I2c.epilogue_xfer (x : I2cSample) (s : I2c) : (s.epilogue x).xfer = s.xfer := rfl
@[simp] theorem I2c.epilogue_dl (x : I2cSample) (s : I2c) : (s.epilogue x).dl = s.dl := rfl
@[simp] theorem I2c.epilogue_ap (x : I2cSample) (s : I2c) : (s.epilogue x).ap = s.ap := rfl
@[simp] theorem I2c.epilogue_dlDone (x : I2cSample) (s : I2c) :
    (s.epilogue x).dlDone = s.dlDone := rfl
@[simp] theorem I2c.epilogue_apduDone (x : I2cSample) (s : I2c) :
    (s.epilogue x).apduDone = s.apduDone := rfl
@[simp] theorem I2c.epilogue_out (x : I2cSample) (s : I2c) : (s.epilogue x).out = s.out := rfl

/-! ### I2c.emitted: only the events (10_state.md R66) -/

@[simp] theorem I2c.emitted_first (p : I2cParams) (old : I2c) (s : I2c) :
    (s.emitted p old).first = s.first := rfl
@[simp] theorem I2c.emitted_prevScl (p : I2cParams) (old : I2c) (s : I2c) :
    (s.emitted p old).prevScl = s.prevScl := rfl
@[simp] theorem I2c.emitted_prevSda (p : I2cParams) (old : I2c) (s : I2c) :
    (s.emitted p old).prevSda = s.prevSda := rfl
@[simp] theorem I2c.emitted_active (p : I2cParams) (old : I2c) (s : I2c) :
    (s.emitted p old).active = s.active := rfl
@[simp] theorem I2c.emitted_tStart (p : I2cParams) (old : I2c) (s : I2c) :
    (s.emitted p old).tStart = s.tStart := rfl
@[simp] theorem I2c.emitted_phaseNo (p : I2cParams) (old : I2c) (s : I2c) :
    (s.emitted p old).phaseNo = s.phaseNo := rfl
@[simp] theorem I2c.emitted_n (p : I2cParams) (old : I2c) (s : I2c) :
    (s.emitted p old).n = s.n := rfl
@[simp] theorem I2c.emitted_bitcnt (p : I2cParams) (old : I2c) (s : I2c) :
    (s.emitted p old).bitcnt = s.bitcnt := rfl
@[simp] theorem I2c.emitted_acc (p : I2cParams) (old : I2c) (s : I2c) :
    (s.emitted p old).acc = s.acc := rfl
@[simp] theorem I2c.emitted_bitStarts (p : I2cParams) (old : I2c) (s : I2c) :
    (s.emitted p old).bitStarts = s.bitStarts := rfl
@[simp] theorem I2c.emitted_ackIdx (p : I2cParams) (old : I2c) (s : I2c) :
    (s.emitted p old).ackIdx = s.ackIdx := rfl
@[simp] theorem I2c.emitted_phase (p : I2cParams) (old : I2c) (s : I2c) :
    (s.emitted p old).phase = s.phase := rfl
@[simp] theorem I2c.emitted_rw (p : I2cParams) (old : I2c) (s : I2c) :
    (s.emitted p old).rw = s.rw := rfl
@[simp] theorem I2c.emitted_addr7 (p : I2cParams) (old : I2c) (s : I2c) :
    (s.emitted p old).addr7 = s.addr7 := rfl
@[simp] theorem I2c.emitted_matched (p : I2cParams) (old : I2c) (s : I2c) :
    (s.emitted p old).matched = s.matched := rfl
@[simp] theorem I2c.emitted_expectReg (p : I2cParams) (old : I2c) (s : I2c) :
    (s.emitted p old).expectReg = s.expectReg := rfl
@[simp] theorem I2c.emitted_reg (p : I2cParams) (old : I2c) (s : I2c) :
    (s.emitted p old).reg = s.reg := rfl
@[simp] theorem I2c.emitted_regKnown (p : I2cParams) (old : I2c) (s : I2c) :
    (s.emitted p old).regKnown = s.regKnown := rfl
@[simp] theorem I2c.emitted_j (p : I2cParams) (old : I2c) (s : I2c) :
    (s.emitted p old).j = s.j := rfl
@[simp] theorem I2c.emitted_xfer (p : I2cParams) (old : I2c) (s : I2c) :
    (s.emitted p old).xfer = s.xfer := rfl
@[simp] theorem I2c.emitted_dl (p : I2cParams) (old : I2c) (s : I2c) :
    (s.emitted p old).dl = s.dl := rfl
@[simp] theorem I2c.emitted_ap (p : I2cParams) (old : I2c) (s : I2c) :
    (s.emitted p old).ap = s.ap := rfl
@[simp] theorem I2c.emitted_dlDone (p : I2cParams) (old : I2c) (s : I2c) :
    (s.emitted p old).dlDone = s.dlDone := rfl
@[simp] theorem I2c.emitted_apduDone (p : I2cParams) (old : I2c) (s : I2c) :
    (s.emitted p old).apduDone = s.apduDone := rfl
@[simp] theorem I2c.emitted_out (p : I2cParams) (old : I2c) (s : I2c) :
    (s.emitted p old).out = portEvents p.boundStarts old.n old.out s.out := rfl

end Sys2Proof.Machine
end

