-- ==== Sys2Proof/Laws/Ops.lean ====
section
/-! SUPPORT. What each shared operation can do, said once: if it answers, then this. Proofs cite these
lemmas instead of unfolding the operations. -/

namespace Sys2Proof.Machine

open Sys2Proof

/-! ### Runs -/

/-- Two operations in a row answer exactly when both do. -/
theorem run_bind_eq_ok {α β : Type} (a : Run α) (f : α → Run β) (b : β) :
    (a >>= f) = .ok b ↔ ∃ x, a = .ok x ∧ f x = .ok b := by
  cases a with
  | error e => simp [bind, Except.bind]
  | ok x => simp [bind, Except.bind]

/-- `need` answers exactly the value that is there. -/
theorem need_eq_ok {α : Type} (field : String) (o : Option α) (a : α) :
    need field o = .ok a ↔ o = some a := by
  cases o <;> simp [need]

/-- `natSub` answers exactly the difference that is not below zero. -/
theorem natSub_eq_ok (field : String) (a b k : Nat) :
    natSub field a b = .ok k ↔ b ≤ a ∧ k = a - b := by
  unfold natSub
  split <;> simp_all [eq_comm]

/-! ### One stack's operation on the machine -/

/-- An SPI operation that goes on writes the SPI stack and nothing else. -/
theorem onSpi_eq_next (s t : State) (f : SpiParams → Spi → Run Spi) :
    onSpi s f = .next t ↔ ∃ u, f s.cfg.spi s.spi = .ok u ∧ t = { s with spi := u } := by
  unfold onSpi
  rcases f s.cfg.spi s.spi with (_ | _) | u <;> simp [eq_comm]

/-- An I2C operation that goes on writes the I2C stack and nothing else. -/
theorem onI2c_eq_next (s t : State) (f : I2cParams → I2c → Run I2c) :
    onI2c s f = .next t ↔ ∃ u, f s.cfg.i2c s.i2c = .ok u ∧ t = { s with i2c := u } := by
  unfold onI2c
  rcases f s.cfg.i2c s.i2c with (_ | _) | u <;> simp [eq_comm]

/-- What follows an operation follows it exactly when it goes on. -/
theorem thenNext_eq_next (r : Result) (f : State → State) (t : State) :
    thenNext r f = .next t ↔ ∃ u, r = .next u ∧ t = f u := by
  cases r <;> simp [thenNext, eq_comm]

/-- Operations in a row go on exactly when the first does and the rest do on what it left. -/
theorem execAll_cons_eq_next (i : Instr) (rest : List Instr) (s t : State) :
    execAll (i :: rest) s = .next t ↔ ∃ u, exec i s = .next u ∧ execAll rest u = .next t := by
  rw [execAll]
  cases exec i s <;> simp

/-! ### The transfer buffers (20_memory.md R71 to R73) -/

/-- `modify` at the last index changes the last element. -/
theorem modify_last {α : Type} (pre : List α) (r : α) (f : α → α) :
    (pre ++ [r]).modify pre.length f = pre ++ [f r] := by
  induction pre with
  | nil => rfl
  | cons a l ih => simp [List.modify_succ_cons, ih]

/-- BufAppend answers exactly when the bound admits one more record, and then appends it. -/
theorem Spi.bufAppend_eq_ok (p : SpiParams) (r : SpiByteRec) (s t : Spi) :
    s.bufAppend p r = .ok t ↔
      (∀ m, p.maxXferBytes = some m → s.xfer.length + 1 ≤ m)
        ∧ t = { s with xfer := s.xfer ++ [r] } := by
  unfold Spi.bufAppend
  split
  · simp_all [eq_comm]
  · split <;> simp_all [eq_comm]

/-- BufRead answers exactly the record at the index. -/
theorem Spi.bufRead_eq_ok (s : Spi) (i : Nat) (r : SpiByteRec) :
    s.bufRead i = .ok r ↔ s.xfer[i]? = some r := by
  unfold Spi.bufRead
  split <;> simp_all

/-- A record's update answers exactly below the length, and changes that record alone. -/
theorem Spi.bufUpdate_eq_ok (i : Nat) (f : SpiByteRec → SpiByteRec) (s t : Spi) :
    s.bufUpdate i f = .ok t ↔ i < s.xfer.length ∧ t = { s with xfer := s.xfer.modify i f } := by
  unfold Spi.bufUpdate
  split <;> simp_all [eq_comm]

/-- The last index answers exactly when there is a record. -/
theorem Spi.lastIdx_eq_ok (s : Spi) (k : Nat) :
    s.lastIdx = .ok k ↔ s.xfer.length = k + 1 := by
  unfold Spi.lastIdx
  split
  · simp_all
  · simp
    omega

/-- The byte in hand of a buffer that ends with it. -/
theorem Spi.lastIdx_append {s : Spi} {pre : List SpiByteRec} {r : SpiByteRec}
    (h : s.xfer = pre ++ [r]) : s.lastIdx = .ok pre.length := by
  simp [Spi.lastIdx_eq_ok, h]

/-- The byte in hand, read. -/
theorem Spi.bufRead_append {s : Spi} {pre : List SpiByteRec} {r : SpiByteRec}
    (h : s.xfer = pre ++ [r]) : s.bufRead pre.length = .ok r := by
  simp [Spi.bufRead_eq_ok, h]

/-- The byte in hand, updated. -/
theorem Spi.bufUpdate_append {s : Spi} {pre : List SpiByteRec} {r : SpiByteRec}
    (f : SpiByteRec → SpiByteRec) (h : s.xfer = pre ++ [r]) :
    s.bufUpdate pre.length f = .ok { s with xfer := pre ++ [f r] } := by
  simp [Spi.bufUpdate_eq_ok, h, modify_last]

/-- BufAppend answers exactly when the bound admits one more record, and then appends it. -/
theorem I2c.bufAppend_eq_ok (p : I2cParams) (r : I2cByteRec) (s t : I2c) :
    s.bufAppend p r = .ok t ↔
      (∀ m, p.maxXferBytes = some m → s.xfer.length + 1 ≤ m)
        ∧ t = { s with xfer := s.xfer ++ [r] } := by
  unfold I2c.bufAppend
  split
  · simp_all [eq_comm]
  · split <;> simp_all [eq_comm]

/-- BufRead answers exactly the record at the index. -/
theorem I2c.bufRead_eq_ok (s : I2c) (i : Nat) (r : I2cByteRec) :
    s.bufRead i = .ok r ↔ s.xfer[i]? = some r := by
  unfold I2c.bufRead
  split <;> simp_all

/-- A record's update answers exactly below the length, and changes that record alone. -/
theorem I2c.bufUpdate_eq_ok (i : Nat) (f : I2cByteRec → I2cByteRec) (s t : I2c) :
    s.bufUpdate i f = .ok t ↔ i < s.xfer.length ∧ t = { s with xfer := s.xfer.modify i f } := by
  unfold I2c.bufUpdate
  split <;> simp_all [eq_comm]

/-- The last index answers exactly when there is a record. -/
theorem I2c.lastIdx_eq_ok (s : I2c) (k : Nat) :
    s.lastIdx = .ok k ↔ s.xfer.length = k + 1 := by
  unfold I2c.lastIdx
  split
  · simp_all
  · simp
    omega

/-- The byte in hand of a buffer that ends with it. -/
theorem I2c.lastIdx_append {s : I2c} {pre : List I2cByteRec} {r : I2cByteRec}
    (h : s.xfer = pre ++ [r]) : s.lastIdx = .ok pre.length := by
  simp [I2c.lastIdx_eq_ok, h]

/-- The byte in hand, read. -/
theorem I2c.bufRead_append {s : I2c} {pre : List I2cByteRec} {r : I2cByteRec}
    (h : s.xfer = pre ++ [r]) : s.bufRead pre.length = .ok r := by
  simp [I2c.bufRead_eq_ok, h]

/-- The span of the byte in hand. -/
theorem I2c.recSpan_append {s : I2c} {pre : List I2cByteRec} {r : I2cByteRec}
    (h : s.xfer = pre ++ [r]) : s.recSpan pre.length = .ok (spanOf r.start r.stop) := by
  simp [I2c.recSpan, I2c.bufRead_append h, bind, Except.bind]

/-- The byte in hand, updated. -/
theorem I2c.bufUpdate_append {s : I2c} {pre : List I2cByteRec} {r : I2cByteRec}
    (f : I2cByteRec → I2cByteRec) (h : s.xfer = pre ++ [r]) :
    s.bufUpdate pre.length f = .ok { s with xfer := pre ++ [f r] } := by
  simp [I2c.bufUpdate_eq_ok, h, modify_last]

/-! ### Bits and bytes -/

/-- A shifted-in bit is the new lowest bit (20_memory.md R76). -/
theorem shiftIn_eq (a : Byte) (b : Bit) : shiftIn a b = a.extractLsb' 0 7 ++ BitVec.ofBool b := by
  revert a b
  unfold shiftIn
  decide +kernel

/-- A bit field as division and remainder (00_scope.md R9). -/
theorem bitField_eq (b : Byte) (hi lo : Nat) :
    bitField b hi lo = b.toNat / 2 ^ lo % 2 ^ (hi - lo + 1) := by
  simp [bitField, Nat.shiftRight_eq_div_pow]

/-- The ends of a byte's bits: the starts after the first, then the end of the last bit
(41_byte_assembler.md R171). -/
theorem bitEnds_eq_ok (starts : List Nat) (lastEnd : Option Nat) (ends : List Nat) :
    bitEnds starts lastEnd = .ok ends ↔
      ∃ stop, lastBitEnd starts lastEnd = .ok stop ∧ ends = starts.tail ++ [stop] := by
  unfold bitEnds
  rw [run_bind_eq_ok]
  simp only [Except.ok.injEq, eq_comm (b := ends)]

/-- A byte's pending bits are at hand exactly when they are one to eight, as many as `bitcnt` says
(41_byte_assembler.md R171, R173). -/
theorem pendingByte_eq_ok (bitcnt : Nat) (starts : List Nat) (lastEnd : Option Nat)
    (start stop : Nat) (ends : List Nat) :
    pendingByte bitcnt starts lastEnd = .ok (start, stop, ends) ↔
      starts.head? = some start ∧ bitcnt = starts.length ∧ bitcnt ≤ 8
        ∧ lastBitEnd starts lastEnd = .ok stop ∧ ends = starts.tail ++ [stop] := by
  cases starts with
  | nil => simp [pendingByte]
  | cons b bs =>
    unfold pendingByte
    simp only [List.head?_cons, Option.some.injEq, List.length_cons, List.tail_cons]
    split
    · next h =>
      rcases hl : lastBitEnd (b :: bs) lastEnd with e | x
      · simp [bind, Except.bind]
      · simp only [bind, Except.bind, bitEnds, hl, List.tail_cons, Except.ok.injEq, Prod.mk.injEq]
        constructor
        · rintro ⟨rfl, rfl, rfl⟩
          exact ⟨rfl, h.1, h.2, rfl, rfl⟩
        · rintro ⟨rfl, -, -, rfl, rfl⟩
          exact ⟨rfl, rfl, rfl⟩
    · next h =>
      constructor
      · intro hh
        cases hh
      · rintro ⟨-, h1, h2, -⟩
        exact absurd ⟨h1, h2⟩ h

/-! ### The event port -/

@[simp] theorem OutEvent.boundBy_event (n : Nat) (e : OutEvent) : (e.boundBy n).event = e.event := rfl
@[simp] theorem OutEvent.boundBy_es (n : Nat) (e : OutEvent) :
    (e.boundBy n).span.es = e.span.es := rfl

/-- The bound of 10_state.md R66. -/
theorem OutEvent.boundBy_ss_le (n : Nat) (e : OutEvent) : (e.boundBy n).span.ss ≤ (n : Rat) :=
  min_le_right _ _

/-- An event that starts by its sample is left as it is. -/
theorem OutEvent.boundBy_of_le {n : Nat} {e : OutEvent} (h : e.span.ss ≤ (n : Rat)) :
    e.boundBy n = e := by
  simp [OutEvent.boundBy, min_eq_left h]

/-- The port touches only the events of the step, `es`. -/
theorem portEvents_append (bound : Bool) (n : Nat) (before es : List OutEvent) :
    portEvents bound n before (before ++ es) =
      before ++ if bound then es.map (OutEvent.boundBy n) else es := by
  cases bound <;> simp [portEvents]

/-- A step that emits nothing leaves the port as it is. -/
@[simp] theorem portEvents_self (bound : Bool) (n : Nat) (before : List OutEvent) :
    portEvents bound n before before = before := by
  cases bound <;> simp [portEvents]

end Sys2Proof.Machine
end

