-- ==== Sys2Proof/Laws/Records.lean ====
section
/-! SUPPORT. What the operations shared by several rows can do, said once: completing a byte, closing a
frame, recording a datalink frame or an APDU, beginning a payload, ending a phase; and what reading
events without names leaves of them. -/

namespace Sys2Proof.Machine

open Sys2Proof

/-- A completed SPI byte: the pending bits were at hand, the buffer had room, and the header decoder
took the record (41_byte_assembler.md R173). -/
theorem Spi.completeByte_eq_ok (p : SpiParams) (tr : Bool) (lastEnd : Option Nat) (s t : Spi) :
    s.completeByte p tr lastEnd = .ok t ↔
      ∃ start stop ends r u, pendingByte s.bitcnt s.bitStarts lastEnd = .ok (start, stop, ends)
        ∧ r = SpiByteRec.mk (if p.haveMosi then some (leftAlign s.accMosi s.bitcnt) else none)
            (if p.haveMiso then some (leftAlign s.accMiso s.bitcnt) else none) start stop tr .header
            none
        ∧ (s.emitAll
            ((if p.haveMosi then laneEvents .mosi (leftAlign s.accMosi s.bitcnt) s.bitStarts ends
                start stop tr else [])
              ++ if p.haveMiso then laneEvents .miso (leftAlign s.accMiso s.bitcnt) s.bitStarts ends
                start stop tr else [])).bufAppend p r = .ok u
        ∧ { u with bitcnt := 0, accMosi := 0#8, accMiso := 0#8, bitStarts := [] }.headerByte p r
          = .ok t := by
  unfold Spi.completeByte
  rw [run_bind_eq_ok]
  constructor
  · rintro ⟨⟨start, stop, ends⟩, hp, h⟩
    simp only at h
    rw [run_bind_eq_ok] at h
    obtain ⟨u, hu, h⟩ := h
    refine ⟨start, stop, ends, _, u, hp, rfl, ?_, h⟩
    rw [← hu]
    cases p.haveMosi <;> cases p.haveMiso <;> simp [Spi.emitAll]
  · rintro ⟨start, stop, ends, r, u, hp, rfl, hu, h⟩
    refine ⟨(start, stop, ends), hp, ?_⟩
    simp only
    rw [run_bind_eq_ok]
    refine ⟨u, ?_, h⟩
    rw [← hu]
    cases p.haveMosi <;> cases p.haveMiso <;> simp [Spi.emitAll]

/-- A completed I2C byte: the pending bits were at hand, the buffer had room, and the header decoder
took the record (41_byte_assembler.md R177). -/
theorem I2c.completeByte_eq_ok (p : I2cParams) (tr : Bool) (lastEnd : Option Nat) (s t : I2c) :
    s.completeByte p tr lastEnd = .ok t ↔
      ∃ start stop ends r u, pendingByte s.bitcnt s.bitStarts lastEnd = .ok (start, stop, ends)
        ∧ r = I2cByteRec.mk (leftAlign s.acc s.bitcnt) start stop tr s.phaseNo .raw s.rw none
        ∧ (s.emitAll (laneEvents .sda (leftAlign s.acc s.bitcnt) s.bitStarts ends start stop
            tr)).bufAppend p r = .ok u
        ∧ (if tr then u else { u with ackIdx := some (u.xfer.length - 1) }).headerByte p r
          = .ok t := by
  unfold I2c.completeByte
  rw [run_bind_eq_ok]
  constructor
  · rintro ⟨⟨start, stop, ends⟩, hp, h⟩
    simp only at h
    rw [run_bind_eq_ok] at h
    obtain ⟨u, hu, h⟩ := h
    exact ⟨start, stop, ends, _, u, hp, rfl, hu, h⟩
  · rintro ⟨start, stop, ends, r, u, hp, rfl, hu, h⟩
    refine ⟨(start, stop, ends), hp, ?_⟩
    simp only
    rw [run_bind_eq_ok]
    exact ⟨u, hu, h⟩

/-- CloseFrame records the frame and returns to IDLE (43_command_framer.md R248). -/
theorem Spi.closeFrame_eq_ok (k : Nat) (s t : Spi) :
    s.closeFrame k = .ok t ↔ ∃ d a, s.fdir = some d ∧ s.fStart = some a ∧ t = { s with
      closed := s.closed ++ [⟨s.fseq, d, s.tag, s.len, s.code, s.pcount, s.fshort, a, k⟩]
      fst := .idle
      fh := 0
      fStart := none } := by
  simp only [Spi.closeFrame, run_bind_eq_ok, need_eq_ok, Except.ok.injEq]
  constructor
  · rintro ⟨d, hd, a, ha, rfl⟩
    exact ⟨d, a, hd, ha, rfl⟩
  · rintro ⟨d, a, hd, ha, rfl⟩
    exact ⟨d, hd, a, ha, rfl⟩

/-- DlFinish records the frame and changes nothing else (44_datalink_apdu.md R296). -/
theorem I2c.dlFinish_eq_ok (k : Nat) (d : Dir) (c : Bool) (s t : I2c) :
    s.dlFinish k d c = .ok t ↔ ∃ f, s.dl.dFirst = some f ∧ t = { s with
      dlDone := s.dlDone ++ [⟨s.phaseNo, d, f, k, s.dl.fctr, s.dl.dlen, s.dl.pctr, s.dl.sctr,
        if c then some s.dl.fcs else none, s.dl.dpay, s.dl.apduMode, c⟩] } := by
  simp only [I2c.dlFinish, run_bind_eq_ok, need_eq_ok, Except.ok.injEq, eq_comm (b := t)]

/-- ApduFinish records the APDU and leaves the APDU parser done (44_datalink_apdu.md R302). -/
theorem I2c.apduFinish_eq_ok (k : Nat) (d : Dir) (c : Bool) (s t : I2c) :
    s.apduFinish k d c = .ok t ↔ ∃ f, s.ap.aFirst = some f ∧ t = { s with
      apduDone := s.apduDone ++ [⟨s.phaseNo, d, f, k, s.ap.cmd, s.ap.param, s.ap.alen, s.ap.adata,
        c⟩]
      ap := { s.ap with ast := .done } } := by
  simp only [I2c.apduFinish, run_bind_eq_ok, need_eq_ok, Except.ok.injEq, eq_comm (b := t)]

/-- PayloadBegin resets the APDU registers and settles the payload mode (44_datalink_apdu.md R294). -/
theorem I2c.payloadBegin_eq_ok (d : Dir) (s t : I2c) :
    s.payloadBegin d = .ok t ↔ ∃ c, s.dl.pctr = some c ∧ t = { s with
      ap := Ap.reset
      dl := { s.dl with apduMode := apduModeOf c s.dl.sctr d, dst := .pay } } := by
  simp only [I2c.payloadBegin, run_bind_eq_ok, need_eq_ok, Except.ok.injEq, eq_comm (b := t)]

/-- EndPhase does nothing without an open frame; else it ends the APDU in progress, then the frame
(44_datalink_apdu.md R303). -/
theorem I2c.endPhase_eq_ok (s t : I2c) :
    s.endPhase = .ok t ↔
      ((s.dl.dFirst = none ∨ s.dl.dst = .done) ∧ t = s)
        ∨ ∃ f last d u rf, s.dl.dFirst = some f ∧ s.dl.dst ≠ .done ∧ s.lastIdx = .ok last
          ∧ s.rw = some d ∧ s.endApdu last d = .ok u ∧ u.xfer[f]? = some rf
          ∧ (u.diag .warnDlTruncated (spanOf rf.start u.n) u.dl.drem).dlFinish last d false
            = .ok t := by
  unfold I2c.endPhase
  cases hf : s.dl.dFirst with
  | none => simp [eq_comm]
  | some f =>
    by_cases hd : s.dl.dst = .done
    · simp [hd, eq_comm]
    · simp only [hd, if_false, run_bind_eq_ok, need_eq_ok, I2c.bufRead_eq_ok, reduceCtorEq, or_self,
        false_and, false_or, Option.some.injEq, exists_and_left, ne_eq, not_false_eq_true, true_and]
      constructor
      · rintro ⟨last, hl, d, hr, u, hu, rf, hx, h⟩
        exact ⟨f, rfl, last, hl, d, hr, u, hu, rf, hx, h⟩
      · rintro ⟨f', rfl, last, hl, d, hr, u, hu, rf, hx, h⟩
        exact ⟨last, hl, d, hr, u, hu, rf, hx, h⟩

/-! ### Events read without names -/

/-- Events read without names, in order. -/
@[simp] theorem unnamedEvents_append (a b : List OutEvent) :
    unnamedEvents (a ++ b) = unnamedEvents a ++ unnamedEvents b := by
  simp [unnamedEvents]

/-- The fields that `REG_FIELDS` gives are no part of them (42_link_header.md R207). -/
@[simp] theorem unnamedEvents_fieldEvents (f : RegFields) (reg : Nat) (d : Dir) (i : Nat) (x : Byte)
    (sp : Span) : unnamedEvents (fieldEvents f reg d i x sp) = [] := by
  simp only [unnamedEvents, fieldEvents, List.filterMap_eq_nil_iff, List.mem_flatMap]
  rintro e ⟨r, -, he⟩
  split at he <;> simp only [List.mem_cons, List.not_mem_nil, or_false] at he
  · rw [he]; rfl
  · rcases he with rfl | rfl <;> rfl

end Sys2Proof.Machine
end

