-- ==== Sys2Proof/Tests/Slice0.lean ====
section
/-! SUPPORT. Tests: ill-formed terms, words written out from the spec's encodings, one step of each
operation against the spec's examples, and a witness for the hypotheses of every statement. -/

namespace Sys2Proof.Tests

open Sys2Proof Sys2Proof.Machine

/- Elaborated one after another: the many kernel evaluations would otherwise each hold a thread. -/
set_option Elab.async false

/-! ### Well-formedness: an ill-formed term for each check -/

/-- Levels `sck`, `asserted`, with the data lines low. -/
def lv (sck a : Bool) : SpiLevels := ⟨sck, false, false, a⟩

theorem test_illformed_csDeassert_asserted : Instr.wf (.spiCsDeassert (lv true true)) = false := by decide
theorem test_illformed_csAssert_not_asserted : Instr.wf (.spiCsAssert (lv true false)) = false := by decide
theorem test_illformed_sckSample_not_asserted : Instr.wf (.spiSckSample (lv true false)) = false := by decide
theorem test_illformed_sckSample_low : Instr.wf (.spiSckSample (lv false true)) = false := by decide
theorem test_illformed_sckSampleF_not_asserted : Instr.wf (.spiSckSampleF (lv false false)) = false := by decide
theorem test_illformed_sckSampleF_high : Instr.wf (.spiSckSampleF (lv true true)) = false := by decide
theorem test_illformed_start_scl_low : Instr.wf (.i2cStart ⟨false, false⟩) = false := by decide
theorem test_illformed_start_sda_high : Instr.wf (.i2cStart ⟨true, true⟩) = false := by decide
theorem test_illformed_rstart_scl_low : Instr.wf (.i2cRstart ⟨false, false⟩) = false := by decide
theorem test_illformed_rstart_sda_high : Instr.wf (.i2cRstart ⟨true, true⟩) = false := by decide
theorem test_illformed_stop_scl_low : Instr.wf (.i2cStop ⟨false, true⟩) = false := by decide
theorem test_illformed_stop_sda_low : Instr.wf (.i2cStop ⟨true, false⟩) = false := by decide
theorem test_illformed_stray_scl_low : Instr.wf (.i2cStrayStop ⟨false, true⟩) = false := by decide
theorem test_illformed_stray_sda_low : Instr.wf (.i2cStrayStop ⟨true, false⟩) = false := by decide
theorem test_illformed_bit_scl_low : Instr.wf (.i2cBit ⟨false, true⟩) = false := by decide
theorem test_illformed_ack_scl_low : Instr.wf (.i2cAck ⟨false, true⟩) = false := by decide
theorem test_illformed_regLen_wide : Instr.wf (.regLen (2 ^ 32)) = false := by decide
theorem test_illformed_bufRead_wide : Instr.wf (.bufRead .spi (2 ^ 32)) = false := by decide
theorem test_illformed_bufAppend_spi_start : Instr.wf (.bufAppend (.spi ⟨none, none, 2 ^ 32, 0, false, .data, none⟩)) = false := by decide
theorem test_illformed_bufAppend_spi_stop : Instr.wf (.bufAppend (.spi ⟨none, none, 0, 2 ^ 32, false, .data, none⟩)) = false := by decide
theorem test_illformed_bufAppend_spi_fseq : Instr.wf (.bufAppend (.spi ⟨none, none, 0, 0, false, .data, some (2 ^ 32)⟩)) = false := by decide
theorem test_illformed_bufAppend_i2c_start : Instr.wf (.bufAppend (.i2c ⟨0#8, 2 ^ 32, 0, false, 0, .raw, none, none⟩)) = false := by decide
theorem test_illformed_bufAppend_i2c_stop : Instr.wf (.bufAppend (.i2c ⟨0#8, 0, 2 ^ 32, false, 0, .raw, none, none⟩)) = false := by decide
theorem test_illformed_bufAppend_i2c_phase : Instr.wf (.bufAppend (.i2c ⟨0#8, 0, 0, false, 2 ^ 32, .raw, none, none⟩)) = false := by decide
theorem test_illformed_no_lane :
    SpiParams.wf { SpiParams.default with haveMosi := false, haveMiso := false } = false := by decide
/-- A field whose low bit lies above its high bit. -/
def upsideDown : RegFields := .table [⟨0, .read, none, 0#8, [⟨0, 2, 3, true⟩]⟩]
theorem test_illformed_spi_field :
    SpiParams.wf { SpiParams.default with regFields := upsideDown } = false := by decide
theorem test_illformed_i2c_field :
    I2cParams.wf { I2cParams.default with regFields := upsideDown } = false := by decide
theorem test_default_config_wellformed :
    Config.default.wf = true ∧ Config.default.hasRequiredEntries = true := by decide +kernel

/-! ### Decoding: words written out from 30_encoding.md, then the selector and the operands -/

theorem test_decode_spiBaseline :
    decode [0b0010000, 0] =
      .ok (.spiBaseline ⟨false, false, false, false⟩, []) := by rfl
theorem test_decode_spiCsDeassert :
    decode [0b0001000, 0] =
      .ok (.spiCsDeassert ⟨false, false, false, false⟩, []) := by rfl
theorem test_decode_spiCsAssert :
    decode [0b0000100, 0] =
      .ok (.spiCsAssert ⟨false, false, false, true⟩, []) := by rfl
theorem test_decode_spiSckSample :
    decode [0b0101101, 0] =
      .ok (.spiSckSample ⟨true, true, false, true⟩, []) := by rfl
theorem test_decode_spiSckSampleF :
    decode [0b1001110, 0] =
      .ok (.spiSckSampleF ⟨false, false, true, true⟩, []) := by rfl
theorem test_decode_spiIdleStep :
    decode [0b0001111, 0] =
      .ok (.spiIdleStep ⟨true, false, false, true⟩, []) := by rfl
theorem test_decode_i2cBaseline :
    decode [0b0010101, 1] =
      .ok (.i2cBaseline ⟨true, true⟩, []) := by rfl
theorem test_decode_i2cStart : decode [0b0001110, 1] = .ok (.i2cStart ⟨true, false⟩, []) := by rfl
theorem test_decode_i2cRstart : decode [0b0101110, 1] = .ok (.i2cRstart ⟨true, false⟩, []) := by rfl
theorem test_decode_i2cStop : decode [0b0101101, 1] = .ok (.i2cStop ⟨true, true⟩, []) := by rfl
theorem test_decode_i2cStrayStop :
    decode [0b0001101, 1] =
      .ok (.i2cStrayStop ⟨true, true⟩, []) := by rfl
theorem test_decode_i2cBit : decode [0b0100111, 1] = .ok (.i2cBit ⟨true, true⟩, []) := by rfl
theorem test_decode_i2cAck : decode [0b1100100, 1] = .ok (.i2cAck ⟨true, false⟩, []) := by rfl
theorem test_decode_i2cIdleStep :
    decode [0b0000011, 1] =
      .ok (.i2cIdleStep ⟨false, true⟩, []) := by rfl
theorem test_decode_completeSpiByte : decode [0, 14, 1] = .ok (.completeSpiByte true, []) := by rfl
theorem test_decode_completeI2cByte : decode [0, 15, 0] = .ok (.completeI2cByte false, []) := by rfl
theorem test_decode_partialAtCondition : decode [0, 16] = .ok (.partialAtCondition, []) := by rfl
theorem test_decode_spiHdr0 : decode [0b10001001, 17] = .ok (.spiHdr0 .read 9#7, []) := by rfl
theorem test_decode_spiHdr1 : decode [0xD4, 18] = .ok (.spiHdr1 0xD4#8, []) := by rfl
theorem test_decode_spiHdr2 : decode [0x00, 19] = .ok (.spiHdr2 0x00#8, []) := by rfl
theorem test_decode_spiHdr3 : decode [0x24, 20] = .ok (.spiHdr3 0x24#8, []) := by rfl
theorem test_decode_ackFlag : decode [0x01, 21] = .ok (.ackFlag 0x01#8, []) := by rfl
theorem test_decode_spiData : decode [0x80, 22, 1] = .ok (.spiData (some 0x80#8), []) := by rfl
theorem test_decode_spiExcess : decode [0x5A, 23] = .ok (.spiExcess 0x5A#8, []) := by rfl
theorem test_decode_fieldDecode :
    decode [0x91, 24, 1] =
      .ok (.fieldDecode .i2c 0x91#8, []) := by rfl
theorem test_decode_spiNoHeader : decode [0x33, 25] = .ok (.spiNoHeader 0x33#8, []) := by rfl
theorem test_decode_i2cAddr : decode [0b01100001, 26] = .ok (.i2cAddr 0x30#7 .read, []) := by rfl
theorem test_decode_i2cRaw : decode [0x77, 27] = .ok (.i2cRaw 0x77#8, []) := by rfl
theorem test_decode_i2cRegnum : decode [0x82, 28] = .ok (.i2cRegnum 0x82#8, []) := by rfl
theorem test_decode_i2cRegdata : decode [0x23, 29] = .ok (.i2cRegdata 0x23#8, []) := by rfl
theorem test_decode_tpmStart : decode [0x80, 30] = .ok (.tpmStart 0x80#8, []) := by rfl
theorem test_decode_tpmHdr : decode [0x02, 31] = .ok (.tpmHdr 0x02#8, []) := by rfl
theorem test_decode_tpmTagDone : decode [0x02, 32] = .ok (.tpmTagDone 0x02#8, []) := by rfl
theorem test_decode_tpmLenDone : decode [0x0A, 33] = .ok (.tpmLenDone 0x0A#8, []) := by rfl
theorem test_decode_tpmCodeDone : decode [0x44, 34] = .ok (.tpmCodeDone 0x44#8, []) := by rfl
theorem test_decode_tpmPayload : decode [0xBE, 35] = .ok (.tpmPayload 0xBE#8, []) := by rfl
theorem test_decode_tpmOtherDir : decode [0xEF, 36] = .ok (.tpmOtherDir 0xEF#8, []) := by rfl
theorem test_decode_closeFrame : decode [0, 37] = .ok (.closeFrame, []) := by rfl
theorem test_decode_dlFctr :
    decode [0b10110110, 38] =
      .ok (.dlFctr 1#1 0b01#2 1#1 0b01#2 0b10#2, []) := by rfl
theorem test_decode_dlLen0 : decode [0x01, 39] = .ok (.dlLen0 0x01#8, []) := by rfl
theorem test_decode_dlLen1 : decode [0x07, 40] = .ok (.dlLen1 0x07#8, []) := by rfl
theorem test_decode_dlPctr :
    decode [0b00101101, 41] =
      .ok (.dlPctr 0b0010#4 1#1 0b101#3, []) := by rfl
theorem test_decode_dlSctr :
    decode [0b01000110, 42] =
      .ok (.dlSctr 0b01#2 0b0001#4 0b10#2, []) := by rfl
theorem test_decode_payloadBegin : decode [0, 43] = .ok (.payloadBegin, []) := by rfl
theorem test_decode_dlPay : decode [0xAA, 44] = .ok (.dlPay 0xAA#8, []) := by rfl
theorem test_decode_dlFcs0 : decode [0x12, 45] = .ok (.dlFcs0 0x12#8, []) := by rfl
theorem test_decode_dlFcs1 : decode [0x34, 46] = .ok (.dlFcs1 0x34#8, []) := by rfl
theorem test_decode_dlExcess : decode [0x99, 47] = .ok (.dlExcess 0x99#8, []) := by rfl
theorem test_decode_dlFinish : decode [0, 48, 0] = .ok (.dlFinish false, []) := by rfl
theorem test_decode_apduCmd : decode [0x81, 49] = .ok (.apduCmd 0x81#8, []) := by rfl
theorem test_decode_apduParam : decode [0x03, 50] = .ok (.apduParam 0x03#8, []) := by rfl
theorem test_decode_apduLen0 : decode [0x00, 51] = .ok (.apduLen0 0x00#8, []) := by rfl
theorem test_decode_apduLen1 : decode [0x02, 52] = .ok (.apduLen1 0x02#8, []) := by rfl
theorem test_decode_apduData : decode [0xBB, 53] = .ok (.apduData 0xBB#8, []) := by rfl
theorem test_decode_apduExcess : decode [0xCC, 54] = .ok (.apduExcess 0xCC#8, []) := by rfl
theorem test_decode_apduFinish : decode [0, 55, 1] = .ok (.apduFinish true, []) := by rfl
theorem test_decode_endPhase : decode [0, 56] = .ok (.endPhase, []) := by rfl
theorem test_decode_aggregateSpi : decode [0, 57] = .ok (.aggregateSpi, []) := by rfl
theorem test_decode_frameCarry : decode [0, 58] = .ok (.frameCarry, []) := by rfl
theorem test_decode_aggregateI2c : decode [0, 59] = .ok (.aggregateI2c, []) := by rfl
theorem test_decode_regLen : decode [0, 60, 0, 0, 1, 2] = .ok (.regLen 258, []) := by rfl
theorem test_decode_bufAppend :
    decode [0, 61, 0, 1, 9, 0, 0, 0, 0, 0, 3, 0, 0, 0, 19, 0, 0, 0, 0, 0, 0, 0] =
      .ok (.bufAppend (.spi ⟨some 9#8, none, 3, 19, false, .header, none⟩), []) := by rfl
theorem test_decode_bufRead : decode [0, 62, 1, 0, 0, 0, 5] = .ok (.bufRead .i2c 5, []) := by rfl
theorem test_decode_reset : decode [0, 63] = .ok (.reset, []) := by rfl
/-- Bytes that are no operation word are rejected by name. -/
theorem test_decode_rejects :
    decode [] = .error .outOfBytes ∧ decode [0] = .error .outOfBytes
      ∧ decode [0x80, 0] = .error .reservedBit ∧ decode [0, 2] = .error (.unknownSelector 2)
      ∧ decode [0, 14, 2] = .error (.badOperand 2) ∧ decode [1, 63] = .error .reservedBit := by
  refine ⟨rfl, rfl, rfl, rfl, rfl, rfl⟩

/-! ### One step of each operation, against the spec's examples -/

/-- The SPI stack after an operation that went on. -/
def spiOf : Result → Option Spi
  | .next t => some t.spi
  | _ => none

/-- The I2C stack after an operation that went on. -/
def i2cOf : Result → Option I2c
  | .next t => some t.i2c
  | _ => none

/-- The reset machine with another SPI stack. -/
def withSpi (t : Spi) : State := { State.reset with spi := t }

/-- The reset machine with another I2C stack. -/
def withI2c (t : I2c) : State := { State.reset with i2c := t }

/-- A complete SPI record with both lanes. -/
def rs (m k : Byte) (a b : Nat) : SpiByteRec := ⟨some m, some k, a, b, false, .header, none⟩

/-- An open SPI transfer at sample `n` with these records. -/
def sp (n : Nat) (l : List SpiByteRec) : Spi :=
  { Spi.reset with
    first := false, active := true, prevAsserted := true, n := n, xfer := l, pos := l.length }

/-- The SPI transfer of program P1 at its first data byte: a WRITE of ten bytes to 0x0024. -/
def p1 : Spi :=
  { sp 82 [rs 0x09 0 3 19, rs 0xD4 0 19 35, rs 0 0 35 51, rs 0x24 0 51 67, rs 0x80 0xFF 67 83] with
    hdrDir := some .write, hdrCount := some 10, hdrReg := some 0x0024#16, hdrRegHi := some 0#8,
    hdrB2Start := 35, hdrRegKnown := true, hdrRouted := true }

/-- `p1` with a second data byte, one byte of a tag taken. -/
def p1b : Spi :=
  { p1 with
    n := 98, xfer := p1.xfer ++ [rs 0x02 0xFF 83 99], pos := 6, fst := .hdr, fh := 1,
    facc := 0x80#32, fFieldStart := 67, fseq := 1, fStart := some (.idx 4) }

/-- A complete I2C record of phase 1. -/
def ri (v : Byte) (a b : Nat) : I2cByteRec := ⟨v, a, b, false, 1, .raw, some .write, none⟩

/-- An open I2C transfer at sample `n`, in a matched WRITE phase, with these records. -/
def ic (n : Nat) (l : List I2cByteRec) : I2c :=
  { I2c.reset with
    first := false, active := true, tStart := 1, phaseNo := 1, n := n, xfer := l, phase := .data, rw := some .write, addr7 := some 0x30#7, matched := true }

/-- A datalink frame in the third byte of the buffer on. -/
def dl2 (d : Dl) : I2c := { ic 91 [ri 0x60 3 19, ri 0x80 21 37, ri 0 39 55] with
  reg := some 0x80#8, regKnown := true, j := 1, dl := d }

theorem test_spiBaseline : (spiOf (exec (.spiBaseline (lv false true)) State.reset)).map
    (fun t => (t.active, t.first, t.out)) = some (true, false, [evAt 0 0 (.bus .active)]) := by
  decide +kernel
theorem test_spiCsDeassert : (spiOf (exec (.spiCsDeassert (lv false false)) (withSpi
      { sp 25 [rs 9 0 3 19] with bitcnt := 3, bitStarts := [19, 21, 23], accMosi := 5#8 }))).map
    (fun t => (t.active, t.out.head?, t.out[2]?)) =
      some (false, some (evAt 19 25 (.diag .warnCsMidByte 3)),
        some (evAt 19 25 (.byte .mosi 0xA0#8 true))) := by decide +kernel
theorem test_spiCsAssert : (spiOf (exec (.spiCsAssert (lv false true)) (withSpi
      { Spi.reset with first := false, n := 1 }))).map (fun t => (t.active, t.tStart, t.out)) =
      some (true, 1, [evAt 1 1 (.bus .active)]) := by decide +kernel
theorem test_spiSckSample : (spiOf (exec (.spiSckSample ⟨true, true, false, true⟩) (withSpi
      (sp 3 [])))).map (fun t => (t.accMosi, t.accMiso, t.bitStarts, t.bitcnt, t.out)) =
      some (1#8, 0#8, [3], 1, []) := by decide +kernel
theorem test_spiSckSampleF : (spiOf (exec (.spiSckSampleF ⟨false, true, false, true⟩) (withSpi
      { sp 17 [] with bitcnt := 7, bitStarts := [3, 5, 7, 9, 11, 13, 15], accMosi := 4#8 }))).map
    (fun t => (t.bitcnt, t.pos, t.out[1]?)) =
      some (0, 1, some (evAt 3 19 (.byte .mosi 0x09#8 false))) := by decide +kernel
theorem test_spiIdleStep : (spiOf (exec (.spiIdleStep ⟨true, true, true, false⟩) (withSpi
      { Spi.reset with first := false }))).map (fun t => (t.prevSck, t.n, t.out)) =
      some (true, 1, []) := by decide +kernel
theorem test_i2cBaseline : (i2cOf (exec (.i2cBaseline ⟨true, true⟩) State.reset)).map
    (fun t => (t.active, t.prevScl, t.n, t.out)) = some (false, true, 1, []) := by decide +kernel
theorem test_i2cStart : (i2cOf (exec (.i2cStart ⟨true, false⟩) (withI2c
      { I2c.reset with first := false, n := 1 }))).map (fun t => (t.tStart, t.phaseNo, t.out)) =
      some (1, 1, [evAt 1 1 (.bus .active), evAt 1 1 (.cond .start)]) := by decide +kernel
theorem test_i2cRstart : (i2cOf (exec (.i2cRstart ⟨true, false⟩) (withI2c
      { ic 40 [] with bitcnt := 1, bitStarts := [39] }))).map
    (fun t => (t.phaseNo, t.bitcnt, t.out)) = some (2, 0, [evAt 40 40 (.cond .rstart)]) := by
  decide +kernel
theorem test_i2cStop : (i2cOf (exec (.i2cStop ⟨true, true⟩) (withI2c
      { ic 76 [] with bitcnt := 1, bitStarts := [75] }))).map (fun t => (t.active, t.out)) =
      some (false, [evAt 76 76 (.cond .stop), evAt 76 76 (.bus .idle)]) := by decide +kernel
theorem test_i2cStrayStop : (i2cOf (exec (.i2cStrayStop ⟨true, true⟩) (withI2c
      { I2c.reset with first := false, n := 1 }))).map (fun t => (t.n, t.out)) = some (2, []) := by
  decide +kernel
theorem test_i2cBit : (i2cOf (exec (.i2cBit ⟨true, false⟩) (withI2c
      { ic 17 [] with
        phase := .addr, rw := none, matched := false, bitcnt := 7, acc := 0x30#8,
        bitStarts := [3, 5, 7, 9, 11, 13, 15] }))).map
    (fun t => (t.bitcnt, t.out[1]?, t.out[2]?)) =
      some (8, some (evAt 3 19 (.byte .sda 0x60#8 false)),
        some (evAt 3 19 (.addr 0x30#7 .write true))) := by decide +kernel
theorem test_i2cAck : (i2cOf (exec (.i2cAck ⟨true, false⟩) (withI2c
      { ic 19 [ri 0x60 3 19] with
        bitcnt := 8, bitStarts := [3, 5, 7, 9, 11, 13, 15, 17], ackIdx := some 0 }))).map
    (fun t => (t.bitcnt, t.xfer.map (·.ack), t.out)) =
      some (0, [some true], [evAt 19 21 (.ack true)]) := by decide +kernel
theorem test_i2cIdleStep : (i2cOf (exec (.i2cIdleStep ⟨false, true⟩) (withI2c (ic 5 [])))).map
    (fun t => (t.prevSda, t.n, t.out)) = some (true, 6, []) := by decide +kernel
theorem test_completeSpiByte : (spiOf (exec (.completeSpiByte true) (withSpi
      { sp 25 [] with bitcnt := 3, bitStarts := [19, 21, 23], accMosi := 5#8 }))).map
    (fun t => (t.bitcnt, t.out[0]?)) =
      some (0, some (evAt 19 25 (.bits .mosi
        [⟨true, 19, 21⟩, ⟨false, 21, 23⟩, ⟨true, 23, 25⟩]))) := by decide +kernel
theorem test_completeI2cByte : (i2cOf (exec (.completeI2cByte false) (withI2c
      { ic 17 [] with
        phase := .addr, bitcnt := 8, acc := 0x61#8,
        bitStarts := [3, 5, 7, 9, 11, 13, 15, 17] }))).map
    (fun t => (t.ackIdx, t.rw, t.expectReg)) = some (some 0, some .read, false) := by
  decide +kernel
theorem test_partialAtCondition : (i2cOf (exec .partialAtCondition (withI2c
      { ic 76 [] with bitcnt := 1, bitStarts := [75], acc := 1#8 }))).map
    (fun t => (t.bitcnt, t.acc, t.out)) = some (0, 0#8, []) := by decide +kernel
theorem test_partialAtCondition_two : (i2cOf (exec .partialAtCondition (withI2c
      { ic 30 [ri 0x60 3 19] with
        bitcnt := 2, bitStarts := [21, 23], acc := 2#8, expectReg := true }))).map
    (fun t => (t.reg, t.out.head?)) =
      some (some 0x80#8, some (evAt 21 30 (.diag .warnI2cPartialByte 2))) := by decide +kernel
theorem test_spiHdr0 : (spiOf (exec (.spiHdr0 .write 9#7) (withSpi (sp 17 [rs 9 0 3 19])))).map
    (fun t => (t.hdrDir, t.hdrCount, t.out)) = some (some .write, some 10,
      [evAt 3 5 (.hdr .dir 0 none), evAt 5 19 (.hdr .count 10 none)]) := by decide +kernel
theorem test_spiHdr1 : (spiOf (exec (.spiHdr1 0xD4#8) (withSpi
      (sp 33 [rs 9 0 3 19, rs 0xD4 0 19 35])))).map (fun t => (t.hdrAddrHi, t.out)) =
      some (some 0xD4#8, [evAt 19 35 (.hdr .addrHi 0xD4 none)]) := by decide +kernel
theorem test_spiHdr2 : (spiOf (exec (.spiHdr2 0#8) (withSpi
      (sp 49 [rs 9 0 3 19, rs 0xD4 0 19 35, rs 0 0 35 51])))).map
    (fun t => (t.hdrRegHi, t.hdrB2Start, t.out)) = some (some 0#8, 35, []) := by decide +kernel
theorem test_spiHdr3 : (spiOf (exec (.spiHdr3 0x24#8) (withSpi
      { sp 65 (p1.xfer.take 4) with
        hdrDir := some .write, hdrRegHi := some 0#8, hdrB2Start := 35 }))).map
    (fun t => (t.hdrReg, t.hdrRouted, t.out)) = some (some 0x0024#16, true,
      [evAt 35 67 (.hdr .reg 0x24 (some "REG_0024")), evAt 35 43 (.hdr .locality 0 none)]) := by
  decide +kernel
theorem test_ackFlag : (spiOf (exec (.ackFlag 1#8) (withSpi (sp 65 (p1.xfer.take 4))))).map
    (fun t => (t.hdrAck, t.out)) = some (some true, [evAt 65 67 (.hdr .ack 1 none)]) := by
  decide +kernel
theorem test_spiData : (spiOf (exec (.spiData (some 0x80#8)) (withSpi p1))).map
    (fun t => (t.out, t.fst, t.facc)) =
      some ([evAt 67 83 (.regdata 0x24 .write 0 0x80#8)], .hdr, 0x80#32) := by decide +kernel
theorem test_spiExcess : (spiOf (exec (.spiExcess 0x80#8) (withSpi p1b))).map
    (fun t => (t.out, t.xfer.getLast?.map (·.role))) =
      some ([evAt 83 99 (.diag .warnExcessByte 1)], some .excess) := by decide +kernel

/-- A table that gives byte 0x91 of a READ of register 5 a valid and an invalid field, at every data
index. -/
def twoFields : RegFields := .table
  [⟨5, .read, none, 0x91#8, [⟨1, 7, 7, true⟩, ⟨2, 4, 0, false⟩]⟩]

theorem test_fieldDecode : (i2cOf (exec (.fieldDecode .i2c 0x91#8)
      { State.reset with
        cfg := { Config.default with i2c := { I2cParams.default with regFields := twoFields } }
        i2c := { ic 50 [ri 0x91 39 55] with rw := some .read, reg := some 5#8, j := 1 } })).map
    (fun t => t.out) = some [evAt 39 41 (.regfield 5 1 1 true),
      evAt 45 55 (.regfield 5 2 17 false), evAt 45 55 (.diag .infoFieldInvalid 2)] := by
  decide +kernel
theorem test_spiNoHeader : (spiOf (exec (.spiNoHeader 0#8) (withSpi p1))).map
    (fun t => (t.out, t.xfer.getLast?.map (·.role))) = some ([], some .data) := by decide +kernel
theorem test_i2cAddr : (i2cOf (exec (.i2cAddr 0x30#7 .read) (withI2c
      { ic 17 [ri 0x61 3 19] with phase := .addr }))).map
    (fun t => (t.matched, t.expectReg, t.out)) =
      some (true, false, [evAt 3 19 (.addr 0x30#7 .read true)]) := by decide +kernel
theorem test_i2cRaw : (i2cOf (exec (.i2cRaw 7#8) (withI2c
      { ic 35 [ri 0x62 3 19, ri 7 21 37] with matched := false, rw := some .read }))).map
    (fun t => (t.xfer.map (·.dir), t.out)) = some ([some .write, some .read], []) := by
  decide +kernel
theorem test_i2cRegnum : (i2cOf (exec (.i2cRegnum 0x82#8) (withI2c
      { ic 35 [ri 0x60 3 19, ri 0x82 21 37] with expectReg := true }))).map
    (fun t => (t.reg, t.expectReg, t.out)) = some (some 0x82#8, false,
      [evAt 21 37 (.hdr .i2cReg 0x82 (some "I2C_STATE"))]) := by decide +kernel
theorem test_i2cRegdata : (i2cOf (exec (.i2cRegdata 1#8) (withI2c
      { ic 53 [ri 0x60 3 19, ri 0x82 21 37, ri 1 39 55] with reg := some 0x82#8 }))).map
    (fun t => (t.j, t.out)) = some (1, [evAt 39 55 (.regdata 0x82 .write 0 1#8)]) := by
  decide +kernel
theorem test_i2cRegdata_noRegister : (i2cOf (exec (.i2cRegdata 1#8) (withI2c
      { ic 35 [ri 0x61 3 19, ri 1 21 37] with rw := some .read }))).map (fun t => t.out) =
      some [evAt 21 37 (.diag .warnNoRegister 0)] := by decide +kernel
theorem test_tpmStart : (spiOf (exec (.tpmStart 0x80#8) (withSpi p1))).map
    (fun t => (t.fseq, t.fStart, t.fst)) = some (1, some (.idx 4), .hdr) := by decide +kernel
theorem test_tpmHdr : (spiOf (exec (.tpmHdr 0x02#8) (withSpi p1b))).map
    (fun t => (t.facc, t.tag, t.out)) = some (0x8002#32, 0x8002#16,
      [evAt 67 99 (.field .tpm .tag 0x8002 (some "SESSION"))]) := by decide +kernel
theorem test_tpmTagDone : (spiOf (exec (.tpmTagDone 1#8) (withSpi
      { p1b with facc := 0x8001#32 }))).map (fun t => t.out) =
      some [evAt 67 99 (.diag .errUnknownTag 0x8001)] := by decide +kernel
theorem test_tpmLenDone : (spiOf (exec (.tpmLenDone 4#8) (withSpi { p1b with facc := 4#32 }))).map
    (fun t => (t.fshort, t.out)) = some (true, [evAt 67 99 (.field .tpm .length 4 none),
      evAt 67 99 (.diag .warnLengthShort 4)]) := by decide +kernel
theorem test_tpmCodeDone : (spiOf (exec (.tpmCodeDone 0x44#8) (withSpi
      { p1b with facc := 0x144#32, len := 10#32 }))).map
    (fun t => (t.fst, t.closed.map (·.last), t.out)) =
      some (.idle, [5], [evAt 67 99 (.field .tpm .code 0x144 (some "TPM_CC_STARTUP"))]) := by
  decide +kernel
theorem test_tpmCodeDone_unknown : (spiOf (exec (.tpmCodeDone 0xFF#8) (withSpi
      { p1b with facc := 0xFFFF#32, len := 12#32 }))).map
    (fun t => (t.fst, t.remaining, t.out)) =
      some (.payload, 2#32, [evAt 67 99 (.diag .errUnknownCc 0xFFFF)]) := by decide +kernel

/-- A frame of `p1b` in its payload, with two bytes still to come. -/
def p1p : Spi :=
  { p1b with fst := .payload, fh := 10, fdir := some .write, len := 12#32, remaining := 2#32 }

theorem test_tpmPayload : (spiOf (exec (.tpmPayload 2#8) (withSpi p1p))).map
    (fun t => (t.pcount, t.remaining, t.out)) =
      some (1, 1#32, [evAt 83 99 (.payload .tpm .write 0 2#8 false)]) := by decide +kernel
theorem test_tpmOtherDir : spiOf (exec (.tpmOtherDir 2#8) (withSpi p1p)) = some p1p := by
  decide +kernel
theorem test_closeFrame : (spiOf (exec .closeFrame (withSpi p1p))).map
    (fun t => (t.fst, t.fStart, t.closed)) = some (.idle, none,
      [⟨1, .write, 0#16, 12#32, 0#32, 0, false, .idx 4, 5⟩]) := by decide +kernel
theorem test_dlFctr : (i2cOf (exec (.dlFctr 0#1 0#2 0#1 0#2 0#2) (withI2c (dl2 Dl.reset)))).map
    (fun t => (t.dl.dFirst, t.out.map (·.span))) =
      some (some 2, [⟨39, 41⟩, ⟨41, 45⟩, ⟨45, 47⟩, ⟨47, 51⟩, ⟨51, 55⟩]) := by decide +kernel
theorem test_dlLen0 : (i2cOf (exec (.dlLen0 1#8) (withI2c (dl2 { Dl.reset with dst := .len0 })))).map
    (fun t => (t.dl.dlen, t.dl.dst, t.out)) = some (0x0100#16, .len1, []) := by decide +kernel
theorem test_dlLen1 : (i2cOf (exec (.dlLen1 7#8) (withI2c
      (dl2 { Dl.reset with dst := .len1, dLenStart := 21 })))).map
    (fun t => (t.dl.drem, t.dl.dst, t.out)) =
      some (7, .pctr, [evAt 21 55 (.field .dl .len 7 none)]) := by decide +kernel
theorem test_dlPctr : (i2cOf (exec (.dlPctr 0#4 0#1 0#3) (withI2c
      (dl2 { Dl.reset with dst := .pctr, dlen := 7#16, drem := 7 })))).map
    (fun t => (t.dl.dst, t.dl.drem, t.dl.apduMode)) = some (.pay, 6, true) := by decide +kernel
theorem test_dlSctr : (i2cOf (exec (.dlSctr 0#2 0#4 1#2) (withI2c
      (dl2 { Dl.reset with dst := .sctr, dlen := 7#16, drem := 6, pctr := some 8#8 })))).map
    (fun t => (t.dl.dst, t.dl.apduMode, t.out.length)) = some (.pay, false, 3) := by decide +kernel
theorem test_payloadBegin : (i2cOf (exec .payloadBegin (withI2c
      (dl2 { Dl.reset with pctr := some 1#8 })))).map (fun t => (t.dl.dst, t.dl.apduMode)) =
      some (.pay, false) := by decide +kernel

/-- A frame in its payload with `k` bytes still to come. -/
def pay (k : Nat) (m : Bool) : Dl :=
  { Dl.reset with
    dst := .pay, dFirst := some 0, dlen := 9#16, drem := k, pctr := some 0#8, apduMode := m }

theorem test_dlPay : (i2cOf (exec (.dlPay 0xAA#8) (withI2c (dl2 (pay 2 false))))).map
    (fun t => (t.dl.dpay, t.dl.dst, t.out)) =
      some (1, .pay, [evAt 39 55 (.payload .dl .write 0 0xAA#8 true)]) := by decide +kernel
theorem test_dlPay_cut : (i2cOf (exec (.dlPay 0x81#8) (withI2c (dl2 (pay 1 true))))).map
    (fun t => (t.dl.dst, t.ap.ast, t.apduDone.map (·.complete), t.out)) =
      some (.fcs0, .done, [false], [evAt 39 55 (.diag .errUnknownApduCmd 0x81),
        evAt 39 55 (.diag .warnApduTruncated 0)]) := by decide +kernel
theorem test_dlFcs0 : (i2cOf (exec (.dlFcs0 0x12#8) (withI2c
      (dl2 { Dl.reset with dst := .fcs0 })))).map (fun t => (t.dl.fcs, t.dl.dFcsStart, t.out)) =
      some (0x1200#16, 39, []) := by decide +kernel
theorem test_dlFcs1 : (i2cOf (exec (.dlFcs1 0x34#8) (withI2c
      (dl2 { Dl.reset with dst := .fcs1, dFirst := some 0, dFcsStart := 21, fcs := 0x1200#16 })))).map
    (fun t => (t.dl.dst, t.dlDone.map (·.fcs), t.out)) = some (.done, [some 0x1234#16],
      [evAt 21 55 (.field .dl .fcs 0x1234 none)]) := by decide +kernel
theorem test_dlExcess : (i2cOf (exec (.dlExcess 9#8) (withI2c
      (dl2 { Dl.reset with dst := .done })))).map (fun t => t.out) =
      some [evAt 39 55 (.diag .warnDlExcess 0)] := by decide +kernel
theorem test_dlFinish : (i2cOf (exec (.dlFinish false) (withI2c (dl2 (pay 2 false))))).map
    (fun t => t.dlDone.map fun d => (d.first, d.last, d.fcs, d.complete)) =
      some [(0, 2, none, false)] := by decide +kernel
theorem test_apduCmd : (i2cOf (exec (.apduCmd 0x81#8) (withI2c (dl2 (pay 2 true))))).map
    (fun t => (t.ap.aFirst, t.out)) =
      some (some 2, [evAt 39 55 (.diag .errUnknownApduCmd 0x81)]) := by decide +kernel
theorem test_apduParam : (i2cOf (exec (.apduParam 3#8) (withI2c (dl2 (pay 2 true))))).map
    (fun t => (t.ap.param, t.out)) = some (3#8, [evAt 39 55 (.field .apdu .param 3 none)]) := by
  decide +kernel
theorem test_apduLen0 : (i2cOf (exec (.apduLen0 1#8) (withI2c (dl2 (pay 2 true))))).map
    (fun t => (t.ap.alen, t.ap.aLenStart, t.ap.ast)) = some (0x0100#16, 39, .len1) := by
  decide +kernel

/-- `dl2` in APDU mode, with the APDU registers `a`. -/
def ap2 (a : Ap) : I2c := { dl2 (pay 3 true) with ap := a }

theorem test_apduLen1 : (i2cOf (exec (.apduLen1 2#8) (withI2c
      (ap2 { Ap.reset with ast := .len1, aFirst := some 0, aLenStart := 21 })))).map
    (fun t => (t.ap.arem, t.ap.ast, t.out)) =
      some (2, .data, [evAt 21 55 (.field .apdu .len 2 none)]) := by decide +kernel
theorem test_apduData : (i2cOf (exec (.apduData 0xBB#8) (withI2c
      (ap2 { Ap.reset with ast := .data, aFirst := some 0, arem := 1, adata := 1 })))).map
    (fun t => (t.ap.ast, t.apduDone.map (·.complete), t.out)) =
      some (.done, [true], [evAt 39 55 (.payload .apdu .write 1 0xBB#8 false)]) := by
  decide +kernel
theorem test_apduExcess : (i2cOf (exec (.apduExcess 0#8) (withI2c
      { ap2 { Ap.reset with ast := .done } with dl := { pay 3 true with dpay := 5 } }))).map
    (fun t => t.out) = some [evAt 39 55 (.diag .warnApduExcess 5)] := by decide +kernel
theorem test_apduFinish : (i2cOf (exec (.apduFinish true) (withI2c
      (ap2 { Ap.reset with aFirst := some 1, cmd := 0x81#8 })))).map
    (fun t => (t.ap.ast, t.apduDone.map fun a => (a.first, a.last, a.cmd))) =
      some (.done, [(1, 2, 0x81#8)]) := by decide +kernel
theorem test_endPhase : (i2cOf (exec .endPhase (withI2c
      { ic 76 [ri 0x60 3 19, ri 0x80 21 37, ri 0 39 55, ri 0 57 73] with
        dl := { Dl.reset with dst := .len1, dFirst := some 2 } }))).map
    (fun t => (t.out, t.dlDone.map fun d => (d.first, d.last, d.complete))) =
      some ([evAt 39 76 (.diag .warnDlTruncated 0)], [(2, 3, false)]) := by decide +kernel

/-- The SPI transfer of program P1 at its chip-select deassertion: fourteen bytes, one frame. -/
def p1End : Spi :=
  { p1 with
    tStart := 1, n := 227,
    xfer := p1.xfer ++ List.replicate 9 (rs 0 0 83 99), pos := 14,
    closed := [⟨1, .write, 0x8002#16, 10#32, 0x144#32, 0, false, .idx 4, 13⟩] }

theorem test_aggregateSpi : (spiOf (exec .aggregateSpi (withSpi p1End))).map
    (fun t => (t.closed, t.out.map (·.span))) = some ([], [⟨1, 227⟩, ⟨459 / 7, 227⟩]) := by
  decide +kernel
theorem test_frameCarry : (spiOf (exec .frameCarry (withSpi
      { p1b with tStart := 1, n := 97, xfer := p1b.xfer.map fun r => { r with fseq := some 1 } }))).map
    (fun t => (t.fst, t.fStart, t.out)) = some (.hdr, some (.at 65),
      [evAt 65 97 (.diag .warnFrameOpenAtIdle 0)]) := by decide +kernel

/-- The I2C transfer of program P3 at its STOP: 0x0123 written to register 0x82. -/
def p3End : I2c :=
  { ic 76 [{ ri 0x60 3 19 with kind := .addr }, { ri 0x82 21 37 with kind := .reg },
      { ri 0x01 39 55 with kind := .data }, { ri 0x23 57 73 with kind := .data }] with
    reg := some 0x82#8, j := 2 }

theorem test_aggregateI2c : (i2cOf (exec .aggregateI2c (withI2c p3End))).map
    (fun t => t.out.map (·.span)) = some [⟨1, 76⟩, ⟨77 / 2, 76⟩] := by decide +kernel
theorem test_regLen : (i2cOf (exec (.regLen 1) (withI2c p3End))).map (fun t => t.out) =
    some [evAt (77 / 2) 76 (.reglenSum 0x0123#16)] := by decide +kernel
theorem test_bufAppend : (spiOf (exec (.bufAppend (.spi (rs 1 2 3 4))) (withSpi p1))).map
    (fun t => t.xfer[5]?) = some (some (rs 1 2 3 4)) := by decide +kernel
theorem test_bufRead : exec (.bufRead .spi 3) (withSpi p1) =
    .next { withSpi p1 with readOut := some (.spi (rs 0x24 0 51 67)) } := by rfl
theorem test_reset : (spiOf (exec .reset (withSpi { p1b with out := [evAt 0 0 (.bus .active)] }))).map
    (fun t => (t.first, t.n, t.fst, t.out)) =
      some (true, 0, .idle, [evAt 0 0 (.bus .active)]) := by decide +kernel

/-- An event's code and label (30_encoding.md R115 to R117). -/
theorem test_codes_and_labels :
    (Event.bus .active).kindCode = 0x01#8 ∧ (Event.reglenSum 291#16).kindCode = 0x12#8
      ∧ (Event.reglenSum 291#16).label = some "LENGTH:291"
      ∧ (Event.diag .errUnknownCc 0xFFFF).label = some "PROTOCOL ERROR"
      ∧ (Event.diag .warnExcessByte 0).label = none ∧ DiagCode.warnApduExcess.code = 0x1B#8 := by
  decide +kernel

/-! ### Witnesses: concrete states that meet the hypotheses of each statement, clause by clause -/

/-- The reset machine with the parameters `p` for SPI. -/
def withP (p : SpiParams) : State := { State.reset with cfg := { Config.default with spi := p } }

/-- A machine with one input waiting. -/
def offer (s : State) (a : PortInput) : State := { s with port := [a] }

/-- The word of an SPI sample with MOSI high and chip select asserted under the default polarity. -/
def low (sck : Bool) : BitVec 4 := if sck then 0b0011#4 else 0b0010#4

theorem witness_DecodeOfEncodeIsTheOperation :
    (Instr.regLen (2 ^ 32 - 1)).wf = true ∧ (Instr.spiSckSample (lv true true)).wf = true := by
  decide
theorem witness_SpiStepRunsTheSelectedRows :
    (offer State.reset (.spi (low true))).port = .spi (low true) :: []
      ∧ SpiParams.default.haveMosi = true ∧ (∀ w, SpiParams.default.sampleW = some w → 0 + 1 < 2 ^ w)
      ∧ ∀ w, (some 1 : Option Nat) = some w → 0 + 1 < 2 ^ w :=
  ⟨rfl, rfl, (fun _ h => by cases h), fun _ h => by cases h; decide⟩
/-- No row of this step matches: chip select stays deasserted. -/
theorem witness_SpiStepRunsTheSelectedRows_idle :
    spiOps (withSpi { Spi.reset with first := false }) (lv true false) =
      [.spiIdleStep (lv true false)] := by decide
theorem witness_I2cStepRunsTheSelectedRow :
    (offer State.reset (.i2c 0b11#2)).port = .i2c 0b11#2 :: []
      ∧ (∀ w, I2cParams.default.sampleW = some w → 0 + 1 < 2 ^ w)
      ∧ ∀ w, (some 1 : Option Nat) = some w → 0 + 1 < 2 ^ w :=
  ⟨rfl, (fun _ h => by cases h), fun _ h => by cases h; decide⟩

/-- Parameters with a bound of two samples, and parameters without a data lane. -/
def twoSamples : SpiParams := { SpiParams.default with sampleW := some 1 }
def noLane : SpiParams := { SpiParams.default with haveMosi := false, haveMiso := false }

theorem witness_StepTakesOtherInputsOrRefuses :
    State.reset.port = [] ∧ State.reset.spi.first = true ∧ State.reset.i2c.first = true
      ∧ ((withSpi (sp 1 [])).spi.first = false ∧ noLane ≠ (withSpi (sp 1 [])).cfg.spi)
      ∧ ((withI2c (ic 1 [])).i2c.first = false
        ∧ { I2cParams.default with dataReg := 1#8 } ≠ (withI2c (ic 1 [])).cfg.i2c)
      ∧ (noLane.haveMosi = false ∧ noLane.haveMiso = false)
      ∧ (twoSamples.haveMosi = true ∧ twoSamples.sampleW = some 1 ∧ 2 ^ 1 ≤ (sp 1 []).n + 1)
      ∧ 2 ^ 1 ≤ (ic 1 []).n + 1 := by decide +kernel
theorem witness_StepRunsThePlacedWord :
    127 < 128 ∧ SpiParams.default.haveMosi = true ∧ State.reset.cfg.spi.sampleW = none
      ∧ decodeTableWord 8 0 = some (.spiIdleStep (lv false false))
      ∧ decodeTableWord 8 4 = some (.spiCsAssert (lv false true))
      ∧ decodeTableWord 8 5 = some (.spiSckSample (lv true true))
      ∧ decodeTableWord 8 6 = some (.spiSckSampleF (lv false true))
      ∧ decodeTableWord 8 8 = some (.spiCsDeassert (lv false false))
      ∧ decodeTableWord 8 127 = some (.spiBaseline ⟨true, true, true, true⟩) := by decide

/-- A sound machine in the middle of a byte of either stack. -/
def midByte : State :=
  { State.reset with
    spi := { sp 10 [] with tStart := 1, bitcnt := 2, bitStarts := [6, 8], accMosi := 2#8 }
    i2c := { I2c.reset with
      first := false, active := true, tStart := 1, phaseNo := 1, n := 7, bitcnt := 2,
      bitStarts := [4, 6], acc := 3#8 }
    port := [.spi (low true)] }

/-- A step of `midByte`: its hypotheses are those of the statements about steps from sound states. -/
theorem witness_SoundStateNeverFaults : midByte.Inv :=
  ⟨⟨by decide +kernel, by decide +kernel, by decide +kernel, by decide +kernel,
    by decide +kernel, by decide +kernel, by decide +kernel, by decide +kernel⟩,
   ⟨by decide +kernel, by decide +kernel, by decide +kernel, by decide +kernel,
    by decide +kernel, by decide +kernel, by decide +kernel, by decide +kernel,
    by decide +kernel⟩⟩
theorem witness_StepKeepsSoundness : midByte.Inv ∧ ∃ t, step midByte = .next t :=
  ⟨witness_SoundStateNeverFaults, _, rfl⟩
theorem witness_StepEmitsOrderedSpans : midByte.Inv ∧ ∃ t, step midByte = .next t :=
  witness_StepKeepsSoundness

/-- A sound machine before the eighth bit of byte 3 of a READ, after a slow last bit. -/
def slowBit : State :=
  { State.reset with
    spi := { sp 57 [rs 0x80 0 0 16, rs 0 0 16 32, rs 0 0 32 48] with
      hdrDir := some .read, hdrCount := some 1, hdrAddrHi := some 0#8, hdrRegHi := some 0#8,
      hdrB0Span := (0, 16), hdrB2Start := 32, bitcnt := 7,
      bitStarts := [48, 49, 50, 51, 52, 53, 54] }
    port := [.spi (low true)] }

/-- A matched WRITE phase one bit before the end of its register byte. -/
def lastI2cBit : State :=
  offer (withI2c { ic 35 [{ ri 0x60 3 19 with kind := .addr }] with
    expectReg := true, bitcnt := 7, bitStarts := [21, 23, 25, 27, 29, 31, 33], acc := 0x41#8 })
    (.i2c 0b01#2)

theorem witness_EventStartsBySampleOfItsStep :
    slowBit.Inv ∧ slowBit.cfg.spi.boundStarts = true ∧ lastI2cBit.cfg.i2c.boundStarts = true
      ∧ (∃ t, step slowBit = .next t ∧ t.spi.out.length ≠ 0)
      ∧ ∃ t, step lastI2cBit = .next t ∧ t.i2c.out.length ≠ 0 :=
  ⟨⟨⟨by decide +kernel, by decide +kernel, by decide +kernel, by decide +kernel,
    by decide +kernel, by decide +kernel, by decide +kernel, by decide +kernel⟩,
   ⟨by decide +kernel, by decide +kernel, by decide +kernel, by decide +kernel,
    by decide +kernel, by decide +kernel, by decide +kernel, by decide +kernel,
    by decide +kernel⟩⟩,
    rfl, rfl, ⟨_, rfl, by decide +kernel⟩, _, rfl, by decide +kernel⟩

/-- The spans of the ACK flags a step emits. -/
def ackSpans (s : State) : List Span :=
  match step s with
  | .next t => t.spi.out.filterMap fun e => match e.event with
    | .hdr .ack _ _ => some e.span
    | _ => none
  | _ => []
/-- Byte 3 ends at 57 + (57 - 54) = 60 (41_byte_assembler.md R171), so its last eighth starts at
58 1/2 (00_scope.md R14), after the sample 57, where 10_state.md R66 lets it start at most. -/
theorem test_step_late_start :
    ackSpans slowBit = [⟨57, 60⟩]
      ∧ ackSpans { slowBit with cfg := { Config.default with
        spi := { SpiParams.default with boundStarts := false } } } = [⟨117 / 2, 60⟩] := by
  decide +kernel

theorem witness_StacksShareNothing :
    (∃ t, step midByte = .next t) ∧ ∃ t, step (offer midByte (.i2c 0b01#2)) = .next t :=
  ⟨⟨_, rfl⟩, _, rfl⟩
theorem witness_SampleIndexCountsSamples :
    (∃ t, step midByte = .next t) ∧ (∃ t, step (offer midByte (.i2c 0b01#2)) = .next t)
      ∧ (∃ t, step (offer midByte .reset) = .next t) ∧ ∃ t, step { midByte with port := [] } = .next t :=
  ⟨⟨_, rfl⟩, ⟨_, rfl⟩, ⟨_, rfl⟩, _, rfl⟩

/-- `midByte` under other name tables, with other events behind it. -/
def otherNames : State :=
  { midByte with
    cfg := { spi := { SpiParams.default with knownReg := [] }
             i2c := { I2cParams.default with knownReg := [] } }
    spi := { midByte.spi with out := [evAt 0 0 (.bus .active)] } }

theorem witness_NameTablesDecideOnlyNames :
    midByte.port = .spi (low true) :: [] ∧ otherNames.port = .spi (low true) :: []
      ∧ otherNames.cfg.spi = { midByte.cfg.spi with
        knownReg := otherNames.cfg.spi.knownReg
        knownTag := otherNames.cfg.spi.knownTag
        knownCc := otherNames.cfg.spi.knownCc
        knownRc := otherNames.cfg.spi.knownRc
        regFields := otherNames.cfg.spi.regFields }
      ∧ otherNames.cfg.i2c = { midByte.cfg.i2c with
        knownReg := otherNames.cfg.i2c.knownReg
        knownApduCmd := otherNames.cfg.i2c.knownApduCmd
        knownApduSta := otherNames.cfg.i2c.knownApduSta
        regFields := otherNames.cfg.i2c.regFields }
      ∧ otherNames.spi = { midByte.spi with
        out := otherNames.spi.out, hdrRegKnown := otherNames.spi.hdrRegKnown }
      ∧ otherNames.i2c = { midByte.i2c with
        out := otherNames.i2c.out, regKnown := otherNames.i2c.regKnown }
      ∧ (∃ t, step midByte = .next t) ∧ ∃ t, step (offer midByte (.i2c 0b01#2)) = .next t :=
  ⟨rfl, rfl, rfl, rfl, rfl, rfl, ⟨_, rfl⟩, _, rfl⟩

theorem witness_RegisterNumberChangesOnlyByRegnum : lastI2cBit.Inv
    ∧ lastI2cBit.port = .i2c 0b01#2 :: []
    ∧ ∃ t, step lastI2cBit = .next t ∧ t.i2c.reg ≠ lastI2cBit.i2c.reg :=
  ⟨⟨⟨by decide +kernel, by decide +kernel, by decide +kernel, by decide +kernel,
    by decide +kernel, by decide +kernel, by decide +kernel, by decide +kernel⟩,
   ⟨by decide +kernel, by decide +kernel, by decide +kernel, by decide +kernel,
    by decide +kernel, by decide +kernel, by decide +kernel, by decide +kernel,
    by decide +kernel⟩⟩,
    rfl, _, rfl, by decide⟩
/-- Sound states whose steps emit an event that is no late field, in either stack. -/
theorem witness_StepOnlyAppendsEvents :
    (slowBit.Inv ∧ ∃ t, step slowBit = .next t
        ∧ (t.spi.out.any fun e => !e.event.lateField) = true)
      ∧ lastI2cBit.Inv ∧ ∃ t, step lastI2cBit = .next t
        ∧ (t.i2c.out.any fun e => !e.event.lateField) = true :=
  ⟨⟨witness_EventStartsBySampleOfItsStep.1, _, rfl, by decide +kernel⟩,
    witness_RegisterNumberChangesOnlyByRegnum.1, _, rfl, by decide +kernel⟩
theorem witness_OneByteCompletesPerStep : midByte.Inv ∧ ∃ t, step midByte = .next t :=
  witness_StepKeepsSoundness

/-- Without a chip-select channel, in the middle of the stream. -/
def noCs : State :=
  { withP { SpiParams.default with haveCs := false } with spi := sp 9 [], port := [.spi (low true)] }

theorem witness_WithoutChipSelectNothingCloses : noCs.port = .spi (low true) :: []
    ∧ noCs.cfg.spi.haveCs = false ∧ noCs.spi.first = false ∧ noCs.spi.active = true
    ∧ ∃ t, step noCs = .next t :=
  ⟨rfl, rfl, rfl, rfl, _, rfl⟩
/-- The two transfers of the aggregator tests, ended by a sample. -/
theorem witness_SummariesOnlyAtATransferEnd :
    (∃ t, step (offer (withSpi p1End) (.spi 0b1000#4)) = .next t
      ∧ (t.spi.out.drop 0).any (fun e => match e.event with | .spiXferSum _ => true | _ => false))
    ∧ ∃ t, step (offer (withI2c { p3End with prevScl := true }) (.i2c 0b11#2)) = .next t
      ∧ (t.i2c.out.drop 0).any (fun e => match e.event with | .reglenSum _ => true | _ => false) :=
  ⟨⟨_, rfl, by decide +kernel⟩, _, rfl, by decide +kernel⟩
theorem witness_BitEndsFollowTheNextStart :
    [3, 5].getLast? = some 5 ∧ [3, 5].Pairwise (· < ·) ∧ [3].getLast? = some 3
      ∧ [3].Pairwise (· < ·) ∧ ∀ t, some 6 = some t → 5 < t :=
  ⟨rfl, by decide, rfl, by decide, fun _ h => by cases h; decide⟩
theorem witness_SpansTileTheByteAndTheTransfer :
    (⟨3, 19⟩ : Span).ss ≤ (⟨3, 19⟩ : Span).es ∧ 0 + 8 ≤ 8 ∧ 8 + 0 ≤ 8 ∧ 1 < 76
      ∧ evenWidth 1 76 4 = some (75 / 4) := by decide +kernel
theorem witness_BaselineAndAssertOpenATransfer :
    (lv true true).asserted = true ∧ (lv true false).asserted = false := by decide
theorem witness_DeassertClosesTheTransfer :
    Spi.reset.active = false ∧ ((sp 9 []).active = true ∧ (sp 9 []).bitcnt = 0)
      ∧ ((sp 9 []).xfer = [] ∧ (sp 9 []).fst = .idle)
      ∧ midByte.spi.active = true ∧ 0 < midByte.spi.bitcnt ∧ midByte.spi.bitStarts = 6 :: [8]
      ∧ ∃ u, exec (.completeSpiByte true) { midByte with spi := { midByte.spi with
        out := midByte.spi.out ++ [evAt (6 : Nat) midByte.spi.n (.diag .warnCsMidByte 2)] } } =
        .next u :=
  ⟨rfl, ⟨rfl, rfl⟩, ⟨rfl, rfl⟩, rfl, by decide, rfl, _, rfl⟩
theorem witness_SckSampleShiftsOneBit : (sp 9 []).bitcnt ≠ 7 ∧ slowBit.spi.bitcnt = 7 := by decide
theorem witness_RstartEndsThePhaseAndBeginsOne :
    (∃ a b, exec .partialAtCondition midByte = .next a ∧ exec .endPhase a = .next b)
      ∧ (ic 40 []).bitcnt ≤ 1 ∧ { ic 40 [] with bitcnt := 8 }.bitcnt = 8
      ∧ (ic 40 []).dl.dFirst = none :=
  ⟨⟨_, _, rfl, rfl⟩, by decide, rfl, rfl⟩
theorem witness_StopEndsTheTransfer :
    (∃ a b, exec .partialAtCondition midByte = .next a ∧ exec .endPhase a = .next b)
      ∧ (ic 40 []).bitcnt ≤ 1 ∧ { ic 40 [] with bitcnt := 8 }.bitcnt = 8
      ∧ (ic 40 []).dl.dFirst = none ∧ (ic 40 []).xfer = [] :=
  ⟨⟨_, _, rfl, rfl⟩, by decide, rfl, rfl, rfl⟩

/-- A whole I2C byte that awaits its acknowledge bit. -/
def awaiting : I2c :=
  { ic 19 [ri 0x60 3 19] with
    bitcnt := 8, bitStarts := [3, 5, 7, 9, 11, 13, 15, 17], ackIdx := some 0 }

theorem witness_DataBitAndAcknowledgeBit :
    midByte.i2c.bitcnt ≠ 7 ∧ lastI2cBit.i2c.bitcnt = 7 ∧ awaiting.bitStarts[7]? = some 17
      ∧ 17 ≤ awaiting.n ∧ ∀ k, awaiting.ackIdx = some k → k < awaiting.xfer.length :=
  ⟨by decide, rfl, rfl, by decide, fun _ h => by cases h; decide⟩

/-- Two pending bits after `l`, in an SPI transfer with the header registers of `p1`. -/
def pend (l : List SpiByteRec) : Spi :=
  { p1 with n := 90, xfer := l, pos := l.length, bitcnt := 2, bitStarts := [85, 87] }

theorem witness_SpiByteGoesToItsHeaderRow :
    (∀ l, (pend l).bitStarts = 85 :: [87] ∧ (pend l).bitcnt = [87].length + 1
      ∧ (pend l).bitcnt ≤ 8 ∧ (pend l).room SpiParams.default = true
      ∧ (pend l).pos = (pend l).xfer.length)
      ∧ bitEnds [85, 87] (some 90) = .ok [87, 90] ∧ bitEnds [85, 87] none = .ok [87, 89]
      ∧ [87, 90].getLast? = some 90
      ∧ { SpiParams.default with haveMosi := false }.haveMosi = false
      ∧ SpiParams.default.haveMosi = true
      ∧ (pend []).pos = 0 ∧ (pend (p1.xfer.take 1)).pos = 1 ∧ (pend (p1.xfer.take 2)).pos = 2
      ∧ (pend (p1.xfer.take 3)).pos = 3 ∧ 4 ≤ (pend (p1.xfer.take 4)).pos
      ∧ (pend (p1.xfer.take 4)).hdrDir = some .write ∧ (pend (p1.xfer.take 4)).hdrCount = some 10
      ∧ ¬ 10 ≤ (pend p1End.xfer).pos - 5 ∧ 10 ≤ (pend p1End.xfer).pos - 4 :=
  ⟨fun _ => ⟨rfl, rfl, Nat.le_of_ble_eq_true rfl, rfl, rfl⟩, rfl, rfl, rfl, rfl, rfl, rfl, rfl, rfl, rfl,
    by decide, rfl, rfl, by decide, by decide⟩
theorem witness_I2cByteGoesToItsHeaderRow :
    midByte.i2c.bitStarts = 4 :: [6] ∧ midByte.i2c.bitcnt = [6].length + 1
      ∧ midByte.i2c.bitcnt ≤ 8 ∧ bitEnds [4, 6] (some 7) = .ok [6, 7] ∧ [6, 7].getLast? = some 7
      ∧ midByte.i2c.room I2cParams.default = true :=
  ⟨rfl, rfl, by decide, rfl, rfl, rfl⟩
theorem witness_PartialByteAtACondition :
    (ic 40 []).bitcnt ≤ 1 ∧ 8 ≤ awaiting.bitcnt ∧ 2 ≤ midByte.i2c.bitcnt
      ∧ midByte.i2c.bitcnt ≤ 7 ∧ midByte.i2c.bitStarts = 4 :: [6] := by decide
theorem witness_SpiRowsCompleteOnSoundStates :
    (midByte.spi.Inv midByte.cfg.spi ∧ midByte.spi.room midByte.cfg.spi = true
      ∧ 1 ≤ midByte.spi.bitcnt)
      ∧ p1b.FramerInv ∧ 5 ≤ p1b.xfer.length ∧ p1b.hdrDir = some .write ∧ p1b.fst = .hdr
      ∧ p1p.FramerInv ∧ 5 ≤ p1p.xfer.length ∧ p1p.fst = .payload :=
  ⟨⟨witness_SoundStateNeverFaults.1, rfl, by decide⟩, by decide +kernel, by decide, rfl, rfl,
    by decide +kernel, by decide, rfl⟩
theorem witness_I2cRowsCompleteOnSoundStates :
    (midByte.i2c.Inv midByte.cfg.i2c ∧ midByte.i2c.room midByte.cfg.i2c = true
      ∧ 1 ≤ midByte.i2c.bitcnt ∧ midByte.i2c.bitcnt ≤ 7)
      ∧ ({ awaiting with xfer := [{ ri 0x60 3 19 with kind := .addr }], expectReg := true }.Inv
          I2cParams.default ∧ awaiting.bitcnt = 8)
      ∧ (dl2 (pay 8 true)).xfer ≠ [] ∧ (dl2 (pay 8 true)).rw = some .write
      ∧ ((pay 8 true).dst = .fctr ↔ (pay 8 true).dFirst = none)
      ∧ (pay 8 true).stateOk (some .write) = true
      ∧ (Ap.reset.ast = .cmd ↔ Ap.reset.aFirst = none)
      ∧ Ap.reset.stateOk I2cParams.default = true ∧ (pay 8 true).dst = .pay :=
  ⟨⟨witness_SoundStateNeverFaults.2, rfl, by decide, by decide⟩,
    ⟨⟨by decide +kernel, by decide +kernel, by decide +kernel, by decide +kernel,
     by decide +kernel, by decide +kernel, by decide +kernel, by decide +kernel,
     by decide +kernel⟩, rfl⟩,
    by decide, rfl, by decide, rfl, by decide, rfl, rfl⟩
theorem witness_I2cRowsCompleteOnSoundStates_first :
    ∀ a, (ap2 { Ap.reset with ast := .param, aFirst := some 2 }).ap.aFirst = some a →
      a < (dl2 (pay 8 true)).xfer.length :=
  fun _ h => by cases h; decide
theorem witness_FirstThreeHeaderBytes : (sp 17 [rs 9 0 3 19]).xfer = [] ++ [rs 9 0 3 19] := rfl
theorem witness_FourthHeaderByteGivesTheRegister :
    (sp 65 (p1.xfer.take 4)).xfer = p1.xfer.take 3 ++ [rs 0x24 0 51 67]
      ∧ p1.hdrRegHi = some 0#8 ∧ p1.xfer[2]? = some (rs 0 0 35 51) ∧ p1.hdrDir ≠ some .read
      ∧ slowBit.spi.hdrDir = some .read := by decide
theorem witness_SpiDataExcessAndHeaderlessBytes :
    p1.xfer = p1.xfer.take 4 ++ [rs 0x80 0xFF 67 83] ∧ 4 ≤ (p1.xfer.take 4).length
      ∧ p1.hdrDir = some .write ∧ p1.hdrReg = some 0x24#16 ∧ p1.hdrRouted = true
      ∧ { p1 with hdrReg := none }.hdrReg = none
      ∧ { p1 with hdrRouted := false }.hdrRouted = false := by decide
theorem witness_FieldDecodeReportsEveryField :
    (p1.xfer = p1.xfer.take 4 ++ [rs 0x80 0xFF 67 83] ∧ 4 ≤ (p1.xfer.take 4).length
      ∧ p1.hdrReg = some 0x24#16 ∧ p1.hdrDir = some .write
      ∧ fieldsOf SpiParams.default.regFields 0x24 .write 0 0x80#8 = [])
      ∧ (dl2 Dl.reset).xfer = [ri 0x60 3 19, ri 0x80 21 37] ++ [ri 0 39 55]
      ∧ (dl2 Dl.reset).reg = some 0x80#8 ∧ (dl2 Dl.reset).rw = some .write
      ∧ (dl2 Dl.reset).j = 0 + 1
      ∧ fieldsOf twoFields 5 .read 0 0x91#8 = [⟨1, 7, 7, true⟩, ⟨2, 4, 0, false⟩] := by decide
theorem witness_PhaseHeaderBytes : (ic 35 [ri 0x60 3 19]).xfer = [] ++ [ri 0x60 3 19] := rfl
theorem witness_RegisterDataIsReportedAndRouted :
    (dl2 Dl.reset).xfer = [ri 0x60 3 19, ri 0x80 21 37] ++ [ri 0 39 55]
      ∧ (dl2 Dl.reset).rw = some .write ∧ (ic 35 []).reg = none
      ∧ (dl2 Dl.reset).reg = some 0x80#8 ∧ 0x80#8 = I2cParams.default.dataReg
      ∧ p3End.reg = some 0x82#8 ∧ 0x82#8 ≠ I2cParams.default.dataReg := by decide
theorem witness_FramesOpenAndClose :
    p1p.xfer = p1.xfer ++ [rs 0x02 0xFF 83 99] ∧ p1p.fdir = some .write
      ∧ p1p.fStart = some (.idx 4) := by decide +kernel
theorem witness_FrameHeaderByteAccumulates :
    p1b.xfer = p1.xfer ++ [rs 0x02 0xFF 83 99] ∧ p1b.hdrDir = some .write := by decide
theorem witness_TagAndLengthAreReported :
    p1b.xfer = p1.xfer ++ [rs 0x02 0xFF 83 99] ∧ 10 ≤ p1b.facc.toNat ∧ (9#32).toNat < 10
      ∧ 10 ≤ (10#32).toNat := by decide
theorem witness_CodeFixesDirectionAndPayload :
    p1p.xfer = p1.xfer ++ [rs 0x02 0xFF 83 99] ∧ p1p.hdrDir = some .write ∧ 10 ≤ p1p.len.toNat
      ∧ (if p1p.fshort then 0 else p1p.len.toNat - 10) ≠ 0 ∧ (10#32).toNat - 10 = 0 := by decide
theorem witness_PayloadByteCountsDown :
    p1p.xfer = p1.xfer ++ [rs 0x02 0xFF 83 99] ∧ p1p.hdrDir = some .write
      ∧ 2 ≤ p1p.remaining.toNat ∧ (1#32).toNat ≤ 1 := by decide
theorem witness_DatalinkHeaderBytes :
    (dl2 Dl.reset).xfer = [ri 0x60 3 19, ri 0x80 21 37] ++ [ri 0 39 55] := rfl
theorem witness_ControlBytesBeginThePayload :
    (dl2 (pay 8 true)).xfer = [ri 0x60 3 19, ri 0x80 21 37] ++ [ri 0 39 55]
      ∧ (dl2 (pay 8 true)).rw = some .write ∧ (pay 8 true).drem = 7 + 1
      ∧ (pay 1 true).drem = 0 + 1 ∧ (pay 8 true).pctr = some 0#8 := by decide
theorem witness_DatalinkPayloadByte :
    (dl2 (pay 1 true)).xfer = [ri 0x60 3 19, ri 0x80 21 37] ++ [ri 0 39 55]
      ∧ (dl2 (pay 1 true)).rw = some .write ∧ (pay 1 true).drem = 0 + 1
      ∧ (pay 2 false).drem = 1 + 1 ∧ (pay 2 false).apduMode = false
      ∧ (pay 1 true).apduMode = true
      ∧ (∃ q, exec (.apduCmd 0x81#8) (withI2c (dl2 (pay 1 true))) = .next q
        ∧ q.i2c.ap.ast ≠ .done ∧ q.i2c.ap.aFirst = some 2
        ∧ q.i2c.xfer[2]? = some (ri 0 39 55))
      ∧ ∃ q, exec (.apduLen1 0#8) (withI2c
          { ap2 { Ap.reset with ast := .len1, aFirst := some 0 } with dl := pay 1 true }) = .next q
        ∧ q.i2c.ap.ast = .done :=
  ⟨rfl, rfl, rfl, rfl, rfl, rfl, ⟨_, rfl, by decide, rfl, rfl⟩, _, rfl, rfl⟩
theorem witness_FramesAndApdusAreRecorded :
    (dl2 (pay 1 true)).xfer = [ri 0x60 3 19, ri 0x80 21 37] ++ [ri 0 39 55]
      ∧ (dl2 (pay 1 true)).rw = some .write ∧ (pay 1 true).dFirst = some 0
      ∧ (ap2 { Ap.reset with aFirst := some 0 }).ap.aFirst = some 0
      ∧ 1 ≤ (dl2 (pay 1 true)).j := by decide
theorem witness_ApduBytes :
    (ap2 Ap.reset).xfer = [ri 0x60 3 19, ri 0x80 21 37] ++ [ri 0 39 55]
      ∧ (ap2 Ap.reset).rw = some .write
      ∧ ((0#16 ||| (1#8).setWidth 16).toNat ≠ 0 ∧ (0#16 ||| (0#8).setWidth 16).toNat = 0)
      ∧ 2 ≤ { Ap.reset with arem := 2 }.arem ∧ { Ap.reset with arem := 1 }.arem = 1 := by decide
theorem witness_EndPhaseEndsAnOpenFrame :
    (dl2 Dl.reset).dl.dFirst = none ∧ { pay 1 true with dst := .done }.dst = .done
      ∧ (pay 1 true).dFirst = some 0 ∧ (pay 1 true).dst ≠ .done
      ∧ (dl2 (pay 1 true)).rw = some .write
      ∧ (dl2 (pay 1 true)).xfer[0]? = some (ri 0x60 3 19)
      ∧ { pay 1 true with dst := .fcs0 }.dst ≠ .pay
      ∧ (ap2 { Ap.reset with ast := .param, aFirst := some 2 }).ap.ast ≠ .done
      ∧ (ap2 { Ap.reset with ast := .param, aFirst := some 2 }).xfer[2]? = some (ri 0 39 55)
      ∧ (∃ q, exec (.apduFinish false)
          (withI2c (ap2 { Ap.reset with ast := .param, aFirst := some 2 })) = .next q) :=
  ⟨rfl, rfl, rfl, by decide, rfl, rfl, by decide, by decide, rfl, _, rfl⟩
theorem witness_SpiPassReportsTheTransfer :
    (sp 9 []).xfer.length = 0 ∧ 0 < p1End.xfer.length ∧ p1End.hdrCount.isSome = true
      ∧ (p1End.xfer.filter (·.role = .data)).filterMap
        (fun r => if p1End.hdrDir = some .write then r.mosi else r.miso) = [] := by decide
theorem witness_OpenFrameIsCarriedAndFlagged :
    (sp 9 []).fst = .idle ∧ p1b.fst ≠ .idle ∧ p1b.fStart = some (.idx 4) ∧ 0 < p1b.xfer.length
      ∧ { p1b with fStart := some (.at 3) }.fStart = some (.at 3) := by decide +kernel
theorem witness_I2cPassReportsTheTransfer : (ic 9 []).xfer = [] ∧ p3End.xfer ≠ [] := by decide

/-- The records of phase 1 of `p3End`, as RegLen takes them: ADDR, REG, then two DATA. -/
theorem witness_StateRegisterLengthSummary :
    (p3End.xfer.zipIdx.filter fun e => e.1.phaseNo = 1).map (fun e => (e.1.kind, e.2)) =
        [(.addr, 0), (.reg, 1), (.data, 2), (.data, 3)]
      ∧ p3End.xfer.map (·.value) = [0x60#8, 0x82#8, 0x01#8, 0x23#8]
      ∧ 0x82#8 = I2cParams.default.stateReg ∧ p3End.xfer.head?.map (·.dir) = some (some .write)
      ∧ (p3End.xfer.zipIdx.filter fun e => e.1.phaseNo = 2) = [] := by decide

end Sys2Proof.Tests
end

/-! ## Spans (00_scope.md R11, R14, R15; 45_aggregator.md R331) -/

section

namespace Sys2Proof.Machine

open Sys2Proof

/-- Two sample positions in order are a span in order. -/
theorem spanOf_ok {a b : Nat} (h : a ≤ b) : (spanOf a b).ok := by
  simpa [spanOf] using h

@[simp] theorem pointSpan_ok (n : Nat) : (pointSpan n).ok := by
  simp [pointSpan]

/-- Eight eighths from the first on are the whole span. -/
@[simp] theorem subSpan_whole (sp : Span) : subSpan sp 0 8 = sp := by
  cases sp with
  | mk a b => simp [subSpan]

/-- A sub-span ends where the next one starts. -/
theorem subSpan_es_eq_next_ss (sp : Span) (off w v : Nat) :
    (subSpan sp off w).es = (subSpan sp (off + w) v).ss := by
  simp [subSpan]

/-- The place of the `k`-th eighth of a span in order moves up with `k`. -/
theorem eighth_mono {sp : Span} (h : sp.ok) {j k : Rat} (hjk : j ≤ k) :
    sp.ss + (sp.es - sp.ss) * j / 8 ≤ sp.ss + (sp.es - sp.ss) * k / 8 := by
  have hlen : 0 ≤ sp.es - sp.ss := sub_nonneg.mpr h
  gcongr

/-- A sub-span of a span in order is in order, also one that leaves the byte. -/
theorem subSpan_ok {sp : Span} (h : sp.ok) (off w : Nat) : (subSpan sp off w).ok :=
  eighth_mono h (by simp)

/-- A sub-span starts no earlier than its byte. -/
theorem le_subSpan_ss {sp : Span} (h : sp.ok) (off w : Nat) : sp.ss ≤ (subSpan sp off w).ss := by
  simpa [subSpan] using eighth_mono h (Nat.cast_nonneg off)

/-- A sub-span within the eight eighths ends no later than its byte. -/
theorem subSpan_es_le {sp : Span} (h : sp.ok) {off w : Nat} (hw : off + w ≤ 8) :
    (subSpan sp off w).es ≤ sp.es := by
  have h8 : (off + w : Rat) ≤ 8 := by exact_mod_cast hw
  have := eighth_mono h h8
  simpa [subSpan] using this

/-- The span of a bit field of a byte in order. -/
theorem fieldSpan_ok {sp : Span} (h : sp.ok) (hi lo : Nat) : (fieldSpan sp hi lo).ok :=
  subSpan_ok h _ _

/-- A transfer has an even byte width exactly when it has bytes (45_aggregator.md R331). -/
theorem evenWidth_eq_some (t0 t1 count : Nat) (w : Rat) :
    evenWidth t0 t1 count = some w ↔ count ≠ 0 ∧ w = ((t1 : Rat) - t0) / count := by
  unfold evenWidth
  split <;> simp_all [eq_comm]

/-- The even widths of all bytes add up to the transfer. -/
theorem evenWidth_mul_count {t0 t1 count : Nat} {w : Rat}
    (h : evenWidth t0 t1 count = some w) : t0 + count * w = t1 := by
  obtain ⟨hc, rfl⟩ := (evenWidth_eq_some ..).mp h
  have : (count : Rat) ≠ 0 := by exact_mod_cast hc
  field_simp
  ring

/-- The width of a transfer that does not end before it starts. -/
theorem evenWidth_nonneg {t0 t1 count : Nat} {w : Rat} (h : evenWidth t0 t1 count = some w)
    (ht : t0 ≤ t1) : 0 ≤ w := by
  obtain ⟨-, rfl⟩ := (evenWidth_eq_some ..).mp h
  have : (t0 : Rat) ≤ t1 := by exact_mod_cast ht
  exact div_nonneg (sub_nonneg.mpr this) (Nat.cast_nonneg _)

/-- The width of a transfer that ends after it starts. -/
theorem evenWidth_pos {t0 t1 count : Nat} {w : Rat} (h : evenWidth t0 t1 count = some w)
    (ht : t0 < t1) : 0 < w := by
  obtain ⟨hc, rfl⟩ := (evenWidth_eq_some ..).mp h
  have : (t0 : Rat) < t1 := by exact_mod_cast ht
  have : (0 : Rat) < count := by exact_mod_cast Nat.pos_of_ne_zero hc
  exact div_pos (by linarith) this

/-- The start of a byte of the transfer, evenly placed, is no later than the transfer's end. -/
theorem evenStart_le {t0 t1 count : Nat} {w : Rat} (h : evenWidth t0 t1 count = some w)
    (ht : t0 ≤ t1) {i : Nat} (hi : i ≤ count) : t0 + i * w ≤ t1 := by
  have hw : 0 ≤ w := evenWidth_nonneg h ht
  have hic : (i : Rat) ≤ count := by exact_mod_cast hi
  calc (t0 : Rat) + i * w ≤ t0 + count * w := by gcongr
    _ = t1 := evenWidth_mul_count h

/-- An even place does not come before an earlier byte's. -/
theorem evenPlace_le {t0 i k : Nat} {w : Rat} (hw : 0 ≤ w) (h : i ≤ k) :
    (t0 : Rat) + i * w ≤ t0 + (k + 1) * w := by
  have : (i : Rat) ≤ k + 1 := by exact_mod_cast Nat.le_succ_of_le h
  gcongr

end Sys2Proof.Machine

open Sys2Proof.Machine

/-- Settles O24: eighths are monotone in their number, and `count` even widths make the transfer. -/
theorem spansTileTheByteAndTheTransfer : Obligations.SpansTileTheByteAndTheTransfer := by
  unfold Obligations.SpansTileTheByteAndTheTransfer
  refine ⟨fun sp off w v hsp h8 => ⟨subSpan_whole sp, subSpan_es_eq_next_ss sp off w v,
    le_subSpan_ss hsp off w, subSpan_ok hsp off w, subSpan_es_le hsp h8⟩,
    fun t0 t1 count w ht hw => ?_⟩
  have hpos : 0 < w := evenWidth_pos hw ht
  have hc : 1 ≤ count := Nat.pos_of_ne_zero ((evenWidth_eq_some ..).mp hw).1
  refine ⟨hpos, by simp [evenSpan], ?_, fun i => by simp [evenSpan], fun i hi => ⟨?_, ?_⟩⟩
  · rw [← evenWidth_mul_count hw]
    simp [evenSpan, Nat.cast_sub hc]
  · have : 0 ≤ i * w := by positivity
    simpa [evenSpan] using this
  · have := evenStart_le hw ht.le (Nat.succ_le_of_lt hi)
    simpa [evenSpan] using this

end

/-! ## A step of one stack as a function of that stack (00_scope.md R2)

`spiStep` and `i2cStep` work on the machine. Each is `onSpi` or `onI2c` of a function of the one stack
and its parameters, and what a step of one stack does is read off that function. -/

section

namespace Sys2Proof.Machine

open Sys2Proof

/-! ### The SPI stack -/

/-- One row of a sample on the SPI stack alone (40_sampler.md R130 to R133). -/
def Spi.doRow (p : SpiParams) (x : SpiLevels) (t : Spi) : SpiRow → Run Spi
  | .baseline => .ok (t.baseline x)
  | .csDeassert => t.csDeassert p
  | .csAssert => .ok t.csAssert
  | .sckSample => t.sckSample p x
  | .sckSampleF => t.sckSample p x

/-- The rows of a sample in order on the SPI stack alone. -/
def Spi.doRows (p : SpiParams) (x : SpiLevels) : List SpiRow → Spi → Run Spi
  | [], t => .ok t
  | r :: rs, t => t.doRow p x r >>= Spi.doRows p x rs

/-- The rows that the levels `x` select (30_encoding.md R92, R93). -/
def Spi.rowsFor (p : SpiParams) (x : SpiLevels) (t : Spi) : List SpiRow :=
  (spiHits (cs5 t.first t.prevAsserted t.prevSck x)).filter (SpiRow.enabled p)

/-- The epilogue and the event port after the rows of a step that began at `old`. -/
def Spi.finish (p : SpiParams) (x : SpiLevels) (old : Spi) (r : Run Spi) : Run Spi :=
  r >>= fun u => .ok ((u.epilogue x).emitted p old)

/-- A whole SPI step on the SPI stack alone (40_sampler.md R134). -/
def Spi.takeSample (p : SpiParams) (x : SpiSample) (t : Spi) : Run Spi :=
  if hasDataLane p then
    if streamTooLong p.sampleW t.n then .error (.refused (.sampleW (p.sampleW.getD 0)))
    else t.finish p (levelsOf p x) (Spi.doRows p (levelsOf p x) (t.rowsFor p (levelsOf p x)) t)
  else .error (.refused .noDataLane)

/-- The operation of an SPI row is the row on the SPI stack. -/
theorem exec_spiRow (x : SpiLevels) (r : SpiRow) (s : State) :
    exec (r.instr x) s = onSpi s fun p t => t.doRow p x r := by
  cases r <;> rfl

/-- No sampling row is SPI_IDLE_STEP. -/
theorem SpiRow.instr_ne_idle (x : SpiLevels) (r : SpiRow) : r.instr x ≠ .spiIdleStep x := by
  cases r <;> simp [SpiRow.instr]

/-- The operations of SPI rows in order are the rows in order on the SPI stack. -/
theorem execAll_spiRows (x : SpiLevels) (rows : List SpiRow) (s : State) :
    execAll (rows.map (SpiRow.instr x)) s = onSpi s fun p t => Spi.doRows p x rows t := by
  induction rows generalizing s with
  | nil => rfl
  | cons r rs ih =>
    rw [List.map_cons, execAll, exec_spiRow]
    rcases hf : s.spi.doRow s.cfg.spi x r with (e | e) | u <;>
      simp [onSpi, Spi.doRows, hf, bind, Except.bind, ih]

/-- The end of an SPI step after an SPI operation is part of the operation. -/
theorem thenNext_onSpi (s : State) (x : SpiLevels) (f : SpiParams → Spi → Run Spi) :
    (thenNext (onSpi s f) fun t =>
        { t with spi := (t.spi.epilogue x).emitted s.cfg.spi s.spi }) =
      onSpi s fun p t => t.finish p x (f p t) := by
  rcases hf : f s.cfg.spi s.spi with (e | e) | u <;>
    simp [onSpi, thenNext, Spi.finish, hf, bind, Except.bind]

/-- An epilogue alone emits nothing, so the event port leaves it as it is. -/
theorem Spi.epilogue_emitted (p : SpiParams) (x : SpiLevels) (t : Spi) :
    (t.epilogue x).emitted p t = t.epilogue x := by
  simp [Spi.emitted, Spi.epilogue]

/-- What a sample selects: SPI_IDLE_STEP where no row is hit, else the rows that are. -/
theorem spiOps_eq (s : State) (x : SpiLevels) :
    spiOps s x = if s.spi.rowsFor s.cfg.spi x = [] then [.spiIdleStep x]
      else (s.spi.rowsFor s.cfg.spi x).map (SpiRow.instr x) := by
  unfold spiOps spiSelect Spi.rowsFor
  split
  · next h => simp [h]
  · next h => rw [if_neg h]

/-- The SPI step is an operation of the SPI stack. -/
theorem spiStep_eq_onSpi (x : SpiSample) (s : State) :
    spiStep x s = onSpi s fun p t => t.takeSample p x := by
  by_cases hlane : hasDataLane s.cfg.spi
  case neg => simp [spiStep, Spi.takeSample, hlane, onSpi]
  by_cases hlong : streamTooLong s.cfg.spi.sampleW s.spi.n
  case pos => simp [spiStep, Spi.takeSample, hlane, hlong, onSpi]
  by_cases hrows : s.spi.rowsFor s.cfg.spi (levelsOf s.cfg.spi x) = []
  case pos =>
    simp [spiStep, spiOps_eq, hrows, execAll, exec, execSpiIdleStep, onSpi, hlane, hlong,
      Spi.takeSample, Spi.finish, Spi.doRows, Spi.epilogue_emitted, bind, Except.bind]
  case neg =>
    have hops := spiOps_eq s (levelsOf s.cfg.spi x)
    rw [if_neg hrows] at hops
    have hne : spiOps s (levelsOf s.cfg.spi x) ≠ [.spiIdleStep (levelsOf s.cfg.spi x)] := by
      rw [hops]
      simp [List.map_eq_singleton_iff, SpiRow.instr_ne_idle]
    have hstep : spiStep x s = onSpi s fun p t => t.finish p (levelsOf s.cfg.spi x)
        (Spi.doRows p (levelsOf s.cfg.spi x)
          (s.spi.rowsFor s.cfg.spi (levelsOf s.cfg.spi x)) t) := by
      simp only [spiStep, hlane, hlong, hne, if_true, if_false, Bool.false_eq_true]
      rw [hops, execAll_spiRows, thenNext_onSpi]
    rw [hstep]
    simp [onSpi, Spi.takeSample, hlane, hlong]

/-! ### The I2C stack -/

/-- The epilogue and the event port after the operation of a step that began at `old`. -/
def I2c.finish (p : I2cParams) (x : I2cSample) (old : I2c) (r : Run I2c) : Run I2c :=
  r >>= fun u => .ok ((u.epilogue x).emitted p old)

/-- The operation a condition selects, on the I2C stack alone, and the end of its step
(40_sampler.md R150 to R158). -/
def I2c.takeCond (p : I2cParams) (x : I2cSample) (t : I2c) : Option I2cCond → Run I2c
  | some .baseline => .ok (t.baseline x)
  | some .start =>
    if t.active then t.finish p x (t.rstartCond p) else t.finish p x (.ok t.startCond)
  | some .stop => if t.active then t.finish p x (t.stopCond p) else .ok (t.epilogue x)
  | some .bit =>
    if t.active then
      if 8 ≤ t.bitcnt then t.finish p x (t.ackBit x) else t.finish p x (t.bit p x)
    else .ok (t.epilogue x)
  | none => .ok (t.epilogue x)

/-- A whole I2C step on the I2C stack alone (40_sampler.md R158). -/
def I2c.takeSample (p : I2cParams) (x : I2cSample) (t : I2c) : Run I2c :=
  if streamTooLong p.sampleW t.n then .error (.refused (.sampleW (p.sampleW.getD 0)))
  else t.takeCond p x (i2cHit (ci5 t.first t.prevScl t.prevSda x))

/-- The end of an I2C step after an I2C operation is part of the operation. -/
theorem thenNext_onI2c (s : State) (x : I2cSample) (f : I2cParams → I2c → Run I2c) :
    (thenNext (onI2c s f) fun t =>
        { t with i2c := (t.i2c.epilogue x).emitted s.cfg.i2c s.i2c }) =
      onI2c s fun p t => t.finish p x (f p t) := by
  rcases hf : f s.cfg.i2c s.i2c with (e | e) | u <;>
    simp [onI2c, thenNext, I2c.finish, hf, bind, Except.bind]

/-- The operations that hold the epilogue themselves (notes/assumptions/14.md). -/
abbrev I2c.holdsEpilogue (x : I2cSample) (op : Instr) : Prop :=
  op = .i2cBaseline x ∨ op = .i2cStrayStop x ∨ op = .i2cIdleStep x

/-- A step whose operation holds the epilogue is the operation. -/
theorem i2cStep_of_holdsEpilogue {x : I2cSample} {s : State} {op : Instr}
    (hlong : streamTooLong s.cfg.i2c.sampleW s.i2c.n = false) (hop : i2cOp s x = op)
    (h : I2c.holdsEpilogue x op) : i2cStep x s = exec op s := by
  subst hop
  simp only [i2cStep, hlong, Bool.false_eq_true, if_false]
  rw [if_pos h]

/-- A step of any other operation is the operation and the end of the step. -/
theorem i2cStep_of_not_holdsEpilogue {x : I2cSample} {s : State} {op : Instr}
    (hlong : streamTooLong s.cfg.i2c.sampleW s.i2c.n = false) (hop : i2cOp s x = op)
    (h : ¬ I2c.holdsEpilogue x op) {f : I2cParams → I2c → Run I2c}
    (hf : exec op s = onI2c s f) :
    i2cStep x s = onI2c s fun p t => t.finish p x (f p t) := by
  subst hop
  simp only [i2cStep, hlong, Bool.false_eq_true, if_false]
  rw [if_neg h, hf, thenNext_onI2c]

/-- The I2C step is an operation of the I2C stack. -/
theorem i2cStep_eq_onI2c (x : I2cSample) (s : State) :
    i2cStep x s = onI2c s fun p t => t.takeSample p x := by
  cases hlong : streamTooLong s.cfg.i2c.sampleW s.i2c.n
  case true => simp [i2cStep, I2c.takeSample, hlong, onI2c]
  have htake : (onI2c s fun p t => t.takeSample p x) = onI2c s fun p t =>
      t.takeCond p x (i2cHit (ci5 s.i2c.first s.i2c.prevScl s.i2c.prevSda x)) := by
    simp [onI2c, I2c.takeSample, hlong]
  have hop : i2cOp s x = i2cSelect (ci5 s.i2c.first s.i2c.prevScl s.i2c.prevSda x)
    s.i2c.active (decide (8 ≤ s.i2c.bitcnt)) x := rfl
  rw [i2cSelect] at hop
  rw [htake]
  rcases hh : i2cHit (ci5 s.i2c.first s.i2c.prevScl s.i2c.prevSda x) with _ | _ | _ | _ | _ <;>
    rw [hh] at hop
  case none => exact i2cStep_of_holdsEpilogue hlong hop (.inr (.inr rfl))
  case some.baseline => exact i2cStep_of_holdsEpilogue hlong hop (.inl rfl)
  case some.start =>
    cases ha : s.i2c.active <;> simp only [ha, if_true, Bool.false_eq_true, if_false] at hop
    case false =>
      rw [i2cStep_of_not_holdsEpilogue hlong hop (by simp) (f := fun _ t => .ok t.startCond) rfl]
      simp [onI2c, I2c.takeCond, ha]
    case true =>
      rw [i2cStep_of_not_holdsEpilogue hlong hop (by simp) (f := fun p t => t.rstartCond p) rfl]
      simp [onI2c, I2c.takeCond, ha]
  case some.stop =>
    cases ha : s.i2c.active <;> simp only [ha, if_true, Bool.false_eq_true, if_false] at hop
    case false =>
      rw [i2cStep_of_holdsEpilogue hlong hop (.inr (.inl rfl))]
      simp [exec, execI2cStrayStop, onI2c, I2c.takeCond, ha]
    case true =>
      rw [i2cStep_of_not_holdsEpilogue hlong hop (by simp) (f := fun p t => t.stopCond p) rfl]
      simp [onI2c, I2c.takeCond, ha]
  case some.bit =>
    cases ha : s.i2c.active <;> simp only [ha, if_true, Bool.false_eq_true, if_false] at hop
    case false =>
      rw [i2cStep_of_holdsEpilogue hlong hop (.inr (.inr rfl))]
      simp [exec, execI2cIdleStep, onI2c, I2c.takeCond, ha]
    case true =>
      by_cases hc : 8 ≤ s.i2c.bitcnt
      case pos =>
        simp only [hc, decide_true, if_true] at hop
        rw [i2cStep_of_not_holdsEpilogue hlong hop (by simp) (f := fun _ t => t.ackBit x) rfl]
        simp [onI2c, I2c.takeCond, ha, hc]
      case neg =>
        simp only [hc, decide_false, Bool.false_eq_true, if_false] at hop
        rw [i2cStep_of_not_holdsEpilogue hlong hop (by simp) (f := fun p t => t.bit p x) rfl]
        simp [onI2c, I2c.takeCond, ha, hc]

end Sys2Proof.Machine

open Sys2Proof Sys2Proof.Machine

/-- Settles O15: a step of a stack is a function of that stack and its parameters. -/
theorem stacksShareNothing : Obligations.StacksShareNothing := by
  unfold Obligations.StacksShareNothing
  constructor
  · intro s u t x r q hs hu hcfg hspi hst
    simp only [step, hs, takeInput, spiStep_eq_onSpi, onSpi_eq_next] at hst
    obtain ⟨v, hv, rfl⟩ := hst
    refine ⟨rfl, rfl, rfl, { u with port := q, spi := v }, ?_, rfl⟩
    simp only [step, hu, takeInput, spiStep_eq_onSpi, onSpi_eq_next]
    exact ⟨v, by rw [hcfg, hspi, hv], rfl⟩
  · intro s u t x r q hs hu hcfg hi2c hst
    simp only [step, hs, takeInput, i2cStep_eq_onI2c, onI2c_eq_next] at hst
    obtain ⟨v, hv, rfl⟩ := hst
    refine ⟨rfl, rfl, rfl, { u with port := q, i2c := v }, ?_, rfl⟩
    simp only [step, hu, takeInput, i2cStep_eq_onI2c, onI2c_eq_next]
    exact ⟨v, by rw [hcfg, hi2c, hv], rfl⟩

end

/-! ## The events of a step have ordered spans (00_scope.md R11): what both stacks share

An operation runs on states whose events so far are those before the step, `base`, and then events
with ordered spans. That is one field of an invariant of the states inside a step, so each operation
has one lemma: it keeps that invariant. -/

section

namespace Sys2Proof.Machine

open Sys2Proof

/-- `out` is `base` and then only events with ordered spans. -/
def GrowsInOrder (base out : List OutEvent) : Prop :=
  ∃ es, out = base ++ es ∧ ∀ e ∈ es, e.span.ok

theorem GrowsInOrder.refl (base : List OutEvent) : GrowsInOrder base base :=
  ⟨[], by simp, by simp⟩

/-- Events with ordered spans may follow. -/
theorem GrowsInOrder.append {base out es : List OutEvent} (h : GrowsInOrder base out)
    (hes : ∀ e ∈ es, e.span.ok) : GrowsInOrder base (out ++ es) := by
  obtain ⟨es0, rfl, h0⟩ := h
  refine ⟨es0 ++ es, by simp, fun e he => ?_⟩
  rcases List.mem_append.mp he with he | he
  · exact h0 e he
  · exact hes e he

/-- One event with an ordered span may follow. -/
theorem GrowsInOrder.concat {base out : List OutEvent} (h : GrowsInOrder base out) {sp : Span}
    (hsp : sp.ok) (e : Event) : GrowsInOrder base (out ++ [⟨sp, e⟩]) :=
  h.append (by simpa using hsp)

/-- An earlier start leaves a span in order. -/
theorem OutEvent.boundBy_ok {e : OutEvent} (h : e.span.ok) (n : Nat) : (e.boundBy n).span.ok :=
  (min_le_left _ _).trans h

/-- The event port keeps spans in order, with the bound of 10_state.md R66 and without. -/
theorem GrowsInOrder.portEvents {base out : List OutEvent} (h : GrowsInOrder base out)
    (bound : Bool) (n : Nat) : GrowsInOrder base (portEvents bound n base out) := by
  obtain ⟨es, rfl, hes⟩ := h
  rw [portEvents_append]
  refine ⟨_, rfl, ?_⟩
  cases bound
  · exact hes
  · simpa using fun e he => OutEvent.boundBy_ok (hes e he) n

/-- What follows `base` has ordered spans. -/
theorem GrowsInOrder.drop_ok {base out : List OutEvent} (h : GrowsInOrder base out) :
    ∀ e ∈ out.drop base.length, e.span.ok := by
  obtain ⟨es, rfl, hes⟩ := h
  simpa using hes

/-- A record of a buffer in which `f` has changed one is a record from before or its change. -/
theorem getElem?_modify_eq_some {α : Type} {f : α → α} {l : List α} {i j : Nat} {a : α}
    (h : (l.modify i f)[j]? = some a) : ∃ b, l[j]? = some b ∧ (a = f b ∨ a = b) := by
  rw [List.getElem?_modify] at h
  obtain ⟨b, hb, rfl⟩ := Option.map_eq_some_iff.mp h
  refine ⟨b, hb, ?_⟩
  split
  · exact .inl rfl
  · exact .inr rfl

/-- What holds of every record, and is kept by `f`, holds after `f` has changed one. -/
theorem forall_mem_modify {α : Type} {P : α → Prop} {f : α → α} (hf : ∀ a, P a → P (f a))
    {l : List α} (hl : ∀ a ∈ l, P a) (i : Nat) : ∀ a ∈ l.modify i f, P a := by
  intro a ha
  obtain ⟨j, hj⟩ := List.mem_iff_getElem?.mp ha
  obtain ⟨b, hb, rfl | rfl⟩ := getElem?_modify_eq_some hj
  · exact hf b (hl b (List.mem_of_getElem? hb))
  · exact hl a (List.mem_of_getElem? hb)

/-- A byte that ends at sample `n`, or whose last bit starts there, ends no earlier
(41_byte_assembler.md R171). -/
theorem le_of_lastBitEnd {starts : List Nat} {lastEnd : Option Nat} {n stop : Nat}
    (hn : lastEnd.or starts.getLast? = some n) (h : lastBitEnd starts lastEnd = .ok stop) :
    n ≤ stop := by
  unfold lastBitEnd at h
  split at h
  · simp_all
  · next b a l hrev =>
    rw [run_bind_eq_ok] at h
    obtain ⟨w, -, h⟩ := h
    rw [← List.head?_reverse, hrev] at hn
    simp_all
    omega
  · next b hrev =>
    rw [← List.head?_reverse, hrev] at hn
    simp_all
    omega
  · simp at h

/-- The events of one lane of a byte in order. -/
theorem laneEvents_ok (lane : Lane) (v : Byte) (starts ends : List Nat) {start stop : Nat}
    (h : start ≤ stop) (tr : Bool) :
    ∀ e ∈ laneEvents lane v starts ends start stop tr, e.span.ok := by
  simp only [laneEvents, List.mem_cons, List.not_mem_nil, or_false]
  rintro e (rfl | rfl) <;> exact spanOf_ok h

/-- The events of a register byte's fields in order. -/
theorem fieldEvents_ok (f : RegFields) (reg : Nat) (d : Dir) (i : Nat) (x : Byte) {sp : Span}
    (h : sp.ok) : ∀ e ∈ fieldEvents f reg d i x sp, e.span.ok := by
  simp only [fieldEvents, List.mem_flatMap]
  rintro e ⟨r, -, he⟩
  split at he <;> simp only [List.mem_cons, List.not_mem_nil, or_false] at he
  · rw [he]
    exact fieldSpan_ok h _ _
  · rcases he with rfl | rfl <;> exact fieldSpan_ok h _ _

end Sys2Proof.Machine

end

/-! ## The SPI stack emits ordered spans -/

section

namespace Sys2Proof.Machine

open Sys2Proof

/-- Inside an SPI step with an open transfer: the events so far, and what later events' spans are
made of. Weaker than `Spi.Inv`, and kept by every operation of a byte. -/
structure Spi.SpansOk (base : List OutEvent) (s : Spi) : Prop where
  grows : GrowsInOrder base s.out
  tStart_le : s.tStart ≤ s.n
  recs : ∀ r ∈ s.xfer, r.start ≤ s.n ∧ r.start ≤ r.stop
  field : s.fst = .hdr → s.fh = 0 ∨ s.fFieldStart ≤ s.n
  fStart : ∀ a ∈ s.fStart, a.ok true s.tStart s.n s.xfer.length = true
  closed : ∀ f ∈ s.closed, f.startOk s.tStart = true

/-- The byte in hand is the last record, at index `k`, and ends no earlier than this sample. -/
structure Spi.ByteOk (base : List OutEvent) (k : Nat) (s : Spi) : Prop
    extends Spi.SpansOk base s where
  last : k + 1 = s.xfer.length
  stop : ∀ r, s.xfer[k]? = some r → s.n ≤ r.stop

variable {p : SpiParams} {base : List OutEvent} {k : Nat} {s t : Spi}

/-! ### Events and records -/

theorem Spi.SpansOk.emit (h : s.SpansOk base) {sp : Span} (hsp : sp.ok) (e : Event) :
    (s.emit sp e).SpansOk base :=
  { h with grows := h.grows.concat hsp e }

theorem Spi.SpansOk.emitAll (h : s.SpansOk base) {es : List OutEvent}
    (hes : ∀ e ∈ es, e.span.ok) : (s.emitAll es).SpansOk base :=
  { h with grows := h.grows.append hes }

theorem Spi.ByteOk.emit (h : s.ByteOk base k) {sp : Span} (hsp : sp.ok) (e : Event) :
    (s.emit sp e).ByteOk base k :=
  { h with grows := h.grows.concat hsp e }

theorem Spi.ByteOk.diag (h : s.ByteOk base k) {sp : Span} (hsp : sp.ok) (c : DiagCode) (i : Nat) :
    (s.diag c sp i).ByteOk base k :=
  h.emit hsp _

theorem Spi.ByteOk.emitAll (h : s.ByteOk base k) {es : List OutEvent}
    (hes : ∀ e ∈ es, e.span.ok) : (s.emitAll es).ByteOk base k :=
  { h with grows := h.grows.append hes }

/-- The byte in hand starts no later than this sample and ends no earlier. -/
theorem Spi.ByteOk.read (h : s.ByteOk base k) {r : SpiByteRec} (hr : s.xfer[k]? = some r) :
    r.start ≤ s.n ∧ s.n ≤ r.stop :=
  ⟨(h.recs r (List.mem_of_getElem? hr)).1, h.stop r hr⟩

/-- A record's update that leaves its span. -/
theorem Spi.ByteOk.bufUpdate (h : s.ByteOk base k) {f : SpiByteRec → SpiByteRec}
    (hf : ∀ r, (f r).start = r.start ∧ (f r).stop = r.stop) {i : Nat}
    (ht : s.bufUpdate i f = .ok t) : t.ByteOk base k := by
  obtain ⟨-, rfl⟩ := (Spi.bufUpdate_eq_ok ..).mp ht
  refine { h with recs := ?_, fStart := ?_, last := ?_, stop := ?_ }
  · exact forall_mem_modify (fun r hr => by rw [(hf r).1, (hf r).2]; exact hr) h.recs i
  · simpa using h.fStart
  · simpa using h.last
  · intro r hr
    obtain ⟨b, hb, rfl | rfl⟩ := getElem?_modify_eq_some hr
    · rw [(hf b).2]
      exact h.stop b hb
    · exact h.stop r hb

/-! ### The framer (43_command_framer.md) -/

/-- A closed frame ends at the byte in hand, so after its start. -/
theorem Spi.ByteOk.closeFrame (h : s.ByteOk base k) (ht : s.closeFrame k = .ok t) :
    t.ByteOk base k := by
  obtain ⟨d, a, -, ha, rfl⟩ := (Spi.closeFrame_eq_ok ..).mp ht
  have hstart := h.fStart a ha
  have hlast := h.last
  refine { h with field := by simp, fStart := by simp, closed := ?_ }
  intro f hf
  rcases List.mem_append.mp hf with hf | hf
  · exact h.closed f hf
  · rw [List.mem_singleton.mp hf]
    rcases a with i | r
    · simp only [FrameStart.ok, Bool.true_and, decide_eq_true_eq] at hstart
      simp only [FrameInfo.startOk, decide_eq_true_eq]
      omega
    · simp_all [FrameStart.ok, FrameInfo.startOk]

theorem Spi.ByteOk.closeFrame_if (h : s.ByteOk base k) {c : Prop} [Decidable c]
    (ht : (if c then s.closeFrame k else .ok s) = .ok t) : t.ByteOk base k := by
  split at ht
  · exact h.closeFrame ht
  · cases ht
    exact h

theorem Spi.ByteOk.tpmTagDone (h : s.ByteOk base k) {fspan : Span} (hsp : fspan.ok) :
    (s.tpmTagDone p fspan).ByteOk base k := by
  have h1 : Spi.ByteOk base k { s with tag := s.facc.setWidth 16 } := { h with }
  simp only [Spi.tpmTagDone]
  split
  · exact h1.emit hsp _
  · exact h1.diag hsp _ _

theorem Spi.ByteOk.tpmLenDone (h : s.ByteOk base k) {fspan : Span} (hsp : fspan.ok) :
    (s.tpmLenDone fspan).ByteOk base k := by
  have h1 : Spi.ByteOk base k ({ s with len := s.facc }.emit fspan
      (.field .tpm .length s.facc.toNat none)) := { h with grows := h.grows.concat hsp _ }
  simp only [Spi.tpmLenDone]
  split
  · exact { h1 with grows := h1.grows.concat hsp _ }
  · exact h1

theorem Spi.ByteOk.tpmCodeDone (h : s.ByteOk base k) {d : Dir} {fspan : Span} (hsp : fspan.ok)
    (ht : s.tpmCodeDone p k d fspan = .ok t) : t.ByteOk base k := by
  simp only [Spi.tpmCodeDone, run_bind_eq_ok] at ht
  obtain ⟨size, -, ht⟩ := ht
  split at ht
  · refine Spi.ByteOk.closeFrame ?_ ht
    exact { h with grows := h.grows.concat hsp _ }
  · cases ht
    exact { h with grows := h.grows.concat hsp _, field := by simp }

/-- The field a header byte completes, reported over the field's span. -/
theorem Spi.ByteOk.fieldDone (h : s.ByteOk base k) {d : Dir} {fspan : Span} (hsp : fspan.ok)
    (ht : s.fieldDone p k d fspan = .ok t) : t.ByteOk base k := by
  unfold Spi.fieldDone at ht
  split at ht
  · cases ht
    exact h.tpmTagDone hsp
  · split at ht
    · cases ht
      exact h.tpmLenDone hsp
    · split at ht
      · exact h.tpmCodeDone hsp ht
      · cases ht
        exact h

@[simp] theorem Spi.beginField_n (start : Nat) (s : Spi) : (s.beginField start).n = s.n := by
  unfold Spi.beginField
  split <;> rfl

/-- The header field in progress starts no later than this sample once its first byte is in. -/
theorem Spi.beginField_fFieldStart_le {start : Nat} (hstart : start ≤ s.n)
    (hf : s.fh = 0 ∨ s.fFieldStart ≤ s.n) :
    (s.beginField start).fFieldStart ≤ (s.beginField start).n := by
  rw [Spi.beginField_n]
  unfold Spi.beginField
  split
  · exact hstart
  · omega

/-- The start of a field leaves everything but the field's own registers. -/
theorem Spi.ByteOk.beginField (h : s.ByteOk base k) {start : Nat} (hstart : start ≤ s.n) :
    (s.beginField start).ByteOk base k := by
  unfold Spi.beginField
  split
  · exact { h with field := fun _ => .inr hstart }
  · exact h

theorem Spi.ByteOk.tpmHdr (h : s.ByteOk base k) {x : Byte} {d : Dir}
    (hf : s.fh = 0 ∨ s.fFieldStart ≤ s.n) (ht : s.tpmHdr p k x d = .ok t) : t.ByteOk base k := by
  simp only [Spi.tpmHdr, run_bind_eq_ok] at ht
  obtain ⟨u, hu, r, hr, ht⟩ := ht
  have hu1 : u.ByteOk base k := h.bufUpdate (by simp) hu
  have hf1 : u.fh = 0 ∨ u.fFieldStart ≤ u.n := by
    obtain ⟨-, rfl⟩ := (Spi.bufUpdate_eq_ok ..).mp hu
    exact hf
  obtain ⟨hstart, hstop⟩ := hu1.read ((Spi.bufRead_eq_ok ..).mp hr)
  have hv := hu1.beginField hstart
  have hle := Spi.beginField_fFieldStart_le hstart hf1
  rw [← Spi.beginField_n r.start u] at hstop
  generalize u.beginField r.start = v at ht hv hle hstop
  refine Spi.ByteOk.fieldDone ?_ (spanOf_ok (hle.trans hstop)) ht
  exact { hv with field := fun _ => .inr hle }

theorem Spi.ByteOk.tpmPayload (h : s.ByteOk base k) {x : Byte} {d : Dir}
    (ht : s.tpmPayload k x d = .ok t) : t.ByteOk base k := by
  simp only [Spi.tpmPayload, run_bind_eq_ok] at ht
  obtain ⟨u, hu, r, hr, ht⟩ := ht
  have hu1 : u.ByteOk base k := h.bufUpdate (by simp) hu
  obtain ⟨hstart, hstop⟩ := hu1.read ((Spi.bufRead_eq_ok ..).mp hr)
  refine Spi.ByteOk.closeFrame_if ?_ ht
  exact { hu1 with grows := hu1.grows.concat (spanOf_ok (hstart.trans hstop)) _ }

/-- A frame that starts at the byte in hand. -/
theorem Spi.ByteOk.tpmStart (h : s.ByteOk base k) : (s.tpmStart k).ByteOk base k := by
  refine { h with field := fun _ => .inl rfl, fStart := ?_ }
  rintro _ ⟨⟩
  exact decide_eq_true (Nat.lt_of_succ_le h.last.le)

theorem Spi.ByteOk.framerByte (h : s.ByteOk base k) {x : Byte} {d : Dir}
    (ht : s.framerByte p k x d = .ok t) : t.ByteOk base k := by
  unfold Spi.framerByte at ht
  split at ht
  · exact h.tpmStart.tpmHdr (.inl rfl) ht
  · next hst => exact h.tpmHdr (h.field hst) ht
  · split at ht
    · exact h.tpmPayload ht
    · cases ht
      exact h

/-! ### The link header (42_link_header.md) -/

theorem Spi.ByteOk.hdr0 (h : s.ByteOk base k) (b : Byte) {start stop : Nat} (hle : start ≤ stop) :
    (s.hdr0 b start stop).ByteOk base k := by
  have hsub := subSpan_ok (spanOf_ok hle)
  exact { h with grows := (h.grows.concat (hsub 0 1) _).concat (hsub 1 7) _ }

theorem Spi.ByteOk.hdr1 (h : s.ByteOk base k) (b : Byte) {start stop : Nat} (hle : start ≤ stop) :
    (s.hdr1 b start stop).ByteOk base k :=
  { h with grows := h.grows.concat (spanOf_ok hle) _ }

theorem Spi.ByteOk.ackFlag (h : s.ByteOk base k) (b : Byte) {start stop : Nat}
    (hle : start ≤ stop) : (s.ackFlag p b start stop).ByteOk base k := by
  unfold Spi.ackFlag
  split
  · exact { h with grows := h.grows.concat (subSpan_ok (spanOf_ok hle) _ 1) _ }
  · exact h

theorem Spi.ByteOk.takeReg (h : s.ByteOk base k) (reg : BitVec 16) {sp : Span} (hsp : sp.ok) :
    (s.takeReg p reg sp).ByteOk base k := by
  simp only [Spi.takeReg]
  split <;> exact { h with grows := h.grows.concat hsp _ }

theorem Spi.ByteOk.hdr3 (h : s.ByteOk base k) {b : Byte} {miso : Option Byte} {start stop : Nat}
    (hle : start ≤ stop) (hreg : s.hdrB2Start ≤ stop) (ht : s.hdr3 p b miso start stop = .ok t) :
    t.ByteOk base k := by
  simp only [Spi.hdr3, run_bind_eq_ok] at ht
  obtain ⟨hi, -, b2, hb2, ht⟩ := ht
  have h1 := h.takeReg (p := p) (joinLow (highByte hi) b) (spanOf_ok hreg)
  have hb2ok := (h1.recs b2 (List.mem_of_getElem? ((Spi.bufRead_eq_ok ..).mp hb2))).2
  have h2 := h1.emit (subSpan_ok (spanOf_ok hb2ok) 0 4)
    (.hdr .locality ((joinLow (highByte hi) b).extractLsb' 12 4).toNat none)
  cases ht
  split
  · exact { h2.ackFlag (p := p) _ hle with }
  · exact { h2 with }

theorem Spi.ByteOk.excessByte (h : s.ByteOk base k) (ht : s.excessByte k = .ok t) :
    t.ByteOk base k := by
  simp only [Spi.excessByte, run_bind_eq_ok] at ht
  obtain ⟨i, -, u, hu, r, hr, ht⟩ := ht
  have hu1 : u.ByteOk base k := h.bufUpdate (by simp) hu
  obtain ⟨hstart, hstop⟩ := hu1.read ((Spi.bufRead_eq_ok ..).mp hr)
  cases ht
  exact hu1.diag (spanOf_ok (hstart.trans hstop)) _ _

theorem Spi.ByteOk.dataByte (h : s.ByteOk base k) {v : Option Byte}
    (ht : s.dataByte p k v = .ok t) : t.ByteOk base k := by
  simp only [Spi.dataByte, run_bind_eq_ok] at ht
  obtain ⟨i, -, d, -, u, hu, r, hr, ht⟩ := ht
  have hu1 : u.ByteOk base k := h.bufUpdate (by simp) hu
  obtain ⟨hstart, hstop⟩ := hu1.read ((Spi.bufRead_eq_ok ..).mp hr)
  have hsp := spanOf_ok (hstart.trans hstop)
  split at ht
  · next x reg _ =>
    have h2 := hu1.emit hsp (.regdata reg.toNat d i x)
    split at ht
    · exact h2.framerByte ht
    · cases ht
      exact h2.emitAll (fieldEvents_ok _ _ _ _ _ hsp)
  · cases ht
    exact hu1

theorem Spi.ByteOk.laterByte (h : s.ByteOk base k) {r : SpiByteRec}
    (ht : s.laterByte p r k = .ok t) : t.ByteOk base k := by
  simp only [Spi.laterByte, run_bind_eq_ok] at ht
  obtain ⟨i, -, d, -, c, -, ht⟩ := ht
  split at ht
  · exact h.excessByte ht
  · exact h.dataByte ht

/-- The header decoder on the byte in hand. Byte 3 reports the register from the start of byte 2
(42_link_header.md R203), which `hb2` places. -/
theorem Spi.ByteOk.headerByte {r : SpiByteRec} (h : s.ByteOk base s.pos)
    (hle : r.start ≤ r.stop) (hn : s.n ≤ r.stop)
    (hb2 : p.haveMosi = true → s.pos = 3 → s.hdrB2Start ≤ s.n) (ht : s.headerByte p r = .ok t) :
    t.ByteOk base s.pos := by
  have h1 : Spi.ByteOk base s.pos { s with pos := s.pos + 1 } := { h with }
  simp only [Spi.headerByte] at ht
  split at ht
  · exact h1.bufUpdate (by simp) ht
  · next hmosi =>
    rw [run_bind_eq_ok] at ht
    obtain ⟨b, -, ht⟩ := ht
    split at ht
    · cases ht
      exact h1.hdr0 b hle
    · cases ht
      exact h1.hdr1 b hle
    · cases ht
      exact { h1 with }
    · next hpos => exact h1.hdr3 hle ((hb2 (by simpa using hmosi) hpos).trans hn) ht
    · exact h1.laterByte ht

end Sys2Proof.Machine

end

/-! ## The SPI stack: bytes, the aggregator pass and the step -/

section

namespace Sys2Proof.Machine

open Sys2Proof

variable {p : SpiParams} {base : List OutEvent} {k : Nat} {s t : Spi}

/-! ### The byte assembler (41_byte_assembler.md) -/

/-- Ready to complete a byte: besides the spans, the pending bits start by this sample, and the header
decoder's position is the next record's index (42_link_header.md R209). -/
structure Spi.ReadyOk (p : SpiParams) (base : List OutEvent) (s : Spi) : Prop
    extends Spi.SpansOk base s where
  bits : ∀ b ∈ s.bitStarts, b ≤ s.n
  pos_eq : s.pos = s.xfer.length
  reg : p.haveMosi = true → s.pos = 3 → s.hdrB2Start ≤ s.n

theorem Spi.ReadyOk.emitAll (h : s.ReadyOk p base) {es : List OutEvent}
    (hes : ∀ e ∈ es, e.span.ok) : (s.emitAll es).ReadyOk p base :=
  { h with grows := h.grows.append hes }

/-- A record appended at this sample is the byte in hand. -/
theorem Spi.ReadyOk.append (h : s.ReadyOk p base) {r : SpiByteRec} (hstart : r.start ≤ s.n)
    (hstop : s.n ≤ r.stop) : Spi.ByteOk base s.pos { s with xfer := s.xfer ++ [r] } := by
  refine { h with recs := ?_, fStart := ?_, last := by simp [h.pos_eq], stop := ?_ }
  · intro q hq
    rcases List.mem_append.mp hq with hq | hq
    · exact h.recs q hq
    · rw [List.mem_singleton.mp hq]
      exact ⟨hstart, hstart.trans hstop⟩
  · intro a ha
    have hok := h.fStart a ha
    rcases a with i | q
    · simp only [FrameStart.ok, Bool.true_and, decide_eq_true_eq, List.length_append,
        List.length_singleton] at hok ⊢
      omega
    · exact hok
  · intro q hq
    rw [h.pos_eq] at hq
    simp only [List.getElem?_concat_length, Option.some.injEq] at hq
    rw [← hq]
    exact hstop

/-- A byte that ends at this sample, or whose last bit starts here (41_byte_assembler.md R173 to
R175). -/
theorem Spi.ReadyOk.completeByte (h : s.ReadyOk p base) {tr : Bool} {lastEnd : Option Nat}
    (hend : lastEnd.or s.bitStarts.getLast? = some s.n)
    (ht : s.completeByte p tr lastEnd = .ok t) : t.SpansOk base := by
  obtain ⟨start, stop, ends, r, u, hpend, hr, hu, ht⟩ := (Spi.completeByte_eq_ok ..).mp ht
  obtain ⟨hhead, -, -, hstop, -⟩ := (pendingByte_eq_ok ..).mp hpend
  have hstart : start ≤ s.n := h.bits start (List.mem_of_mem_head? hhead)
  have hn : s.n ≤ stop := le_of_lastBitEnd hend hstop
  have hlane := fun l v => laneEvents_ok l v s.bitStarts ends (hstart.trans hn) tr
  have hv := h.emitAll (es := (if p.haveMosi then laneEvents .mosi
      (leftAlign s.accMosi s.bitcnt) s.bitStarts ends start stop tr else [])
    ++ if p.haveMiso then laneEvents .miso (leftAlign s.accMiso s.bitcnt) s.bitStarts ends start
      stop tr else []) (by
    intro e he
    rcases List.mem_append.mp he with he | he <;> split at he
    · exact hlane _ _ e he
    · cases he
    · exact hlane _ _ e he
    · cases he)
  have hrs : r.start = start ∧ r.stop = stop := by simp [hr]
  rw [← Spi.emitAll_n, ← hrs.1] at hstart
  rw [← Spi.emitAll_n, ← hrs.2] at hn
  generalize s.emitAll _ = v at hu hv hstart hn
  obtain ⟨-, rfl⟩ := (Spi.bufAppend_eq_ok ..).mp hu
  refine (Spi.ByteOk.headerByte ?_ ?_ ?_ ?_ ht).toSpansOk
  · exact { hv.append hstart hn with }
  · exact hstart.trans hn
  · exact hn
  · exact hv.reg

/-- One more bit at this sample. -/
theorem Spi.ReadyOk.shiftBits (h : s.ReadyOk p base) (x : SpiLevels) :
    (s.shiftBits p x).ReadyOk p base := by
  refine { h with bits := ?_ }
  intro b hb
  rcases List.mem_append.mp hb with hb | hb
  · exact h.bits b hb
  · exact (List.mem_singleton.mp hb).le

/-- A data bit, and the byte it completes. -/
theorem Spi.ReadyOk.sckSample (h : s.ReadyOk p base) {x : SpiLevels}
    (ht : s.sckSample p x = .ok t) : t.SpansOk base := by
  simp only [Spi.sckSample] at ht
  split at ht
  · exact (h.shiftBits x).completeByte (by simp [Spi.shiftBits]) ht
  · cases ht
    exact (h.shiftBits x).toSpansOk

/-- The byte that a chip-select deassertion cuts. -/
theorem Spi.ReadyOk.cutByte (h : s.ReadyOk p base) (ht : s.cutByte p = .ok t) :
    t.SpansOk base := by
  unfold Spi.cutByte at ht
  split at ht
  · simp only [run_bind_eq_ok, need_eq_ok] at ht
    obtain ⟨b0, hb0, ht⟩ := ht
    have hle := h.bits b0 (List.mem_of_mem_head? hb0)
    refine Spi.ReadyOk.completeByte ?_ (by simp) ht
    exact { h with grows := h.grows.concat (spanOf_ok hle) _ }
  · cases ht
    exact h.toSpansOk

/-! ### The aggregator pass (45_aggregator.md R340 to R345) -/

theorem Spi.SpansOk.headerCheck (h : s.SpansOk base) (ht : s.headerCheck p = .ok t) :
    t.SpansOk base := by
  have hpass := spanOf_ok h.tStart_le
  simp only [Spi.headerCheck] at ht
  split at ht
  · cases ht
    exact h
  · split at ht
    · cases ht
      exact h.emit hpass _
    · rw [run_bind_eq_ok] at ht
      obtain ⟨c, -, ht⟩ := ht
      cases ht
      split
      · exact h.emit hpass _
      · exact h

/-- A closed frame's summary: its start is an index up to its last, or a sample before the transfer. -/
theorem cmdSumEvent_ok (p : SpiParams) {t0 : Nat} {w : Rat} (hw : 0 ≤ w) {f : FrameInfo}
    (hf : f.startOk t0 = true) : (cmdSumEvent p t0 w f).span.ok := by
  unfold FrameInfo.startOk at hf
  simp only [cmdSumEvent, Span.ok]
  split at hf
  · next i hi =>
    rw [hi]
    exact evenPlace_le hw (of_decide_eq_true hf)
  · next r hr =>
    rw [hr]
    have hlast : 0 ≤ ((f.last : Rat) + 1) * w := by positivity
    exact (of_decide_eq_true hf).trans (le_add_of_nonneg_right hlast)

theorem Spi.SpansOk.summaries (h : s.SpansOk base) (ht : s.summaries p = .ok t) :
    t.SpansOk base := by
  unfold Spi.summaries at ht
  split at ht
  · cases ht
    exact h
  · next w hw =>
    rw [run_bind_eq_ok] at ht
    obtain ⟨u, hu, ht⟩ := ht
    cases ht
    have hu1 : u.SpansOk base := (h.emit (spanOf_ok h.tStart_le) _).headerCheck hu
    refine hu1.emitAll ?_
    simp only [List.mem_map]
    rintro e ⟨f, hf, rfl⟩
    exact cmdSumEvent_ok p (evenWidth_nonneg hw h.tStart_le) (hu1.closed f hf)

/-- The flag of a frame still open runs from the frame's start to the end of the transfer
(45_aggregator.md R344). -/
theorem Spi.SpansOk.frameCarry (h : s.SpansOk base) (ht : s.frameCarry = .ok t) :
    GrowsInOrder base t.out := by
  unfold Spi.frameCarry at ht
  split at ht
  · cases ht
    exact h.grows
  · have flagged : ∀ (r : Rat) (e : Event), r ≤ s.n →
        GrowsInOrder base (s.out ++ [⟨⟨r, s.n⟩, e⟩]) := fun r e hr => h.grows.concat hr e
    rcases hs : s.fStart with _ | (i | r) <;>
      simp only [hs, run_bind_eq_ok, need_eq_ok, Except.ok.injEq, exists_eq_left'] at ht
    case none =>
      split at ht <;> cases ht
      exact h.grows
    case some.idx =>
      obtain ⟨w, hw, ht⟩ := ht
      have hi : i < s.xfer.length := of_decide_eq_true (h.fStart _ hs)
      split at ht <;> cases ht
      · exact flagged _ _ (evenStart_le hw h.tStart_le hi.le)
      · exact h.grows
    case some.at =>
      have hr := h.fStart _ hs
      simp only [FrameStart.ok, Bool.and_eq_true, decide_eq_true_eq] at hr
      split at ht <;> cases ht
      · exact flagged r _ hr.1
      · exact h.grows

theorem Spi.SpansOk.aggregate (h : s.SpansOk base) (ht : s.aggregate p = .ok t) :
    GrowsInOrder base t.out := by
  simp only [Spi.aggregate, run_bind_eq_ok] at ht
  obtain ⟨u, hu, v, hv, ht⟩ := ht
  have hgrows := (h.summaries hu).frameCarry hv
  cases ht
  exact hgrows

/-! ### The samplers and the step (40_sampler.md R130 to R134) -/

/-- A sound stack with an open transfer is ready to complete a byte. -/
theorem Spi.Inv.readyOk (h : s.Inv p) (hact : s.active = true) : s.ReadyOk p s.out := by
  obtain ⟨-, ⟨-, -, hbits⟩, -, hhdr, ⟨htStart, hrecs⟩, hframer, ⟨hfStart, hclosed⟩, -⟩ := h
  obtain ⟨hpos, -, -, -, -, -, -, -, -, -, hb2, -, -⟩ := hhdr
  obtain ⟨-, -, -, -, -, hfield⟩ := hframer
  refine
    { grows := .refl _
      tStart_le := htStart
      recs := fun r hr => ?_
      field := fun hst => .inr (hfield (by simp [hst])).1.le
      fStart := fun a ha => hact ▸ hfStart a ha
      closed := fun f hf => (hclosed f hf).2.2.2
      bits := fun b hb => (hbits b hb).2.le
      pos_eq := hpos
      reg := fun hmosi h3 => ?_ }
  · obtain ⟨-, hlt, hn⟩ := hrecs r hr
    exact ⟨hn.le, hlt.le⟩
  · have hlen : 2 < s.xfer.length := by omega
    have hr := List.getElem?_eq_getElem hlen
    rw [hb2 hmosi _ hr]
    exact (hrecs _ (List.mem_of_getElem? hr)).2.2.le

/-- A stack with pending bits has an open transfer. -/
theorem Spi.Inv.active_of_bitcnt_pos (h : s.Inv p) (hb : 0 < s.bitcnt) : s.active = true := by
  obtain ⟨-, ⟨hcnt, -, -⟩, -, -, -, -, -, ⟨-, -, hidle⟩⟩ := h
  by_contra hact
  have := (hidle (by simpa using hact)).1
  simp [this] at hcnt
  omega

/-- A data bit of a sound stack. -/
theorem Spi.Inv.sckSample (h : s.Inv p) {x : SpiLevels} (ht : s.sckSample p x = .ok t) :
    GrowsInOrder s.out t.out := by
  by_cases hb : 0 < s.bitcnt
  · exact ((h.readyOk (h.active_of_bitcnt_pos hb)).sckSample ht).grows
  · have h0 : (s.shiftBits p x).bitcnt ≠ 8 := by
      rw [Spi.shiftBits_bitcnt]
      omega
    simp only [Spi.sckSample, h0, if_false] at ht
    cases ht
    exact .refl _

/-- The end of a transfer of a sound stack. -/
theorem Spi.Inv.csDeassert (h : s.Inv p) (ht : s.csDeassert p = .ok t) :
    GrowsInOrder s.out t.out := by
  unfold Spi.csDeassert at ht
  split at ht
  · next hact =>
    simp only [run_bind_eq_ok] at ht
    obtain ⟨u, hu, v, hv, ht⟩ := ht
    have hgrows := (((h.readyOk hact).cutByte hu).emit (pointSpan_ok _) _).aggregate hv
    cases ht
    exact hgrows
  · cases ht
    exact .refl _

/-- A transfer opens with one point event. -/
theorem Spi.csAssert_grows (s : Spi) : GrowsInOrder s.out s.csAssert.out :=
  (GrowsInOrder.refl s.out).concat (pointSpan_ok _) _

/-- The first bit of a transfer completes no byte. -/
theorem Spi.sckSample_csAssert_out {x : SpiLevels} (ht : s.csAssert.sckSample p x = .ok t) :
    t.out = s.csAssert.out := by
  have h0 : (s.csAssert.shiftBits p x).bitcnt ≠ 8 := by
    simp [Spi.csAssert]
  simp only [Spi.sckSample, h0, if_false] at ht
  cases ht
  rfl

/-- The conditions that hold of a sample: the first sample, a deassertion, or an assertion and an edge,
of which either may be missing (30_encoding.md R92, R93). -/
theorem spiHits_cases (first prevAsserted : Bool) (prevSck : Bit) (x : SpiLevels) :
    spiHits (cs5 first prevAsserted prevSck x) ∈
      [[.baseline], [.csDeassert], [], [.csAssert], [.sckSample], [.sckSampleF],
        [.csAssert, .sckSample], [.csAssert, .sckSampleF]] := by
  rcases x with ⟨sck, mosi, miso, asserted⟩
  revert first prevAsserted prevSck sck mosi miso asserted
  decide

/-- One row alone on a sound stack emits ordered spans. -/
theorem Spi.Inv.doRow (h : s.Inv p) {x : SpiLevels} {r : SpiRow}
    (ht : s.doRow p x r = .ok t) : GrowsInOrder s.out t.out := by
  cases r with
  | baseline =>
    cases ht
    unfold Spi.baseline
    split
    · exact Spi.csAssert_grows _
    · exact .refl _
  | csDeassert => exact h.csDeassert ht
  | csAssert =>
    cases ht
    exact Spi.csAssert_grows s
  | sckSample => exact h.sckSample ht
  | sckSampleF => exact h.sckSample ht

theorem Spi.doRows_singleton (p : SpiParams) (x : SpiLevels) (r : SpiRow) (s : Spi) :
    Spi.doRows p x [r] s = s.doRow p x r := by
  simp only [Spi.doRows]
  cases s.doRow p x r <;> rfl

/-- What can be left of a list of at most two. -/
theorem filter_pair_cases {α : Type} (q : α → Bool) (a b : α) :
    [a, b].filter q = [] ∨ (∃ r, [a, b].filter q = [r]) ∨ [a, b].filter q = [a, b] := by
  cases ha : q a <;> cases hb : q b <;> simp [ha, hb]

/-- The rows a sample selects: none, or one, or an assertion and an edge. -/
theorem Spi.rowsFor_cases (p : SpiParams) (x : SpiLevels) (s : Spi) :
    s.rowsFor p x = [] ∨ (∃ r, s.rowsFor p x = [r])
      ∨ s.rowsFor p x = [.csAssert, .sckSample] ∨ s.rowsFor p x = [.csAssert, .sckSampleF] := by
  have one : ∀ r : SpiRow, [r].filter (SpiRow.enabled p) = []
      ∨ ∃ q, [r].filter (SpiRow.enabled p) = [q] := fun r => by
    cases hr : r.enabled p <;> simp [hr]
  have hhits := spiHits_cases s.first s.prevAsserted s.prevSck x
  unfold Spi.rowsFor
  simp only [List.mem_cons, List.not_mem_nil, or_false] at hhits
  rcases hhits with h | h | h | h | h | h | h | h <;> rw [h]
  case inr.inr.inl => exact .inl rfl
  case inr.inr.inr.inr.inr.inr.inl =>
    exact (filter_pair_cases _ _ _).imp_right (.imp_right .inl)
  case inr.inr.inr.inr.inr.inr.inr =>
    exact (filter_pair_cases _ _ _).imp_right (.imp_right .inr)
  all_goals exact (one _).imp_right .inl

/-- A step's rows on a sound stack emit ordered spans. -/
theorem Spi.Inv.doRows (h : s.Inv p) {x : SpiLevels}
    (ht : Spi.doRows p x (s.rowsFor p x) s = .ok t) : GrowsInOrder s.out t.out := by
  have hassert : ∀ r, s.csAssert.doRow p x r = s.csAssert.sckSample p x →
      Spi.doRows p x [.csAssert, r] s = .ok t → GrowsInOrder s.out t.out := fun r hr hs => by
    rw [Spi.doRows, Spi.doRow, run_bind_eq_ok] at hs
    obtain ⟨u, hu, hs⟩ := hs
    cases hu
    rw [Spi.doRows_singleton, hr] at hs
    rw [Spi.sckSample_csAssert_out hs]
    exact Spi.csAssert_grows s
  rcases s.rowsFor_cases p x with hr | ⟨r, hr⟩ | hr | hr <;> rw [hr] at ht
  · cases ht
    exact .refl _
  · rw [Spi.doRows_singleton] at ht
    exact h.doRow ht
  · exact hassert _ rfl ht
  · exact hassert _ rfl ht

/-- An SPI step from a sound stack emits ordered spans. -/
theorem Spi.Inv.takeSample (h : s.Inv p) {x : SpiSample} (ht : s.takeSample p x = .ok t) :
    GrowsInOrder s.out t.out := by
  unfold Spi.takeSample at ht
  split at ht
  · split at ht
    · cases ht
    · simp only [Spi.finish, run_bind_eq_ok] at ht
      obtain ⟨u, hu, ht⟩ := ht
      have hgrows := h.doRows hu
      cases ht
      exact hgrows.portEvents _ _
  · cases ht

end Sys2Proof.Machine

end

/-! ## The I2C stack emits ordered spans -/

section

namespace Sys2Proof.Machine

open Sys2Proof

/-- Inside an I2C step: the events so far, and what later events' spans are made of. Weaker than
`I2c.Inv`, and kept by every operation of a byte. -/
structure I2c.SpansOk (base : List OutEvent) (s : I2c) : Prop where
  grows : GrowsInOrder base s.out
  tStart_le : s.tStart ≤ s.n
  recs : ∀ r ∈ s.xfer, r.start ≤ s.n ∧ r.start ≤ r.stop
  dlFirst : ∀ f ∈ s.dl.dFirst, f < s.xfer.length
  dlLen : s.dl.dst = .len1 → s.dl.dLenStart ≤ s.n
  dlFcs : s.dl.dst = .fcs1 → s.dl.dFcsStart ≤ s.n
  apFirst : ∀ a ∈ s.ap.aFirst, a < s.xfer.length
  apLen : s.ap.ast = .len1 → s.ap.aLenStart ≤ s.n
  dlDone : ∀ d ∈ s.dlDone, d.first ≤ d.last
  apduDone : ∀ a ∈ s.apduDone, a.first ≤ a.last

/-- The byte in hand is the last record, at index `k`, and ends no earlier than this sample. -/
structure I2c.ByteOk (base : List OutEvent) (k : Nat) (s : I2c) : Prop
    extends I2c.SpansOk base s where
  last : k + 1 = s.xfer.length
  stop : ∀ r, s.xfer[k]? = some r → s.n ≤ r.stop

variable {p : I2cParams} {base : List OutEvent} {k : Nat} {s t : I2c}

/-! ### Events and records -/

theorem I2c.SpansOk.emit (h : s.SpansOk base) {sp : Span} (hsp : sp.ok) (e : Event) :
    (s.emit sp e).SpansOk base :=
  { h with grows := h.grows.concat hsp e }

theorem I2c.SpansOk.emitAll (h : s.SpansOk base) {es : List OutEvent}
    (hes : ∀ e ∈ es, e.span.ok) : (s.emitAll es).SpansOk base :=
  { h with grows := h.grows.append hes }

theorem I2c.ByteOk.emit (h : s.ByteOk base k) {sp : Span} (hsp : sp.ok) (e : Event) :
    (s.emit sp e).ByteOk base k :=
  { h with grows := h.grows.concat hsp e }

theorem I2c.ByteOk.emitAll (h : s.ByteOk base k) {es : List OutEvent}
    (hes : ∀ e ∈ es, e.span.ok) : (s.emitAll es).ByteOk base k :=
  { h with grows := h.grows.append hes }

/-- The byte in hand starts no later than this sample and ends no earlier. -/
theorem I2c.ByteOk.read (h : s.ByteOk base k) {r : I2cByteRec} (hr : s.bufRead k = .ok r) :
    r.start ≤ s.n ∧ s.n ≤ r.stop := by
  rw [I2c.bufRead_eq_ok] at hr
  exact ⟨(h.recs r (List.mem_of_getElem? hr)).1, h.stop r hr⟩

/-- The span of the byte in hand. -/
theorem I2c.ByteOk.recSpan_ok (h : s.ByteOk base k) {sp : Span} (hsp : s.recSpan k = .ok sp) :
    sp.ok := by
  simp only [I2c.recSpan, run_bind_eq_ok] at hsp
  obtain ⟨r, hr, hsp⟩ := hsp
  cases hsp
  exact spanOf_ok ((h.read hr).1.trans (h.read hr).2)

/-- The byte in hand as the first of a frame. -/
theorem I2c.ByteOk.lt (h : s.ByteOk base k) : ∀ f ∈ some k, f < s.xfer.length := by
  rintro _ ⟨⟩
  exact Nat.lt_of_succ_le h.last.le

/-- A record's update that leaves its span. -/
theorem I2c.ByteOk.bufUpdate (h : s.ByteOk base k) {f : I2cByteRec → I2cByteRec}
    (hf : ∀ r, (f r).start = r.start ∧ (f r).stop = r.stop) {i : Nat}
    (ht : s.bufUpdate i f = .ok t) : t.ByteOk base k := by
  obtain ⟨-, rfl⟩ := (I2c.bufUpdate_eq_ok ..).mp ht
  refine { h with
    recs := ?_
    dlFirst := by simpa using h.dlFirst
    apFirst := by simpa using h.apFirst
    last := by simpa using h.last
    stop := ?_ }
  · exact forall_mem_modify (fun r hr => by rw [(hf r).1, (hf r).2]; exact hr) h.recs i
  · intro r hr
    obtain ⟨b, hb, rfl | rfl⟩ := getElem?_modify_eq_some hr
    · rw [(hf b).2]
      exact h.stop b hb
    · exact h.stop r hb

/-! ### The ends of a datalink frame and of an APDU (44_datalink_apdu.md R296, R302) -/

/-- A frame ends at the last record, so after its first. -/
theorem I2c.SpansOk.dlFinish (h : s.SpansOk base) (hk : k + 1 = s.xfer.length) {d : Dir} {c : Bool}
    (ht : s.dlFinish k d c = .ok t) : t.SpansOk base := by
  obtain ⟨f, hf, rfl⟩ := (I2c.dlFinish_eq_ok ..).mp ht
  have hle : f ≤ k := Nat.le_of_lt_succ ((h.dlFirst f hf).trans_eq hk.symm)
  refine { h with dlDone := fun i hi => ?_ }
  rcases List.mem_append.mp hi with hi | hi
  · exact h.dlDone i hi
  · rw [List.mem_singleton.mp hi]
    exact hle

/-- An APDU ends at the last record, so after its first. -/
theorem I2c.SpansOk.apduFinish (h : s.SpansOk base) (hk : k + 1 = s.xfer.length) {d : Dir}
    {c : Bool} (ht : s.apduFinish k d c = .ok t) : t.SpansOk base := by
  obtain ⟨f, hf, rfl⟩ := (I2c.apduFinish_eq_ok ..).mp ht
  have hle : f ≤ k := Nat.le_of_lt_succ ((h.apFirst f hf).trans_eq hk.symm)
  refine { h with apLen := by simp, apduDone := fun i hi => ?_ }
  rcases List.mem_append.mp hi with hi | hi
  · exact h.apduDone i hi
  · rw [List.mem_singleton.mp hi]
    exact hle

theorem I2c.ByteOk.dlFinish (h : s.ByteOk base k) {d : Dir} {c : Bool}
    (ht : s.dlFinish k d c = .ok t) : t.ByteOk base k := by
  have h1 := h.toSpansOk.dlFinish h.last ht
  obtain ⟨f, -, rfl⟩ := (I2c.dlFinish_eq_ok ..).mp ht
  exact { h1 with last := h.last, stop := h.stop }

theorem I2c.ByteOk.apduFinish (h : s.ByteOk base k) {d : Dir} {c : Bool}
    (ht : s.apduFinish k d c = .ok t) : t.ByteOk base k := by
  have h1 := h.toSpansOk.apduFinish h.last ht
  obtain ⟨f, -, rfl⟩ := (I2c.apduFinish_eq_ok ..).mp ht
  exact { h1 with last := h.last, stop := h.stop }

/-! ### The APDU (44_datalink_apdu.md R298 to R302) -/

theorem I2c.ByteOk.apduCmd (h : s.ByteOk base k) {v : Byte} {d : Dir}
    (ht : s.apduCmd p k v d = .ok t) : t.ByteOk base k := by
  simp only [I2c.apduCmd, run_bind_eq_ok] at ht
  obtain ⟨sp, hsp, ht⟩ := ht
  cases ht
  have h1 : I2c.ByteOk base k
      { s with ap := { s.ap with aFirst := some k, cmd := v, ast := .param } } :=
    { h with apFirst := h.lt, apLen := by simp }
  split <;> exact h1.emit (h.recSpan_ok hsp) _

theorem I2c.ByteOk.apduParam (h : s.ByteOk base k) {v : Byte} (ht : s.apduParam k v = .ok t) :
    t.ByteOk base k := by
  simp only [I2c.apduParam, run_bind_eq_ok] at ht
  obtain ⟨sp, hsp, ht⟩ := ht
  cases ht
  exact { h with apLen := by simp, grows := h.grows.concat (h.recSpan_ok hsp) _ }

theorem I2c.ByteOk.apduLen0 (h : s.ByteOk base k) {v : Byte} (ht : s.apduLen0 k v = .ok t) :
    t.ByteOk base k := by
  simp only [I2c.apduLen0, run_bind_eq_ok] at ht
  obtain ⟨r, hr, ht⟩ := ht
  cases ht
  exact { h with apLen := fun _ => (h.read hr).1 }

/-- The length runs from its first byte, which `hst` places, to the byte in hand. -/
theorem I2c.ByteOk.apduLen1 (h : s.ByteOk base k) (hst : s.ap.ast = .len1) {v : Byte} {d : Dir}
    (ht : s.apduLen1 p k v d = .ok t) : t.ByteOk base k := by
  simp only [I2c.apduLen1, run_bind_eq_ok] at ht
  obtain ⟨r, hr, ht⟩ := ht
  have hsp := spanOf_ok ((h.apLen hst).trans (h.read hr).2)
  split at ht
  · refine I2c.ByteOk.apduFinish ?_ ht
    exact { h with grows := h.grows.concat hsp _ }
  · cases ht
    exact { h with apLen := by simp, grows := h.grows.concat hsp _ }

theorem I2c.ByteOk.apduData (h : s.ByteOk base k) {v : Byte} {d : Dir}
    (ht : s.apduData k v d = .ok t) : t.ByteOk base k := by
  simp only [I2c.apduData, run_bind_eq_ok] at ht
  obtain ⟨sp, hsp, arem, -, ht⟩ := ht
  have hgrows := h.grows.concat (h.recSpan_ok hsp) (.payload .apdu d s.ap.adata v false)
  split at ht
  · refine I2c.ByteOk.apduFinish ?_ ht
    exact { h with grows := hgrows }
  · cases ht
    exact { h with grows := hgrows }

theorem I2c.ByteOk.apduExcess (h : s.ByteOk base k) (ht : s.apduExcess k = .ok t) :
    t.ByteOk base k := by
  simp only [I2c.apduExcess, run_bind_eq_ok] at ht
  obtain ⟨sp, hsp, ht⟩ := ht
  cases ht
  exact h.emit (h.recSpan_ok hsp) _

theorem I2c.ByteOk.apduByte (h : s.ByteOk base k) {v : Byte} {d : Dir}
    (ht : s.apduByte p k v d = .ok t) : t.ByteOk base k := by
  unfold I2c.apduByte at ht
  cases hst : s.ap.ast <;> rw [hst] at ht
  case cmd => exact h.apduCmd ht
  case param => exact h.apduParam ht
  case len0 => exact h.apduLen0 ht
  case len1 => exact h.apduLen1 hst ht
  case data => exact h.apduData ht
  case done => exact h.apduExcess ht

/-! ### The datalink frame (44_datalink_apdu.md R280 to R297) -/

/-- The bit fields of a control byte in order. -/
theorem fctrEvents_ok (v : Byte) {sp : Span} (h : sp.ok) : ∀ e ∈ fctrEvents v sp, e.span.ok := by
  simp [fctrEvents, bitFieldEvent, fieldSpan_ok h]

theorem pctrEvents_ok (v : Byte) {sp : Span} (h : sp.ok) : ∀ e ∈ pctrEvents v sp, e.span.ok := by
  simp [pctrEvents, bitFieldEvent, fieldSpan_ok h]

theorem sctrEvents_ok (v : Byte) {sp : Span} (h : sp.ok) : ∀ e ∈ sctrEvents v sp, e.span.ok := by
  simp [sctrEvents, bitFieldEvent, fieldSpan_ok h]

theorem I2c.ByteOk.dlFctr (h : s.ByteOk base k) {v : Byte} (ht : s.dlFctr k v = .ok t) :
    t.ByteOk base k := by
  simp only [I2c.dlFctr, run_bind_eq_ok] at ht
  obtain ⟨sp, hsp, ht⟩ := ht
  cases ht
  exact { h with
    grows := h.grows.append (fctrEvents_ok v (h.recSpan_ok hsp))
    dlFirst := h.lt
    dlLen := by simp
    dlFcs := by simp }

theorem I2c.ByteOk.dlLen0 (h : s.ByteOk base k) {v : Byte} (ht : s.dlLen0 k v = .ok t) :
    t.ByteOk base k := by
  simp only [I2c.dlLen0, run_bind_eq_ok] at ht
  obtain ⟨r, hr, ht⟩ := ht
  cases ht
  exact { h with dlLen := fun _ => (h.read hr).1, dlFcs := by simp }

/-- The length runs from its first byte, which `hst` places, to the byte in hand. -/
theorem I2c.ByteOk.dlLen1 (h : s.ByteOk base k) (hst : s.dl.dst = .len1) {v : Byte}
    (ht : s.dlLen1 k v = .ok t) : t.ByteOk base k := by
  simp only [I2c.dlLen1, run_bind_eq_ok] at ht
  obtain ⟨r, hr, ht⟩ := ht
  have hsp := spanOf_ok ((h.dlLen hst).trans (h.read hr).2)
  cases ht
  refine { h with grows := h.grows.concat hsp _, dlLen := ?_, dlFcs := ?_ }
  · dsimp only
    split <;> simp
  · dsimp only
    split <;> simp

theorem I2c.ByteOk.payloadBegin (h : s.ByteOk base k) {d : Dir} (ht : s.payloadBegin d = .ok t) :
    t.ByteOk base k := by
  obtain ⟨c, -, rfl⟩ := (I2c.payloadBegin_eq_ok ..).mp ht
  exact { h with
    dlLen := by simp
    dlFcs := by simp
    apFirst := by simp [Ap.reset]
    apLen := by simp [Ap.reset] }

/-- A frame that goes on with its secondary control byte or its checksum. -/
theorem I2c.ByteOk.setDst (h : s.ByteOk base k) {q : DlSt} (hl : q ≠ .len1) (hf : q ≠ .fcs1) :
    I2c.ByteOk base k { s with dl := { s.dl with dst := q } } :=
  { h with dlLen := fun hq => absurd hq hl, dlFcs := fun hq => absurd hq hf }

theorem I2c.ByteOk.dlPctr (h : s.ByteOk base k) {v : Byte} {d : Dir}
    (ht : s.dlPctr k v d = .ok t) : t.ByteOk base k := by
  simp only [I2c.dlPctr, run_bind_eq_ok] at ht
  obtain ⟨sp, hsp, drem, -, ht⟩ := ht
  have h1 : I2c.ByteOk base k ({ s with dl := { s.dl with pctr := some v, drem := drem } }.emitAll
      (pctrEvents v sp)) :=
    { h with grows := h.grows.append (pctrEvents_ok v (h.recSpan_ok hsp)) }
  split at ht
  · cases ht
    exact h1.setDst (by simp) (by simp)
  · split at ht
    · exact h1.payloadBegin ht
    · cases ht
      exact h1.setDst (by simp) (by simp)

theorem I2c.ByteOk.dlSctr (h : s.ByteOk base k) {v : Byte} {d : Dir}
    (ht : s.dlSctr k v d = .ok t) : t.ByteOk base k := by
  simp only [I2c.dlSctr, run_bind_eq_ok] at ht
  obtain ⟨sp, hsp, drem, -, ht⟩ := ht
  have h1 : I2c.ByteOk base k ({ s with dl := { s.dl with sctr := some v, drem := drem } }.emitAll
      (sctrEvents v sp)) :=
    { h with grows := h.grows.append (sctrEvents_ok v (h.recSpan_ok hsp)) }
  split at ht
  · exact h1.payloadBegin ht
  · cases ht
    exact h1.setDst (by simp) (by simp)

/-- An APDU that the end of the payload cuts runs from its first record to the byte in hand. -/
theorem I2c.ByteOk.cutApdu (h : s.ByteOk base k) {d : Dir} (ht : s.cutApdu k d = .ok t) :
    t.ByteOk base k := by
  unfold I2c.cutApdu at ht
  split at ht
  · simp only [run_bind_eq_ok] at ht
    obtain ⟨a, -, ra, hra, r, hr, ht⟩ := ht
    have hstart := (h.recs ra (List.mem_of_getElem? ((I2c.bufRead_eq_ok ..).mp hra))).1
    refine I2c.ByteOk.apduFinish ?_ ht
    exact h.emit (spanOf_ok (hstart.trans (h.read hr).2)) _
  · cases ht
    exact h

/-- DL_PAY once the byte itself is dealt with: it is counted, and the last one ends the payload
(44_datalink_apdu.md R295). -/
def I2c.countPayload (k : Nat) (d : Dir) (s : I2c) : Run I2c := do
  let drem ← natSub "drem" s.dl.drem 1
  let u := { s with dl := { s.dl with dpay := s.dl.dpay + 1, drem := drem } }
  if drem = 0 then do
    let v ← u.cutApdu k d
    .ok { v with dl := { v.dl with dst := .fcs0 } }
  else .ok u

/-- DL_PAY: the byte goes to the APDU or is protected payload, and then it is counted. -/
theorem I2c.dlPay_eq_ok (p : I2cParams) (k : Nat) (v : Byte) (d : Dir) (s t : I2c) :
    s.dlPay p k v d = .ok t ↔ ∃ sp u, s.recSpan k = .ok sp
      ∧ (if s.dl.apduMode then s.apduByte p k v d
        else .ok (s.emit sp (.payload .dl d s.dl.dpay v true))) = .ok u
      ∧ u.countPayload k d = .ok t := by
  unfold I2c.dlPay
  rw [run_bind_eq_ok]
  simp only [exists_and_left]
  refine exists_congr fun sp => and_congr_right fun _ => ?_
  cases s.dl.apduMode <;> exact run_bind_eq_ok _ _ _

theorem I2c.ByteOk.countPayload (h : s.ByteOk base k) {d : Dir}
    (ht : s.countPayload k d = .ok t) : t.ByteOk base k := by
  simp only [I2c.countPayload, run_bind_eq_ok] at ht
  obtain ⟨drem, -, ht⟩ := ht
  split at ht
  · rw [run_bind_eq_ok] at ht
    obtain ⟨u, hu, ht⟩ := ht
    cases ht
    refine I2c.ByteOk.setDst (I2c.ByteOk.cutApdu ?_ hu) (by simp) (by simp)
    exact { h with }
  · cases ht
    exact { h with }

theorem I2c.ByteOk.dlPay (h : s.ByteOk base k) {v : Byte} {d : Dir}
    (ht : s.dlPay p k v d = .ok t) : t.ByteOk base k := by
  obtain ⟨sp, u, hsp, hu, ht⟩ := (I2c.dlPay_eq_ok ..).mp ht
  refine I2c.ByteOk.countPayload ?_ ht
  split at hu
  · exact h.apduByte hu
  · cases hu
    exact h.emit (h.recSpan_ok hsp) _

theorem I2c.ByteOk.dlFcs0 (h : s.ByteOk base k) {v : Byte} (ht : s.dlFcs0 k v = .ok t) :
    t.ByteOk base k := by
  simp only [I2c.dlFcs0, run_bind_eq_ok] at ht
  obtain ⟨r, hr, ht⟩ := ht
  cases ht
  exact { h with dlLen := by simp, dlFcs := fun _ => (h.read hr).1 }

/-- The checksum runs from its first byte, which `hst` places, to the byte in hand. -/
theorem I2c.ByteOk.dlFcs1 (h : s.ByteOk base k) (hst : s.dl.dst = .fcs1) {v : Byte} {d : Dir}
    (ht : s.dlFcs1 k v d = .ok t) : t.ByteOk base k := by
  simp only [I2c.dlFcs1, run_bind_eq_ok] at ht
  obtain ⟨r, hr, ht⟩ := ht
  have hsp := spanOf_ok ((h.dlFcs hst).trans (h.read hr).2)
  refine I2c.ByteOk.dlFinish ?_ ht
  exact { h with grows := h.grows.concat hsp _, dlLen := by simp, dlFcs := by simp }

theorem I2c.ByteOk.dlExcess (h : s.ByteOk base k) {j : Nat} (ht : s.dlExcess k j = .ok t) :
    t.ByteOk base k := by
  simp only [I2c.dlExcess, run_bind_eq_ok] at ht
  obtain ⟨sp, hsp, ht⟩ := ht
  cases ht
  exact h.emit (h.recSpan_ok hsp) _

theorem I2c.ByteOk.dlByte (h : s.ByteOk base k) {j : Nat} {v : Byte} {d : Dir}
    (ht : s.dlByte p k j v d = .ok t) : t.ByteOk base k := by
  unfold I2c.dlByte at ht
  cases hst : s.dl.dst <;> rw [hst] at ht
  case fctr => exact h.dlFctr ht
  case len0 => exact h.dlLen0 ht
  case len1 => exact h.dlLen1 hst ht
  case pctr => exact h.dlPctr ht
  case sctr => exact h.dlSctr ht
  case pay => exact h.dlPay ht
  case fcs0 => exact h.dlFcs0 ht
  case fcs1 => exact h.dlFcs1 hst ht
  case done => exact h.dlExcess ht

/-! ### The link header (42_link_header.md R210 to R214) -/

theorem I2c.ByteOk.addrByteIn (h : s.ByteOk base k) {b : Byte} (ht : s.addrByteIn p k b = .ok t) :
    t.ByteOk base k := by
  simp only [I2c.addrByteIn, run_bind_eq_ok] at ht
  obtain ⟨u, hu, r, hr, ht⟩ := ht
  have hu1 : u.ByteOk base k := by
    refine I2c.ByteOk.bufUpdate ?_ (by simp) hu
    exact { h with }
  cases ht
  exact { hu1 with grows := hu1.grows.concat (spanOf_ok ((hu1.read hr).1.trans (hu1.read hr).2)) _ }

theorem I2c.ByteOk.regNum (h : s.ByteOk base k) {b : Byte} (ht : s.regNum p k b = .ok t) :
    t.ByteOk base k := by
  simp only [I2c.regNum, run_bind_eq_ok] at ht
  obtain ⟨u, hu, r, hr, ht⟩ := ht
  have hu1 : u.ByteOk base k := by
    refine I2c.ByteOk.bufUpdate ?_ (by simp) hu
    exact { h with }
  have hsp := spanOf_ok ((hu1.read hr).1.trans (hu1.read hr).2)
  cases ht
  split <;> exact { hu1 with grows := hu1.grows.concat hsp _ }

theorem I2c.ByteOk.regData (h : s.ByteOk base k) {v : Byte} (ht : s.regData p k v = .ok t) :
    t.ByteOk base k := by
  simp only [I2c.regData, run_bind_eq_ok] at ht
  obtain ⟨d, -, u, hu, r, hr, ht⟩ := ht
  have hu1 : u.ByteOk base k := by
    refine I2c.ByteOk.bufUpdate ?_ (by simp) hu
    exact { h with }
  have hsp := spanOf_ok ((hu1.read hr).1.trans (hu1.read hr).2)
  split at ht
  · cases ht
    split
    · exact hu1.emit hsp _
    · exact hu1
  · next reg _ =>
    have h2 := hu1.emit hsp (.regdata reg.toNat d s.j v)
    split at ht
    · exact h2.dlByte ht
    · cases ht
      exact h2.emitAll (fieldEvents_ok _ _ _ _ _ hsp)

/-- The header decoder on the byte in hand. -/
theorem I2c.ByteOk.headerByte (h : s.ByteOk base k) {r : I2cByteRec}
    (ht : s.headerByte p r = .ok t) : t.ByteOk base k := by
  simp only [I2c.headerByte, run_bind_eq_ok, I2c.lastIdx_eq_ok] at ht
  obtain ⟨idx, hidx, ht⟩ := ht
  obtain rfl : idx = k := Nat.succ_injective (hidx.symm.trans h.last.symm)
  split at ht
  · exact h.addrByteIn ht
  · split at ht
    · exact h.bufUpdate (by simp) ht
    · split at ht
      · exact h.regNum ht
      · exact h.regData ht

/-! ### The byte assembler (41_byte_assembler.md R177, R178) -/

/-- Ready to complete a byte: besides the spans, the pending bits start by this sample. -/
structure I2c.ReadyOk (base : List OutEvent) (s : I2c) : Prop extends I2c.SpansOk base s where
  bits : ∀ b ∈ s.bitStarts, b ≤ s.n

/-- A record appended at this sample is the byte in hand. -/
theorem I2c.SpansOk.append (h : s.SpansOk base) {r : I2cByteRec} (hstart : r.start ≤ s.n)
    (hstop : s.n ≤ r.stop) :
    I2c.ByteOk base s.xfer.length { s with xfer := s.xfer ++ [r] } := by
  have hlen : s.xfer.length ≤ (s.xfer ++ [r]).length := by simp
  refine { h with
    recs := ?_
    dlFirst := fun f hf => (h.dlFirst f hf).trans_le hlen
    apFirst := fun f hf => (h.apFirst f hf).trans_le hlen
    last := by simp
    stop := ?_ }
  · intro q hq
    rcases List.mem_append.mp hq with hq | hq
    · exact h.recs q hq
    · rw [List.mem_singleton.mp hq]
      exact ⟨hstart, hstart.trans hstop⟩
  · intro q hq
    simp only [List.getElem?_concat_length, Option.some.injEq] at hq
    rw [← hq]
    exact hstop

/-- A byte that ends at this sample, or whose last bit starts here. -/
theorem I2c.ReadyOk.completeByte (h : s.ReadyOk base) {tr : Bool} {lastEnd : Option Nat}
    (hend : lastEnd.or s.bitStarts.getLast? = some s.n)
    (ht : s.completeByte p tr lastEnd = .ok t) : t.SpansOk base := by
  obtain ⟨start, stop, ends, r, u, hpend, hr, hu, ht⟩ := (I2c.completeByte_eq_ok ..).mp ht
  obtain ⟨hhead, -, -, hstop, -⟩ := (pendingByte_eq_ok ..).mp hpend
  have hstart : start ≤ s.n := h.bits start (List.mem_of_mem_head? hhead)
  have hn : s.n ≤ stop := le_of_lastBitEnd hend hstop
  have hv := h.toSpansOk.emitAll
    (laneEvents_ok .sda (leftAlign s.acc s.bitcnt) s.bitStarts ends (hstart.trans hn) tr)
  have hrs : r.start = start ∧ r.stop = stop := by simp [hr]
  rw [← I2c.emitAll_n, ← hrs.1] at hstart
  rw [← I2c.emitAll_n, ← hrs.2] at hn
  generalize s.emitAll _ = v at hu hv hstart hn
  obtain ⟨-, rfl⟩ := (I2c.bufAppend_eq_ok ..).mp hu
  have hbyte := hv.append hstart hn
  refine (I2c.ByteOk.headerByte (k := v.xfer.length) ?_ ht).toSpansOk
  split
  · exact hbyte
  · exact { hbyte with }

theorem I2c.SpansOk.clearBits (h : s.SpansOk base) : s.clearBits.SpansOk base :=
  { h with }

/-- The byte that a condition cuts, if there is one. -/
theorem I2c.ReadyOk.partialAtCondition (h : s.ReadyOk base)
    (ht : s.partialAtCondition p = .ok t) : t.SpansOk base := by
  unfold I2c.partialAtCondition at ht
  split at ht
  · simp only [run_bind_eq_ok, need_eq_ok] at ht
    obtain ⟨b0, hb0, u, hu, ht⟩ := ht
    have hle := h.bits b0 (List.mem_of_mem_head? hb0)
    cases ht
    refine I2c.SpansOk.clearBits (I2c.ReadyOk.completeByte ?_ ?_ hu)
    · exact { h with grows := h.grows.concat (spanOf_ok hle) _ }
    · simp
  · cases ht
    exact h.toSpansOk.clearBits

/-! ### The end of a phase and the aggregator pass (44_datalink_apdu.md R303, 45_aggregator.md) -/

theorem I2c.SpansOk.endApdu (h : s.SpansOk base) (hk : k + 1 = s.xfer.length) {d : Dir}
    (ht : s.endApdu k d = .ok t) : t.SpansOk base := by
  unfold I2c.endApdu at ht
  split at ht
  · rw [run_bind_eq_ok] at ht
    obtain ⟨ra, hra, ht⟩ := ht
    have hstart := (h.recs ra (List.mem_of_getElem? ((I2c.bufRead_eq_ok ..).mp hra))).1
    exact (h.emit (spanOf_ok hstart) _).apduFinish hk ht
  · cases ht
    exact h

/-- The end of an APDU leaves the records. -/
theorem I2c.endApdu_xfer {d : Dir} (ht : s.endApdu k d = .ok t) : t.xfer = s.xfer := by
  unfold I2c.endApdu at ht
  split at ht
  · rw [run_bind_eq_ok] at ht
    obtain ⟨ra, -, ht⟩ := ht
    obtain ⟨f, -, rfl⟩ := (I2c.apduFinish_eq_ok ..).mp ht
    rfl
  · cases ht
    rfl

/-- What a phase cuts runs from a record to this sample. -/
theorem I2c.SpansOk.endPhase (h : s.SpansOk base) (ht : s.endPhase = .ok t) : t.SpansOk base := by
  rcases (I2c.endPhase_eq_ok ..).mp ht with
    ⟨-, rfl⟩ | ⟨f, last, d, u, rf, -, -, hlast, -, hu, hrf, ht⟩
  · exact h
  · have hk := ((I2c.lastIdx_eq_ok ..).mp hlast).symm
    have hu1 := h.endApdu hk hu
    have hstart := (hu1.recs rf (List.mem_of_getElem? hrf)).1
    have hku : last + 1 = u.xfer.length := by rw [hk, I2c.endApdu_xfer hu]
    exact (hu1.emit (spanOf_ok hstart) _).dlFinish hku ht

/-- The records of a list with their indices stand in the order of the indices. -/
theorem pairwise_zipIdx_snd {α : Type} (l : List α) :
    l.zipIdx.Pairwise fun a b => a.2 < b.2 := by
  have hrange : (l.zipIdx.map Prod.snd).Pairwise (· < ·) := by
    rw [List.zipIdx_map_snd]
    exact List.pairwise_lt_range'
  exact List.pairwise_map.mp hrange

/-- The length of the state register runs over two records in order (45_aggregator.md R352). -/
theorem I2c.SpansOk.regLenEvent (h : s.SpansOk base) {q : Nat} {e : OutEvent}
    (he : s.regLenEvent p q = some e) : e.span.ok := by
  have hidx := (pairwise_zipIdx_snd s.xfer).filter fun e => e.1.phaseNo == q
  unfold I2c.regLenEvent at he
  split at he
  · next w a rest hw hphase =>
    rw [hphase] at hidx
    have hdata := hidx.filter fun e => e.1.kind == .data
    split at he
    · split at he
      · next r d0 d1 _ _ hd =>
        rw [hd] at hdata
        split at he
        · cases he
          have hlt := List.rel_of_pairwise_cons hdata (List.mem_cons_self ..)
          exact evenPlace_le (evenWidth_nonneg hw h.tStart_le) hlt.le
        · cases he
      · cases he
    · cases he
  · cases he

/-- The even span of a frame or APDU that ends at or after its first record. -/
theorem evenSpan_ok {t0 first last : Nat} {w : Rat} (hw : 0 ≤ w) (h : first ≤ last) :
    (evenSpan t0 w first last).ok :=
  evenPlace_le hw h

theorem I2c.SpansOk.aggregate (h : s.SpansOk base) : GrowsInOrder base (s.aggregate p).out := by
  change GrowsInOrder base (s.summaries p).out
  unfold I2c.summaries
  split
  · exact h.grows
  · next w hw =>
    have hpos := evenWidth_nonneg hw h.tStart_le
    refine (((h.grows.concat (spanOf_ok h.tStart_le) _).append ?_).append ?_).append ?_ <;>
      intro e he
    · obtain ⟨q, -, hq⟩ := List.mem_filterMap.mp he
      exact h.regLenEvent hq
    · obtain ⟨d, hd, rfl⟩ := List.mem_map.mp he
      exact evenSpan_ok hpos (h.dlDone d hd)
    · obtain ⟨a, ha, rfl⟩ := List.mem_map.mp he
      exact evenSpan_ok hpos (h.apduDone a ha)

/-! ### The samplers and the step (40_sampler.md R150 to R158) -/

/-- A sound stack is ready to complete a byte. -/
theorem I2c.Inv.readyOk (h : s.Inv p) : s.ReadyOk s.out := by
  obtain ⟨-, ⟨-, -, hbits⟩, -, -, ⟨htStart, hrecs⟩, hdl, hap, ⟨-, -, hdlDone, hapduDone⟩, -⟩ := h
  obtain ⟨-, -, -, hdlFirst, hdlLen, hdlFcs⟩ := hdl
  obtain ⟨-, -, -, -, -, hapFirst, hapLen⟩ := hap
  exact
    { grows := .refl _
      tStart_le := htStart
      recs := fun r hr => by
        obtain ⟨-, hlt, hn, -⟩ := hrecs r hr
        exact ⟨hn.le, hlt.le⟩
      dlFirst := fun f hf => (hdlFirst f hf).1
      dlLen := fun hst => (hdlLen hst).le
      dlFcs := fun hst => (hdlFcs hst).le
      apFirst := hapFirst
      apLen := fun hst => (hapLen hst).le
      dlDone := fun d hd => (hdlDone d hd).1
      apduDone := fun a ha => (hapduDone a ha).1
      bits := fun b hb => (hbits b hb).2.le }

theorem I2c.startCond_grows (s : I2c) : GrowsInOrder s.out s.startCond.out :=
  ((GrowsInOrder.refl s.out).concat (pointSpan_ok _) _).concat (pointSpan_ok _) _

theorem I2c.ReadyOk.rstartCond (h : s.ReadyOk base) (ht : s.rstartCond p = .ok t) :
    GrowsInOrder base t.out := by
  simp only [I2c.rstartCond, run_bind_eq_ok] at ht
  obtain ⟨u, hu, v, hv, ht⟩ := ht
  have hgrows := ((h.partialAtCondition hu).endPhase hv).grows
  cases ht
  exact hgrows.concat (pointSpan_ok _) _

theorem I2c.ReadyOk.stopCond (h : s.ReadyOk base) (ht : s.stopCond p = .ok t) :
    GrowsInOrder base t.out := by
  simp only [I2c.stopCond, run_bind_eq_ok] at ht
  obtain ⟨u, hu, v, hv, ht⟩ := ht
  have hspans := (h.partialAtCondition hu).endPhase hv
  have hgrows := ((hspans.emit (pointSpan_ok v.n) (.cond .stop)).emit (pointSpan_ok v.n)
    (.bus .idle)).aggregate (p := p)
  cases ht
  exact hgrows

theorem I2c.ReadyOk.bit (h : s.ReadyOk base) {x : I2cSample} (ht : s.bit p x = .ok t) :
    GrowsInOrder base t.out := by
  simp only [I2c.bit] at ht
  split at ht
  · refine (I2c.ReadyOk.completeByte ?_ (by simp) ht).grows
    refine { h with bits := fun b hb => ?_ }
    rcases List.mem_append.mp hb with hb | hb
    · exact h.bits b hb
    · exact (List.mem_singleton.mp hb).le
  · cases ht
    exact h.grows

/-- The acknowledge flag goes to a record, not to an event. -/
theorem I2c.writeAck_out {ack : Bool} (ht : s.writeAck ack = .ok t) : t.out = s.out := by
  unfold I2c.writeAck at ht
  split at ht
  · obtain ⟨-, rfl⟩ := (I2c.bufUpdate_eq_ok ..).mp ht
    rfl
  · cases ht
    rfl

theorem I2c.ackBit_grows {x : I2cSample} (ht : s.ackBit x = .ok t) : GrowsInOrder s.out t.out := by
  simp only [I2c.ackBit, run_bind_eq_ok] at ht
  obtain ⟨b7, -, w, -, u, hu, ht⟩ := ht
  have hout := I2c.writeAck_out hu
  cases ht
  change GrowsInOrder s.out u.out
  rw [hout]
  exact (GrowsInOrder.refl s.out).concat (spanOf_ok (Nat.le_add_right _ _)) _

/-- The event port after an operation that emits ordered spans. -/
theorem I2c.finish_grows {old : I2c} {x : I2cSample} {r : Run I2c}
    (hr : ∀ u, r = .ok u → GrowsInOrder old.out u.out) (ht : old.finish p x r = .ok t) :
    GrowsInOrder old.out t.out := by
  simp only [I2c.finish, run_bind_eq_ok] at ht
  obtain ⟨u, hu, ht⟩ := ht
  cases ht
  exact (hr u hu).portEvents _ _

/-- An I2C step from a sound stack emits ordered spans. -/
theorem I2c.Inv.takeSample (h : s.Inv p) {x : I2cSample} (ht : s.takeSample p x = .ok t) :
    GrowsInOrder s.out t.out := by
  unfold I2c.takeSample at ht
  split at ht
  · cases ht
  · generalize i2cHit (ci5 s.first s.prevScl s.prevSda x) = c at ht
    rcases c with _ | _ | _ | _ | _ <;> simp only [I2c.takeCond] at ht
    case none =>
      cases ht
      exact .refl _
    case some.baseline =>
      cases ht
      exact .refl _
    case some.start =>
      split at ht
      · exact I2c.finish_grows (fun u hu => h.readyOk.rstartCond hu) ht
      · refine I2c.finish_grows (fun u hu => ?_) ht
        cases hu
        exact s.startCond_grows
    case some.stop =>
      split at ht
      · exact I2c.finish_grows (fun u hu => h.readyOk.stopCond hu) ht
      · cases ht
        exact .refl _
    case some.bit =>
      split at ht
      · split at ht
        · exact I2c.finish_grows (fun u hu => I2c.ackBit_grows hu) ht
        · exact I2c.finish_grows (fun u hu => h.readyOk.bit hu) ht
      · cases ht
        exact .refl _

end Sys2Proof.Machine

end

/-! ## The step -/

section

open Sys2Proof Sys2Proof.Machine

/-- Settles O12: a step of either stack keeps what the spans of its events are made of. -/
theorem stepEmitsOrderedSpans : Obligations.StepEmitsOrderedSpans := by
  unfold Obligations.StepEmitsOrderedSpans
  rintro s t ⟨hspi, hi2c⟩ hst
  suffices hgrows : GrowsInOrder s.spi.out t.spi.out ∧ GrowsInOrder s.i2c.out t.i2c.out from
    ⟨hgrows.1.drop_ok, hgrows.2.drop_ok⟩
  unfold step at hst
  split at hst
  · cases hst
    exact ⟨.refl _, .refl _⟩
  · next a rest _ =>
    cases a with
    | spi w =>
      simp only [takeInput, spiStep_eq_onSpi, onSpi_eq_next] at hst
      obtain ⟨u, hu, rfl⟩ := hst
      exact ⟨hspi.takeSample hu, .refl _⟩
    | i2c w =>
      simp only [takeInput, i2cStep_eq_onI2c, onI2c_eq_next] at hst
      obtain ⟨u, hu, rfl⟩ := hst
      exact ⟨.refl _, hi2c.takeSample hu⟩
    | reset =>
      cases hst
      exact ⟨.refl _, .refl _⟩
    | params c =>
      simp only [takeInput, takeParams] at hst
      split at hst
      · cases hst
        exact ⟨.refl _, .refl _⟩
      · cases hst

end

/-! ## What the operations inside a step keep (10_state.md R22, R66)

Whatever the state, an operation of a byte, of a phase's end or of the aggregator pass only adds
events, and leaves the sample index and the registers that say which transfer is open. -/

section

namespace Sys2Proof.Machine

open Sys2Proof

/-! ### The SPI stack -/

/-- From `s` to `t` events are only added, and the sample index stays: every row of a step. -/
structure Spi.Grows (s t : Spi) : Prop where
  n : t.n = s.n
  out : s.out <+: t.out

/-- Besides, the open transfer stays: every operation of a byte. -/
structure Spi.KeepsTransfer (s t : Spi) : Prop extends s.Grows t where
  first : t.first = s.first
  active : t.active = s.active
  tStart : t.tStart = s.tStart

/-- Besides, the pending bits stay: every operation of the header decoder and of the aggregator. -/
structure Spi.Keeps (s t : Spi) : Prop extends s.KeepsTransfer t where
  bitcnt : t.bitcnt = s.bitcnt
  bitStarts : t.bitStarts = s.bitStarts

/-- From `s` to `t` events are only added, and nothing else changes but the framer's registers and the
frame numbers of records (10_state.md R30, 43_command_framer.md R242, R246). -/
structure Spi.FramerOnly (s t : Spi) : Prop where
  rest : t = { s with
    xfer := t.xfer, fst := t.fst, fh := t.fh, facc := t.facc, fFieldStart := t.fFieldStart,
    tag := t.tag, len := t.len, code := t.code, fdir := t.fdir, remaining := t.remaining,
    pcount := t.pcount, fshort := t.fshort, fseq := t.fseq, fStart := t.fStart,
    closed := t.closed, out := t.out }
  recs : t.xfer.map (fun r => { r with fseq := none }) =
    s.xfer.map (fun r => { r with fseq := none })
  out : s.out <+: t.out

variable {p : SpiParams} {s t u : Spi} {k : Nat}

theorem Spi.Grows.trans (h : s.Grows t) (h' : t.Grows u) : s.Grows u :=
  ⟨h'.n.trans h.n, h.out.trans h'.out⟩

theorem Spi.KeepsTransfer.trans (h : s.KeepsTransfer t) (h' : t.KeepsTransfer u) :
    s.KeepsTransfer u where
  toGrows := h.toGrows.trans h'.toGrows
  first := h'.first.trans h.first
  active := h'.active.trans h.active
  tStart := h'.tStart.trans h.tStart

theorem Spi.Keeps.refl (s : Spi) : s.Keeps s where
  n := rfl
  out := List.prefix_refl _
  first := rfl
  active := rfl
  tStart := rfl
  bitcnt := rfl
  bitStarts := rfl

theorem Spi.Keeps.trans (h : s.Keeps t) (h' : t.Keeps u) : s.Keeps u where
  toKeepsTransfer := h.toKeepsTransfer.trans h'.toKeepsTransfer
  bitcnt := h'.bitcnt.trans h.bitcnt
  bitStarts := h'.bitStarts.trans h.bitStarts

theorem Spi.FramerOnly.refl (s : Spi) : s.FramerOnly s :=
  ⟨rfl, rfl, List.prefix_refl _⟩

theorem Spi.FramerOnly.trans (h : s.FramerOnly t) (h' : t.FramerOnly u) :
    s.FramerOnly u where
  rest := by
    rw [h'.rest, h.rest]
  recs := h'.recs.trans h.recs
  out := h.out.trans h'.out

theorem Spi.FramerOnly.keeps (h : s.FramerOnly t) : s.Keeps t where
  first := by rw [h.rest]
  active := by rw [h.rest]
  tStart := by rw [h.rest]
  n := by rw [h.rest]
  bitcnt := by rw [h.rest]
  bitStarts := by rw [h.rest]
  out := h.out

theorem Spi.keeps_emit (s : Spi) (sp : Span) (e : Event) : s.Keeps (s.emit sp e) :=
  { Spi.Keeps.refl s with out := List.prefix_append .. }

theorem Spi.keeps_emitAll (s : Spi) (es : List OutEvent) : s.Keeps (s.emitAll es) :=
  { Spi.Keeps.refl s with out := List.prefix_append .. }

theorem Spi.keeps_diag (s : Spi) (c : DiagCode) (sp : Span) (i : Nat) : s.Keeps (s.diag c sp i) :=
  s.keeps_emit _ _

theorem Spi.framerOnly_emit (s : Spi) (sp : Span) (e : Event) : s.FramerOnly (s.emit sp e) :=
  ⟨rfl, rfl, List.prefix_append ..⟩

theorem Spi.Keeps.bufUpdate {f : SpiByteRec → SpiByteRec} (ht : s.bufUpdate k f = .ok t) :
    s.Keeps t := by
  obtain ⟨-, rfl⟩ := (Spi.bufUpdate_eq_ok ..).mp ht
  exact { Spi.Keeps.refl s with }

/-! ### The framer (43_command_framer.md) -/

/-- A change that `g` does not see leaves a list as `g` sees it. -/
theorem map_modify_of_comp_eq {α β : Type} {g : α → β} {f : α → α} (h : ∀ a, g (f a) = g a)
    (l : List α) (i : Nat) : (l.modify i f).map g = l.map g := by
  apply List.ext_getElem?
  intro j
  simp only [List.getElem?_map, List.getElem?_modify]
  split <;> cases l[j]? <;> simp [h]

theorem Spi.FramerOnly.bufUpdate {q : Option Nat}
    (ht : s.bufUpdate k (fun r => { r with fseq := q }) = .ok t) : s.FramerOnly t := by
  obtain ⟨-, rfl⟩ := (Spi.bufUpdate_eq_ok ..).mp ht
  refine ⟨rfl, ?_, List.prefix_refl _⟩
  exact map_modify_of_comp_eq (by simp) _ _

theorem Spi.FramerOnly.closeFrame (ht : s.closeFrame k = .ok t) : s.FramerOnly t := by
  obtain ⟨d, a, -, -, rfl⟩ := (Spi.closeFrame_eq_ok ..).mp ht
  exact ⟨rfl, rfl, List.prefix_refl _⟩

theorem Spi.FramerOnly.closeFrame_if {c : Prop} [Decidable c] (h : s.FramerOnly u)
    (ht : (if c then u.closeFrame k else .ok u) = .ok t) : s.FramerOnly t := by
  split at ht
  · exact h.trans (.closeFrame ht)
  · cases ht
    exact h

theorem Spi.framerOnly_tpmStart (s : Spi) (k : Nat) : s.FramerOnly (s.tpmStart k) :=
  ⟨rfl, rfl, List.prefix_refl _⟩

theorem Spi.framerOnly_tpmTagDone (s : Spi) (fspan : Span) :
    s.FramerOnly (s.tpmTagDone p fspan) := by
  simp only [Spi.tpmTagDone]
  split <;> exact ⟨rfl, rfl, List.prefix_append ..⟩

theorem Spi.framerOnly_tpmLenDone (s : Spi) (fspan : Span) :
    s.FramerOnly (s.tpmLenDone fspan) := by
  have h : s.FramerOnly ({ s with len := s.facc }.emit fspan
      (.field .tpm .length s.facc.toNat none)) := ⟨rfl, rfl, List.prefix_append ..⟩
  simp only [Spi.tpmLenDone]
  split
  · exact h.trans ⟨rfl, rfl, List.prefix_append ..⟩
  · exact h

theorem Spi.FramerOnly.tpmCodeDone {d : Dir} {fspan : Span}
    (ht : s.tpmCodeDone p k d fspan = .ok t) : s.FramerOnly t := by
  simp only [Spi.tpmCodeDone, run_bind_eq_ok] at ht
  obtain ⟨size, -, ht⟩ := ht
  split at ht
  · refine Spi.FramerOnly.trans ?_ (.closeFrame ht)
    exact ⟨rfl, rfl, List.prefix_append ..⟩
  · cases ht
    exact ⟨rfl, rfl, List.prefix_append ..⟩

theorem Spi.FramerOnly.fieldDone {d : Dir} {fspan : Span}
    (ht : s.fieldDone p k d fspan = .ok t) : s.FramerOnly t := by
  unfold Spi.fieldDone at ht
  split at ht
  · cases ht
    exact s.framerOnly_tpmTagDone fspan
  · split at ht
    · cases ht
      exact s.framerOnly_tpmLenDone fspan
    · split at ht
      · exact .tpmCodeDone ht
      · cases ht
        exact .refl _

theorem Spi.framerOnly_beginField (s : Spi) (start : Nat) : s.FramerOnly (s.beginField start) := by
  unfold Spi.beginField
  split
  · exact ⟨rfl, rfl, List.prefix_refl _⟩
  · exact .refl _

theorem Spi.FramerOnly.tpmHdr {x : Byte} {d : Dir} (ht : s.tpmHdr p k x d = .ok t) :
    s.FramerOnly t := by
  simp only [Spi.tpmHdr, run_bind_eq_ok] at ht
  obtain ⟨u, hu, r, -, ht⟩ := ht
  refine .trans (.bufUpdate hu) (.trans (u.framerOnly_beginField r.start) (.trans ?_ (.fieldDone ht)))
  exact ⟨rfl, rfl, List.prefix_refl _⟩

theorem Spi.FramerOnly.tpmPayload {x : Byte} {d : Dir} (ht : s.tpmPayload k x d = .ok t) :
    s.FramerOnly t := by
  simp only [Spi.tpmPayload, run_bind_eq_ok] at ht
  obtain ⟨u, hu, r, -, ht⟩ := ht
  refine .trans (.bufUpdate hu) (.closeFrame_if ?_ ht)
  exact ⟨rfl, rfl, List.prefix_append ..⟩

theorem Spi.FramerOnly.framerByte {x : Byte} {d : Dir} (ht : s.framerByte p k x d = .ok t) :
    s.FramerOnly t := by
  unfold Spi.framerByte at ht
  split at ht
  · exact (s.framerOnly_tpmStart k).trans (.tpmHdr ht)
  · exact .tpmHdr ht
  · split at ht
    · exact .tpmPayload ht
    · cases ht
      exact .refl _

/-! ### The link header (42_link_header.md) -/

theorem Spi.keeps_ackFlag (s : Spi) (b : Byte) (start stop : Nat) :
    s.Keeps (s.ackFlag p b start stop) := by
  unfold Spi.ackFlag
  split
  · exact { Spi.Keeps.refl s with out := List.prefix_append .. }
  · exact .refl _

theorem Spi.keeps_takeReg (s : Spi) (reg : BitVec 16) (sp : Span) :
    s.Keeps (s.takeReg p reg sp) := by
  simp only [Spi.takeReg]
  split <;> exact { Spi.Keeps.refl s with out := List.prefix_append .. }

theorem Spi.Keeps.hdr3 {b : Byte} {miso : Option Byte} {start stop : Nat}
    (ht : s.hdr3 p b miso start stop = .ok t) : s.Keeps t := by
  simp only [Spi.hdr3, run_bind_eq_ok] at ht
  obtain ⟨hi, -, b2, -, ht⟩ := ht
  have h1 := (s.keeps_takeReg (p := p) (joinLow (highByte hi) b)
    (spanOf s.hdrB2Start stop)).trans (Spi.keeps_emit _ (subSpan (spanOf b2.start b2.stop) 0 4)
      (.hdr .locality ((joinLow (highByte hi) b).extractLsb' 12 4).toNat none))
  cases ht
  split
  · exact { h1.trans (Spi.keeps_ackFlag _ _ _ _) with }
  · exact { h1 with }

theorem Spi.Keeps.excessByte (ht : s.excessByte k = .ok t) : s.Keeps t := by
  simp only [Spi.excessByte, run_bind_eq_ok] at ht
  obtain ⟨i, -, u, hu, r, -, ht⟩ := ht
  cases ht
  exact (Spi.Keeps.bufUpdate hu).trans (u.keeps_diag _ _ _)

theorem Spi.Keeps.dataByte {v : Option Byte} (ht : s.dataByte p k v = .ok t) : s.Keeps t := by
  simp only [Spi.dataByte, run_bind_eq_ok] at ht
  obtain ⟨i, -, d, -, u, hu, r, -, ht⟩ := ht
  have h1 := Spi.Keeps.bufUpdate hu
  split at ht
  · split at ht
    · exact h1.trans ((u.keeps_emit _ _).trans (Spi.FramerOnly.framerByte ht).keeps)
    · cases ht
      exact h1.trans ((u.keeps_emit _ _).trans (Spi.keeps_emitAll _ _))
  · cases ht
    exact h1

theorem Spi.Keeps.laterByte {r : SpiByteRec} (ht : s.laterByte p r k = .ok t) : s.Keeps t := by
  simp only [Spi.laterByte, run_bind_eq_ok] at ht
  obtain ⟨i, -, d, -, c, -, ht⟩ := ht
  split at ht
  · exact .excessByte ht
  · exact .dataByte ht

theorem Spi.Keeps.headerByte {r : SpiByteRec} (ht : s.headerByte p r = .ok t) : s.Keeps t := by
  have h1 : s.Keeps { s with pos := s.pos + 1 } := { Spi.Keeps.refl s with }
  simp only [Spi.headerByte] at ht
  split at ht
  · exact h1.trans (.bufUpdate ht)
  · rw [run_bind_eq_ok] at ht
    obtain ⟨b, -, ht⟩ := ht
    split at ht
    · cases ht
      exact { h1 with out := (List.prefix_append ..).trans (List.prefix_append ..) }
    · cases ht
      exact { h1 with out := List.prefix_append .. }
    · cases ht
      exact { h1 with }
    · exact h1.trans (.hdr3 ht)
    · exact h1.trans (.laterByte ht)

/-! ### Bytes, the aggregator pass and the samplers -/

theorem Spi.KeepsTransfer.completeByte {tr : Bool} {lastEnd : Option Nat}
    (ht : s.completeByte p tr lastEnd = .ok t) : s.KeepsTransfer t := by
  obtain ⟨start, stop, ends, r, u, -, -, hu, ht⟩ := (Spi.completeByte_eq_ok ..).mp ht
  obtain ⟨-, rfl⟩ := (Spi.bufAppend_eq_ok ..).mp hu
  refine .trans ?_ (Spi.Keeps.headerByte ht).toKeepsTransfer
  exact { Spi.Keeps.refl s with out := List.prefix_append .. }

theorem Spi.KeepsTransfer.sckSample {x : SpiLevels} (ht : s.sckSample p x = .ok t) :
    s.KeepsTransfer t := by
  have h1 : s.KeepsTransfer (s.shiftBits p x) := { Spi.Keeps.refl s with }
  simp only [Spi.sckSample] at ht
  split at ht
  · exact h1.trans (.completeByte ht)
  · cases ht
    exact h1

theorem Spi.KeepsTransfer.cutByte (ht : s.cutByte p = .ok t) : s.KeepsTransfer t := by
  unfold Spi.cutByte at ht
  split at ht
  · rw [run_bind_eq_ok] at ht
    obtain ⟨b0, -, ht⟩ := ht
    exact (s.keeps_diag _ _ _).toKeepsTransfer.trans (.completeByte ht)
  · cases ht
    exact (Spi.Keeps.refl _).toKeepsTransfer

theorem Spi.Keeps.headerCheck (ht : s.headerCheck p = .ok t) : s.Keeps t := by
  simp only [Spi.headerCheck] at ht
  split at ht
  · cases ht
    exact .refl _
  · split at ht
    · cases ht
      exact s.keeps_diag _ _ _
    · rw [run_bind_eq_ok] at ht
      obtain ⟨c, -, ht⟩ := ht
      cases ht
      split
      · exact s.keeps_diag _ _ _
      · exact .refl _

theorem Spi.Keeps.summaries (ht : s.summaries p = .ok t) : s.Keeps t := by
  unfold Spi.summaries at ht
  split at ht
  · cases ht
    exact .refl _
  · rw [run_bind_eq_ok] at ht
    obtain ⟨u, hu, ht⟩ := ht
    cases ht
    exact (s.keeps_emit _ _).trans ((Spi.Keeps.headerCheck hu).trans (u.keeps_emitAll _))

/-- What FrameCarry can do: nothing without an open frame; else the frame's start becomes a sample, if it
is not one, and an event may follow that starts there (45_aggregator.md R344). -/
theorem Spi.frameCarry_cases (ht : s.frameCarry = .ok t) :
    (s.fst = .idle ∧ t = s) ∨ ∃ a es, s.fst ≠ .idle ∧ t = { s with fStart := a, out := s.out ++ es }
      ∧ ((a = s.fStart ∧ ∀ i, a ≠ some (.idx i))
        ∨ ∃ i w, s.fStart = some (.idx i) ∧ evenWidth s.tStart s.n s.xfer.length = some w
          ∧ a = some (.at (s.tStart + i * w)))
      ∧ ∀ e ∈ es, ∃ r, a = some (.at r) ∧ e.span.ss = r := by
  unfold Spi.frameCarry at ht
  split at ht
  · next hidle =>
    cases ht
    exact .inl ⟨hidle, rfl⟩
  · next hopen =>
    refine .inr ?_
    rcases hs : s.fStart with _ | (i | r) <;>
      simp only [hs, run_bind_eq_ok, need_eq_ok, Except.ok.injEq, exists_eq_left'] at ht
    case none =>
      split at ht <;> cases ht
      exact ⟨s.fStart, [], hopen, by simp, .inl (by simp [hs]), by simp⟩
    case some.idx =>
      obtain ⟨w, hw, ht⟩ := ht
      refine ⟨some (.at (s.tStart + i * w)), ?_⟩
      split at ht <;> cases ht
      · exact ⟨[_], hopen, rfl, .inr ⟨i, w, rfl, hw, rfl⟩, by simp⟩
      · exact ⟨[], hopen, by simp, .inr ⟨i, w, rfl, hw, rfl⟩, by simp⟩
    case some.at =>
      refine ⟨s.fStart, ?_⟩
      split at ht <;> cases ht
      · exact ⟨[_], hopen, rfl, .inl (by simp [hs]), by simp [hs]⟩
      · exact ⟨[], hopen, by simp, .inl (by simp [hs]), by simp⟩

theorem Spi.Keeps.frameCarry (ht : s.frameCarry = .ok t) : s.Keeps t := by
  rcases Spi.frameCarry_cases ht with ⟨-, rfl⟩ | ⟨a, es, -, rfl, -, -⟩
  · exact .refl _
  · exact { Spi.Keeps.refl s with out := List.prefix_append .. }

theorem Spi.Keeps.aggregate (ht : s.aggregate p = .ok t) : s.Keeps t := by
  simp only [Spi.aggregate, run_bind_eq_ok] at ht
  obtain ⟨u, hu, v, hv, ht⟩ := ht
  cases ht
  exact { (Spi.Keeps.summaries hu).trans (.frameCarry hv) with }

/-! ### A whole SPI step -/

theorem Spi.grows_csAssert (s : Spi) : s.Grows s.csAssert := ⟨rfl, List.prefix_append ..⟩

theorem Spi.Grows.csDeassert (ht : s.csDeassert p = .ok t) : s.Grows t := by
  unfold Spi.csDeassert at ht
  split at ht
  · simp only [run_bind_eq_ok] at ht
    obtain ⟨u, hu, v, hv, ht⟩ := ht
    cases ht
    have h := (Spi.KeepsTransfer.cutByte hu).toGrows.trans
      ((u.keeps_emit _ _).trans (.aggregate hv)).toGrows
    exact ⟨h.n, h.out⟩
  · cases ht
    exact (Spi.Keeps.refl s).toGrows

/-- What a sample does before the end of its step: from `s` to the stack `t` (40_sampler.md R130 to R136),
with what the sample tells of the chip select. -/
inductive Spi.SampleOp (p : SpiParams) (x : SpiLevels) (s : Spi) : Spi → Prop
  | baseline : s.first = true → Spi.SampleOp p x s (s.baseline x)
  | deassert {t : Spi} : s.first = false → p.haveCs = true → x.asserted = false →
      s.csDeassert p = .ok t → Spi.SampleOp p x s t
  | assert : s.first = false → s.prevAsserted = false → x.asserted = true →
      Spi.SampleOp p x s s.csAssert
  | assertBit {t : Spi} : s.first = false → s.prevAsserted = false → x.asserted = true →
      s.csAssert.sckSample p x = .ok t → Spi.SampleOp p x s t
  | bit {t : Spi} : s.first = false → x.asserted = true → (s.prevAsserted = true ∨ p.haveCs = false) →
      s.sckSample p x = .ok t → Spi.SampleOp p x s t
  | idle : s.first = false → (x.asserted = s.prevAsserted ∨ p.haveCs = false) → Spi.SampleOp p x s s

theorem Spi.SampleOp.grows {x : SpiLevels} (h : Spi.SampleOp p x s t) : s.Grows t := by
  cases h with
  | baseline =>
    simp only [Spi.baseline]
    split <;> exact ⟨rfl, by simp [Spi.csAssert]⟩
  | deassert _ _ _ ht => exact .csDeassert ht
  | assert => exact s.grows_csAssert
  | assertBit _ _ _ ht => exact s.grows_csAssert.trans (Spi.KeepsTransfer.sckSample ht).toGrows
  | bit _ _ _ ht => exact (Spi.KeepsTransfer.sckSample ht).toGrows
  | idle => exact (Spi.Keeps.refl s).toGrows

/-- The condition rows in terms of the levels (30_encoding.md R92, R93). -/
theorem spiHits_eq (first prevAsserted : Bool) (prevSck : Bit) (x : SpiLevels) :
    spiHits (cs5 first prevAsserted prevSck x) = if first then [.baseline] else
      (if prevAsserted && !x.asserted then [.csDeassert] else [])
        ++ ((if !prevAsserted && x.asserted then [.csAssert] else [])
          ++ ((if x.asserted && !prevSck && x.sck then [.sckSample] else [])
            ++ if x.asserted && prevSck && !x.sck then [.sckSampleF] else [])) := by
  rcases x with ⟨sck, mosi, miso, asserted⟩
  revert first prevAsserted prevSck sck mosi miso asserted
  decide

/-- A list of rows with at most the sampling row of the configuration is that row or empty. -/
theorem filter_sampling_cases (p : SpiParams) (b c : Bool) :
    let rows := ((if b then [SpiRow.sckSample] else []) ++ if c then [SpiRow.sckSampleF] else []).filter
      (SpiRow.enabled p)
    rows = [] ∨ rows = [.sckSample] ∨ rows = [.sckSampleF] := by
  cases b <;> cases c <;> cases h : p.sampleEdge <;> simp [SpiRow.enabled, h]

/-- The rows of a step do what a sample does. -/
theorem Spi.SampleOp.of_doRows {x : SpiLevels}
    (ht : Spi.doRows p x (s.rowsFor p x) s = .ok t) : Spi.SampleOp p x s t := by
  unfold Spi.rowsFor at ht
  rw [spiHits_eq] at ht
  cases hfirst : s.first
  case true =>
    simp only [hfirst, if_true] at ht
    cases ht
    exact .baseline hfirst
  case false =>
    simp only [hfirst, Bool.false_eq_true, if_false] at ht
    cases ha : x.asserted
    case false =>
      simp only [ha, Bool.not_false, Bool.and_true, Bool.and_false, Bool.false_and,
        Bool.false_eq_true, if_false, List.append_nil] at ht
      cases hprev : s.prevAsserted <;> cases hcs : p.haveCs <;>
        simp only [hprev, hcs, if_true, Bool.false_eq_true, if_false, List.filter_nil,
          List.filter_cons, SpiRow.enabled] at ht
      · cases ht
        exact .idle hfirst (by simp [ha, hprev])
      · cases ht
        exact .idle hfirst (by simp [ha, hprev])
      · cases ht
        exact .idle hfirst (by simp [hcs])
      · rw [Spi.doRows_singleton] at ht
        exact .deassert hfirst hcs ha ht
    case true =>
      simp only [ha, Bool.not_true, Bool.and_false, Bool.and_true, Bool.true_and,
        Bool.false_eq_true, if_false, List.nil_append, List.filter_append] at ht
      rw [← List.filter_append] at ht
      have hbits := filter_sampling_cases p (!s.prevSck && x.sck) (s.prevSck && !x.sck)
      simp only at hbits
      generalize List.filter (SpiRow.enabled p) (_ ++ _) = bits at ht hbits
      by_cases hopen : s.prevAsserted = false ∧ p.haveCs = true
      · obtain ⟨hprev, hcs⟩ := hopen
        simp only [hprev, Bool.not_false, if_true, List.filter_cons, SpiRow.enabled, hcs,
          List.filter_nil, List.cons_append, List.nil_append, Spi.doRows, Spi.doRow, bind,
          Except.bind] at ht
        rcases hbits with rfl | rfl | rfl
        · cases ht
          exact .assert hfirst hprev ha
        · rw [Spi.doRows_singleton] at ht
          exact .assertBit hfirst hprev ha ht
        · rw [Spi.doRows_singleton] at ht
          exact .assertBit hfirst hprev ha ht
      · have hopen' : s.prevAsserted = true ∨ p.haveCs = false := by
          cases hprev : s.prevAsserted <;> simp_all
        have hnone : List.filter (SpiRow.enabled p)
            (if (!s.prevAsserted) = true then [.csAssert] else []) = [] := by
          rcases hopen' with h | h <;> simp [h, SpiRow.enabled]
        rw [hnone, List.nil_append] at ht
        rcases hbits with rfl | rfl | rfl
        · cases ht
          exact .idle hfirst (hopen'.imp_left (by simp [ha]))
        · rw [Spi.doRows_singleton] at ht
          exact .bit hfirst ha hopen' ht
        · rw [Spi.doRows_singleton] at ht
          exact .bit hfirst ha hopen' ht

/-- An SPI step that answers runs its rows, counts the sample and passes the events to the port. -/
theorem Spi.takeSample_eq_ok (p : SpiParams) (x : SpiSample) (s t : Spi) :
    s.takeSample p x = .ok t ↔ hasDataLane p = true ∧ streamTooLong p.sampleW s.n = false
      ∧ ∃ u, Spi.doRows p (levelsOf p x) (s.rowsFor p (levelsOf p x)) s = .ok u
        ∧ t = (u.epilogue (levelsOf p x)).emitted p s := by
  unfold Spi.takeSample Spi.finish
  cases hasDataLane p
  case false => simp
  cases streamTooLong p.sampleW s.n
  case true => simp
  simp only [if_true, Bool.false_eq_true, if_false, run_bind_eq_ok, Except.ok.injEq, true_and,
    eq_comm (b := t)]

/-- What an SPI step can do: an operation and the end of the step. -/
theorem Spi.takeSample_cases {x : SpiSample} (ht : s.takeSample p x = .ok t) :
    ∃ u, Spi.SampleOp p (levelsOf p x) s u ∧ t = (u.epilogue (levelsOf p x)).emitted p s := by
  obtain ⟨-, -, u, hu, rfl⟩ := (Spi.takeSample_eq_ok ..).mp ht
  exact ⟨u, .of_doRows hu, rfl⟩

/-! ### The event port (10_state.md R66) -/

/-- The port adds events at the end. -/
theorem prefix_portEvents {base out : List OutEvent} (h : base <+: out) (bound : Bool) (n : Nat) :
    base <+: portEvents bound n base out := by
  obtain ⟨es, rfl⟩ := h
  rw [portEvents_append]
  exact List.prefix_append ..

/-- With the bound on, what the port adds starts no later than the sample. -/
theorem portEvents_bounded {base out : List OutEvent} (h : base <+: out) (n : Nat) :
    ∀ e ∈ (portEvents true n base out).drop base.length, e.span.ss ≤ (n : Rat) := by
  obtain ⟨es, rfl⟩ := h
  rw [portEvents_append]
  simpa using fun e _ => OutEvent.boundBy_ss_le n e

end Sys2Proof.Machine

end

/-! ## What the operations inside an I2C step keep (10_state.md R22, R66) -/

section

namespace Sys2Proof.Machine

open Sys2Proof

/-- From `s` to `t` events are only added, and the sample index and the flag of the first sample stay:
every operation of a step before its epilogue. -/
structure I2c.Grows (s t : I2c) : Prop where
  n : t.n = s.n
  first : t.first = s.first
  out : s.out <+: t.out

/-- Besides, the open transfer and its phase stay: every operation of a byte. -/
structure I2c.KeepsTransfer (s t : I2c) : Prop extends s.Grows t where
  active : t.active = s.active
  tStart : t.tStart = s.tStart
  phaseNo : t.phaseNo = s.phaseNo

/-- Besides, the pending bits, what awaits its acknowledge bit, and the number of records stay: every
operation of the header decoder. -/
structure I2c.Keeps (s t : I2c) : Prop extends s.KeepsTransfer t where
  bitcnt : t.bitcnt = s.bitcnt
  bitStarts : t.bitStarts = s.bitStarts
  ackIdx : t.ackIdx = s.ackIdx
  length : t.xfer.length = s.xfer.length

/-- From `s` to `t` events are only added, and nothing else changes but the datalink and APDU registers
and the frames and APDUs that ended (10_state.md R35 to R37). -/
structure I2c.DlOnly (s t : I2c) : Prop where
  rest : t = { s with
    dl := t.dl, ap := t.ap, dlDone := t.dlDone, apduDone := t.apduDone, out := t.out }
  out : s.out <+: t.out

/-- From `s` to `t` events are only added, and nothing else changes but the APDU registers and the APDUs
that ended (10_state.md R36, R37). -/
structure I2c.ApOnly (s t : I2c) : Prop where
  rest : t = { s with ap := t.ap, apduDone := t.apduDone, out := t.out }
  out : s.out <+: t.out

variable {p : I2cParams} {s t u : I2c} {k : Nat}

theorem I2c.KeepsTransfer.trans (h : s.KeepsTransfer t) (h' : t.KeepsTransfer u) :
    s.KeepsTransfer u where
  n := h'.n.trans h.n
  out := h.out.trans h'.out
  first := h'.first.trans h.first
  active := h'.active.trans h.active
  tStart := h'.tStart.trans h.tStart
  phaseNo := h'.phaseNo.trans h.phaseNo

theorem I2c.Keeps.refl (s : I2c) : s.Keeps s where
  n := rfl
  out := List.prefix_refl _
  first := rfl
  active := rfl
  tStart := rfl
  phaseNo := rfl
  bitcnt := rfl
  bitStarts := rfl
  ackIdx := rfl
  length := rfl

theorem I2c.Keeps.trans (h : s.Keeps t) (h' : t.Keeps u) : s.Keeps u where
  toKeepsTransfer := h.toKeepsTransfer.trans h'.toKeepsTransfer
  bitcnt := h'.bitcnt.trans h.bitcnt
  bitStarts := h'.bitStarts.trans h.bitStarts
  ackIdx := h'.ackIdx.trans h.ackIdx
  length := h'.length.trans h.length

theorem I2c.DlOnly.refl (s : I2c) : s.DlOnly s :=
  ⟨rfl, List.prefix_refl _⟩

theorem I2c.DlOnly.trans (h : s.DlOnly t) (h' : t.DlOnly u) : s.DlOnly u where
  rest := by
    rw [h'.rest, h.rest]
  out := h.out.trans h'.out

theorem I2c.ApOnly.refl (s : I2c) : s.ApOnly s :=
  ⟨rfl, List.prefix_refl _⟩

theorem I2c.ApOnly.trans (h : s.ApOnly t) (h' : t.ApOnly u) : s.ApOnly u where
  rest := by
    rw [h'.rest, h.rest]
  out := h.out.trans h'.out

theorem I2c.ApOnly.dlOnly (h : s.ApOnly t) : s.DlOnly t where
  rest := by
    rw [h.rest]
  out := h.out

theorem I2c.DlOnly.keeps (h : s.DlOnly t) : s.Keeps t where
  first := by rw [h.rest]
  active := by rw [h.rest]
  tStart := by rw [h.rest]
  phaseNo := by rw [h.rest]
  n := by rw [h.rest]
  bitcnt := by rw [h.rest]
  bitStarts := by rw [h.rest]
  ackIdx := by rw [h.rest]
  length := by rw [h.rest]
  out := h.out

theorem I2c.apOnly_emit (s : I2c) (sp : Span) (e : Event) : s.ApOnly (s.emit sp e) :=
  ⟨rfl, List.prefix_append ..⟩

theorem I2c.dlOnly_emit (s : I2c) (sp : Span) (e : Event) : s.DlOnly (s.emit sp e) :=
  ⟨rfl, List.prefix_append ..⟩

theorem I2c.dlOnly_emitAll (s : I2c) (es : List OutEvent) : s.DlOnly (s.emitAll es) :=
  ⟨rfl, List.prefix_append ..⟩

theorem I2c.dlOnly_diag (s : I2c) (c : DiagCode) (sp : Span) (i : Nat) : s.DlOnly (s.diag c sp i) :=
  s.dlOnly_emit _ _

theorem I2c.dlOnly_setDst (s : I2c) (q : DlSt) :
    s.DlOnly { s with dl := { s.dl with dst := q } } :=
  ⟨rfl, List.prefix_refl _⟩

theorem I2c.Keeps.bufUpdate {f : I2cByteRec → I2cByteRec} (ht : s.bufUpdate k f = .ok t) :
    s.Keeps t := by
  obtain ⟨-, rfl⟩ := (I2c.bufUpdate_eq_ok ..).mp ht
  exact { I2c.Keeps.refl s with length := by simp }

/-! ### The APDU and the datalink frame (44_datalink_apdu.md) -/

theorem I2c.DlOnly.dlFinish {d : Dir} {c : Bool} (ht : s.dlFinish k d c = .ok t) :
    s.DlOnly t := by
  obtain ⟨f, -, rfl⟩ := (I2c.dlFinish_eq_ok ..).mp ht
  exact ⟨rfl, List.prefix_refl _⟩

theorem I2c.ApOnly.apduFinish {d : Dir} {c : Bool} (ht : s.apduFinish k d c = .ok t) :
    s.ApOnly t := by
  obtain ⟨f, -, rfl⟩ := (I2c.apduFinish_eq_ok ..).mp ht
  exact ⟨rfl, List.prefix_refl _⟩

theorem I2c.DlOnly.payloadBegin {d : Dir} (ht : s.payloadBegin d = .ok t) : s.DlOnly t := by
  obtain ⟨c, -, rfl⟩ := (I2c.payloadBegin_eq_ok ..).mp ht
  exact ⟨rfl, List.prefix_refl _⟩

theorem I2c.ApOnly.apduCmd {v : Byte} {d : Dir} (ht : s.apduCmd p k v d = .ok t) : s.ApOnly t := by
  simp only [I2c.apduCmd, run_bind_eq_ok] at ht
  obtain ⟨sp, -, ht⟩ := ht
  cases ht
  split <;> exact ⟨rfl, List.prefix_append ..⟩

theorem I2c.ApOnly.apduParam {v : Byte} (ht : s.apduParam k v = .ok t) : s.ApOnly t := by
  simp only [I2c.apduParam, run_bind_eq_ok] at ht
  obtain ⟨sp, -, ht⟩ := ht
  cases ht
  exact ⟨rfl, List.prefix_append ..⟩

theorem I2c.ApOnly.apduLen0 {v : Byte} (ht : s.apduLen0 k v = .ok t) : s.ApOnly t := by
  simp only [I2c.apduLen0, run_bind_eq_ok] at ht
  obtain ⟨r, -, ht⟩ := ht
  cases ht
  exact ⟨rfl, List.prefix_refl _⟩

theorem I2c.ApOnly.apduLen1 {v : Byte} {d : Dir} (ht : s.apduLen1 p k v d = .ok t) :
    s.ApOnly t := by
  simp only [I2c.apduLen1, run_bind_eq_ok] at ht
  obtain ⟨r, -, ht⟩ := ht
  split at ht
  · refine I2c.ApOnly.trans ?_ (.apduFinish ht)
    exact ⟨rfl, List.prefix_append ..⟩
  · cases ht
    exact ⟨rfl, List.prefix_append ..⟩

theorem I2c.ApOnly.apduData {v : Byte} {d : Dir} (ht : s.apduData k v d = .ok t) : s.ApOnly t := by
  simp only [I2c.apduData, run_bind_eq_ok] at ht
  obtain ⟨sp, -, arem, -, ht⟩ := ht
  split at ht
  · refine I2c.ApOnly.trans ?_ (.apduFinish ht)
    exact ⟨rfl, List.prefix_append ..⟩
  · cases ht
    exact ⟨rfl, List.prefix_append ..⟩

theorem I2c.ApOnly.apduExcess (ht : s.apduExcess k = .ok t) : s.ApOnly t := by
  simp only [I2c.apduExcess, run_bind_eq_ok] at ht
  obtain ⟨sp, -, ht⟩ := ht
  cases ht
  exact s.apOnly_emit _ _

theorem I2c.ApOnly.apduByte {v : Byte} {d : Dir} (ht : s.apduByte p k v d = .ok t) :
    s.ApOnly t := by
  unfold I2c.apduByte at ht
  cases hst : s.ap.ast <;> rw [hst] at ht
  case cmd => exact .apduCmd ht
  case param => exact .apduParam ht
  case len0 => exact .apduLen0 ht
  case len1 => exact .apduLen1 ht
  case data => exact .apduData ht
  case done => exact .apduExcess ht

theorem I2c.DlOnly.dlFctr {v : Byte} (ht : s.dlFctr k v = .ok t) : s.DlOnly t := by
  simp only [I2c.dlFctr, run_bind_eq_ok] at ht
  obtain ⟨sp, -, ht⟩ := ht
  cases ht
  exact ⟨rfl, List.prefix_append ..⟩

theorem I2c.DlOnly.dlLen0 {v : Byte} (ht : s.dlLen0 k v = .ok t) : s.DlOnly t := by
  simp only [I2c.dlLen0, run_bind_eq_ok] at ht
  obtain ⟨r, -, ht⟩ := ht
  cases ht
  exact ⟨rfl, List.prefix_refl _⟩

theorem I2c.DlOnly.dlLen1 {v : Byte} (ht : s.dlLen1 k v = .ok t) : s.DlOnly t := by
  simp only [I2c.dlLen1, run_bind_eq_ok] at ht
  obtain ⟨r, -, ht⟩ := ht
  cases ht
  exact ⟨rfl, List.prefix_append ..⟩

theorem I2c.DlOnly.dlPctr {v : Byte} {d : Dir} (ht : s.dlPctr k v d = .ok t) : s.DlOnly t := by
  simp only [I2c.dlPctr, run_bind_eq_ok] at ht
  obtain ⟨sp, -, drem, -, ht⟩ := ht
  have h1 : s.DlOnly ({ s with dl := { s.dl with pctr := some v, drem := drem } }.emitAll
    (pctrEvents v sp)) := ⟨rfl, List.prefix_append ..⟩
  split at ht
  · cases ht
    exact h1.trans (I2c.dlOnly_setDst _ _)
  · split at ht
    · exact h1.trans (.payloadBegin ht)
    · cases ht
      exact h1.trans (I2c.dlOnly_setDst _ _)

theorem I2c.DlOnly.dlSctr {v : Byte} {d : Dir} (ht : s.dlSctr k v d = .ok t) : s.DlOnly t := by
  simp only [I2c.dlSctr, run_bind_eq_ok] at ht
  obtain ⟨sp, -, drem, -, ht⟩ := ht
  have h1 : s.DlOnly ({ s with dl := { s.dl with sctr := some v, drem := drem } }.emitAll
    (sctrEvents v sp)) := ⟨rfl, List.prefix_append ..⟩
  split at ht
  · exact h1.trans (.payloadBegin ht)
  · cases ht
    exact h1.trans (I2c.dlOnly_setDst _ _)

theorem I2c.ApOnly.cutApdu {d : Dir} (ht : s.cutApdu k d = .ok t) : s.ApOnly t := by
  unfold I2c.cutApdu at ht
  split at ht
  · simp only [run_bind_eq_ok] at ht
    obtain ⟨a, -, ra, -, r, -, ht⟩ := ht
    exact (s.apOnly_emit _ _).trans (.apduFinish ht)
  · cases ht
    exact .refl _

theorem I2c.DlOnly.countPayload {d : Dir} (ht : s.countPayload k d = .ok t) : s.DlOnly t := by
  simp only [I2c.countPayload, run_bind_eq_ok] at ht
  obtain ⟨drem, -, ht⟩ := ht
  have h1 : s.DlOnly { s with dl := { s.dl with dpay := s.dl.dpay + 1, drem := drem } } :=
    ⟨rfl, List.prefix_refl _⟩
  split at ht
  · rw [run_bind_eq_ok] at ht
    obtain ⟨u, hu, ht⟩ := ht
    cases ht
    exact h1.trans ((I2c.ApOnly.cutApdu hu).dlOnly.trans (u.dlOnly_setDst _))
  · cases ht
    exact h1

theorem I2c.DlOnly.dlPay {v : Byte} {d : Dir} (ht : s.dlPay p k v d = .ok t) : s.DlOnly t := by
  obtain ⟨sp, u, -, hu, ht⟩ := (I2c.dlPay_eq_ok ..).mp ht
  refine .trans ?_ (.countPayload ht)
  split at hu
  · exact (I2c.ApOnly.apduByte hu).dlOnly
  · cases hu
    exact s.dlOnly_emit _ _

theorem I2c.DlOnly.dlFcs0 {v : Byte} (ht : s.dlFcs0 k v = .ok t) : s.DlOnly t := by
  simp only [I2c.dlFcs0, run_bind_eq_ok] at ht
  obtain ⟨r, -, ht⟩ := ht
  cases ht
  exact ⟨rfl, List.prefix_refl _⟩

theorem I2c.DlOnly.dlFcs1 {v : Byte} {d : Dir} (ht : s.dlFcs1 k v d = .ok t) : s.DlOnly t := by
  simp only [I2c.dlFcs1, run_bind_eq_ok] at ht
  obtain ⟨r, -, ht⟩ := ht
  refine I2c.DlOnly.trans ?_ (.dlFinish ht)
  exact ⟨rfl, List.prefix_append ..⟩

theorem I2c.DlOnly.dlExcess {j : Nat} (ht : s.dlExcess k j = .ok t) : s.DlOnly t := by
  simp only [I2c.dlExcess, run_bind_eq_ok] at ht
  obtain ⟨sp, -, ht⟩ := ht
  cases ht
  exact s.dlOnly_diag _ _ _

theorem I2c.DlOnly.dlByte {j : Nat} {v : Byte} {d : Dir} (ht : s.dlByte p k j v d = .ok t) :
    s.DlOnly t := by
  unfold I2c.dlByte at ht
  cases hst : s.dl.dst <;> rw [hst] at ht
  case fctr => exact .dlFctr ht
  case len0 => exact .dlLen0 ht
  case len1 => exact .dlLen1 ht
  case pctr => exact .dlPctr ht
  case sctr => exact .dlSctr ht
  case pay => exact .dlPay ht
  case fcs0 => exact .dlFcs0 ht
  case fcs1 => exact .dlFcs1 ht
  case done => exact .dlExcess ht

theorem I2c.ApOnly.endApdu {d : Dir} (ht : s.endApdu k d = .ok t) : s.ApOnly t := by
  unfold I2c.endApdu at ht
  split at ht
  · rw [run_bind_eq_ok] at ht
    obtain ⟨ra, -, ht⟩ := ht
    exact (s.apOnly_emit _ _).trans (.apduFinish ht)
  · cases ht
    exact .refl _

theorem I2c.DlOnly.endPhase (ht : s.endPhase = .ok t) : s.DlOnly t := by
  rcases (I2c.endPhase_eq_ok ..).mp ht with
    ⟨-, rfl⟩ | ⟨f, last, d, u, rf, -, -, -, -, hu, -, ht⟩
  · exact .refl _
  · exact (I2c.ApOnly.endApdu hu).dlOnly.trans ((u.dlOnly_diag _ _ _).trans (.dlFinish ht))

/-! ### The link header and the bytes -/

theorem I2c.Keeps.addrByteIn {b : Byte} (ht : s.addrByteIn p k b = .ok t) : s.Keeps t := by
  simp only [I2c.addrByteIn, run_bind_eq_ok] at ht
  obtain ⟨u, hu, r, -, ht⟩ := ht
  have h1 := I2c.Keeps.bufUpdate hu
  cases ht
  exact { h1 with out := h1.out.trans (List.prefix_append ..) }

theorem I2c.Keeps.regNum {b : Byte} (ht : s.regNum p k b = .ok t) : s.Keeps t := by
  simp only [I2c.regNum, run_bind_eq_ok] at ht
  obtain ⟨u, hu, r, -, ht⟩ := ht
  have h1 := I2c.Keeps.bufUpdate hu
  cases ht
  split <;> exact { h1 with out := h1.out.trans (List.prefix_append ..) }

theorem I2c.Keeps.regData {v : Byte} (ht : s.regData p k v = .ok t) : s.Keeps t := by
  simp only [I2c.regData, run_bind_eq_ok] at ht
  obtain ⟨d, -, u, hu, r, -, ht⟩ := ht
  have h1 : s.Keeps u := { I2c.Keeps.bufUpdate hu with }
  split at ht
  · cases ht
    split
    · exact h1.trans (u.dlOnly_diag _ _ _).keeps
    · exact h1
  · split at ht
    · exact h1.trans ((u.dlOnly_emit _ _).trans (.dlByte ht)).keeps
    · cases ht
      exact h1.trans ((u.dlOnly_emit _ _).trans (I2c.dlOnly_emitAll _ _)).keeps

theorem I2c.Keeps.headerByte {r : I2cByteRec} (ht : s.headerByte p r = .ok t) : s.Keeps t := by
  simp only [I2c.headerByte, run_bind_eq_ok] at ht
  obtain ⟨idx, -, ht⟩ := ht
  split at ht
  · exact .addrByteIn ht
  · split at ht
    · exact .bufUpdate ht
    · split at ht
      · exact .regNum ht
      · exact .regData ht

theorem I2c.KeepsTransfer.completeByte {tr : Bool} {lastEnd : Option Nat}
    (ht : s.completeByte p tr lastEnd = .ok t) : s.KeepsTransfer t := by
  obtain ⟨start, stop, ends, r, u, -, -, hu, ht⟩ := (I2c.completeByte_eq_ok ..).mp ht
  obtain ⟨-, rfl⟩ := (I2c.bufAppend_eq_ok ..).mp hu
  refine .trans ?_ (I2c.Keeps.headerByte ht).toKeepsTransfer
  split <;> exact { I2c.Keeps.refl s with out := List.prefix_append .. }

theorem I2c.keepsTransfer_clearBits (s : I2c) : s.KeepsTransfer s.clearBits :=
  { I2c.Keeps.refl s with }

theorem I2c.KeepsTransfer.partialAtCondition (ht : s.partialAtCondition p = .ok t) :
    s.KeepsTransfer t := by
  unfold I2c.partialAtCondition at ht
  split at ht
  · simp only [run_bind_eq_ok] at ht
    obtain ⟨b0, -, u, hu, ht⟩ := ht
    cases ht
    exact (s.dlOnly_diag _ _ _).keeps.toKeepsTransfer.trans
      ((I2c.KeepsTransfer.completeByte hu).trans u.keepsTransfer_clearBits)
  · cases ht
    exact s.keepsTransfer_clearBits

/-- The events of the aggregator pass, none without a byte (45_aggregator.md R350 to R354). -/
def I2c.summaryEvents (p : I2cParams) (s : I2c) : List OutEvent :=
  match evenWidth s.tStart s.n s.xfer.length with
  | none => []
  | some w => ⟨spanOf s.tStart s.n, .i2cXferSum (s.xferSum p)⟩
      :: (s.phases.filterMap (s.regLenEvent p)
        ++ s.dlDone.map (fun d => ⟨evenSpan s.tStart w d.first d.last, .dlSum d⟩)
        ++ s.apduDone.map fun a => ⟨evenSpan s.tStart w a.first a.last, .apduSum a⟩)

/-- The aggregator pass adds its events and clears what ended (45_aggregator.md R350, R356). -/
theorem I2c.aggregate_eq (p : I2cParams) (s : I2c) : s.aggregate p =
    { s with dlDone := [], apduDone := [], out := s.out ++ s.summaryEvents p } := by
  have h : s.summaries p = s.emitAll (s.summaryEvents p) := by
    cases hw : evenWidth s.tStart s.n s.xfer.length <;>
      simp [I2c.summaries, I2c.summaryEvents, hw, I2c.emit, I2c.emitAll]
  rw [I2c.aggregate, h]
  rfl

/-! ### A whole I2C step -/

theorem I2c.grows_startCond (s : I2c) : s.Grows s.startCond :=
  ⟨rfl, rfl, (List.prefix_append ..).trans (List.prefix_append ..)⟩

theorem I2c.Grows.rstartCond (ht : s.rstartCond p = .ok t) : s.Grows t := by
  simp only [I2c.rstartCond, run_bind_eq_ok] at ht
  obtain ⟨u, hu, v, hv, ht⟩ := ht
  have h := (I2c.KeepsTransfer.partialAtCondition hu).trans
    (I2c.DlOnly.endPhase hv).keeps.toKeepsTransfer
  cases ht
  exact ⟨h.n, h.first, h.out.trans (List.prefix_append ..)⟩

theorem I2c.Grows.stopCond (ht : s.stopCond p = .ok t) : s.Grows t := by
  simp only [I2c.stopCond, run_bind_eq_ok] at ht
  obtain ⟨u, hu, v, hv, ht⟩ := ht
  have h := (I2c.KeepsTransfer.partialAtCondition hu).trans
    (I2c.DlOnly.endPhase hv).keeps.toKeepsTransfer
  cases ht
  rw [I2c.aggregate_eq]
  refine ⟨h.n, h.first, h.out.trans (.trans ?_ (List.prefix_append ..))⟩
  exact (List.prefix_append ..).trans (List.prefix_append ..)

theorem I2c.Grows.bit {x : I2cSample} (ht : s.bit p x = .ok t) : s.Grows t := by
  simp only [I2c.bit] at ht
  split at ht
  · exact { (I2c.KeepsTransfer.completeByte ht).toGrows with }
  · cases ht
    exact { (I2c.Keeps.refl s).toGrows with }

theorem I2c.Keeps.writeAck {ack : Bool} (ht : s.writeAck ack = .ok t) : s.Keeps t := by
  unfold I2c.writeAck at ht
  split at ht
  · exact .bufUpdate ht
  · cases ht
    exact .refl _

theorem I2c.Grows.ackBit {x : I2cSample} (ht : s.ackBit x = .ok t) : s.Grows t := by
  simp only [I2c.ackBit, run_bind_eq_ok] at ht
  obtain ⟨b7, -, w, -, u, hu, ht⟩ := ht
  have h := (s.dlOnly_emit (spanOf s.n (s.n + w)) (.ack !x.sda)).keeps.trans (.writeAck hu)
  cases ht
  exact (h.toKeepsTransfer.trans u.keepsTransfer_clearBits).toGrows

/-- What a sample does before the end of its step, where it does anything: from `s` to the stack `t`
(40_sampler.md R151 to R155). -/
inductive I2c.SampleOp (p : I2cParams) (x : I2cSample) (s : I2c) : I2c → Prop
  | start : s.active = false → I2c.SampleOp p x s s.startCond
  | rstart {t : I2c} : s.active = true → s.rstartCond p = .ok t → I2c.SampleOp p x s t
  | stop {t : I2c} : s.active = true → s.stopCond p = .ok t → I2c.SampleOp p x s t
  | bit {t : I2c} : s.active = true → s.bitcnt < 8 → s.bit p x = .ok t → I2c.SampleOp p x s t
  | ack {t : I2c} : s.active = true → 8 ≤ s.bitcnt → s.ackBit x = .ok t → I2c.SampleOp p x s t

theorem I2c.SampleOp.grows {x : I2cSample} (h : I2c.SampleOp p x s t) : s.Grows t := by
  cases h with
  | start => exact s.grows_startCond
  | rstart _ ht => exact .rstartCond ht
  | stop _ ht => exact .stopCond ht
  | bit _ _ ht => exact .bit ht
  | ack _ _ ht => exact .ackBit ht

/-- The baseline condition holds exactly of the first sample (30_encoding.md R94). -/
theorem i2cHit_eq_baseline_iff (first : Bool) (prevScl prevSda : Bit) (x : I2cSample) :
    i2cHit (ci5 first prevScl prevSda x) = some .baseline ↔ first = true := by
  rcases x with ⟨scl, sda⟩
  revert first prevScl prevSda scl sda
  decide

/-- An operation and the end of its step. -/
theorem I2c.finish_eq_ok (p : I2cParams) (x : I2cSample) (s : I2c) (r : Run I2c) (t : I2c) :
    s.finish p x r = .ok t ↔ ∃ u, r = .ok u ∧ t = (u.epilogue x).emitted p s := by
  simp only [I2c.finish, run_bind_eq_ok, Except.ok.injEq, eq_comm (b := t)]

/-- What an I2C step can do: the baseline of the first sample, the epilogue alone, or an operation and
the end of the step (40_sampler.md R150 to R158). -/
theorem I2c.takeSample_cases {x : I2cSample} (ht : s.takeSample p x = .ok t) :
    (s.first = true ∧ t = s.baseline x) ∨ (s.first = false ∧ t = s.epilogue x)
      ∨ ∃ u, s.first = false ∧ I2c.SampleOp p x s u ∧ t = (u.epilogue x).emitted p s := by
  unfold I2c.takeSample at ht
  split at ht
  · cases ht
  have hbase := i2cHit_eq_baseline_iff s.first s.prevScl s.prevSda x
  generalize i2cHit (ci5 s.first s.prevScl s.prevSda x) = c at ht hbase
  by_cases hc : c = some .baseline
  · subst hc
    cases ht
    exact .inl ⟨hbase.mp rfl, rfl⟩
  have hfirst : s.first = false := by simpa using fun h => hc (hbase.mpr h)
  have hop : ∀ r, s.finish p x r = .ok t → (∀ u, r = .ok u → I2c.SampleOp p x s u) →
      ∃ u, s.first = false ∧ I2c.SampleOp p x s u ∧ t = (u.epilogue x).emitted p s := by
    intro r hr hs
    obtain ⟨u, hu, rfl⟩ := (I2c.finish_eq_ok ..).mp hr
    exact ⟨u, hfirst, hs u hu, rfl⟩
  refine .inr ?_
  rcases c with _ | _ | _ | _ | _ <;> simp only [I2c.takeCond] at ht
  case none =>
    cases ht
    exact .inl ⟨hfirst, rfl⟩
  case some.baseline => exact absurd rfl hc
  case some.start =>
    split at ht
    · next hact => exact .inr (hop _ ht fun u hu => .rstart hact hu)
    · next hact =>
      refine .inr (hop _ ht fun u hu => ?_)
      cases hu
      exact .start (by simpa using hact)
  case some.stop =>
    split at ht
    · next hact => exact .inr (hop _ ht fun u hu => .stop hact hu)
    · cases ht
      exact .inl ⟨hfirst, rfl⟩
  case some.bit =>
    split at ht
    · next hact =>
      split at ht
      · next h8 => exact .inr (hop _ ht fun u hu => .ack hact h8 hu)
      · next h8 => exact .inr (hop _ ht fun u hu => .bit hact (by omega) hu)
    · cases ht
      exact .inl ⟨hfirst, rfl⟩

/-- An I2C step counts the sample. -/
theorem I2c.takeSample_n {x : I2cSample} (ht : s.takeSample p x = .ok t) : t.n = s.n + 1 := by
  rcases I2c.takeSample_cases ht with ⟨-, rfl⟩ | ⟨-, rfl⟩ | ⟨u, -, hu, rfl⟩
  · rfl
  · rfl
  · simp [hu.grows.n]

/-- What an I2C step leaves at the event port: nothing new, or what its operation emits. -/
theorem I2c.takeSample_out {x : I2cSample} (ht : s.takeSample p x = .ok t) :
    t.out = s.out ∨ ∃ u, I2c.SampleOp p x s u ∧ t.out = portEvents p.boundStarts s.n s.out u.out := by
  rcases I2c.takeSample_cases ht with ⟨-, rfl⟩ | ⟨-, rfl⟩ | ⟨u, -, hu, rfl⟩
  · exact .inl rfl
  · exact .inl rfl
  · exact .inr ⟨u, hu, rfl⟩

end Sys2Proof.Machine

end

/-! ## What a step of the machine can do -/

section

namespace Sys2Proof.Machine

open Sys2Proof

/-- The ways a step goes on from `s`: nothing waits, a sample of one stack, a reset, or parameters
(10_state.md R20 to R25, 70_reset_and_hazards.md R405). -/
inductive StepTo (s : State) : State → Prop
  | nothing : s.port = [] → StepTo s s
  | spi {w : BitVec 4} {rest : List PortInput} {u : Spi} : s.port = .spi w :: rest →
      s.spi.takeSample s.cfg.spi (spiSampleOfWord w) = .ok u →
      StepTo s { s with port := rest, spi := u }
  | i2c {w : BitVec 2} {rest : List PortInput} {u : I2c} : s.port = .i2c w :: rest →
      s.i2c.takeSample s.cfg.i2c (i2cSampleOfWord w) = .ok u →
      StepTo s { s with port := rest, i2c := u }
  | reset {rest : List PortInput} : s.port = .reset :: rest →
      StepTo s { s with
        port := rest
        spi := { Spi.reset with out := s.spi.out }
        i2c := { I2c.reset with out := s.i2c.out }
        readOut := none }
  | params {c : Config} {rest : List PortInput} : s.port = .params c :: rest →
      (s.spi.first = true ∨ c.spi = s.cfg.spi) → (s.i2c.first = true ∨ c.i2c = s.cfg.i2c) →
      StepTo s { s with port := rest, cfg := c }

/-- Every step that goes on is one of these. -/
theorem StepTo.of_step {s t : State} (h : step s = .next t) : StepTo s t := by
  unfold step at h
  split at h
  · next hport =>
    cases h
    exact .nothing hport
  · next a rest hport =>
    cases a with
    | spi w =>
      simp only [takeInput, spiStep_eq_onSpi, onSpi_eq_next] at h
      obtain ⟨u, hu, rfl⟩ := h
      exact .spi hport hu
    | i2c w =>
      simp only [takeInput, i2cStep_eq_onI2c, onI2c_eq_next] at h
      obtain ⟨u, hu, rfl⟩ := h
      exact .i2c hport hu
    | reset =>
      cases h
      exact .reset hport
    | params c =>
      simp only [takeInput, takeParams] at h
      split at h
      · next hc =>
        cases h
        exact .params hport hc.1 hc.2
      · cases h

end Sys2Proof.Machine

open Sys2Proof Sys2Proof.Machine

/-- Settles O7: the first input decides, and what its stack checks first. -/
theorem stepTakesOtherInputsOrRefuses : Obligations.StepTakesOtherInputsOrRefuses := by
  unfold Obligations.StepTakesOtherInputsOrRefuses
  intro s rest
  refine ⟨fun h => by rw [step, h], fun h => by rw [step, h]; rfl, fun c h hs hi => ?_,
    fun c h hc => ?_, fun x h hmosi hmiso => ?_, fun x w h hmosi hw hn => ?_,
    fun x w h hw hn => ?_⟩ <;> simp only [step, h, takeInput]
  · simp [takeParams, hs, hi]
  · rcases hc with ⟨hf, hc⟩ | ⟨hf, hc⟩ <;> simp [takeParams, hf, hc]
  · simp [spiStep, hasDataLane, hmosi, hmiso]
  · simp [spiStep, hasDataLane, hmosi, streamTooLong, hw, hn]
  · simp [i2cStep, streamTooLong, hw, hn]

/-- Settles O16: the epilogue of a step counts the sample, and only a reset clears the count. -/
theorem sampleIndexCountsSamples : Obligations.SampleIndexCountsSamples := by
  unfold Obligations.SampleIndexCountsSamples
  intro s t hst
  cases StepTo.of_step hst with
  | nothing hport => simp [hport]
  | spi hport hu =>
    obtain ⟨v, hv, rfl⟩ := Spi.takeSample_cases hu
    simp [hport, hv.grows.n]
  | i2c hport hu => simp [hport, I2c.takeSample_n hu]
  | reset hport => simp [hport, Spi.reset, I2c.reset]
  | params hport _ _ => simp [hport]

/-- Settles O13: the event port bounds what a step emits, and nothing else adds events. -/
theorem eventStartsBySampleOfItsStep : Obligations.EventStartsBySampleOfItsStep := by
  unfold Obligations.EventStartsBySampleOfItsStep
  intro s t hst
  cases StepTo.of_step hst with
  | nothing _ => simp
  | spi _ hu =>
    obtain ⟨v, hv, rfl⟩ := Spi.takeSample_cases hu
    refine ⟨fun hbound => ?_, by simp⟩
    simpa [hbound] using portEvents_bounded hv.grows.out s.spi.n
  | i2c _ hu =>
    refine ⟨by simp, fun hbound => ?_⟩
    rcases I2c.takeSample_out hu with hout | ⟨v, hv, hout⟩
    · simp [hout]
    · simpa [hout, hbound] using portEvents_bounded hv.grows.out s.i2c.n
  | reset _ => simp
  | params _ _ _ => simp

end

/-! ## Events that start by their sample (10_state.md R66): what both stacks share -/

section

namespace Sys2Proof.Machine

open Sys2Proof

/-- `out` is `base` and then only events of which none but a late bit field starts after sample `n`. -/
def GrowsBy (n : Nat) (base out : List OutEvent) : Prop :=
  ∃ es, out = base ++ es ∧ ∀ e ∈ es, e.event.lateField = false → e.span.ss ≤ (n : Rat)

theorem GrowsBy.refl (n : Nat) (base : List OutEvent) : GrowsBy n base base :=
  ⟨[], by simp, by simp⟩

/-- Events that start by the sample may follow. -/
theorem GrowsBy.append {n : Nat} {base out es : List OutEvent} (h : GrowsBy n base out)
    (hes : ∀ e ∈ es, e.event.lateField = false → e.span.ss ≤ (n : Rat)) :
    GrowsBy n base (out ++ es) := by
  obtain ⟨es0, rfl, h0⟩ := h
  refine ⟨es0 ++ es, by simp, fun e he => ?_⟩
  rcases List.mem_append.mp he with he | he
  · exact h0 e he
  · exact hes e he

/-- One event that starts by the sample may follow. -/
theorem GrowsBy.concat {n : Nat} {base out : List OutEvent} (h : GrowsBy n base out) {sp : Span}
    (hsp : sp.ss ≤ (n : Rat)) (e : Event) : GrowsBy n base (out ++ [⟨sp, e⟩]) :=
  h.append (by simpa using fun _ => hsp)

/-- One late bit field may follow. -/
theorem GrowsBy.concat_late {n : Nat} {base out : List OutEvent} (h : GrowsBy n base out) (sp : Span)
    {e : Event} (he : e.lateField = true) : GrowsBy n base (out ++ [⟨sp, e⟩]) :=
  h.append (by simp [he])

/-- The port moves no start to the right. -/
theorem GrowsBy.portEvents {n : Nat} {base out : List OutEvent} (h : GrowsBy n base out)
    (bound : Bool) : GrowsBy n base (portEvents bound n base out) := by
  obtain ⟨es, rfl, hes⟩ := h
  rw [portEvents_append]
  refine ⟨_, rfl, ?_⟩
  cases bound
  · exact hes
  · simpa using fun e _ _ => OutEvent.boundBy_ss_le n e

theorem GrowsBy.drop {n : Nat} {base out : List OutEvent} (h : GrowsBy n base out) :
    ∀ e ∈ out.drop base.length, e.event.lateField = false → e.span.ss ≤ (n : Rat) := by
  obtain ⟨es, rfl, hes⟩ := h
  simpa using hes

/-- The span of two samples of which the first is not after `n` starts by `n`. -/
theorem spanOf_ss_le {a n : Nat} (h : a ≤ n) (b : Nat) : (spanOf a b).ss ≤ (n : Rat) := by
  simpa [spanOf] using h

/-- A byte's end is extrapolated by at most what its bits span, so the first half of the byte starts by
the sample `n` that completes it (41_byte_assembler.md R171). -/
theorem subSpan_ss_le {start stop n off : Nat} (hstart : start ≤ n) (hmid : start + stop ≤ 2 * n)
    (hoff : off ≤ 4) (w : Nat) : (subSpan (spanOf start stop) off w).ss ≤ (n : Rat) := by
  have h1 : (start : Rat) ≤ n := by exact_mod_cast hstart
  have h2 : (start : Rat) + stop ≤ 2 * n := by exact_mod_cast hmid
  have h3 : (off : Rat) ≤ 4 := by exact_mod_cast hoff
  have h4 : 0 ≤ (off : Rat) := Nat.cast_nonneg off
  simp only [subSpan, spanOf]
  nlinarith [mul_nonneg (sub_nonneg.mpr h3) (sub_nonneg.mpr h1),
    mul_nonneg h4 (sub_nonneg.mpr h2)]

/-- The events of one lane start with their byte. -/
theorem laneEvents_ss_le (lane : Lane) (v : Byte) (starts ends : List Nat) {start n : Nat}
    (h : start ≤ n) (stop : Nat) (tr : Bool) :
    ∀ e ∈ laneEvents lane v starts ends start stop tr, e.span.ss ≤ (n : Rat) := by
  simp only [laneEvents, List.mem_cons, List.not_mem_nil, or_false]
  rintro e (rfl | rfl) <;> exact spanOf_ss_le h stop

/-- Every event of a register byte's fields is a late bit field. -/
theorem fieldEvents_late (f : RegFields) (reg : Nat) (d : Dir) (i : Nat) (x : Byte) (sp : Span) :
    ∀ e ∈ fieldEvents f reg d i x sp, e.event.lateField = true := by
  simp only [fieldEvents, List.mem_flatMap]
  rintro e ⟨r, -, he⟩
  split at he <;> simp only [List.mem_cons, List.not_mem_nil, or_false] at he
  · rw [he]
    rfl
  · rcases he with rfl | rfl <;> rfl

/-- How a byte of sample `n` ends: at a condition after its bits, or with at least two bits of which the
last is at `n` (41_byte_assembler.md R173, R175). -/
def EndsAt (n : Nat) (starts : List Nat) (lastEnd : Option Nat) : Prop :=
  (lastEnd = some n ∧ ∀ b ∈ starts, b < n)
    ∨ (lastEnd = none ∧ starts.getLast? = some n ∧ 2 ≤ starts.length)

/-- A byte ends after it starts, and at most as long after its sample as it starts before it
(41_byte_assembler.md R171, R176). -/
theorem lastBitEnd_bounds {starts : List Nat} {lastEnd : Option Nat} {n start stop : Nat}
    (hrise : starts.Pairwise (· < ·)) (hhead : starts.head? = some start)
    (hend : EndsAt n starts lastEnd) (h : lastBitEnd starts lastEnd = .ok stop) :
    start < stop ∧ start + stop ≤ 2 * n ∧ start ≤ n := by
  rcases hend with ⟨rfl, hlt⟩ | ⟨rfl, hlast, hlen⟩
  · have := hlt start (List.mem_of_mem_head? hhead)
    cases h
    omega
  · obtain ⟨l, a, b, rfl⟩ : ∃ l a b, starts = l ++ [a, b] := by
      rcases hrev : starts.reverse with _ | ⟨b, _ | ⟨a, l⟩⟩
      · simp_all
      · have := congrArg List.length hrev
        simp at this
        omega
      · exact ⟨l.reverse, a, b, by rw [← List.reverse_reverse starts, hrev]; simp⟩
    simp only [lastBitEnd, List.reverse_append, List.reverse_cons, List.reverse_nil,
      List.nil_append, List.cons_append, run_bind_eq_ok, natSub_eq_ok, Except.ok.injEq] at h
    obtain ⟨w, ⟨hab, rfl⟩, rfl⟩ := h
    obtain rfl : b = n := by simpa using hlast
    have hlt : a < b := by
      rw [List.pairwise_append] at hrise
      simpa using hrise.2.1
    have hle : start ≤ a := by
      rcases l with _ | ⟨c, l⟩
      · simp_all
      · rw [List.pairwise_append] at hrise
        have := hrise.2.2 c (by simp) a (by simp)
        simp_all
        omega
    omega

end Sys2Proof.Machine

end

/-! ## The framer keeps its invariant (43_command_framer.md R249)

A sound stack is sound between steps. Inside a step its bounds by "before the next sample" are read with
the sample already counted (`Spi.counted`): those the epilogue then has nothing to add to. -/

section

namespace Sys2Proof.Machine

open Sys2Proof

/-- The stack with the sample in hand counted, as the epilogue will count it (40_sampler.md R134). -/
abbrev Spi.counted (s : Spi) : Spi := { s with n := s.n + 1 }

/-- The byte in hand is the last record of an open transfer, at index `k`; the frames are sound, and so
are the events since `base`. -/
structure Spi.ByteIn (base : List OutEvent) (k : Nat) (s : Spi) : Prop where
  last : k + 1 = s.xfer.length
  active : s.active = true
  tStart_le : s.tStart ≤ s.n
  recs : ∀ r ∈ s.xfer, s.tStart ≤ r.start ∧ r.start < r.stop ∧ r.start ≤ s.n
  events : GrowsBy s.n base s.out
  frames : s.counted.FrameAtInv

/-- Besides, the framer is between two bytes. -/
structure Spi.FramedByte (base : List OutEvent) (k : Nat) (s : Spi) : Prop
    extends Spi.ByteIn base k s where
  framer : s.counted.FramerInv

/-- The framer before a byte of a frame's header, of which it has taken `fh` (43_command_framer.md R242
to R245). -/
structure Spi.HdrAwaits (s : Spi) : Prop where
  fst : s.fst = .hdr
  fStart : s.fStart.isSome = true
  fdir : s.fdir = none
  pcount : s.pcount = 0
  remaining : s.remaining = 0#32
  fseq : 1 ≤ s.fseq
  fh_le : s.fh ≤ 9
  field : s.fh = 0 ∨ s.fFieldStart ≤ s.n
  short_before : s.fh < 6 → s.fshort = false
  short_after : 6 ≤ s.fh → (s.fshort = true ↔ s.len.toNat < tpmHdrSize)

/-- The framer with byte `fh` of a frame's header taken and the field it may complete not yet dealt
with. -/
structure Spi.HdrTaken (s : Spi) : Prop where
  fst : s.fst = .hdr
  fStart : s.fStart.isSome = true
  fdir : s.fdir = none
  pcount : s.pcount = 0
  remaining : s.remaining = 0#32
  fseq : 1 ≤ s.fseq
  fh_pos : 1 ≤ s.fh
  fh_le : s.fh ≤ 10
  field : s.fFieldStart ≤ s.n
  short_before : s.fh ≤ 6 → s.fshort = false
  short_after : 6 < s.fh → (s.fshort = true ↔ s.len.toNat < tpmHdrSize)

variable {p : SpiParams} {base : List OutEvent} {k : Nat} {s t : Spi}

theorem Spi.FramedByte.emit (h : s.FramedByte base k) {sp : Span} (hsp : sp.ss ≤ (s.n : Rat))
    (e : Event) : (s.emit sp e).FramedByte base k :=
  { h with events := h.events.concat hsp e }

theorem Spi.FramedByte.emitAll (h : s.FramedByte base k) {es : List OutEvent}
    (hes : ∀ e ∈ es, e.event.lateField = false → e.span.ss ≤ (s.n : Rat)) :
    (s.emitAll es).FramedByte base k :=
  { h with events := h.events.append hes }

/-- A record's update that leaves its span. -/
theorem Spi.ByteIn.bufUpdate (h : s.ByteIn base k) {f : SpiByteRec → SpiByteRec}
    (hf : ∀ r, (f r).start = r.start ∧ (f r).stop = r.stop) {i : Nat} (ht : s.bufUpdate i f = .ok t) :
    t.ByteIn base k := by
  obtain ⟨-, rfl⟩ := (Spi.bufUpdate_eq_ok ..).mp ht
  refine { h with last := by simpa using h.last, recs := ?_, frames := ?_ }
  · exact forall_mem_modify (fun r hr => by rwa [(hf r).1, (hf r).2]) h.recs i
  · simp only [Spi.FrameAtInv, List.length_modify]
    exact h.frames

theorem Spi.FramedByte.bufUpdate (h : s.FramedByte base k) {f : SpiByteRec → SpiByteRec}
    (hf : ∀ r, (f r).start = r.start ∧ (f r).stop = r.stop) {i : Nat} (ht : s.bufUpdate i f = .ok t) :
    t.FramedByte base k := by
  have h1 := h.toByteIn.bufUpdate hf ht
  obtain ⟨-, rfl⟩ := (Spi.bufUpdate_eq_ok ..).mp ht
  exact { h1 with framer := h.framer }

/-- The byte in hand starts by the sample. -/
theorem Spi.ByteIn.start_le (h : s.ByteIn base k) {i : Nat} {r : SpiByteRec}
    (hr : s.bufRead i = .ok r) : r.start ≤ s.n :=
  (h.recs r (List.mem_of_getElem? ((Spi.bufRead_eq_ok ..).mp hr))).2.2

/-! ### The end of a frame -/

/-- A frame that ends with the payload its length declares (43_command_framer.md R248, R249). -/
theorem Spi.ByteIn.closeFrame (h : s.ByteIn base k)
    (hshort : s.fshort = true ↔ s.len.toNat < tpmHdrSize)
    (hcount : s.pcount = s.len.toNat - tpmHdrSize) (ht : s.closeFrame k = .ok t) :
    t.FramedByte base k := by
  obtain ⟨d, a, -, ha, rfl⟩ := (Spi.closeFrame_eq_ok ..).mp ht
  obtain ⟨hstart, hclosed⟩ := h.frames
  have hlast := h.last
  have hact := h.active
  refine { h with
    frames := ⟨by simp, fun f hf => ?_⟩
    framer := ⟨fun _ => ⟨rfl, rfl⟩, by simp, by simp, by simp, by simp, by simp⟩ }
  rcases List.mem_append.mp hf with hf | hf
  · exact hclosed f hf
  · rw [List.mem_singleton.mp hf]
    refine ⟨⟨hshort, hcount⟩, le_rfl, Nat.lt_of_succ_le hlast.le, ?_⟩
    have hok := hstart a ha
    rcases a with i | r
    · simp only [FrameStart.ok, Bool.and_eq_true, decide_eq_true_eq] at hok
      simp only [FrameInfo.startOk, decide_eq_true_eq]
      omega
    · simp_all [FrameStart.ok, FrameInfo.startOk]

/-! ### A header byte -/

theorem Spi.FramedByte.hdrAwaits (h : s.FramedByte base k) (hst : s.fst = .hdr) : s.HdrAwaits := by
  obtain ⟨-, hhdr, -, hbefore, hafter, hopen⟩ := h.framer
  obtain ⟨hstart, -, hle, hdir, hcount, hrem⟩ := hhdr hst
  obtain ⟨hfield, hseq⟩ := hopen (by simp [hst])
  exact
    { fst := hst, fStart := hstart, fdir := hdir, pcount := hcount, remaining := hrem, fseq := hseq
      fh_le := hle
      field := .inr (Nat.le_of_lt_succ hfield)
      short_before := hbefore hst
      short_after := hafter hst }

theorem Spi.hdrAwaits_tpmStart (s : Spi) (k : Nat) : (s.tpmStart k).HdrAwaits where
  fst := rfl
  fStart := rfl
  fdir := rfl
  pcount := rfl
  remaining := rfl
  fseq := Nat.le_add_left ..
  fh_le := by simp [Spi.tpmStart]
  field := .inl rfl
  short_before := fun _ => rfl
  short_after := by simp [Spi.tpmStart]

/-- A header byte that completes neither the length nor the code. -/
theorem Spi.HdrTaken.framerInv (h : s.HdrTaken) (h6 : s.fh ≠ 6) (h10 : s.fh ≠ 10) :
    s.counted.FramerInv := by
  have hpos := h.fh_pos
  have hle := h.fh_le
  refine ⟨by simp [h.fst], fun _ => ⟨h.fStart, hpos, ?_, h.fdir, h.pcount, h.remaining⟩,
    by simp [h.fst], fun _ hfh => h.short_before hfh.le, fun _ hfh => h.short_after ?_,
    fun _ => ⟨Nat.lt_succ_of_le h.field, h.fseq⟩⟩
  · change s.fh ≤ 9
    omega
  · change 6 ≤ s.fh at hfh
    omega

theorem Spi.ByteIn.tpmTagDone (h : s.ByteIn base k) (hin : s.HdrTaken) (h2 : s.fh = 2) (stop : Nat) :
    (s.tpmTagDone p (spanOf s.fFieldStart stop)).FramedByte base k := by
  have hsp := spanOf_ss_le hin.field stop
  have hframer := hin.framerInv (by omega) (by omega)
  simp only [Spi.tpmTagDone]
  split <;> exact { h with events := h.events.concat hsp _, framer := hframer }

/-- The length decides whether the frame is short (43_command_framer.md R244). -/
theorem Spi.ByteIn.tpmLenDone (h : s.ByteIn base k) (hin : s.HdrTaken) (h6 : s.fh = 6) (stop : Nat) :
    (s.tpmLenDone (spanOf s.fFieldStart stop)).FramedByte base k := by
  have hsp := spanOf_ss_le hin.field stop
  have hframer : ∀ (b : Bool), (b = true ↔ s.facc.toNat < tpmHdrSize) →
      ({ s with len := s.facc, fshort := b } : Spi).counted.FramerInv := fun b hb =>
    ⟨by simp [hin.fst], fun _ => ⟨hin.fStart, hin.fh_pos, by simp [h6], hin.fdir, hin.pcount,
      hin.remaining⟩, by simp [hin.fst], by simp [h6], fun _ _ => hb,
      fun _ => ⟨Nat.lt_succ_of_le hin.field, hin.fseq⟩⟩
  simp only [Spi.tpmLenDone]
  split
  · next hshort =>
    exact { h with
      events := (h.events.concat hsp _).concat hsp _
      framer := hframer true (by simpa using hshort) }
  · next hlong =>
    have hfalse := hin.short_before h6.le
    have := hframer false (by simpa using hlong)
    rw [← hfalse] at this
    exact { h with events := h.events.concat hsp _, framer := this }

/-- The payload a length declares is what is left of it after the header (43_command_framer.md R245). -/
theorem payloadSize_spec {short : Bool} {len size : BitVec 32}
    (hshort : short = true ↔ len.toNat < tpmHdrSize) (h : payloadSize short len = .ok size) :
    size.toNat = len.toNat - tpmHdrSize ∧ (size ≠ 0#32 → short = false) := by
  unfold payloadSize at h
  split at h
  · next hs =>
    cases h
    have := hshort.mp hs
    refine ⟨?_, by simp⟩
    rw [Nat.sub_eq_zero_of_le this.le]
    rfl
  · next hs =>
    simp only [run_bind_eq_ok, natSub_eq_ok] at h
    obtain ⟨j, ⟨-, rfl⟩, h⟩ := h
    cases h
    refine ⟨?_, fun _ => by simpa using hs⟩
    have := len.isLt
    simp only [BitVec.toNat_ofNat]
    omega

theorem Spi.ByteIn.tpmCodeDone (h : s.ByteIn base k) (hin : s.HdrTaken) (h10 : s.fh = 10) {d : Dir}
    {stop : Nat} (ht : s.tpmCodeDone p k d (spanOf s.fFieldStart stop) = .ok t) :
    t.FramedByte base k := by
  have hsp := spanOf_ss_le hin.field stop
  have hshort := hin.short_after (by omega)
  have hcount := hin.pcount
  simp only [Spi.tpmCodeDone, run_bind_eq_ok] at ht
  obtain ⟨size, hsize, ht⟩ := ht
  obtain ⟨hval, hlong⟩ := payloadSize_spec hshort hsize
  split at ht
  · next hzero =>
    refine Spi.ByteIn.closeFrame ?_ ?_ ?_ ht
    · exact { h with events := h.events.concat hsp _ }
    · exact hshort
    · simp only [Spi.emit_pcount, Spi.emit_len, hin.pcount]
      rw [← hval, hzero]
      rfl
  · next hpos =>
    cases ht
    have hlen : s.pcount + size.toNat + tpmHdrSize = s.len.toNat := by
      have : size.toNat ≠ 0 := fun h0 => hpos (BitVec.eq_of_toNat_eq (by simpa using h0))
      omega
    exact { h with
      events := h.events.concat hsp _
      framer := ⟨by simp, by simp, fun _ => ⟨hin.fStart, h10, rfl, hlong hpos, hpos, hlen⟩,
        by simp, by simp, fun _ => ⟨Nat.lt_succ_of_le hin.field, hin.fseq⟩⟩ }

/-- The field a header byte completes, if it completes one. -/
theorem Spi.ByteIn.fieldDone (h : s.ByteIn base k) (hin : s.HdrTaken) {d : Dir} {stop : Nat}
    (ht : s.fieldDone p k d (spanOf s.fFieldStart stop) = .ok t) : t.FramedByte base k := by
  unfold Spi.fieldDone at ht
  split at ht
  · next h2 =>
    cases ht
    exact h.tpmTagDone hin h2 stop
  · split at ht
    · next h6 =>
      cases ht
      exact h.tpmLenDone hin h6 stop
    · next h6 =>
      split at ht
      · next h10 => exact h.tpmCodeDone hin h10 ht
      · next h10 =>
        cases ht
        exact { h with framer := hin.framerInv h6 h10 }

/-- The start of a field leaves everything but the field's own registers. -/
theorem Spi.beginField_eq (start : Nat) (s : Spi) : s.beginField start = { s with
    fFieldStart := (s.beginField start).fFieldStart, facc := (s.beginField start).facc } := by
  unfold Spi.beginField
  split <;> rfl

theorem Spi.ByteIn.tpmHdr (h : s.ByteIn base k) (hin : s.HdrAwaits) {x : Byte} {d : Dir}
    (ht : s.tpmHdr p k x d = .ok t) : t.FramedByte base k := by
  simp only [Spi.tpmHdr, run_bind_eq_ok] at ht
  obtain ⟨u, hu, r, hr, ht⟩ := ht
  have hu1 := h.bufUpdate (by simp) hu
  have hstart := hu1.start_le hr
  obtain ⟨-, rfl⟩ := (Spi.bufUpdate_eq_ok ..).mp hu
  have hfield := Spi.beginField_fFieldStart_le hstart hin.field
  rw [Spi.beginField_n] at hfield
  rw [Spi.beginField_eq] at ht
  have hbefore := hin.short_before
  have hafter := hin.short_after
  refine Spi.ByteIn.fieldDone ?_ ?_ ht
  · exact { hu1 with }
  · exact { hin with
      fh_pos := Nat.le_add_left ..
      fh_le := Nat.succ_le_succ hin.fh_le
      field := hfield
      short_before := fun hfh => hbefore (Nat.lt_of_succ_le hfh)
      short_after := fun hfh => hafter (Nat.le_of_lt_succ hfh) }

/-! ### A payload byte, and the byte by the framer's state -/

theorem Spi.FramedByte.tpmPayload (h : s.FramedByte base k) (hst : s.fst = .payload) {x : Byte}
    {d : Dir} (ht : s.tpmPayload k x d = .ok t) : t.FramedByte base k := by
  simp only [Spi.tpmPayload, run_bind_eq_ok] at ht
  obtain ⟨u, hu, r, hr, ht⟩ := ht
  have hu1 := h.bufUpdate (by simp) hu
  have hsp := spanOf_ss_le (hu1.start_le hr) r.stop
  obtain ⟨-, rfl⟩ := (Spi.bufUpdate_eq_ok ..).mp hu
  obtain ⟨-, -, hpay, -, -, hopen⟩ := h.framer
  obtain ⟨hstart, hfh, hdir, hshort, hrem, hlen⟩ := hpay hst
  simp only at hstart hfh hdir hshort hrem hlen
  have hle : 1 ≤ s.remaining.toNat := by
    by_contra h0
    exact hrem (BitVec.eq_of_toNat_eq (by simpa using h0))
  have hval : (s.remaining - 1#32).toNat = s.remaining.toNat - 1 :=
    BitVec.toNat_sub_of_le (by simpa [BitVec.le_def] using hle)
  simp only [Spi.emit_remaining, hrem, if_false] at ht
  split at ht
  · next hzero =>
    refine Spi.ByteIn.closeFrame ?_ ?_ ?_ ht
    · exact { hu1 with events := hu1.events.concat hsp _ }
    · simp only [Spi.emit_fshort, Spi.emit_len, hshort, Bool.false_eq_true, false_iff]
      omega
    · rw [hzero] at hval
      simp only [Spi.emit_pcount, Spi.emit_len]
      simp only [BitVec.toNat_ofNat, Nat.zero_mod] at hval
      omega
  · next hpos =>
    cases ht
    refine { hu1 with
      events := hu1.events.concat hsp _
      framer := ⟨by simp [hst], by simp [hst], fun _ => ⟨hstart, hfh, hdir, hshort, hpos, ?_⟩,
        by simp [hst], by simp [hst], hopen⟩ }
    simp only [Spi.emit_pcount, Spi.emit_len]
    omega

/-- A frame that starts at the byte in hand (43_command_framer.md R241). -/
theorem Spi.ByteIn.tpmStart (h : s.ByteIn base k) : (s.tpmStart k).ByteIn base k := by
  obtain ⟨-, hclosed⟩ := h.frames
  refine { h with frames := ⟨?_, fun f hf => ?_⟩ }
  · rintro _ ⟨⟩
    simp only [FrameStart.ok, Bool.and_eq_true, decide_eq_true_eq]
    exact ⟨h.active, Nat.lt_of_succ_le h.last.le⟩
  · obtain ⟨hcount, hseq, hrest⟩ := hclosed f hf
    exact ⟨hcount, Nat.le_succ_of_le hseq, hrest⟩

theorem Spi.FramedByte.framerByte (h : s.FramedByte base k) {x : Byte} {d : Dir}
    (ht : s.framerByte p k x d = .ok t) : t.FramedByte base k := by
  unfold Spi.framerByte at ht
  split at ht
  · exact h.toByteIn.tpmStart.tpmHdr (s.hdrAwaits_tpmStart k) ht
  · next hst => exact h.toByteIn.tpmHdr (h.hdrAwaits hst) ht
  · next hst =>
    split at ht
    · exact h.tpmPayload hst ht
    · cases ht
      exact h

end Sys2Proof.Machine

end

/-! ## The link header keeps its invariant (42_link_header.md R209) -/

section

namespace Sys2Proof.Machine

open Sys2Proof

variable {p : SpiParams} {base : List OutEvent} {k : Nat} {s t : Spi}

/-! ### The frames and the events of a byte -/

theorem Spi.FramedByte.hdr0 (h : s.FramedByte base k) (b : Byte) {start stop : Nat}
    (hstart : start ≤ s.n) (hmid : start + stop ≤ 2 * s.n) :
    (s.hdr0 b start stop).FramedByte base k := by
  have hsub := fun off hoff => subSpan_ss_le (off := off) hstart hmid hoff
  exact { h with
    events := (h.events.concat (hsub 0 (by omega) 1) _).concat (hsub 1 (by omega) 7) _ }

theorem Spi.FramedByte.ackFlag (h : s.FramedByte base k) (b : Byte) (start stop : Nat) :
    (s.ackFlag p b start stop).FramedByte base k := by
  unfold Spi.ackFlag
  split
  · exact { h with events := h.events.concat_late _ rfl }
  · exact h

theorem Spi.FramedByte.takeReg (h : s.FramedByte base k) (reg : BitVec 16) {sp : Span}
    (hsp : sp.ss ≤ (s.n : Rat)) : (s.takeReg p reg sp).FramedByte base k := by
  simp only [Spi.takeReg]
  split <;> exact { h with events := h.events.concat hsp _ }

@[simp] theorem Spi.takeReg_n (p : SpiParams) (reg : BitVec 16) (sp : Span) (s : Spi) :
    (s.takeReg p reg sp).n = s.n :=
  (s.keeps_takeReg reg sp).n

theorem Spi.FramedByte.hdr3 (h : s.FramedByte base k) {b : Byte} {miso : Option Byte}
    {start stop : Nat} (hreg : s.hdrB2Start ≤ s.n) (ht : s.hdr3 p b miso start stop = .ok t) :
    t.FramedByte base k := by
  simp only [Spi.hdr3, run_bind_eq_ok] at ht
  obtain ⟨hi, -, b2, hb2, ht⟩ := ht
  have h1 := h.takeReg (p := p) (joinLow (highByte hi) b) (spanOf_ss_le hreg stop)
  have hb2n := h1.start_le hb2
  have hfirst : (subSpan (spanOf b2.start b2.stop) 0 4).ss ≤
      ((s.takeReg p (joinLow (highByte hi) b) (spanOf s.hdrB2Start stop)).n : Rat) := by
    simpa [subSpan] using spanOf_ss_le hb2n b2.stop
  have h2 := h1.emit hfirst
    (.hdr .locality ((joinLow (highByte hi) b).extractLsb' 12 4).toNat none)
  cases ht
  split
  · exact { h2.ackFlag (p := p) _ start stop with }
  · exact { h2 with }

theorem Spi.FramedByte.excessByte (h : s.FramedByte base k) (ht : s.excessByte k = .ok t) :
    t.FramedByte base k := by
  simp only [Spi.excessByte, run_bind_eq_ok] at ht
  obtain ⟨i, -, u, hu, r, hr, ht⟩ := ht
  have hu1 := h.bufUpdate (by simp) hu
  cases ht
  exact hu1.emit (spanOf_ss_le (hu1.start_le hr) _) _

theorem Spi.FramedByte.dataByte (h : s.FramedByte base k) {v : Option Byte}
    (ht : s.dataByte p k v = .ok t) : t.FramedByte base k := by
  simp only [Spi.dataByte, run_bind_eq_ok] at ht
  obtain ⟨i, -, d, -, u, hu, r, hr, ht⟩ := ht
  have hu1 := h.bufUpdate (by simp) hu
  split at ht
  · next x reg _ =>
    have h2 := hu1.emit (spanOf_ss_le (hu1.start_le hr) r.stop) (.regdata reg.toNat d i x)
    split at ht
    · exact h2.framerByte ht
    · cases ht
      refine h2.emitAll fun e he hlate => ?_
      simp [fieldEvents_late _ _ _ _ _ _ e he] at hlate
  · cases ht
    exact hu1

theorem Spi.FramedByte.laterByte (h : s.FramedByte base k) {r : SpiByteRec}
    (ht : s.laterByte p r k = .ok t) : t.FramedByte base k := by
  simp only [Spi.laterByte, run_bind_eq_ok] at ht
  obtain ⟨i, -, d, -, c, -, ht⟩ := ht
  split at ht
  · exact h.excessByte ht
  · exact h.dataByte ht

/-- The header decoder on the byte in hand. Byte 3 reports the register from the start of byte 2
(42_link_header.md R203), which `hb2` places. -/
theorem Spi.FramedByte.headerByte {r : SpiByteRec} (h : s.FramedByte base s.pos)
    (hstart : r.start ≤ s.n) (hmid : r.start + r.stop ≤ 2 * s.n)
    (hb2 : p.haveMosi = true → s.pos = 3 → s.hdrB2Start ≤ s.n) (ht : s.headerByte p r = .ok t) :
    t.FramedByte base s.pos := by
  have h1 : Spi.FramedByte base s.pos { s with pos := s.pos + 1 } := { h with }
  simp only [Spi.headerByte] at ht
  split at ht
  · exact h1.bufUpdate (by simp) ht
  · next hmosi =>
    rw [run_bind_eq_ok] at ht
    obtain ⟨b, -, ht⟩ := ht
    split at ht
    · cases ht
      exact h1.hdr0 b hstart hmid
    · cases ht
      exact { h1 with events := h1.events.concat (spanOf_ss_le hstart _) _ }
    · cases ht
      exact { h1 with }
    · next hpos => exact h1.hdr3 (hb2 (by simpa using hmosi) hpos) ht
    · exact h1.laterByte ht

/-! ### The header registers and the records -/

/-- A record after framer operations is the record before them, but for its frame number. -/
theorem Spi.FramerOnly.rec_eq (h : s.FramerOnly t) {i : Nat} {r : SpiByteRec}
    (hr : t.xfer[i]? = some r) : ∃ q, s.xfer[i]? = some q ∧ q = { r with fseq := q.fseq } := by
  have hmap := congrArg (·[i]?) h.recs
  simp only [List.getElem?_map, hr, Option.map_some] at hmap
  obtain ⟨q, hq, heq⟩ := Option.map_eq_some_iff.mp hmap.symm
  refine ⟨q, hq, ?_⟩
  cases q
  cases r
  simp_all

theorem Spi.FramerOnly.length_eq (h : s.FramerOnly t) : t.xfer.length = s.xfer.length := by
  simpa using congrArg List.length h.recs

/-- The framer touches nothing that the header's invariant speaks of. -/
theorem Spi.FramerOnly.hdrInv (h : s.FramerOnly t) (hs : s.HdrInv p) : t.HdrInv p := by
  obtain ⟨hpos, hdir, hcount, haddr, hhi, hreg, hc, hknown, hrouted, hack, hb2, hrole, hlane⟩ := hs
  have hlen := h.length_eq
  have hrec := fun i r => h.rec_eq (i := i) (r := r)
  rw [h.rest]
  refine ⟨hpos.trans hlen.symm, hdir, hcount, haddr, hhi, hreg, hc, hknown, hrouted, hack,
    fun hm r hr => ?_, fun e he => ?_, fun r hr => ?_⟩
  · obtain ⟨q, hq, heq⟩ := hrec 2 r hr
    rw [show s.hdrB2Start = q.start from hb2 hm q hq, heq]
  · obtain ⟨q, hq, heq⟩ := hrec e.2 e.1 (List.mem_zipIdx_iff_getElem?.mp he)
    have := hrole (q, e.2) (List.mem_zipIdx_iff_getElem?.mpr hq)
    rw [heq] at this
    exact this
  · obtain ⟨i, hi⟩ := List.mem_iff_getElem?.mp hr
    obtain ⟨q, hq, heq⟩ := hrec i r hi
    have := hlane q (List.mem_of_getElem? hq)
    rw [heq] at this
    exact this

end Sys2Proof.Machine

end

section

namespace Sys2Proof.Machine

open Sys2Proof

variable {p : SpiParams} {s t : Spi}

/-! ### The header registers and roles after a byte -/

/-- A record of the right role may follow. -/
theorem roles_append {m : Bool} {c : Option Nat} {pre : List SpiByteRec} {r : SpiByteRec}
    (h : ∀ e ∈ pre.zipIdx, e.1.role = roleAt m c e.2) (hr : r.role = roleAt m c pre.length) :
    ∀ e ∈ (pre ++ [r]).zipIdx, e.1.role = roleAt m c e.2 := by
  intro e he
  rw [List.zipIdx_append] at he
  rcases List.mem_append.mp he with he | he
  · exact h e he
  · simp only [List.zipIdx_cons, List.zipIdx_nil, List.mem_singleton, Nat.zero_add] at he
    rw [he]
    exact hr

/-- Records before the first four are not looked at by a change of the declared count. -/
theorem roleAt_of_lt {m : Bool} {c : Option Nat} {i : Nat} (h : i < 4) : roleAt m c i = .header := by
  simp [roleAt, h]

/-- One more record, of the right role, after a header of four bytes or without a header: the header
registers stay (42_link_header.md R205, R208). -/
theorem Spi.HdrInv.append (hs : s.HdrInv p) (hpos : p.haveMosi = true → 4 ≤ s.pos) {r : SpiByteRec}
    (hrole : r.role = roleAt p.haveMosi s.hdrCount s.pos)
    (hlane : r.mosi.isSome = p.haveMosi ∧ r.miso.isSome = p.haveMiso) :
    { s with pos := s.pos + 1, xfer := s.xfer ++ [r] }.HdrInv p := by
  obtain ⟨hlen, hdir, hcount, haddr, hhi, hreg, hc, hknown, hrouted, hack, hb2, hroles, hlanes⟩ := hs
  have hmore : ∀ i, i ≤ 4 → (p.haveMosi = true ∧ i ≤ s.pos + 1 ↔ p.haveMosi = true ∧ i ≤ s.pos) :=
    fun i hi => and_congr_right fun hm => by
      have := hpos hm
      omega
  refine ⟨by simp [hlen], hdir.trans (hmore 1 (by omega)).symm, hcount.trans (hmore 1 (by omega)).symm,
    haddr.trans (hmore 2 (by omega)).symm, hhi.trans (hmore 3 (by omega)).symm,
    hreg.trans (hmore 4 (by omega)).symm, hc, hknown, hrouted, hack, fun hm q hq => ?_,
    roles_append hroles (by rwa [← hlen]), fun q hq => ?_⟩
  · have := hpos hm
    rw [List.getElem?_append_left (by omega)] at hq
    exact hb2 hm q hq
  · rcases List.mem_append.mp hq with hq | hq
    · exact hlanes q hq
    · rw [List.mem_singleton.mp hq]
      exact hlane

theorem Spi.HdrInv.noHeader (hs : s.HdrInv p) {r : SpiByteRec} (hm : p.haveMosi = false)
    (hlane : r.mosi.isSome = p.haveMosi ∧ r.miso.isSome = p.haveMiso)
    (ht : { s with pos := s.pos + 1, xfer := s.xfer ++ [r] }.noHeader s.pos = .ok t) :
    t.HdrInv p := by
  unfold Spi.noHeader at ht
  rw [hs.1, Spi.bufUpdate_append _ rfl] at ht
  cases ht
  have := hs.append (r := { r with role := if s.xfer.length < 4 then .header else .data })
    (by simp [hm]) (by simp [hm, roleAt, hs.1]) hlane
  rwa [hs.1] at this

theorem Spi.HdrInv.excessByte (hs : s.HdrInv p) {r : SpiByteRec} (h4 : 4 ≤ s.pos)
    (hc : s.hdrCount.getD 0 ≤ s.pos - 4) (hm : p.haveMosi = true)
    (hlane : r.mosi.isSome = p.haveMosi ∧ r.miso.isSome = p.haveMiso)
    (ht : { s with pos := s.pos + 1, xfer := s.xfer ++ [r] }.excessByte s.pos = .ok t) :
    t.HdrInv p := by
  simp only [Spi.excessByte, run_bind_eq_ok] at ht
  obtain ⟨i, -, u, hu, q, -, ht⟩ := ht
  rw [hs.1, Spi.bufUpdate_append _ rfl] at hu
  cases hu
  cases ht
  have := hs.append (r := { r with role := .excess }) (fun _ => h4)
    (by simp [roleAt, hm, Nat.not_lt.mpr h4, Nat.not_lt.mpr hc]) hlane
  rwa [hs.1] at this

theorem Spi.HdrInv.dataByte (hs : s.HdrInv p) {r : SpiByteRec} {v : Option Byte} (h4 : 4 ≤ s.pos)
    (hc : s.pos - 4 < s.hdrCount.getD 0) (hm : p.haveMosi = true)
    (hlane : r.mosi.isSome = p.haveMosi ∧ r.miso.isSome = p.haveMiso)
    (ht : { s with pos := s.pos + 1, xfer := s.xfer ++ [r] }.dataByte p s.pos v = .ok t) :
    t.HdrInv p := by
  simp only [Spi.dataByte, run_bind_eq_ok] at ht
  obtain ⟨i, -, d, -, u, hu, q, -, ht⟩ := ht
  have h1 := hs.append (r := { r with role := .data }) (fun _ => h4)
    (by simp [roleAt, hm, Nat.not_lt.mpr h4, hc]) hlane
  rw [hs.1, Spi.bufUpdate_append _ rfl] at hu
  rw [hs.1] at h1
  cases hu
  split at ht
  · split at ht
    · exact ((Spi.framerOnly_emit _ _ _).trans (.framerByte ht)).hdrInv h1
    · cases ht
      exact h1
  · cases ht
    exact h1

theorem Spi.HdrInv.laterByte (hs : s.HdrInv p) {r : SpiByteRec} (h4 : 4 ≤ s.pos)
    (hm : p.haveMosi = true) (hlane : r.mosi.isSome = p.haveMosi ∧ r.miso.isSome = p.haveMiso)
    (ht : { s with pos := s.pos + 1, xfer := s.xfer ++ [r] }.laterByte p r s.pos = .ok t) :
    t.HdrInv p := by
  simp only [Spi.laterByte, run_bind_eq_ok, natSub_eq_ok, need_eq_ok] at ht
  obtain ⟨i, ⟨-, rfl⟩, d, -, c, hc, ht⟩ := ht
  split at ht
  · next hle => exact hs.excessByte h4 (by simpa [hc] using hle) hm hlane ht
  · next hlt => exact hs.dataByte h4 (by simpa [hc] using hlt) hm hlane ht

/-- AckFlag writes the flag where there is a MISO lane, and changes nothing else but the events
(42_link_header.md R206). -/
theorem Spi.ackFlag_cases (p : SpiParams) (b : Byte) (start stop : Nat) (s : Spi) :
    ∃ a o, s.ackFlag p b start stop = { s with hdrAck := a, out := o }
      ∧ (a = s.hdrAck ∨ p.haveMiso = true) := by
  unfold Spi.ackFlag
  split
  · next hmiso => exact ⟨_, _, rfl, .inr hmiso⟩
  · exact ⟨_, _, rfl, .inl rfl⟩

/-- The register address is written with whether it is known, and nothing else changes but the events
(42_link_header.md R203). -/
theorem Spi.takeReg_eq (p : SpiParams) (reg : BitVec 16) (sp : Span) (s : Spi) :
    ∃ o, s.takeReg p reg sp = { s with
      hdrReg := some reg, hdrRegKnown := (lookupName p.knownReg reg).isSome, out := o } := by
  simp only [Spi.takeReg]
  cases lookupName p.knownReg reg <;> exact ⟨_, rfl⟩

/-- What SPI_HDR3 leaves in the header registers (42_link_header.md R203, R206). -/
theorem Spi.hdr3_cases {b : Byte} {miso : Option Byte} {start stop : Nat}
    (ht : s.hdr3 p b miso start stop = .ok t) :
    ∃ reg a o, t = { s with
        hdrReg := some reg, hdrRegKnown := (lookupName p.knownReg reg).isSome, hdrAck := a,
        hdrRouted := regRouted p reg, out := o }
      ∧ (a = s.hdrAck ∨ s.hdrDir = some .read ∧ p.haveMiso = true) := by
  simp only [Spi.hdr3, run_bind_eq_ok] at ht
  obtain ⟨hi, -, b2, -, ht⟩ := ht
  obtain ⟨o, htake⟩ := s.takeReg_eq p (joinLow (highByte hi) b) (spanOf s.hdrB2Start stop)
  rw [htake] at ht
  cases ht
  split
  · next hdir =>
    obtain ⟨a, o, hflag, ha⟩ := Spi.ackFlag_cases p _ start stop (Spi.emit _ _ _)
    rw [hflag]
    exact ⟨_, a, _, rfl, ha.imp_right fun hmiso => ⟨hdir, hmiso⟩⟩
  · exact ⟨_, _, _, rfl, .inl rfl⟩

/-- The header decoder on the byte in hand `r` keeps the header's invariant. -/
theorem Spi.HdrInv.headerByte (hs : s.HdrInv p) {r : SpiByteRec} (hrole : r.role = .header)
    (hlane : r.mosi.isSome = p.haveMosi ∧ r.miso.isSome = p.haveMiso)
    (ht : { s with xfer := s.xfer ++ [r] }.headerByte p r = .ok t) : t.HdrInv p := by
  simp only [Spi.headerByte] at ht
  cases hm : p.haveMosi
  case false =>
    simp only [hm, Bool.not_false, if_true] at ht
    exact hs.noHeader hm hlane ht
  simp only [hm, Bool.not_true, Bool.false_eq_true, if_false, run_bind_eq_ok] at ht
  obtain ⟨b, -, ht⟩ := ht
  by_cases h4 : 4 ≤ s.pos
  · obtain ⟨j, hj⟩ := Nat.exists_eq_add_of_le' h4
    rw [hj] at ht
    simp only at ht
    rw [← hj] at ht
    exact hs.laterByte h4 hm hlane ht
  obtain ⟨hlen, hdir, hcount, haddr, hhi, hreg, hc, hknown, hrouted, hack, hb2, hroles, hlanes⟩ := hs
  have hlanes' : ∀ q ∈ s.xfer ++ [r], q.mosi.isSome = p.haveMosi ∧ q.miso.isSome = p.haveMiso := by
    intro q hq
    rcases List.mem_append.mp hq with hq | hq
    · exact hlanes q hq
    · rw [List.mem_singleton.mp hq]
      exact hlane
  have hroles' : ∀ c, ∀ e ∈ (s.xfer ++ [r]).zipIdx, e.1.role = roleAt p.haveMosi c e.2 := by
    intro c
    refine roles_append (fun e he => ?_) (by rw [hrole, roleAt_of_lt (by omega)])
    have hlt : e.2 < s.xfer.length :=
      (List.getElem?_eq_some_iff.mp (List.mem_zipIdx_iff_getElem?.mp he)).1
    rw [hroles e he, roleAt_of_lt (by omega), roleAt_of_lt (by omega)]
  have hlen' : s.pos + 1 = (s.xfer ++ [r]).length := by simp [hlen]
  have hskip : ∀ i, i ≠ s.pos + 1 →
      (p.haveMosi = true ∧ i ≤ s.pos ↔ p.haveMosi = true ∧ i ≤ s.pos + 1) :=
    fun i hi => and_congr_right fun _ => by omega
  have hnew : ∀ {α : Type} (a : α) (i : Nat), i = s.pos + 1 →
      ((some a).isSome = true ↔ p.haveMosi = true ∧ i ≤ s.pos + 1) :=
    fun a i hi => ⟨fun _ => ⟨hm, hi.le⟩, fun _ => rfl⟩
  have hfew : s.pos < 2 → ∀ q, (s.xfer ++ [r])[2]? ≠ some q := fun hlt q hq => by
    have := (List.getElem?_eq_some_iff.mp hq).1
    omega
  rcases hpos : s.pos with _ | _ | _ | _ | _
  case zero =>
    rw [hpos] at ht
    cases ht
    have hnoack : ∀ d, d ∉ s.hdrAck := fun d hd => by
      have := (hdir.mp (by simp [(hack d hd).1])).2
      omega
    rw [hpos] at haddr hhi hreg hlen' hskip hnew hfew
    refine ⟨hlen', hnew _ 1 rfl, hnew _ 1 rfl, haddr.trans (hskip 2 (by omega)),
      hhi.trans (hskip 3 (by omega)), hreg.trans (hskip 4 (by omega)), ?_, hknown, hrouted,
      fun d hd => absurd hd (hnoack d), fun _ q hq => absurd hq (hfew (by omega) q), hroles' _,
      hlanes'⟩
    rintro _ ⟨⟩
    have := (hdr0Count b).isLt
    simp only [declaredCount]
    omega
  case succ.zero =>
    rw [hpos] at ht
    cases ht
    rw [hpos] at hdir hcount hhi hreg hlen' hskip hnew hfew
    exact ⟨hlen', hdir.trans (hskip 1 (by omega)), hcount.trans (hskip 1 (by omega)), hnew _ 2 rfl,
      hhi.trans (hskip 3 (by omega)), hreg.trans (hskip 4 (by omega)), hc, hknown, hrouted, hack,
      fun _ q hq => absurd hq (hfew (by omega) q), hroles' _, hlanes'⟩
  case succ.succ.zero =>
    rw [hpos] at ht
    cases ht
    rw [hpos] at hdir hcount haddr hreg hlen' hskip hnew hlen
    refine ⟨hlen', hdir.trans (hskip 1 (by omega)), hcount.trans (hskip 1 (by omega)),
      haddr.trans (hskip 2 (by omega)), hnew _ 3 rfl, hreg.trans (hskip 4 (by omega)), hc, hknown,
      hrouted, hack, fun _ q hq => ?_, hroles' _, hlanes'⟩
    change (s.xfer ++ [r])[2]? = some q at hq
    rw [List.getElem?_append_right (by omega), show 2 - s.xfer.length = 0 by omega] at hq
    cases hq
    rfl
  case succ.succ.succ.zero =>
    rw [hpos] at ht
    obtain ⟨reg, a, o, rfl, hack'⟩ := Spi.hdr3_cases ht
    rw [hpos] at hdir hcount haddr hhi hlen' hskip hnew hlen
    refine ⟨hlen', hdir.trans (hskip 1 (by omega)), hcount.trans (hskip 1 (by omega)),
      haddr.trans (hskip 2 (by omega)), hhi.trans (hskip 3 (by omega)), hnew _ 4 rfl, hc, rfl, rfl,
      ?_, fun _ q hq => ?_, hroles' _, hlanes'⟩
    · intro d hd
      rcases hack' with h | h
      · exact hack d (h ▸ hd)
      · exact h
    · rw [List.getElem?_append_left (by omega)] at hq
      exact hb2 hm q hq
  · omega

end Sys2Proof.Machine

end

/-! ## An SPI step keeps a sound stack sound (10_state.md R27, 40_sampler.md R138) -/

section

namespace Sys2Proof.Machine

open Sys2Proof

/-- The SPI stack inside a step: sound with the sample counted, but for the levels and the number of
pending bits; and the events since `base` start by the sample. -/
structure Spi.MidInv (p : SpiParams) (base : List OutEvent) (s : Spi) : Prop where
  bits : s.counted.BitsInv
  hdr : s.HdrInv p
  tStart_le : s.tStart ≤ s.n
  recs : ∀ r ∈ s.xfer, s.tStart ≤ r.start ∧ r.start < r.stop ∧ r.start ≤ s.n
  framer : s.counted.FramerInv
  frames : s.counted.FrameAtInv
  idle : s.active = false → s.bitStarts = [] ∧ s.closed = []
  events : GrowsBy s.n base s.out

variable {p : SpiParams} {base : List OutEvent} {s t u : Spi} {x : SpiLevels}

/-! ### From between two steps into a step, and back -/

/-- A start no later than a sample is no later than the next. -/
theorem FrameStart.ok_succ {active : Bool} {tStart n len : Nat} {a : FrameStart}
    (h : a.ok active tStart n len = true) : a.ok active tStart (n + 1) len = true := by
  rcases a with i | r
  · exact h
  · simp only [FrameStart.ok, Bool.and_eq_true, decide_eq_true_eq] at h ⊢
    refine ⟨h.1.trans ?_, h.2⟩
    exact_mod_cast Nat.le_succ n

/-- A sound stack is sound inside its next step. -/
theorem Spi.Inv.midInv (h : s.Inv p) : s.MidInv p s.out := by
  obtain ⟨-, ⟨hcnt, hrise, hbits⟩, -, hhdr, ⟨htStart, hrecs⟩, hframer, ⟨hfStart, hclosed⟩,
    ⟨-, -, hidle⟩⟩ := h
  obtain ⟨h1, h2, h3, h4, h5, hopen⟩ := hframer
  exact
    { bits := ⟨hcnt, hrise, fun b hb => ⟨(hbits b hb).1, Nat.lt_succ_of_lt (hbits b hb).2⟩⟩
      hdr := hhdr
      tStart_le := htStart
      recs := fun r hr => ⟨(hrecs r hr).1, (hrecs r hr).2.1, (hrecs r hr).2.2.le⟩
      framer := ⟨h1, h2, h3, h4, h5, fun hst => ⟨Nat.lt_succ_of_lt (hopen hst).1, (hopen hst).2⟩⟩
      frames := ⟨fun a ha => FrameStart.ok_succ (hfStart a ha), hclosed⟩
      idle := hidle
      events := .refl _ _ }

/-- At the end of the step the stack is sound again, when the transfer is open exactly while the sample
asserts chip select (40_sampler.md R138). -/
theorem Spi.MidInv.inv (h : s.MidInv p base) (hcnt : s.bitcnt ≤ 7) (hfirst : s.first = false)
    (hact : s.active = x.asserted) (hcs : p.haveCs = false → s.active = true) (old : Spi) :
    ((s.epilogue x).emitted p old).Inv p := by
  refine ⟨fun hf => ?_, h.bits, hcnt, h.hdr, ⟨Nat.le_succ_of_le h.tStart_le, fun r hr => ?_⟩,
    h.framer, h.frames, fun _ => ⟨hact, hcs⟩, fun _ => Nat.lt_succ_of_le h.tStart_le, h.idle⟩
  · exact absurd hf (by simp [hfirst])
  · obtain ⟨h1, h2, h3⟩ := h.recs r hr
    exact ⟨h1, h2, Nat.lt_succ_of_le h3⟩

theorem Spi.MidInv.emit (h : s.MidInv p base) {sp : Span} (hsp : sp.ss ≤ (s.n : Rat)) (e : Event) :
    (s.emit sp e).MidInv p base :=
  { h with events := h.events.concat hsp e }

theorem Spi.MidInv.emitAll (h : s.MidInv p base) {es : List OutEvent}
    (hes : ∀ e ∈ es, e.span.ss ≤ (s.n : Rat)) : (s.emitAll es).MidInv p base :=
  { h with events := h.events.append fun e he _ => hes e he }

/-! ### A byte (41_byte_assembler.md R173 to R175) -/

/-- A record appended at this sample is the byte in hand. -/
theorem Spi.MidInv.framedByte (h : s.MidInv p base) (hact : s.active = true) {r : SpiByteRec}
    (hr : s.tStart ≤ r.start ∧ r.start < r.stop ∧ r.start ≤ s.n) :
    Spi.FramedByte base s.pos { s with xfer := s.xfer ++ [r] } := by
  obtain ⟨hfStart, hclosed⟩ := h.frames
  have hlen : (s.xfer ++ [r]).length = s.xfer.length + 1 := by simp
  refine
    { last := by simp [h.hdr.1]
      active := hact
      tStart_le := h.tStart_le
      recs := fun q hq => ?_
      events := h.events
      frames := ⟨fun a ha => ?_, fun f hf => ?_⟩
      framer := h.framer }
  · rcases List.mem_append.mp hq with hq | hq
    · exact h.recs q hq
    · rwa [List.mem_singleton.mp hq]
  · have hok := hfStart a ha
    rcases a with i | q
    · simp only [FrameStart.ok, Bool.and_eq_true, decide_eq_true_eq] at hok ⊢
      exact ⟨hok.1, hlen ▸ Nat.lt_succ_of_lt hok.2⟩
    · exact hok
  · obtain ⟨h1, h2, h3, h4⟩ := hclosed f hf
    refine ⟨h1, h2, ?_, h4⟩
    simp only at h3 ⊢
    omega

/-- The header decoder on a byte of this sample, its bits cleared. -/
theorem Spi.MidInv.headerByte (h : s.MidInv p base) (hact : s.active = true)
    (hcnt : s.bitcnt = 0) (hnone : s.bitStarts = []) {r : SpiByteRec} (hrole : r.role = .header)
    (hlane : r.mosi.isSome = p.haveMosi ∧ r.miso.isSome = p.haveMiso)
    (hr : s.tStart ≤ r.start ∧ r.start < r.stop ∧ r.start ≤ s.n) (hmid : r.start + r.stop ≤ 2 * s.n)
    (ht : { s with xfer := s.xfer ++ [r] }.headerByte p r = .ok t) :
    t.MidInv p base ∧ t.bitcnt = 0 := by
  have hkeep := Spi.Keeps.headerByte ht
  have hb2 : p.haveMosi = true → s.pos = 3 → s.hdrB2Start ≤ s.n := by
    obtain ⟨hpos, -, -, -, -, -, -, -, -, -, hb2, -, -⟩ := h.hdr
    intro hm h3
    have hlen : 2 < s.xfer.length := by omega
    have hq := List.getElem?_eq_getElem hlen
    rw [hb2 hm _ hq]
    exact (h.recs _ (List.mem_of_getElem? hq)).2.2
  have hbyte := Spi.FramedByte.headerByte (s := { s with xfer := s.xfer ++ [r] })
    (h.framedByte hact hr) hr.2.2 hmid hb2 ht
  have hcnt' : t.bitcnt = 0 := hkeep.bitcnt.trans hcnt
  have hnone' : t.bitStarts = [] := hkeep.bitStarts.trans hnone
  exact ⟨{ hbyte with
    bits := ⟨by simp [hnone', hcnt'], by simp [hnone'], by simp [hnone']⟩
    hdr := h.hdr.headerByte hrole hlane ht
    idle := fun ha => by simp [hbyte.active] at ha }, hcnt'⟩

theorem Spi.MidInv.completeByte (h : s.MidInv p base) (hact : s.active = true) {tr : Bool}
    {lastEnd : Option Nat} (hend : EndsAt s.n s.bitStarts lastEnd)
    (ht : s.completeByte p tr lastEnd = .ok t) : t.MidInv p base ∧ t.bitcnt = 0 := by
  obtain ⟨start, stop, ends, r, u, hpend, hr, hu, ht⟩ := (Spi.completeByte_eq_ok ..).mp ht
  obtain ⟨hhead, -, -, hstop, -⟩ := (pendingByte_eq_ok ..).mp hpend
  obtain ⟨hlt, hmid, hle⟩ := lastBitEnd_bounds h.bits.2.1 hhead hend hstop
  have hstart : s.tStart ≤ start := (h.bits.2.2 start (List.mem_of_mem_head? hhead)).1
  have hlane := fun l v => laneEvents_ss_le l v s.bitStarts ends hle stop tr
  have hv := h.emitAll (es := (if p.haveMosi then laneEvents .mosi
      (leftAlign s.accMosi s.bitcnt) s.bitStarts ends start stop tr else [])
    ++ if p.haveMiso then laneEvents .miso (leftAlign s.accMiso s.bitcnt) s.bitStarts ends start
      stop tr else []) (by
    intro e he
    rcases List.mem_append.mp he with he | he <;> split at he
    · exact hlane _ _ e he
    · cases he
    · exact hlane _ _ e he
    · cases he)
  have hlanes : r.mosi.isSome = p.haveMosi ∧ r.miso.isSome = p.haveMiso := by
    rw [hr]
    cases p.haveMosi <;> cases p.haveMiso <;> simp
  obtain ⟨hrole, rfl, rfl⟩ : r.role = .header ∧ r.start = start ∧ r.stop = stop := by simp [hr]
  rw [← Spi.emitAll_active] at hact
  rw [← Spi.emitAll_n] at hle hmid
  rw [← Spi.emitAll_tStart] at hstart
  generalize s.emitAll _ = v at hu hv hact hle hmid hstart
  obtain ⟨-, rfl⟩ := (Spi.bufAppend_eq_ok ..).mp hu
  refine Spi.MidInv.headerByte
    (s := { v with bitcnt := 0, accMosi := 0#8, accMiso := 0#8, bitStarts := [] })
    ?_ hact rfl rfl hrole hlanes ⟨hstart, hlt, hle⟩ hmid ht
  exact { hv with bits := ⟨rfl, .nil, by simp⟩, idle := fun ha => ⟨rfl, (hv.idle ha).2⟩ }

/-- A data bit, after bits before this sample, and the byte it may complete (40_sampler.md R133). -/
theorem Spi.MidInv.sckSample (h : s.MidInv p base) (hact : s.active = true) (hcnt : s.bitcnt ≤ 7)
    (hbits : ∀ b ∈ s.bitStarts, b < s.n) (ht : s.sckSample p x = .ok t) :
    t.MidInv p base ∧ t.bitcnt ≤ 7 := by
  obtain ⟨hlen, hrise, hin⟩ := h.bits
  have h1 : (s.shiftBits p x).MidInv p base := by
    refine { h with
      bits := ⟨?_, ?_, fun b hb => ?_⟩
      idle := fun ha => absurd ha (by simp [hact]) }
    · simpa [Spi.shiftBits] using hlen
    · refine List.pairwise_append.mpr ⟨hrise, List.pairwise_singleton _ _, fun a ha b hb => ?_⟩
      rw [List.mem_singleton.mp hb]
      exact hbits a ha
    · rcases List.mem_append.mp hb with hb | hb
      · exact hin b hb
      · rw [List.mem_singleton.mp hb]
        exact ⟨h.tStart_le, Nat.lt_succ_self _⟩
  simp only [Spi.sckSample] at ht
  split at ht
  · next h8 =>
    have hlast : (s.shiftBits p x).bitStarts.getLast? = some s.n := by simp
    have htwo : 2 ≤ (s.shiftBits p x).bitStarts.length := by
      have : (s.shiftBits p x).bitcnt = (s.shiftBits p x).bitStarts.length := h1.bits.1
      omega
    obtain ⟨hmid, hzero⟩ := h1.completeByte hact (.inr ⟨rfl, hlast, htwo⟩) ht
    exact ⟨hmid, by omega⟩
  · next h8 =>
    cases ht
    refine ⟨h1, ?_⟩
    rw [Spi.shiftBits_bitcnt] at h8 ⊢
    omega

/-- The byte that a chip-select deassertion cuts (40_sampler.md R131). -/
theorem Spi.MidInv.cutByte (h : s.MidInv p base) (hact : s.active = true)
    (hbits : ∀ b ∈ s.bitStarts, b < s.n) (ht : s.cutByte p = .ok t) :
    t.MidInv p base ∧ t.bitcnt = 0 := by
  unfold Spi.cutByte at ht
  split at ht
  · simp only [run_bind_eq_ok, need_eq_ok] at ht
    obtain ⟨b0, hb0, ht⟩ := ht
    have hle := (hbits b0 (List.mem_of_mem_head? hb0)).le
    exact Spi.MidInv.completeByte (h.emit (spanOf_ss_le hle _) _) hact (.inl ⟨rfl, hbits⟩) ht
  · cases ht
    exact ⟨h, by omega⟩

end Sys2Proof.Machine

end

section

namespace Sys2Proof.Machine

open Sys2Proof

variable {p : SpiParams} {base : List OutEvent} {s t u : Spi} {x : SpiLevels}

/-! ### The aggregator pass (45_aggregator.md R340 to R345) -/

theorem Spi.MidInv.headerCheck (h : s.MidInv p base) (ht : s.headerCheck p = .ok t) :
    t.MidInv p base := by
  have hpass := spanOf_ss_le h.tStart_le s.n
  simp only [Spi.headerCheck] at ht
  split at ht
  · cases ht
    exact h
  · split at ht
    · cases ht
      exact h.emit hpass _
    · rw [run_bind_eq_ok] at ht
      obtain ⟨c, -, ht⟩ := ht
      cases ht
      split
      · exact h.emit hpass _
      · exact h

/-- A closed frame starts at a byte of the transfer or before the transfer. -/
theorem cmdSumEvent_ss_le (p : SpiParams) {t0 t1 count : Nat} {w : Rat}
    (hw : evenWidth t0 t1 count = some w) (ht : t0 ≤ t1) {f : FrameInfo} (hlast : f.last < count)
    (hf : f.startOk t0 = true) : (cmdSumEvent p t0 w f).span.ss ≤ (t1 : Rat) := by
  unfold FrameInfo.startOk at hf
  simp only [cmdSumEvent]
  split at hf
  · next i hi =>
    rw [hi]
    exact evenStart_le hw ht ((of_decide_eq_true hf).trans hlast.le)
  · next r hr =>
    rw [hr]
    have : (t0 : Rat) ≤ t1 := by exact_mod_cast ht
    exact (of_decide_eq_true hf).trans this

theorem Spi.headerCheck_eq (ht : s.headerCheck p = .ok t) : t = { s with out := t.out } := by
  simp only [Spi.headerCheck] at ht
  split at ht
  · cases ht
    rfl
  · split at ht
    · cases ht
      rfl
    · rw [run_bind_eq_ok] at ht
      obtain ⟨c, -, ht⟩ := ht
      cases ht
      split <;> rfl

theorem Spi.MidInv.summaries (h : s.MidInv p base) (ht : s.summaries p = .ok t) :
    t.MidInv p base := by
  unfold Spi.summaries at ht
  split at ht
  · cases ht
    exact h
  · next w hw =>
    rw [run_bind_eq_ok] at ht
    obtain ⟨u, hu, ht⟩ := ht
    cases ht
    have hu1 : u.MidInv p base := (h.emit (spanOf_ss_le h.tStart_le _) _).headerCheck hu
    refine hu1.emitAll ?_
    simp only [List.mem_map]
    rintro e ⟨f, hf, rfl⟩
    obtain ⟨-, -, hlast, hstart⟩ := hu1.frames.2 f hf
    have htStart := hu1.tStart_le
    rw [Spi.headerCheck_eq hu] at hlast hstart htStart ⊢
    exact cmdSumEvent_ss_le p hw htStart hlast hstart

/-- What FrameCarry leaves is sound once the transfer is closed: the start of a frame still open has become
a sample no later than this one (45_aggregator.md R344). -/
theorem Spi.MidInv.frameCarry (h : s.MidInv p base) (hact : s.active = true)
    (hbits : s.bitStarts = []) (ht : s.frameCarry = .ok t) :
    Spi.MidInv p base { t with closed := [], active := false } := by
  obtain ⟨hfStart, -⟩ := h.frames
  rcases Spi.frameCarry_cases ht with ⟨hidle, rfl⟩ | ⟨a, es, hopen, rfl, ha, hes⟩
  · have hnone : t.fStart = none := (h.framer.1 hidle).1
    exact { h with frames := ⟨by simp [hnone], by simp⟩, idle := fun _ => ⟨hbits, rfl⟩ }
  have hat : ∀ r, a = some (.at r) → r ≤ (s.n : Rat) := by
    intro r hr
    rcases ha with ⟨rfl, -⟩ | ⟨i, w, hi, hw, rfl⟩
    · have hok := hfStart _ hr
      simp only [FrameStart.ok, hact, Bool.not_true, Bool.false_or, Bool.and_eq_true,
        decide_eq_true_eq] at hok
      have : (s.tStart : Rat) ≤ s.n := by exact_mod_cast h.tStart_le
      exact hok.2.trans this
    · cases hr
      have hok := hfStart _ hi
      simp only [FrameStart.ok, Bool.and_eq_true, decide_eq_true_eq] at hok
      exact evenStart_le hw h.tStart_le hok.2.le
  have hnoidx : ∀ i, a ≠ some (.idx i) := by
    rcases ha with ⟨-, hno⟩ | ⟨i, w, -, -, rfl⟩
    · exact hno
    · simp
  have hsome : s.fStart.isSome = true → a.isSome = true := by
    rcases ha with ⟨rfl, -⟩ | ⟨i, w, -, -, rfl⟩ <;> simp
  obtain ⟨-, hhdr, hpay, hbefore, hafter, hfield⟩ := h.framer
  refine { h with
    framer := ⟨fun hst => absurd hst hopen, fun hst => ⟨hsome (hhdr hst).1, (hhdr hst).2⟩,
      fun hst => ⟨hsome (hpay hst).1, (hpay hst).2⟩, hbefore, hafter, hfield⟩
    frames := ⟨fun b hb => ?_, by simp⟩
    idle := fun _ => ⟨hbits, rfl⟩
    events := h.events.append fun e he _ => ?_ }
  · rcases b with i | r
    · exact absurd hb (hnoidx i)
    · refine FrameStart.ok_succ ?_
      simpa [FrameStart.ok] using hat r hb
  · obtain ⟨r, hr, hss⟩ := hes e he
    rw [hss]
    exact hat r hr

/-! ### The operations of a sample (40_sampler.md R130 to R136) -/

/-- The end of a transfer (40_sampler.md R131). -/
theorem Spi.MidInv.csDeassert (h : s.MidInv p base) (hcnt : s.bitcnt ≤ 7)
    (hbits : ∀ b ∈ s.bitStarts, b < s.n) (ht : s.csDeassert p = .ok t) :
    t.MidInv p base ∧ t.bitcnt ≤ 7 ∧ t.first = s.first ∧ t.active = false := by
  unfold Spi.csDeassert at ht
  split at ht
  · next hact =>
    simp only [Spi.aggregate, run_bind_eq_ok] at ht
    obtain ⟨u, hu, v, ⟨w, hw, z, hz, hv⟩, ht⟩ := ht
    have hkeep := Spi.KeepsTransfer.cutByte hu
    obtain ⟨hmid, hzero⟩ := h.cutByte hact hbits hu
    have hsum := (hmid.emit (sp := pointSpan u.n) (by simp [pointSpan]) (.bus .idle)).summaries hw
    have hkeepw := (u.keeps_emit (pointSpan u.n) (.bus .idle)).trans (.summaries hw)
    have hkeepz := hkeepw.trans (.frameCarry hz)
    have hnil : w.bitStarts = [] := by
      rw [hkeepw.bitStarts]
      exact List.eq_nil_of_length_eq_zero (hmid.bits.1.symm.trans hzero)
    have hclosed := hsum.frameCarry (hkeepw.active.trans (hkeep.active.trans hact)) hnil hz
    cases hv
    cases ht
    refine ⟨hclosed, ?_, hkeepz.first.trans hkeep.first, rfl⟩
    have : z.bitcnt = 0 := hkeepz.bitcnt.trans hzero
    change z.bitcnt ≤ 7
    omega
  · next hact =>
    cases ht
    exact ⟨h, hcnt, rfl, by simpa using hact⟩

/-- A transfer that opens at this sample (40_sampler.md R132): a frame still open started before it. -/
theorem Spi.MidInv.csAssert (h : s.MidInv p base) (hframes : s.FrameAtInv) (hact : s.active = false) :
    s.csAssert.MidInv p base := by
  have hclosed : s.closed = [] := (h.idle hact).2
  refine
    { bits := ⟨rfl, .nil, by simp [Spi.csAssert]⟩
      hdr := by simp [Spi.csAssert, Spi.HdrInv]
      tStart_le := le_rfl
      recs := by simp [Spi.csAssert]
      framer := h.framer
      frames := ⟨fun a ha => ?_, by simp [Spi.csAssert, hclosed]⟩
      idle := by simp [Spi.csAssert]
      events := h.events.concat (by simp [pointSpan]) _ }
  have hok := hframes.1 a ha
  rcases a with i | r
  · simp [FrameStart.ok, hact] at hok
  · simp only [FrameStart.ok, hact, Bool.not_false, Bool.true_or, Bool.and_true,
      decide_eq_true_eq] at hok
    refine FrameStart.ok_succ ?_
    simp [FrameStart.ok, Spi.csAssert, hok]

/-- A sound stack after what a sample does: sound inside the step, with the transfer open exactly while
the sample asserts chip select. -/
theorem Spi.Inv.sampleOp (h : s.Inv p) (hx : p.haveCs = false → x.asserted = true)
    (hop : Spi.SampleOp p x s t) : t.MidInv p s.out ∧ t.bitcnt ≤ 7 ∧ t.first = false
      ∧ t.active = x.asserted ∧ (p.haveCs = false → t.active = true) := by
  have hmid := h.midInv
  obtain ⟨hfresh, ⟨-, -, hbits⟩, hcnt, -, -, -, hframes, ⟨hopen, -, -⟩⟩ := h
  have hlt : ∀ b ∈ s.bitStarts, b < s.n := fun b hb => (hbits b hb).2
  cases hop with
  | baseline hfirst =>
    have hact : s.active = false := by rw [hfresh hfirst]; rfl
    have h0 : s.bitcnt = 0 := by rw [hfresh hfirst]; rfl
    simp only [Spi.baseline]
    split
    · next ha =>
      have hopened := Spi.MidInv.csAssert (p := p) (base := s.out)
        (s := { s with prevSck := x.sck, prevAsserted := x.asserted, first := false })
        { hmid with } hframes hact
      exact ⟨hopened, Nat.zero_le _, rfl, ha.symm, fun _ => rfl⟩
    · next ha =>
      refine ⟨{ hmid with }, hcnt, rfl, ?_, fun hcs => absurd (hx hcs) ha⟩
      rw [Bool.not_eq_true] at ha
      exact hact.trans ha.symm
  | deassert hfirst hcs ha ht =>
    obtain ⟨hmid', hcnt', hfirst', hact'⟩ := hmid.csDeassert hcnt hlt ht
    exact ⟨hmid', hcnt', hfirst'.trans hfirst, hact'.trans ha.symm, by simp [hcs]⟩
  | assert hfirst hprev ha =>
    have hact : s.active = false := (hopen hfirst).1.trans hprev
    exact ⟨hmid.csAssert hframes hact, Nat.zero_le _, hfirst, ha.symm, fun _ => rfl⟩
  | assertBit hfirst hprev ha ht =>
    have hact : s.active = false := (hopen hfirst).1.trans hprev
    have hkeep := Spi.KeepsTransfer.sckSample ht
    obtain ⟨hmid', hcnt'⟩ := (hmid.csAssert hframes hact).sckSample rfl (Nat.zero_le _)
      (by simp [Spi.csAssert]) ht
    exact ⟨hmid', hcnt', hkeep.first.trans hfirst, hkeep.active.trans ha.symm, fun _ => hkeep.active⟩
  | bit hfirst ha hprev ht =>
    have hact : s.active = true := by
      rcases hprev with hprev | hcs
      · exact (hopen hfirst).1.trans hprev
      · exact (hopen hfirst).2 hcs
    have hkeep := Spi.KeepsTransfer.sckSample ht
    obtain ⟨hmid', hcnt'⟩ := hmid.sckSample hact hcnt hlt ht
    exact ⟨hmid', hcnt', hkeep.first.trans hfirst, hkeep.active.trans (hact.trans ha.symm),
      fun _ => hkeep.active.trans hact⟩
  | idle hfirst hsame =>
    obtain ⟨hact, hcs⟩ := hopen hfirst
    refine ⟨hmid, hcnt, hfirst, ?_, hcs⟩
    rcases hsame with hsame | hno
    · exact hact.trans hsame.symm
    · exact (hcs hno).trans (hx hno).symm

/-- An SPI step from a sound stack leads to a sound stack, and none of its events but a late bit field
starts after its sample. -/
theorem Spi.Inv.step {y : SpiSample} (h : s.Inv p) (ht : s.takeSample p y = .ok t) :
    t.Inv p ∧ GrowsBy s.n s.out t.out := by
  obtain ⟨u, hop, rfl⟩ := Spi.takeSample_cases ht
  have hx : p.haveCs = false → (levelsOf p y).asserted = true := fun hcs => by
    simp [levelsOf, asserted, hcs]
  obtain ⟨hmid, hcnt, hfirst, hact, hcs⟩ := h.sampleOp hx hop
  refine ⟨hmid.inv hcnt hfirst hact hcs s, ?_⟩
  have hevents := hmid.events
  rw [hop.grows.n] at hevents
  exact hevents.portEvents _

/-- The stack after reset is sound under any parameters (70_reset_and_hazards.md R400). -/
theorem Spi.reset_inv (p : SpiParams) (out : List OutEvent) :
    Spi.Inv p { Spi.reset with out := out } := by
  simp [Spi.Inv, Spi.FreshInv, Spi.BitsInv, Spi.HdrInv, Spi.RecInv, Spi.FramerInv, Spi.FrameAtInv,
    Spi.ActiveInv, Spi.reset]

end Sys2Proof.Machine

end

/-! ## The APDU and datalink parsers keep their invariants (44_datalink_apdu.md R306)

The parsers are described by the number `m` of the transfer's bytes they have dealt with: the byte in
hand is at index `m` before its operation, and one of the `m + 1` after it. -/

section

namespace Sys2Proof.Machine

open Sys2Proof

/-- The APDU registers after `m` bytes of the transfer, at sample `n` (44_datalink_apdu.md R298 to
R302). -/
structure Ap.Sound (p : I2cParams) (m n : Nat) (a : Ap) : Prop where
  first_iff : a.ast = .cmd ↔ a.aFirst = none
  state : a.stateOk p = true
  place : ∀ f ∈ a.aFirst, f < m
  lenStart : a.ast = .len1 → a.aLenStart ≤ n

/-- The datalink registers of a phase with direction `rw` after `m` bytes of the transfer, at sample `n`
(44_datalink_apdu.md R281 to R295). -/
structure Dl.Sound (rw : Option Dir) (m n : Nat) (d : Dl) : Prop where
  first_iff : d.dst = .fctr ↔ d.dFirst = none
  state : d.stateOk rw = true
  place : ∀ f ∈ d.dFirst, f < m ∧ (if d.dst = .done then f + d.taken ≤ m else f + d.taken = m)
  lenStart : d.dst = .len1 → d.dLenStart ≤ n
  fcsStart : d.dst = .fcs1 → d.dFcsStart ≤ n

/-- The APDU parser after `m` bytes, the APDUs that ended, and the events since `base`. -/
structure I2c.ApOk (p : I2cParams) (base : List OutEvent) (m : Nat) (s : I2c) : Prop where
  ap : s.ap.Sound p m s.n
  apPairwise : s.apduDone.Pairwise fun a b => a.phaseNo < b.phaseNo
  apDone : ∀ a ∈ s.apduDone, a.first ≤ a.last ∧ a.last < s.xfer.length ∧ a.phaseNo ≤ s.phaseNo
    ∧ (a.phaseNo = s.phaseNo → s.ap.ast = .done)
  events : GrowsBy s.n base s.out

/-- The APDU registers against the datalink registers (44_datalink_apdu.md R294, R295). -/
structure ApFits (a : Ap) (d : Dl) : Prop where
  inside : a.ast ≠ .cmd →
    d.apduMode = true ∧ (d.dst = .pay ∨ d.dst = .fcs0 ∨ d.dst = .fcs1 ∨ d.dst = .done)
  running : a.ast ≠ .cmd → a.ast ≠ .done → d.dst = .pay
  begun : d.dst = .pay → d.apduMode = true → (a.ast = .cmd ↔ d.dpay = 0)

/-- Besides, the datalink parser, and the frames that ended: at the end of a phase, where the frame in
progress may be one of them. -/
structure I2c.EndOk (p : I2cParams) (base : List OutEvent) (m : Nat) (s : I2c) : Prop
    extends I2c.ApOk p base m s where
  dl : s.dl.Sound s.rw m s.n
  fits : ApFits s.ap s.dl
  dlPairwise : s.dlDone.Pairwise fun a b => a.phaseNo < b.phaseNo
  dlDone : ∀ d ∈ s.dlDone, d.first ≤ d.last ∧ d.last < s.xfer.length ∧ d.phaseNo ≤ s.phaseNo
    ∧ (d.complete = true → d.last + 1 = d.first + d.dlen.toNat + 5)

/-- Besides, a frame of this phase has ended only where the parser is done. -/
structure I2c.DlOk (p : I2cParams) (base : List OutEvent) (m : Nat) (s : I2c) : Prop
    extends I2c.EndOk p base m s where
  ended : ∀ d ∈ s.dlDone, d.phaseNo = s.phaseNo → s.dl.dst = .done

/-- The byte in hand is the last record, at index `k`, of a phase with direction `d`. -/
structure I2c.InHand (k : Nat) (d : Dir) (s : I2c) : Prop where
  last : k + 1 = s.xfer.length
  rw_eq : s.rw = some d
  starts : ∀ r ∈ s.xfer, r.start ≤ s.n
  mid : ∀ r, s.xfer[k]? = some r → r.start + r.stop ≤ 2 * s.n

variable {p : I2cParams} {base : List OutEvent} {k m : Nat} {s t u : I2c} {d : Dir}

/-! ### The byte in hand -/

theorem I2c.InHand.start_le (h : s.InHand k d) {i : Nat} {r : I2cByteRec} (hr : s.bufRead i = .ok r) :
    r.start ≤ s.n :=
  h.starts r (List.mem_of_getElem? ((I2c.bufRead_eq_ok ..).mp hr))

/-- The span of the byte in hand starts by the sample, and so does each field in its first half. -/
theorem I2c.InHand.recSpan (h : s.InHand k d) {sp : Span} (hsp : s.recSpan k = .ok sp) :
    sp.ss ≤ (s.n : Rat) ∧ ∀ off w, off ≤ 4 → (subSpan sp off w).ss ≤ (s.n : Rat) := by
  simp only [I2c.recSpan, run_bind_eq_ok] at hsp
  obtain ⟨r, hr, hsp⟩ := hsp
  cases hsp
  have hstart := h.start_le hr
  exact ⟨spanOf_ss_le hstart _, fun off w hoff =>
    subSpan_ss_le hstart (h.mid r ((I2c.bufRead_eq_ok ..).mp hr)) hoff w⟩

/-! ### The APDU -/

theorem Ap.Sound.mono {n m' : Nat} {a : Ap} (h : a.Sound p m n) (hm : m ≤ m') : a.Sound p m' n :=
  { h with place := fun f hf => (h.place f hf).trans_le hm }

theorem I2c.ApOk.mono {m' : Nat} (h : s.ApOk p base m) (hm : m ≤ m') : s.ApOk p base m' :=
  { h with ap := h.ap.mono hm }

theorem I2c.ApOk.emit (h : s.ApOk p base m) {sp : Span} (hsp : sp.ss ≤ (s.n : Rat)) (e : Event) :
    (s.emit sp e).ApOk p base m :=
  { h with events := h.events.concat hsp e }

theorem Ap.sound_reset (p : I2cParams) (m n : Nat) : Ap.reset.Sound p m n :=
  ⟨by simp [Ap.reset], by simp [Ap.stateOk, Ap.reset], by simp [Ap.reset], by simp [Ap.reset]⟩

/-- While an APDU runs, none of its phase has ended, so its registers may change. -/
theorem I2c.ApOk.setAp (h : s.ApOk p base m) (hrun : s.ap.ast ≠ .done) {m' : Nat} {a : Ap}
    {out : List OutEvent} (ha : a.Sound p m' s.n) (hout : GrowsBy s.n base out) :
    I2c.ApOk p base m' { s with ap := a, out := out } where
  ap := ha
  apPairwise := h.apPairwise
  apDone := fun i hi => by
    obtain ⟨h1, h2, h3, h4⟩ := h.apDone i hi
    exact ⟨h1, h2, h3, fun heq => absurd (h4 heq) hrun⟩
  events := hout

/-- The APDU that runs ends with the last record, after its first (44_datalink_apdu.md R302). -/
theorem I2c.ApOk.apduFinish (h : s.ApOk p base m) (hrun : s.ap.ast ≠ .done)
    (hk : k + 1 = s.xfer.length) {a : Ap} {out : List OutEvent} (hfirst : ∀ f ∈ a.aFirst, f ≤ k)
    (hout : GrowsBy s.n base out) {c : Bool}
    (ht : { s with ap := a, out := out }.apduFinish k d c = .ok t) :
    t.ApOk p base (k + 1) ∧ t.ap.ast = .done := by
  obtain ⟨f, hf, rfl⟩ := (I2c.apduFinish_eq_ok ..).mp ht
  have hold : ∀ i ∈ s.apduDone, i.phaseNo < s.phaseNo := fun i hi => by
    obtain ⟨-, -, h3, h4⟩ := h.apDone i hi
    exact lt_of_le_of_ne h3 fun heq => hrun (h4 heq)
  refine ⟨{
    ap := ⟨by simp [show a.aFirst = some f from hf], rfl, fun i hi => ?_, by simp⟩
    apPairwise := ?_
    apDone := fun i hi => ?_
    events := hout }, rfl⟩
  · exact Nat.lt_succ_of_le (hfirst i hi)
  · refine List.pairwise_append.mpr ⟨h.apPairwise, List.pairwise_singleton _ _, fun i hi j hj => ?_⟩
    rw [List.mem_singleton.mp hj]
    exact hold i hi
  · rcases List.mem_append.mp hi with hi | hi
    · obtain ⟨h1, h2, h3, -⟩ := h.apDone i hi
      exact ⟨h1, h2, h3, fun _ => rfl⟩
    · rw [List.mem_singleton.mp hi]
      exact ⟨hfirst f hf, Nat.lt_of_succ_le hk.le, le_rfl, fun _ => rfl⟩

theorem I2c.ApOk.apduCmd (h : s.ApOk p base k) (hin : s.InHand k d) (hst : s.ap.ast = .cmd) {v : Byte}
    (ht : s.apduCmd p k v d = .ok t) : t.ApOk p base (k + 1) ∧ t.ap.ast ≠ .cmd := by
  simp only [I2c.apduCmd, run_bind_eq_ok] at ht
  obtain ⟨sp, hsp, ht⟩ := ht
  have hss := (hin.recSpan hsp).1
  have hreset : s.ap = Ap.reset := by
    simpa [Ap.stateOk, hst] using h.ap.state
  have hsound : { s.ap with aFirst := some k, cmd := v, ast := .param }.Sound p (k + 1) s.n :=
    ⟨by simp, by simp [Ap.stateOk, hreset, Ap.reset], by simp, by simp⟩
  cases ht
  split <;> exact ⟨h.setAp (by simp [hst]) hsound (h.events.concat hss _), by simp⟩

theorem I2c.ApOk.apduParam (h : s.ApOk p base k) (hin : s.InHand k d) (hst : s.ap.ast = .param)
    {v : Byte} (ht : s.apduParam k v = .ok t) : t.ApOk p base (k + 1) ∧ t.ap.ast ≠ .cmd := by
  simp only [I2c.apduParam, run_bind_eq_ok] at ht
  obtain ⟨sp, hsp, ht⟩ := ht
  have hap := h.ap.mono (Nat.le_succ k)
  have hsound : { s.ap with param := v, ast := .len0 }.Sound p (k + 1) s.n :=
    ⟨by simpa [hst] using hap.first_iff, by simpa [Ap.stateOk, hst] using hap.state, hap.place, by simp⟩
  cases ht
  exact ⟨h.setAp (by simp [hst]) hsound (h.events.concat (hin.recSpan hsp).1 _), by simp⟩

theorem I2c.ApOk.apduLen0 (h : s.ApOk p base k) (hin : s.InHand k d) (hst : s.ap.ast = .len0)
    {v : Byte} (ht : s.apduLen0 k v = .ok t) : t.ApOk p base (k + 1) ∧ t.ap.ast ≠ .cmd := by
  simp only [I2c.apduLen0, run_bind_eq_ok] at ht
  obtain ⟨r, hr, ht⟩ := ht
  have hap := h.ap.mono (Nat.le_succ k)
  have hsound : { s.ap with aLenStart := r.start, alen := highByte v, ast := .len1 }.Sound p (k + 1)
      s.n :=
    ⟨by simpa [hst] using hap.first_iff, by simpa [Ap.stateOk, hst] using hap.state, hap.place,
      fun _ => hin.start_le hr⟩
  cases ht
  exact ⟨h.setAp (by simp [hst]) hsound h.events, by simp⟩

theorem I2c.ApOk.apduLen1 (h : s.ApOk p base k) (hin : s.InHand k d) (hst : s.ap.ast = .len1)
    {v : Byte} (ht : s.apduLen1 p k v d = .ok t) : t.ApOk p base (k + 1) ∧ t.ap.ast ≠ .cmd := by
  simp only [I2c.apduLen1, run_bind_eq_ok] at ht
  obtain ⟨r, -, ht⟩ := ht
  have hap := h.ap.mono (Nat.le_succ k)
  have hss := spanOf_ss_le (h.ap.lenStart hst) r.stop
  have hrun : s.ap.ast ≠ .done := by simp [hst]
  split at ht
  · obtain ⟨hok, hdone⟩ := h.apduFinish hrun hin.last
      (a := { s.ap with
        alen := joinLow s.ap.alen v, arem := apduDataSize p (joinLow s.ap.alen v) })
      (fun f hf => (h.ap.place f hf).le) (h.events.concat hss _) ht
    exact ⟨hok, by simp [hdone]⟩
  · next hrem =>
    cases ht
    have hcount : s.ap.arem = 0 ∧ s.ap.adata = 0 := by
      simpa [Ap.stateOk, hst] using hap.state
    have hpos : 1 ≤ apduDataSize p (joinLow s.ap.alen v) := Nat.pos_of_ne_zero hrem
    have hsound : { s.ap with
        alen := joinLow s.ap.alen v, arem := apduDataSize p (joinLow s.ap.alen v),
        ast := .data }.Sound p (k + 1) s.n :=
      ⟨by simpa [hst] using hap.first_iff, by simp [Ap.stateOk, hcount.2, hpos], hap.place, by simp⟩
    exact ⟨h.setAp hrun hsound (h.events.concat hss _), by simp⟩

theorem I2c.ApOk.apduData (h : s.ApOk p base k) (hin : s.InHand k d) (hst : s.ap.ast = .data)
    {v : Byte} (ht : s.apduData k v d = .ok t) : t.ApOk p base (k + 1) ∧ t.ap.ast ≠ .cmd := by
  simp only [I2c.apduData, run_bind_eq_ok, natSub_eq_ok] at ht
  obtain ⟨sp, hsp, arem, ⟨-, rfl⟩, ht⟩ := ht
  have hap := h.ap.mono (Nat.le_succ k)
  have hss := (hin.recSpan hsp).1
  have hrun : s.ap.ast ≠ .done := by simp [hst]
  split at ht
  · obtain ⟨hok, hdone⟩ := h.apduFinish hrun hin.last
      (a := { s.ap with adata := s.ap.adata + 1, arem := s.ap.arem - 1 })
      (fun f hf => (h.ap.place f hf).le) (h.events.concat hss _) ht
    exact ⟨hok, by simp [hdone]⟩
  · next hrem =>
    cases ht
    have hcount : 1 ≤ s.ap.arem ∧ s.ap.adata + s.ap.arem = apduDataSize p s.ap.alen := by
      simpa [Ap.stateOk, hst] using hap.state
    have hsound : { s.ap with adata := s.ap.adata + 1, arem := s.ap.arem - 1 }.Sound p (k + 1)
        s.n := by
      refine ⟨hap.first_iff, ?_, hap.place, hap.lenStart⟩
      simp only [Ap.stateOk, hst, Bool.and_eq_true, decide_eq_true_eq, beq_iff_eq]
      omega
    exact ⟨h.setAp hrun hsound (h.events.concat hss _), by simp [hst]⟩

/-- One byte of an APDU: afterwards the APDU has begun. -/
theorem I2c.ApOk.apduByte (h : s.ApOk p base k) (hin : s.InHand k d) {v : Byte}
    (ht : s.apduByte p k v d = .ok t) : t.ApOk p base (k + 1) ∧ t.ap.ast ≠ .cmd := by
  unfold I2c.apduByte at ht
  cases hst : s.ap.ast <;> rw [hst] at ht
  case cmd => exact h.apduCmd hin hst ht
  case param => exact h.apduParam hin hst ht
  case len0 => exact h.apduLen0 hin hst ht
  case len1 => exact h.apduLen1 hin hst ht
  case data => exact h.apduData hin hst ht
  case done =>
    simp only [I2c.apduExcess, run_bind_eq_ok] at ht
    obtain ⟨sp, hsp, ht⟩ := ht
    cases ht
    exact ⟨(h.mono (Nat.le_succ k)).emit (hin.recSpan hsp).1 _, by simp [I2c.diag, hst]⟩

end Sys2Proof.Machine

end

section

namespace Sys2Proof.Machine

open Sys2Proof

variable {p : I2cParams} {base : List OutEvent} {k m : Nat} {s t u : I2c} {d : Dir}

/-! ### The datalink frame -/

/-- Before the payload no APDU has begun. -/
theorem ApFits.cmd_of_early {a : Ap} {q : Dl} (h : ApFits a q)
    (hst : q.dst = .fctr ∨ q.dst = .len0 ∨ q.dst = .len1 ∨ q.dst = .pctr ∨ q.dst = .sctr) :
    a.ast = .cmd := by
  by_contra hne
  have := (h.inside hne).2
  rcases hst with hst | hst | hst | hst | hst <;> simp [hst] at this

/-- An APDU that has not begun fits registers that are not in a payload. -/
theorem ApFits.of_cmd {a : Ap} {q : Dl} (ha : a.ast = .cmd) (hq : q.dst ≠ .pay) : ApFits a q :=
  ⟨fun h => absurd ha h, fun h => absurd ha h, fun h => absurd h hq⟩

/-- While a frame runs, none of its phase has ended, so its registers may change. -/
theorem I2c.DlOk.setDl (h : s.DlOk p base k) (hrun : s.dl.dst ≠ .done) {q : Dl} {out : List OutEvent}
    (hq : q.Sound s.rw (k + 1) s.n) (hfits : ApFits s.ap q) (hout : GrowsBy s.n base out) :
    I2c.DlOk p base (k + 1) { s with dl := q, out := out } :=
  { h with
    ap := h.ap.mono (Nat.le_succ k)
    events := hout
    dl := hq
    fits := hfits
    ended := fun i hi heq => absurd (h.ended i hi heq) hrun }

theorem I2c.DlOk.dlFctr (h : s.DlOk p base k) (hin : s.InHand k d) (hst : s.dl.dst = .fctr) {v : Byte}
    (ht : s.dlFctr k v = .ok t) : t.DlOk p base (k + 1) := by
  simp only [I2c.dlFctr, run_bind_eq_ok] at ht
  obtain ⟨sp, hsp, ht⟩ := ht
  have hsub := (hin.recSpan hsp).2
  have hreset : s.dl = Dl.reset := by
    simpa [Dl.stateOk, hst] using h.dl.state
  have hsound : { s.dl with dFirst := some k, fctr := v, dst := .len0 }.Sound s.rw (k + 1) s.n :=
    ⟨by simp, by simp [Dl.stateOk, hreset, Dl.reset], by simp [Dl.taken], by simp, by simp⟩
  cases ht
  refine h.setDl (by simp [hst]) hsound (.of_cmd (h.fits.cmd_of_early (by simp [hst])) (by simp))
    (h.events.append ?_)
  simp [fctrEvents, bitFieldEvent, fieldSpan, Event.lateField, hsub]

theorem I2c.DlOk.dlLen0 (h : s.DlOk p base k) (hin : s.InHand k d) (hst : s.dl.dst = .len0) {v : Byte}
    (ht : s.dlLen0 k v = .ok t) : t.DlOk p base (k + 1) := by
  simp only [I2c.dlLen0, run_bind_eq_ok] at ht
  obtain ⟨r, hr, ht⟩ := ht
  have hdl := h.dl
  have hplace := hdl.place
  have hsound : { s.dl with dLenStart := r.start, dlen := highByte v, dst := .len1 }.Sound s.rw
      (k + 1) s.n := by
    refine ⟨by simpa [hst] using hdl.first_iff, by simpa [Dl.stateOk, hst] using hdl.state,
      fun f hf => ?_, fun _ => hin.start_le hr, by simp⟩
    have := hplace f hf
    simp only [Dl.taken, hst, reduceCtorEq, if_false] at this ⊢
    omega
  cases ht
  exact h.setDl (by simp [hst]) hsound (.of_cmd (h.fits.cmd_of_early (by simp [hst])) (by simp))
    h.events

theorem I2c.DlOk.dlLen1 (h : s.DlOk p base k) (hst : s.dl.dst = .len1) {v : Byte}
    (ht : s.dlLen1 k v = .ok t) : t.DlOk p base (k + 1) := by
  simp only [I2c.dlLen1, run_bind_eq_ok] at ht
  obtain ⟨r, -, ht⟩ := ht
  have hss := spanOf_ss_le (h.dl.lenStart hst) r.stop
  have hdl := h.dl
  have hplace := hdl.place
  have hstate := hdl.state
  simp only [Dl.stateOk, hst, Bool.and_eq_true, Option.isNone_iff_eq_none, beq_iff_eq,
    Bool.not_eq_true'] at hstate
  obtain ⟨⟨⟨⟨hpctr, hsctr⟩, hpay⟩, hmode⟩, -⟩ := hstate
  cases ht
  refine h.setDl (by simp [hst]) ?_ (.of_cmd (h.fits.cmd_of_early (by simp [hst])) ?_)
    (h.events.concat hss _)
  · by_cases hzero : joinLow s.dl.dlen v = 0#16
    · refine ⟨by simpa [hst, hzero] using hdl.first_iff, ?_, fun f hf => ?_, by simp [hzero],
        by simp [hzero]⟩
      · simp [Dl.stateOk, hzero, hpctr, hsctr, hpay, hmode]
      · have := hplace f hf
        simp [Dl.taken, hst, hzero] at this ⊢
        omega
    · have hpos : 1 ≤ (joinLow s.dl.dlen v).toNat :=
        Nat.pos_of_ne_zero fun h0 => hzero (BitVec.eq_of_toNat_eq (by simpa using h0))
      refine ⟨by simpa [hst, hzero] using hdl.first_iff, ?_, fun f hf => ?_, by simp [hzero],
        by simp [hzero]⟩
      · simp [Dl.stateOk, hzero, hpctr, hsctr, hpay, hmode, hpos]
      · have := hplace f hf
        simp [Dl.taken, hst, hzero] at this ⊢
        omega
  · dsimp only
    split <;> simp

/-- The payload begins with control bytes read and bytes left (44_datalink_apdu.md R294). -/
theorem I2c.DlOk.payloadBegin (h : s.DlOk p base k) (hrw : s.rw = some d)
    (hst : s.dl.dst = .pctr ∨ s.dl.dst = .sctr) {q : Dl} {out : List OutEvent}
    (hfirst : q.dFirst = s.dl.dFirst) (hpay : q.dpay = 0) (hrem : 1 ≤ q.drem)
    (hcount : q.drem + q.control = q.dlen.toNat)
    (hplace : ∀ f ∈ q.dFirst, f + 3 + q.control = k + 1)
    (hout : GrowsBy s.n base out) (ht : { s with dl := q, out := out }.payloadBegin d = .ok t) :
    t.DlOk p base (k + 1) := by
  obtain ⟨c, hc, rfl⟩ := (I2c.payloadBegin_eq_ok ..).mp ht
  have hcmd : s.ap.ast = .cmd :=
    h.fits.cmd_of_early (by rcases hst with hst | hst <;> simp [hst])
  have hrun : s.dl.dst ≠ .done := by rcases hst with hst | hst <;> simp [hst]
  simp only [Dl.control] at hcount hplace
  refine { h with
    ap := Ap.sound_reset _ _ _
    apDone := fun i hi => ?_
    events := hout
    dl := ⟨?_, ?_, fun f hf => ?_, by simp, by simp⟩
    fits := ⟨by simp [Ap.reset], by simp [Ap.reset], fun _ _ => by simp [Ap.reset, hpay]⟩
    ended := fun i hi heq => absurd (h.ended i hi heq) hrun }
  · obtain ⟨h1, h2, h3, h4⟩ := h.apDone i hi
    exact ⟨h1, h2, h3, fun heq => by simp [hcmd] at h4; exact absurd heq h4⟩
  · have := h.dl.first_iff
    rcases hst with hst | hst <;> simpa [hst, hfirst] using this
  · change q.pctr = some c at hc
    simp only [Dl.stateOk, Dl.control, hc, hrw, Option.isSome_some, Option.any_some, Bool.true_and,
      Bool.and_eq_true, decide_eq_true_eq, beq_iff_eq, hpay]
    exact ⟨⟨hrem, by omega⟩, trivial⟩
  · have := hplace f hf
    simp only [Dl.taken, reduceCtorEq, if_false]
    omega

theorem I2c.DlOk.dlPctr (h : s.DlOk p base k) (hin : s.InHand k d) (hst : s.dl.dst = .pctr) {v : Byte}
    (ht : s.dlPctr k v d = .ok t) : t.DlOk p base (k + 1) := by
  simp only [I2c.dlPctr, run_bind_eq_ok, natSub_eq_ok] at ht
  obtain ⟨sp, hsp, drem, ⟨hrem, rfl⟩, ht⟩ := ht
  have hsub := (hin.recSpan hsp).2
  have hdl := h.dl
  have hplace := hdl.place
  have hstate := hdl.state
  simp only [Dl.stateOk, hst, Bool.and_eq_true, Option.isNone_iff_eq_none, beq_iff_eq,
    Bool.not_eq_true', decide_eq_true_eq] at hstate
  obtain ⟨⟨⟨⟨⟨hpctr, hsctr⟩, hpay⟩, hmode⟩, -⟩, hlen⟩ := hstate
  have hcmd := h.fits.cmd_of_early (by simp [hst])
  have hout : GrowsBy s.n base (s.out ++ pctrEvents v sp) := h.events.append (by
    simp [pctrEvents, bitFieldEvent, fieldSpan, Event.lateField, hsub])
  have hat : ∀ f ∈ s.dl.dFirst, f + 3 = k := fun f hf => by
    simpa [Dl.taken, hst] using (hplace f hf).2
  split at ht
  · next hmore =>
    cases ht
    refine h.setDl (by simp [hst]) ⟨?_, ?_, fun f hf => ?_, by simp, by simp⟩
      (.of_cmd hcmd (by simp)) hout
    · simpa [hst] using hdl.first_iff
    · simp only [I2c.emitAll_dl, Dl.stateOk, Option.any_some, hmore.1, hsctr, hpay, hmode,
        Option.isNone_none, Bool.true_and, Bool.not_false, Bool.and_eq_true, beq_self_eq_true,
        decide_eq_true_eq, beq_iff_eq]
      omega
    · have := hat f hf
      simp only [Dl.taken, reduceCtorEq, if_false]
      omega
  · split at ht
    · next hmore =>
      refine h.payloadBegin hin.rw_eq (.inl hst) (q := { s.dl with
        pctr := some v, drem := s.dl.drem - 1 }) rfl hpay hmore ?_ ?_ hout ht
      · simp only [Dl.control, hsctr]
        simp
        omega
      · intro f hf
        have := hat f hf
        simp only [Dl.control, hsctr]
        simp
        omega
    · next hlast =>
      cases ht
      have hzero : s.dl.drem = 1 := by omega
      refine h.setDl (by simp [hst]) ⟨?_, ?_, fun f hf => ?_, by simp, by simp⟩
        (.of_cmd hcmd (by simp)) hout
      · simpa [hst] using hdl.first_iff
      · simp [Dl.stateOk, hzero, hpay, Dl.control, hsctr, ← hlen]
      · have := hat f hf
        simp only [Dl.taken, reduceCtorEq, if_false, I2c.emitAll_dl]
        omega

theorem I2c.DlOk.dlSctr (h : s.DlOk p base k) (hin : s.InHand k d) (hst : s.dl.dst = .sctr) {v : Byte}
    (ht : s.dlSctr k v d = .ok t) : t.DlOk p base (k + 1) := by
  simp only [I2c.dlSctr, run_bind_eq_ok, natSub_eq_ok] at ht
  obtain ⟨sp, hsp, drem, ⟨hrem, rfl⟩, ht⟩ := ht
  have hsub := (hin.recSpan hsp).2
  have hdl := h.dl
  have hplace := hdl.place
  have hstate := hdl.state
  simp only [Dl.stateOk, hst, Bool.and_eq_true, Option.isNone_iff_eq_none, beq_iff_eq,
    Bool.not_eq_true', decide_eq_true_eq] at hstate
  obtain ⟨⟨⟨⟨⟨hpctr, hsctr⟩, hpay⟩, hmode⟩, -⟩, hlen⟩ := hstate
  have hcmd := h.fits.cmd_of_early (by simp [hst])
  have hout : GrowsBy s.n base (s.out ++ sctrEvents v sp) := h.events.append (by
    simp [sctrEvents, bitFieldEvent, fieldSpan, Event.lateField, hsub])
  have hat : ∀ f ∈ s.dl.dFirst, f + 4 = k := fun f hf => by
    simpa [Dl.taken, hst] using (hplace f hf).2
  split at ht
  · next hmore =>
    refine h.payloadBegin hin.rw_eq (.inr hst) (q := { s.dl with
      sctr := some v, drem := s.dl.drem - 1 }) rfl hpay hmore ?_ ?_ hout ht
    · simp only [Dl.control]
      simp
      omega
    · intro f hf
      have := hat f hf
      simp only [Dl.control]
      simp
      omega
  · next hlast =>
    cases ht
    have hzero : s.dl.drem = 1 := by omega
    have hsome : s.dl.pctr.isSome = true := by
      cases hp : s.dl.pctr <;> simp_all
    refine h.setDl (by simp [hst]) ⟨?_, ?_, fun f hf => ?_, by simp, by simp⟩
      (.of_cmd hcmd (by simp)) hout
    · simpa [hst] using hdl.first_iff
    · simp [Dl.stateOk, hzero, hpay, Dl.control, hsome, ← hlen]
    · have := hat f hf
      simp only [Dl.taken, reduceCtorEq, if_false, I2c.emitAll_dl]
      omega

/-- An APDU that the end of the payload cuts, or one that is complete, is done afterwards. -/
theorem I2c.ApOk.cutApdu (h : s.ApOk p base (k + 1)) (hk : k + 1 = s.xfer.length)
    (hrecs : ∀ r ∈ s.xfer, r.start ≤ s.n) (ht : s.cutApdu k d = .ok t) :
    t.ApOk p base (k + 1) ∧ (s.dl.apduMode = true → t.ap.ast = .done)
      ∧ (s.dl.apduMode = false → t.ap = s.ap) := by
  unfold I2c.cutApdu at ht
  split at ht
  · next hcut =>
    simp only [run_bind_eq_ok] at ht
    obtain ⟨a, -, ra, hra, r, -, ht⟩ := ht
    have hstart := hrecs ra (List.mem_of_getElem? ((I2c.bufRead_eq_ok ..).mp hra))
    obtain ⟨hok, hdone⟩ := h.apduFinish hcut.2 hk (a := s.ap)
      (fun f hf => Nat.le_of_lt_succ (h.ap.place f hf))
      (h.events.concat (spanOf_ss_le hstart r.stop) _) ht
    exact ⟨hok, fun _ => hdone, fun hmode => by simp [hmode] at hcut⟩
  · next hcut =>
    cases ht
    refine ⟨h, fun hmode => ?_, fun _ => rfl⟩
    by_contra hne
    exact hcut ⟨hmode, hne⟩

/-- A payload byte, dealt with by `u`, is counted; the last one ends the payload (44_datalink_apdu.md
R295). -/
theorem I2c.DlOk.countPayload (h : s.DlOk p base k) (hin : s.InHand k d) (hst : s.dl.dst = .pay)
    (hu : u.ApOk p base (k + 1)) (honly : s.ApOnly u)
    (hbegun : s.dl.apduMode = true → u.ap.ast ≠ .cmd)
    (hraw : s.dl.apduMode = false → u.ap.ast = .cmd) (ht : u.countPayload k d = .ok t) :
    t.DlOk p base (k + 1) := by
  have hplace := h.dl.place
  have hfirst := h.dl.first_iff
  have hstate := h.dl.state
  simp only [Dl.stateOk, hst, Bool.and_eq_true, decide_eq_true_eq, beq_iff_eq] at hstate
  obtain ⟨⟨⟨hpctr, hrem⟩, hlen⟩, hmode⟩ := hstate
  have hended : ∀ i ∈ s.dlDone, i.phaseNo ≠ s.phaseNo := fun i hi heq => by
    simpa [hst] using h.ended i hi heq
  have hat : ∀ f ∈ s.dl.dFirst, f + (3 + (s.dl.dlen.toNat - s.dl.drem)) = k := fun f hf => by
    simpa [Dl.taken, hst] using (hplace f hf).2
  obtain ⟨a, ad, o, rfl⟩ : ∃ a ad o, u = { s with ap := a, apduDone := ad, out := o } :=
    ⟨_, _, _, honly.rest⟩
  simp only [I2c.countPayload, run_bind_eq_ok, natSub_eq_ok] at ht
  obtain ⟨drem, ⟨-, rfl⟩, ht⟩ := ht
  split at ht
  · next hzero =>
    rw [run_bind_eq_ok] at ht
    obtain ⟨v, hv, ht⟩ := ht
    have honly' := I2c.ApOnly.cutApdu hv
    have hu' : I2c.ApOk p base (k + 1) { s with
        dl := { s.dl with dpay := s.dl.dpay + 1, drem := s.dl.drem - 1 }
        ap := a, apduDone := ad, out := o } := { hu with }
    obtain ⟨hok, hdone, hsame⟩ := hu'.cutApdu hin.last hin.starts hv
    obtain ⟨a', ad', o', rfl⟩ : ∃ a' ad' o', v = { s with
        dl := { s.dl with dpay := s.dl.dpay + 1, drem := s.dl.drem - 1 }
        ap := a', apduDone := ad', out := o' } := ⟨_, _, _, honly'.rest⟩
    cases ht
    have hcases : (s.dl.apduMode = true ∧ a'.ast = .done)
        ∨ (s.dl.apduMode = false ∧ a'.ast = .cmd) := by
      cases hm : s.dl.apduMode
      · have heq : a' = a := hsame hm
        exact .inr ⟨rfl, heq ▸ hraw hm⟩
      · exact .inl ⟨rfl, hdone hm⟩
    exact { hok with
      dl := ⟨by simpa [hst] using hfirst, by
          simp only [Dl.stateOk, Dl.control, hpctr, if_true, Bool.and_eq_true, beq_iff_eq] at hlen ⊢
          omega, fun f hf => by
          have := hat f hf
          simp only [Dl.taken, reduceCtorEq, if_false]
          omega, by simp, by simp⟩
      fits := ⟨fun hne => by
          rcases hcases with ⟨hm, -⟩ | ⟨-, hc⟩
          · exact ⟨hm, by simp⟩
          · exact absurd hc hne, fun hne hnd => by
          rcases hcases with ⟨-, hd⟩ | ⟨-, hc⟩
          · exact absurd hd hnd
          · exact absurd hc hne, by simp⟩
      dlPairwise := h.dlPairwise
      dlDone := h.dlDone
      ended := fun i hi heq => absurd heq (hended i hi) }
  · next hmore =>
    cases ht
    exact { hu with
      dl := ⟨by simpa [hst] using hfirst, by
          simp only [Dl.stateOk, Dl.control, hst, hpctr, hmode, Bool.true_and, Bool.and_eq_true,
            beq_iff_eq, decide_eq_true_eq] at hlen ⊢
          exact ⟨⟨by omega, by omega⟩, trivial⟩, fun f hf => by
          have := hat f hf
          simp only [Dl.control] at hlen
          simp only [Dl.taken, hst, reduceCtorEq, if_false]
          omega, by simp [hst], by simp [hst]⟩
      fits := ⟨fun hne => ⟨by
          by_contra hm
          exact hne (hraw (by simpa using hm)), .inl hst⟩, fun _ _ => hst,
        fun _ hm => by simpa using hbegun hm⟩
      dlPairwise := h.dlPairwise
      dlDone := h.dlDone
      ended := fun i hi heq => absurd heq (hended i hi) }

theorem I2c.DlOk.dlPay (h : s.DlOk p base k) (hin : s.InHand k d) (hst : s.dl.dst = .pay) {v : Byte}
    (ht : s.dlPay p k v d = .ok t) : t.DlOk p base (k + 1) := by
  obtain ⟨sp, u, hsp, hu, ht⟩ := (I2c.dlPay_eq_ok ..).mp ht
  split at hu
  · next hmode =>
    obtain ⟨hok, hbegun⟩ := h.toApOk.apduByte hin hu
    exact h.countPayload hin hst hok (.apduByte hu) (fun _ => hbegun) (by simp [hmode]) ht
  · next hmode =>
    cases hu
    refine h.countPayload hin hst ?_ (s.apOnly_emit _ _) (fun hm => absurd hm hmode) (fun _ => ?_) ht
    · exact (h.toApOk.mono (Nat.le_succ k)).emit (hin.recSpan hsp).1 _
    · by_contra hne
      exact hmode (h.fits.inside hne).1

/-- Outside a payload an APDU has not begun or is done, so it fits any later state of its frame. -/
theorem ApFits.setDst {a : Ap} {q q' : Dl} (h : ApFits a q) (hq : q.dst ≠ .pay)
    (hmode : q'.apduMode = q.apduMode) (hq' : q'.dst = .fcs1 ∨ q'.dst = .done) : ApFits a q' where
  inside := fun hne => ⟨hmode.trans (h.inside hne).1, by rcases hq' with hq' | hq' <;> simp [hq']⟩
  running := fun hne hnd => absurd (h.running hne hnd) hq
  begun := fun hpay => by rcases hq' with hq' | hq' <;> simp [hq'] at hpay

theorem I2c.DlOk.dlFcs0 (h : s.DlOk p base k) (hin : s.InHand k d) (hst : s.dl.dst = .fcs0) {v : Byte}
    (ht : s.dlFcs0 k v = .ok t) : t.DlOk p base (k + 1) := by
  simp only [I2c.dlFcs0, run_bind_eq_ok] at ht
  obtain ⟨r, hr, ht⟩ := ht
  have hplace := h.dl.place
  cases ht
  refine h.setDl (by simp [hst]) ⟨?_, ?_, fun f hf => ?_, by simp, fun _ => hin.start_le hr⟩
    (h.fits.setDst (by simp [hst]) rfl (.inl rfl)) h.events
  · simpa [hst] using h.dl.first_iff
  · simpa [Dl.stateOk, Dl.control, hst] using h.dl.state
  · have := hplace f hf
    simp only [Dl.taken, hst, reduceCtorEq, if_false] at this ⊢
    omega

/-- The last byte of a frame ends it, complete (44_datalink_apdu.md R292, R296). -/
theorem I2c.DlOk.dlFcs1 (h : s.DlOk p base k) (hin : s.InHand k d) (hst : s.dl.dst = .fcs1) {v : Byte}
    (ht : s.dlFcs1 k v d = .ok t) : t.DlOk p base (k + 1) := by
  simp only [I2c.dlFcs1, run_bind_eq_ok] at ht
  obtain ⟨r, -, ht⟩ := ht
  have hss := spanOf_ss_le (h.dl.fcsStart hst) r.stop
  obtain ⟨f, hf, rfl⟩ := (I2c.dlFinish_eq_ok ..).mp ht
  have hat : f + (4 + s.dl.dlen.toNat) = k := by
    simpa [Dl.taken, hst] using (h.dl.place f hf).2
  have hold : ∀ i ∈ s.dlDone, i.phaseNo < s.phaseNo := fun i hi =>
    lt_of_le_of_ne (h.dlDone i hi).2.2.1 fun heq => by simpa [hst] using h.ended i hi heq
  have hlast := hin.last
  refine { h with
    ap := h.ap.mono (Nat.le_succ k)
    events := h.events.concat hss _
    dl := ⟨?_, ?_, fun g hg => ?_, by simp, by simp⟩
    fits := h.fits.setDst (by simp [hst]) rfl (.inr rfl)
    dlPairwise := ?_
    dlDone := fun i hi => ?_
    ended := fun _ _ _ => rfl }
  · simpa [hst] using h.dl.first_iff
  · have hstate := h.dl.state
    simp only [Dl.stateOk, hst] at hstate
    exact hstate
  · obtain rfl : g = f := Option.some.inj (hg.symm.trans hf)
    simp only [Dl.taken, if_true, I2c.emit_dl]
    omega
  · refine List.pairwise_append.mpr ⟨h.dlPairwise, List.pairwise_singleton _ _, fun i hi j hj => ?_⟩
    rw [List.mem_singleton.mp hj]
    exact hold i hi
  · rcases List.mem_append.mp hi with hi | hi
    · exact h.dlDone i hi
    · rw [List.mem_singleton.mp hi]
      refine ⟨?_, ?_, le_rfl, fun _ => ?_⟩
      · change f ≤ k
        omega
      · change k < s.xfer.length
        omega
      · change k + 1 = f + s.dl.dlen.toNat + 5
        omega

theorem I2c.DlOk.dlExcess (h : s.DlOk p base k) (hin : s.InHand k d) (hst : s.dl.dst = .done) {j : Nat}
    (ht : s.dlExcess k j = .ok t) : t.DlOk p base (k + 1) := by
  simp only [I2c.dlExcess, run_bind_eq_ok] at ht
  obtain ⟨sp, hsp, ht⟩ := ht
  cases ht
  have hdl := h.dl
  refine { h with
    ap := h.ap.mono (Nat.le_succ k)
    events := h.events.concat (hin.recSpan hsp).1 _
    dl := { hdl with place := fun f hf => ?_ } }
  have := hdl.place f hf
  simp only [I2c.diag, I2c.emit_dl, hst, if_true] at this ⊢
  omega

/-- The datalink byte by the parser's state (44_datalink_apdu.md R280). -/
theorem I2c.DlOk.dlByte (h : s.DlOk p base k) (hin : s.InHand k d) {j : Nat} {v : Byte}
    (ht : s.dlByte p k j v d = .ok t) : t.DlOk p base (k + 1) := by
  unfold I2c.dlByte at ht
  cases hst : s.dl.dst <;> rw [hst] at ht
  case fctr => exact h.dlFctr hin hst ht
  case len0 => exact h.dlLen0 hin hst ht
  case len1 => exact h.dlLen1 hst ht
  case pctr => exact h.dlPctr hin hst ht
  case sctr => exact h.dlSctr hin hst ht
  case pay => exact h.dlPay hin hst ht
  case fcs0 => exact h.dlFcs0 hin hst ht
  case fcs1 => exact h.dlFcs1 hin hst ht
  case done => exact h.dlExcess hin hst ht

/-- A byte of a phase without a frame is none of the parsers' bytes. -/
theorem I2c.DlOk.skip (h : s.DlOk p base k) (hst : s.dl.dst = .fctr) : s.DlOk p base (k + 1) :=
  { h with
    ap := h.ap.mono (Nat.le_succ k)
    dl := { h.dl with place := fun f hf => by simp [h.dl.first_iff.mp hst] at hf } }

/-! ### The end of a phase (44_datalink_apdu.md R303) -/

theorem I2c.EndOk.endApdu (h : s.EndOk p base m) (hm : m = s.xfer.length) (hk : k + 1 = s.xfer.length)
    (hrecs : ∀ r ∈ s.xfer, r.start ≤ s.n) (ht : s.endApdu k d = .ok t) : t.EndOk p base m := by
  unfold I2c.endApdu at ht
  split at ht
  · next a hopen =>
    rw [run_bind_eq_ok] at ht
    obtain ⟨ra, hra, ht⟩ := ht
    have hstart := hrecs ra (List.mem_of_getElem? ((I2c.bufRead_eq_ok ..).mp hra))
    have honly := (s.apOnly_emit _ _).trans (I2c.ApOnly.apduFinish ht)
    unfold I2c.openApdu at hopen
    split at hopen
    · next hcond =>
      obtain ⟨hpay, hmode, hrun⟩ := hcond
      have hcmd : s.ap.ast ≠ .cmd := fun hc => by simp [h.ap.first_iff.mp hc] at hopen
      obtain ⟨hok, hdone⟩ := h.toApOk.apduFinish hrun hk (a := s.ap)
        (fun f hf => by have := h.ap.place f hf; omega)
        (h.events.concat (spanOf_ss_le hstart s.n) _) ht
      have hok' : t.ApOk p base m := by rwa [hm, ← hk]
      obtain ⟨a', ad, o, rfl⟩ : ∃ a' ad o, t = { s with ap := a', apduDone := ad, out := o } :=
        ⟨_, _, _, honly.rest⟩
      have hzero := mt (h.fits.begun hpay hmode).mpr hcmd
      exact { hok' with
        dl := h.dl
        fits := ⟨fun _ => ⟨hmode, .inl hpay⟩, fun _ hnd => absurd hdone hnd, fun _ _ => by
          simp [show a'.ast = .done from hdone, hzero]⟩
        dlPairwise := h.dlPairwise
        dlDone := h.dlDone }
    · cases hopen
  · cases ht
    exact h

theorem I2c.DlOk.endPhase (h : s.DlOk p base s.xfer.length) (hrecs : ∀ r ∈ s.xfer, r.start ≤ s.n)
    (ht : s.endPhase = .ok t) : t.EndOk p base s.xfer.length := by
  rcases (I2c.endPhase_eq_ok ..).mp ht with
    ⟨-, rfl⟩ | ⟨f, last, d, u, rf, hf, hrun, hlast, -, hu, hrf, ht⟩
  · exact h.toEndOk
  have hk := ((I2c.lastIdx_eq_ok ..).mp hlast).symm
  have hu1 := h.toEndOk.endApdu rfl hk hrecs hu
  obtain ⟨a, ad, o, rfl⟩ : ∃ a ad o, u = { s with ap := a, apduDone := ad, out := o } :=
    ⟨_, _, _, (I2c.ApOnly.endApdu hu).rest⟩
  have hstart := hrecs rf (List.mem_of_getElem? hrf)
  obtain ⟨g, hg, rfl⟩ := (I2c.dlFinish_eq_ok ..).mp ht
  have hold : ∀ i ∈ s.dlDone, i.phaseNo < s.phaseNo := fun i hi =>
    lt_of_le_of_ne (h.dlDone i hi).2.2.1 fun heq => hrun (h.ended i hi heq)
  refine { hu1 with
    events := hu1.events.concat (spanOf_ss_le hstart _) _
    dlPairwise := ?_
    dlDone := fun i hi => ?_ }
  · refine List.pairwise_append.mpr ⟨h.dlPairwise, List.pairwise_singleton _ _, fun i hi j hj => ?_⟩
    rw [List.mem_singleton.mp hj]
    exact hold i hi
  · rcases List.mem_append.mp hi with hi | hi
    · exact h.dlDone i hi
    · have hg' := (h.dl.place g hg).1
      rw [List.mem_singleton.mp hi]
      refine ⟨?_, ?_, le_rfl, by simp⟩
      · change g ≤ last
        omega
      · change last < s.xfer.length
        omega

end Sys2Proof.Machine

end

/-! ## The I2C link header keeps its invariant (42_link_header.md R217) -/

section

namespace Sys2Proof.Machine

open Sys2Proof

/-- The stack with the sample in hand counted, as the epilogue will count it (40_sampler.md R158). -/
abbrev I2c.counted (s : I2c) : I2c := { s with n := s.n + 1 }

/-- A record of the open transfer, with the sample in hand counted: its span, phase and direction
(41_byte_assembler.md R176, R179). -/
abbrev I2c.RecOk (s : I2c) (r : I2cByteRec) : Prop :=
  s.tStart ≤ r.start ∧ r.start < r.stop ∧ r.start ≤ s.n ∧ r.phaseNo ≤ s.phaseNo
    ∧ r.dir.isSome = true ∧ (r.kind = .addr → r.dir = some (addrDir r.value))

/-- The bits, the link header and the records of the I2C stack inside a step, sound with the sample
counted. -/
structure I2c.LinkOk (p : I2cParams) (s : I2c) : Prop where
  bits : s.counted.BitsInv
  hdr : s.HdrInv p
  tStart_le : s.tStart ≤ s.n
  recs : ∀ r ∈ s.xfer, s.RecOk r
  phase_pos : s.active = true → 1 ≤ s.phaseNo

/-- Besides, the parsers, which have dealt with every record. -/
structure I2c.MidInv (p : I2cParams) (base : List OutEvent) (s : I2c) : Prop
    extends I2c.LinkOk p s where
  payload : s.DlOk p base s.xfer.length
  regs : s.dl.dst ≠ .fctr →
    s.phase = .data ∧ s.matched = true ∧ s.expectReg = false ∧ s.reg = some p.dataReg
  idle : s.active = false → s.bitStarts = [] ∧ s.dlDone = [] ∧ s.apduDone = []

variable {p : I2cParams} {base : List OutEvent} {m : Nat} {s t : I2c}

/-! ### Records -/

/-- The parsers do not look at the records themselves. -/
theorem I2c.DlOk.append (h : s.DlOk p base m) (l : List I2cByteRec) :
    I2c.DlOk p base m { s with xfer := s.xfer ++ l } := by
  have hlen : s.xfer.length ≤ (s.xfer ++ l).length := by simp
  exact { h with
    apDone := fun i hi => by
      obtain ⟨h1, h2, h3⟩ := h.apDone i hi
      exact ⟨h1, h2.trans_le hlen, h3⟩
    dlDone := fun i hi => by
      obtain ⟨h1, h2, h3⟩ := h.dlDone i hi
      exact ⟨h1, h2.trans_le hlen, h3⟩ }

/-- The kinds of the records of the phase in progress. -/
def I2c.kinds (s : I2c) : List Kind := (s.recsOf s.phaseNo).map (·.kind)

theorem I2c.kinds_append {r : I2cByteRec} (hr : r.phaseNo = s.phaseNo) :
    { s with xfer := s.xfer ++ [r] }.kinds = s.kinds ++ [r.kind] := by
  simp [I2c.kinds, I2c.recsOf, hr]

/-- A record of this sample and phase, its kind and direction settled, may follow. -/
theorem I2c.LinkOk.recs_append (h : s.LinkOk p) {r : I2cByteRec} (hph : r.phaseNo = s.phaseNo)
    (hr : s.tStart ≤ r.start ∧ r.start < r.stop ∧ r.start ≤ s.n) (hdir : r.dir.isSome = true)
    (haddr : r.kind = .addr → r.dir = some (addrDir r.value)) :
    ∀ q ∈ s.xfer ++ [r], s.RecOk q := by
  intro q hq
  rcases List.mem_append.mp hq with hq | hq
  · exact h.recs q hq
  · rw [List.mem_singleton.mp hq]
    exact ⟨hr.1, hr.2.1, hr.2.2, hph.le, hdir, haddr⟩

/-- The parsers leave the link header of a data phase as it is. -/
theorem I2c.LinkOk.of_dlOnly (h : s.LinkOk p) (hph : s.phase = .data) (ht : s.DlOnly t) :
    t.LinkOk p := by
  obtain ⟨-, h2, h3, h4, h5⟩ := h.hdr
  rw [ht.rest]
  exact { h with hdr := ⟨fun ha => by simp [hph] at ha, h2, h3, h4, h5⟩ }

/-! ### The kinds of a phase's records (42_link_header.md R217) -/

theorem kindsOk_addr (m : Bool) (d : Dir) : kindsOk m (m && d == .write) (some d) 0 [.addr] := by
  cases m
  · exact ⟨0, by simp⟩
  · cases d <;> simp [kindsOk]

theorem kindsOk_raw {e : Bool} {rw : Option Dir} {j : Nat} {ks : List Kind}
    (h : kindsOk false e rw j ks) : kindsOk false e rw j (ks ++ [.raw]) := by
  obtain ⟨i, -, rfl⟩ := h
  exact ⟨i + 1, by simp, by simp [List.replicate_succ']⟩

theorem kindsOk_reg {j : Nat} {ks : List Kind} (h : kindsOk true true (some .write) j ks)
    (hj : j = 0) : kindsOk true false (some .write) j (ks ++ [.reg]) := by
  have hks : ks = [.addr] := h
  simp [kindsOk, hks, hj]

theorem kindsOk_data {rw : Option Dir} {j : Nat} {ks : List Kind} (h : kindsOk true false rw j ks) :
    kindsOk true false rw (j + 1) (ks ++ [.data]) := by
  have hks : ks = .addr :: ((if rw = some .write then [.reg] else []) ++ List.replicate j .data) := h
  simp [kindsOk, hks, List.replicate_succ']

/-! ### The header decoder (42_link_header.md R210 to R213) -/

/-- The byte that a step completes: of this phase, its kind and direction not yet settled. -/
structure I2c.NewRec (r : I2cByteRec) (s : I2c) : Prop where
  phaseNo : r.phaseNo = s.phaseNo
  span : s.tStart ≤ r.start ∧ r.start < r.stop ∧ r.start ≤ s.n
  mid : r.start + r.stop ≤ 2 * s.n

theorem Dl.sound_reset (rw : Option Dir) (m n : Nat) : Dl.reset.Sound rw m n :=
  ⟨by simp [Dl.reset], by simp [Dl.stateOk, Dl.reset], by simp [Dl.reset], by simp [Dl.reset],
    by simp [Dl.reset]⟩

/-- Outside the data bytes of the data register no frame has begun. -/
theorem I2c.MidInv.dst_eq_fctr (h : s.MidInv p base)
    (hno : ¬ (s.phase = .data ∧ s.matched = true ∧ s.expectReg = false ∧ s.reg = some p.dataReg)) :
    s.dl.dst = .fctr := by
  by_contra hne
  exact hno (h.regs hne)

/-- A byte that is none of the parsers' bytes. -/
theorem I2c.LinkOk.midInv (h : s.LinkOk p) (hact : s.active = true) (hpay : s.DlOk p base m)
    (hm : m + 1 = s.xfer.length) (hdst : s.dl.dst = .fctr) : s.MidInv p base :=
  { h with
    payload := hm ▸ hpay.skip hdst
    regs := fun hne => absurd hdst hne
    idle := fun ha => by simp [hact] at ha }

theorem I2c.DlOk.emit (h : s.DlOk p base m) {sp : Span} (hsp : sp.ss ≤ (s.n : Rat)) (e : Event) :
    (s.emit sp e).DlOk p base m :=
  { h with events := h.events.concat hsp e }

theorem I2c.MidInv.addrByteIn (h : s.MidInv p base) (hact : s.active = true) (hst : s.phase = .addr)
    {r : I2cByteRec} (hr : s.NewRec r)
    (ht : { s with xfer := s.xfer ++ [r] }.addrByteIn p s.xfer.length r.value = .ok t) :
    t.MidInv p base := by
  simp only [I2c.addrByteIn, run_bind_eq_ok] at ht
  obtain ⟨u, hu, q, hq, ht⟩ := ht
  rw [I2c.bufUpdate_append _ rfl] at hu
  cases hu
  rw [I2c.bufRead_append rfl] at hq
  cases hq
  cases ht
  obtain ⟨h1, -, h3, -, h5⟩ := h.hdr
  obtain ⟨-, -, -, -, hj, hdl, -⟩ := h1 hst
  have hdst : s.dl.dst = .fctr := by simp [hdl, Dl.reset]
  have hkinds := I2c.kinds_append (s := s)
    (r := { r with kind := .addr, dir := some (addrDir r.value) }) hr.phaseNo
  have hnil : s.kinds = [] := by
    rw [I2c.kinds, h3 hst, List.map_nil]
  rw [hnil, List.nil_append] at hkinds
  refine I2c.LinkOk.midInv (m := s.xfer.length) ?_ hact ?_ (by simp) hdst
  · refine { h with
      hdr := ⟨by simp, fun _ => ⟨rfl, rfl, by simp, ?_⟩, by simp, ?_, h5⟩
      recs := h.recs_append (r := { r with kind := .addr, dir := some (addrDir r.value) }) hr.phaseNo
        hr.span rfl fun _ => rfl }
    · change kindsOk _ _ _ s.j (I2c.kinds { s with
        xfer := s.xfer ++ [{ r with kind := .addr, dir := some (addrDir r.value) }] })
      rw [hkinds, hj]
      exact kindsOk_addr _ _
    · change (addrBits r.value == p.targetAddr && addrDir r.value == .write) = true → _
      simp [hj]
  · exact { h.payload.append [{ r with kind := .addr, dir := some (addrDir r.value) }] with
      events := h.payload.events.concat (spanOf_ss_le hr.span.2.2 _) _
      dl := by
        change Dl.Sound _ _ _ s.dl
        rw [hdl]
        exact Dl.sound_reset _ _ _ }

theorem I2c.MidInv.rawByte (h : s.MidInv p base) (hact : s.active = true) (hst : s.phase = .data)
    (hm : s.matched = false) {r : I2cByteRec} (hr : s.NewRec r)
    (ht : { s with xfer := s.xfer ++ [r] }.rawByte s.xfer.length = .ok t) : t.MidInv p base := by
  rw [I2c.rawByte, I2c.bufUpdate_append _ rfl] at ht
  cases ht
  obtain ⟨-, h2, -, h4, h5⟩ := h.hdr
  obtain ⟨hrw, haddr, hmatch, hkinds⟩ := h2 hst
  refine I2c.LinkOk.midInv (m := s.xfer.length) ?_ hact (h.payload.append _) (by simp)
    (h.dst_eq_fctr (by simp [hm]))
  refine { h with
    hdr := ⟨fun ha => by simp [hst] at ha, fun _ => ⟨hrw, haddr, hmatch, ?_⟩,
      fun ha => by simp [hst] at ha, h4, h5⟩
    recs := h.recs_append (r := { r with kind := .raw, dir := s.rw }) hr.phaseNo hr.span hrw (by simp) }
  have hrecs := I2c.kinds_append (s := s) (r := { r with kind := .raw, dir := s.rw }) hr.phaseNo
  rw [hm] at hkinds
  change kindsOk s.matched _ _ _ (I2c.kinds { s with
    xfer := s.xfer ++ [{ r with kind := .raw, dir := s.rw }] })
  rw [hrecs, hm]
  exact kindsOk_raw hkinds

theorem I2c.MidInv.regNum (h : s.MidInv p base) (hact : s.active = true) (hst : s.phase = .data)
    (hreg : s.expectReg = true) {r : I2cByteRec} (hr : s.NewRec r)
    (ht : { s with xfer := s.xfer ++ [r] }.regNum p s.xfer.length r.value = .ok t) :
    t.MidInv p base := by
  simp only [I2c.regNum, run_bind_eq_ok] at ht
  obtain ⟨u, hu, q, hq, ht⟩ := ht
  rw [I2c.bufUpdate_append _ rfl] at hu
  cases hu
  rw [I2c.bufRead_append rfl] at hq
  cases hq
  cases ht
  obtain ⟨-, h2, -, h4, -⟩ := h.hdr
  obtain ⟨hrw, haddr, hmatch, hkinds⟩ := h2 hst
  obtain ⟨hm, hwrite, hj⟩ := h4 hreg
  have hrecs := I2c.kinds_append (s := s) (r := { r with kind := .reg, dir := some .write }) hr.phaseNo
  have hlink (b : Bool) (hb : b = (lookupName p.knownReg r.value).isSome) : I2c.LinkOk p { s with
      xfer := s.xfer ++ [{ r with kind := .reg, dir := some .write }]
      reg := some r.value
      regKnown := b
      expectReg := false } := by
    refine { h with
      hdr := ⟨fun ha => by simp [hst] at ha, fun _ => ⟨hrw, haddr, hmatch, ?_⟩,
        fun ha => by simp [hst] at ha, by simp, hb⟩
      recs := h.recs_append (r := { r with kind := .reg, dir := some .write }) hr.phaseNo hr.span rfl
        (by simp) }
    change kindsOk s.matched false s.rw s.j (I2c.kinds { s with
      xfer := s.xfer ++ [{ r with kind := .reg, dir := some .write }] })
    rw [hm, hreg, hwrite] at hkinds
    rw [hrecs, hm, hwrite]
    exact kindsOk_reg hkinds hj
  have hdst := h.dst_eq_fctr (by simp [hreg])
  have hpay := h.payload.append [{ r with kind := .reg, dir := some .write }]
  have hss := spanOf_ss_le hr.span.2.2 r.stop
  cases hname : lookupName p.knownReg r.value
  · exact I2c.LinkOk.midInv (m := s.xfer.length) { hlink false (by simp [hname]) with } hact
      { hpay with events := hpay.events.concat hss _ } (by simp) hdst
  · exact I2c.LinkOk.midInv (m := s.xfer.length) { hlink true (by simp [hname]) with } hact
      { hpay with events := hpay.events.concat hss _ } (by simp) hdst

theorem I2c.MidInv.regData (h : s.MidInv p base) (hact : s.active = true) (hst : s.phase = .data)
    (hm : s.matched = true) (hreg : s.expectReg = false) {r : I2cByteRec} (hr : s.NewRec r)
    (ht : { s with xfer := s.xfer ++ [r] }.regData p s.xfer.length r.value = .ok t) :
    t.MidInv p base := by
  simp only [I2c.regData, run_bind_eq_ok, need_eq_ok] at ht
  obtain ⟨d, hd, u, hu, q, hq, ht⟩ := ht
  rw [I2c.bufUpdate_append _ rfl] at hu
  cases hu
  rw [I2c.bufRead_append rfl] at hq
  cases hq
  obtain ⟨-, h2, -, -, h5⟩ := h.hdr
  obtain ⟨hrw, haddr, hmatch, hkinds⟩ := h2 hst
  have hrecs := I2c.kinds_append (s := s) (r := { r with kind := .data, dir := some d }) hr.phaseNo
  have hss := spanOf_ss_le hr.span.2.2 r.stop
  have hlink : I2c.LinkOk p { s with
      xfer := s.xfer ++ [{ r with kind := .data, dir := some d }]
      j := s.j + 1 } := by
    refine { h with
      hdr := ⟨fun ha => by simp [hst] at ha, fun _ => ⟨hrw, haddr, hmatch, ?_⟩,
        fun ha => by simp [hst] at ha, by simp [hreg], h5⟩
      recs := h.recs_append (r := { r with kind := .data, dir := some d }) hr.phaseNo hr.span rfl
        (by simp) }
    change kindsOk s.matched s.expectReg s.rw (s.j + 1) (I2c.kinds { s with
      xfer := s.xfer ++ [{ r with kind := .data, dir := some d }] })
    rw [hm, hreg] at hkinds
    rw [hrecs, hm, hreg]
    exact kindsOk_data hkinds
  have hpay : I2c.DlOk p base s.xfer.length { s with
      xfer := s.xfer ++ [{ r with kind := .data, dir := some d }]
      j := s.j + 1 } := { h.payload.append [{ r with kind := .data, dir := some d }] with }
  split at ht
  · next hnone =>
    have hdst := h.dst_eq_fctr (by simp [show s.reg = none from hnone])
    cases ht
    split
    · exact I2c.LinkOk.midInv (m := s.xfer.length) { hlink with } hact (hpay.emit hss _) (by simp) hdst
    · exact hlink.midInv hact hpay (by simp) hdst
  · next reg hsome =>
    split at ht
    · next hdata =>
      have hpay' := hpay.emit hss (.regdata reg.toNat d s.j r.value)
      have honly := I2c.DlOnly.dlByte ht
      have hin : I2c.InHand s.xfer.length d ({ s with
          xfer := s.xfer ++ [{ r with kind := .data, dir := some d }]
          j := s.j + 1 }.emit (spanOf r.start r.stop) (.regdata reg.toNat d s.j r.value)) :=
        ⟨by simp, hd, fun q hq => (hlink.recs q hq).2.2.1, fun q hq => by
          obtain rfl : { r with kind := .data, dir := some d } = q := by simpa using hq
          exact hr.mid⟩
      have ht' := hpay'.dlByte hin ht
      obtain ⟨dl, ap, dd, ad, o, rfl⟩ : ∃ dl ap dd ad o, t = { s with
          xfer := s.xfer ++ [{ r with kind := .data, dir := some d }]
          j := s.j + 1, dl := dl, ap := ap, dlDone := dd, apduDone := ad, out := o } :=
        ⟨_, _, _, _, _, honly.rest⟩
      exact { I2c.LinkOk.of_dlOnly (s := { s with
          xfer := s.xfer ++ [{ r with kind := .data, dir := some d }]
          j := s.j + 1 }) hlink hst ⟨rfl, (List.prefix_append ..).trans honly.out⟩ with
        payload := by simpa using ht'
        regs := fun _ => ⟨hst, hm, hreg, by rw [← hdata]; exact hsome⟩
        idle := fun ha => by simp [hact] at ha }
    · next hother =>
      cases ht
      have hdst := h.dst_eq_fctr (by simp [show s.reg = some reg from hsome, hother])
      refine I2c.LinkOk.midInv (m := s.xfer.length) { hlink with } hact ?_
        (by simp [I2c.fieldDecode]) hdst
      exact { hpay with
        events := (hpay.events.concat hss _).append fun e he hlate => by
          simp [fieldEvents_late _ _ _ _ _ _ e he] at hlate }

/-- The header decoder on the byte that this sample completes. -/
theorem I2c.MidInv.headerByte (h : s.MidInv p base) (hact : s.active = true) {r : I2cByteRec}
    (hr : s.NewRec r) (ht : { s with xfer := s.xfer ++ [r] }.headerByte p r = .ok t) :
    t.MidInv p base := by
  rw [I2c.headerByte, I2c.lastIdx_append rfl] at ht
  change (if s.phase = .addr then _ else _) = _ at ht
  split at ht
  · next hst => exact h.addrByteIn hact hst hr ht
  next hst =>
  have hdata : s.phase = .data := by
    cases hph : s.phase
    · exact absurd hph hst
    · rfl
  split at ht
  · next hm => exact h.rawByte hact hdata hm hr ht
  next hm =>
  split at ht
  · next hreg => exact h.regNum hact hdata hreg hr ht
  · next hreg => exact h.regData hact hdata (by simpa using hm) (by simpa using hreg) hr ht

end Sys2Proof.Machine

end

/-! ## An I2C step keeps a sound stack sound (10_state.md R27, 42_link_header.md R217, 44_datalink_apdu.md
R306) -/

section

namespace Sys2Proof.Machine

open Sys2Proof

variable {p : I2cParams} {base : List OutEvent} {m : Nat} {s t : I2c}

/-! ### From between two steps into a step, and back -/

/-- A sound stack is sound inside its next step. -/
theorem I2c.Inv.midInv (h : s.Inv p) : s.MidInv p s.out := by
  obtain ⟨-, ⟨hcnt, hrise, hbits⟩, -, hhdr, ⟨htStart, hrecs⟩, hdl, hap, hdone, ⟨hopen, hidle⟩⟩ := h
  obtain ⟨hdFirst, hdState, hregs, hdPlace, hdLen, hdFcs⟩ := hdl
  obtain ⟨haFirst, haState, hinside, hrunning, hbegun, haPlace, haLen⟩ := hap
  obtain ⟨hdPairwise, haPairwise, hdDone, haDone⟩ := hdone
  exact
    { bits := ⟨hcnt, hrise, fun b hb => ⟨(hbits b hb).1, Nat.lt_succ_of_lt (hbits b hb).2⟩⟩
      hdr := hhdr
      tStart_le := htStart
      recs := fun r hr => by
        obtain ⟨h1, h2, h3, h4⟩ := hrecs r hr
        exact ⟨h1, h2, h3.le, h4⟩
      phase_pos := fun ha => (hopen ha).2
      payload :=
        { ap := ⟨haFirst, haState, haPlace, fun hst => (haLen hst).le⟩
          apPairwise := haPairwise
          apDone := haDone
          events := .refl _ _
          dl := ⟨hdFirst, hdState, hdPlace, fun hst => (hdLen hst).le, fun hst => (hdFcs hst).le⟩
          fits := ⟨hinside, hrunning, hbegun⟩
          dlPairwise := hdPairwise
          dlDone := fun i hi => by
            obtain ⟨h1, h2, h3, -, h5⟩ := hdDone i hi
            exact ⟨h1, h2, h3, h5⟩
          ended := fun i hi => by
            obtain ⟨-, -, -, h4, -⟩ := hdDone i hi
            exact h4 }
      regs := hregs
      idle := hidle }

/-- At the end of the step the stack is sound again. -/
theorem I2c.MidInv.inv (h : s.MidInv p base) (hack : s.AckInv) (hfirst : s.first = false)
    (x : I2cSample) (out : List OutEvent) : I2c.Inv p { s.epilogue x with out := out } := by
  have hpay := h.payload
  obtain ⟨hdFirst, hdState, hdPlace, hdLen, hdFcs⟩ := hpay.dl
  obtain ⟨haFirst, haState, haPlace, haLen⟩ := hpay.ap
  obtain ⟨hinside, hrunning, hbegun⟩ := hpay.fits
  refine ⟨fun hf => absurd hf (by simp [hfirst]), h.bits, hack, h.hdr,
    ⟨Nat.le_succ_of_le h.tStart_le, fun r hr => ?_⟩,
    ⟨hdFirst, hdState, h.regs, hdPlace, fun hst => Nat.lt_succ_of_le (hdLen hst),
      fun hst => Nat.lt_succ_of_le (hdFcs hst)⟩,
    ⟨haFirst, haState, hinside, hrunning, hbegun, haPlace, fun hst => Nat.lt_succ_of_le (haLen hst)⟩,
    ⟨hpay.dlPairwise, hpay.apPairwise, fun i hi => ?_, hpay.apDone⟩,
    ⟨fun ha => ⟨Nat.lt_succ_of_le h.tStart_le, h.phase_pos ha⟩, h.idle⟩⟩
  · obtain ⟨h1, h2, h3, h4⟩ := h.recs r hr
    exact ⟨h1, h2, Nat.lt_succ_of_le h3, h4⟩
  · obtain ⟨h1, h2, h3, h4⟩ := hpay.dlDone i hi
    exact ⟨h1, h2, h3, hpay.ended i hi, h4⟩

theorem I2c.MidInv.emit (h : s.MidInv p base) {sp : Span} (hsp : sp.ss ≤ (s.n : Rat)) (e : Event) :
    (s.emit sp e).MidInv p base :=
  { h with payload := h.payload.emit hsp e }

/-- What keeps the bits and the number of records keeps what awaits its acknowledge bit. -/
theorem I2c.Keeps.ackInv (h : s.Keeps t) (hs : s.AckInv) : t.AckInv := by
  rw [I2c.AckInv, h.bitcnt, h.ackIdx, h.length]
  exact hs

/-! ### The byte assembler (41_byte_assembler.md R177, R178) -/

theorem I2c.MidInv.emitAll (h : s.MidInv p base) {es : List OutEvent}
    (hes : ∀ e ∈ es, e.span.ss ≤ (s.n : Rat)) : (s.emitAll es).MidInv p base :=
  { h with payload := { h.payload with events := h.payload.events.append fun e he _ => hes e he } }

theorem I2c.MidInv.completeByte (h : s.MidInv p base) (hact : s.active = true) {tr : Bool}
    {lastEnd : Option Nat} (hend : EndsAt s.n s.bitStarts lastEnd)
    (ht : s.completeByte p tr lastEnd = .ok t) : t.MidInv p base := by
  obtain ⟨start, stop, ends, r, u, hpend, hr, hu, ht⟩ := (I2c.completeByte_eq_ok ..).mp ht
  obtain ⟨hhead, -, -, hstop, -⟩ := (pendingByte_eq_ok ..).mp hpend
  obtain ⟨hlt, hmid, hle⟩ := lastBitEnd_bounds h.bits.2.1 hhead hend hstop
  have hstart : s.tStart ≤ start := (h.bits.2.2 start (List.mem_of_mem_head? hhead)).1
  have hv := h.emitAll (laneEvents_ss_le .sda (leftAlign s.acc s.bitcnt) s.bitStarts ends hle stop tr)
  have hnew : (s.emitAll (laneEvents .sda (leftAlign s.acc s.bitcnt) s.bitStarts ends start stop
      tr)).NewRec r := by
    rw [hr]
    exact ⟨rfl, ⟨hstart, hlt, hle⟩, hmid⟩
  rw [← I2c.emitAll_active] at hact
  generalize s.emitAll _ = v at hu hv hact hnew
  obtain ⟨-, rfl⟩ := (I2c.bufAppend_eq_ok ..).mp hu
  split at ht
  · exact hv.headerByte hact hnew ht
  · exact I2c.MidInv.headerByte (s := { v with ackIdx := some ((v.xfer ++ [r]).length - 1) })
      { hv with payload := { hv.payload with } } hact { hnew with } ht

/-- A whole byte awaits its acknowledge bit as the last record (41_byte_assembler.md R177). -/
theorem I2c.completeByte_whole {lastEnd : Option Nat} (ht : s.completeByte p false lastEnd = .ok t) :
    t.bitcnt = s.bitcnt ∧ t.ackIdx = some s.xfer.length ∧ t.xfer.length = s.xfer.length + 1 := by
  obtain ⟨start, stop, ends, r, u, -, -, hu, ht⟩ := (I2c.completeByte_eq_ok ..).mp ht
  obtain ⟨-, rfl⟩ := (I2c.bufAppend_eq_ok ..).mp hu
  have hkeep := I2c.Keeps.headerByte ht
  exact ⟨hkeep.bitcnt, by simp [hkeep.ackIdx], by simp [hkeep.length]⟩

/-- With the bits cleared nothing is pending. -/
theorem I2c.MidInv.clearBits (h : s.MidInv p base) : s.clearBits.MidInv p base :=
  { h with
    bits := ⟨rfl, .nil, by simp [I2c.clearBits]⟩
    payload := { h.payload with }
    idle := fun ha => ⟨rfl, (h.idle ha).2⟩ }

theorem I2c.ackInv_clearBits (s : I2c) : s.clearBits.AckInv := by
  simp [I2c.AckInv, I2c.clearBits]

/-- The byte that a condition cuts, if there is one. -/
theorem I2c.MidInv.partialAtCondition (h : s.MidInv p base) (hact : s.active = true)
    (hlt : ∀ b ∈ s.bitStarts, b < s.n) (ht : s.partialAtCondition p = .ok t) :
    t.MidInv p base ∧ t.AckInv ∧ t.bitStarts = [] := by
  unfold I2c.partialAtCondition at ht
  split at ht
  · simp only [run_bind_eq_ok, need_eq_ok] at ht
    obtain ⟨b0, hb0, u, hu, ht⟩ := ht
    have hle := (hlt b0 (List.mem_of_mem_head? hb0)).le
    have hu1 := I2c.MidInv.completeByte (h.emit (spanOf_ss_le hle s.n) _) hact
      (.inl ⟨rfl, hlt⟩) hu
    cases ht
    exact ⟨hu1.clearBits, u.ackInv_clearBits, rfl⟩
  · cases ht
    exact ⟨h.clearBits, s.ackInv_clearBits, rfl⟩

/-! ### The end and the start of a phase (44_datalink_apdu.md R303, 40_sampler.md R151) -/

/-- The end of a phase changes the APDU registers and what ended, and only where a frame has begun. -/
theorem I2c.endPhase_rest (ht : s.endPhase = .ok t) : t = s ∨ (s.dl.dFirst ≠ none
    ∧ t = { s with ap := t.ap, dlDone := t.dlDone, apduDone := t.apduDone, out := t.out }) := by
  rcases (I2c.endPhase_eq_ok ..).mp ht with
    ⟨-, rfl⟩ | ⟨f, last, d, u, rf, hf, -, -, -, hu, -, ht⟩
  · exact .inl rfl
  · refine .inr ⟨by simp [hf], ?_⟩
    obtain ⟨g, -, rfl⟩ := (I2c.dlFinish_eq_ok ..).mp ht
    have hrest := (I2c.ApOnly.endApdu hu).rest
    rw [hrest]
    rfl

/-- After the end of a phase everything is sound but that a frame of it may have ended early. -/
theorem I2c.MidInv.endPhase (h : s.MidInv p base) (ht : s.endPhase = .ok t) :
    t.LinkOk p ∧ t.EndOk p base t.xfer.length ∧ (t.dl.dst ≠ .fctr →
      t.phase = .data ∧ t.matched = true ∧ t.expectReg = false ∧ t.reg = some p.dataReg) := by
  have hend := h.payload.endPhase (fun r hr => (h.recs r hr).2.2.1) ht
  rcases I2c.endPhase_rest ht with rfl | ⟨hbegun, hrest⟩
  · exact ⟨h.toLinkOk, hend, h.regs⟩
  have hph : s.phase = .data := (h.regs (mt h.payload.dl.first_iff.mp hbegun)).1
  have hlink := h.toLinkOk.of_dlOnly hph (.endPhase ht)
  rw [hrest] at hlink hend ⊢
  exact ⟨hlink, hend, h.regs⟩

/-- A phase begins with no record, no frame and no pending bit. -/
theorem I2c.EndOk.beginPhase (hend : s.EndOk p base m) (hact : s.active = true)
    (hle : s.tStart ≤ s.n) (hrec : ∀ r ∈ s.xfer, s.RecOk r)
    (hreg : s.regKnown = (s.reg.bind (lookupName p.knownReg)).isSome) :
    s.beginPhase.MidInv p base ∧ s.beginPhase.AckInv := by
  have hrecs : s.beginPhase.recsOf s.beginPhase.phaseNo = [] := by
    refine List.filter_eq_nil_iff.mpr fun r hr heq => ?_
    obtain ⟨-, -, -, hno, -⟩ := hrec r hr
    have heq : r.phaseNo = s.phaseNo + 1 := by simpa [I2c.beginPhase] using heq
    omega
  refine ⟨{
    bits := ⟨rfl, .nil, by simp [I2c.beginPhase]⟩
    hdr := ⟨by simp [I2c.beginPhase], by simp [I2c.beginPhase], fun _ => hrecs,
      by simp [I2c.beginPhase], hreg⟩
    tStart_le := hle
    recs := fun r hr => ?_
    phase_pos := fun _ => Nat.le_add_left 1 s.phaseNo
    payload := {
      ap := Ap.sound_reset ..
      apPairwise := hend.apPairwise
      apDone := fun i hi => ?_
      events := hend.events
      dl := Dl.sound_reset ..
      fits := .of_cmd rfl (by simp [I2c.beginPhase, Dl.reset])
      dlPairwise := hend.dlPairwise
      dlDone := fun i hi => ?_
      ended := fun i hi heq => ?_ }
    regs := by simp [I2c.beginPhase, Dl.reset]
    idle := fun ha => by simp [I2c.beginPhase, hact] at ha }, by simp [I2c.AckInv, I2c.beginPhase]⟩
  · obtain ⟨h1, h2, h3, h4, h5⟩ := hrec r hr
    exact ⟨h1, h2, h3, Nat.le_succ_of_le h4, h5⟩
  · obtain ⟨h1, h2, h3, -⟩ := hend.apDone i hi
    exact ⟨h1, h2, Nat.le_succ_of_le h3, fun heq => absurd heq (Nat.lt_succ_of_le h3).ne⟩
  · obtain ⟨h1, h2, h3, h4⟩ := hend.dlDone i hi
    exact ⟨h1, h2, Nat.le_succ_of_le h3, h4⟩
  · obtain ⟨-, -, h3, -⟩ := hend.dlDone i hi
    exact absurd heq (Nat.lt_succ_of_le h3).ne

/-! ### The aggregator pass (45_aggregator.md R350 to R354) -/

/-- The length of the state register starts with a record of the transfer (45_aggregator.md R352). -/
theorem I2c.regLenEvent_ss_le (hle : s.tStart ≤ s.n) {q : Nat} {e : OutEvent}
    (he : s.regLenEvent p q = some e) : e.span.ss ≤ (s.n : Rat) := by
  unfold I2c.regLenEvent at he
  split at he
  · next w a rest hw hphase =>
    split at he
    · split at he
      · next r d0 d1 _ _ hd =>
        have hmem : d0 ∈ (a :: rest).filter (fun e => e.1.kind == .data) := by simp [hd]
        have hzip : d0 ∈ s.xfer.zipIdx :=
          List.mem_of_mem_filter (hphase ▸ List.mem_of_mem_filter hmem)
        have hidx : d0.2 < s.xfer.length := by simpa using List.snd_lt_of_mem_zipIdx hzip
        split at he
        · cases he
          exact evenStart_le hw hle hidx.le
        · cases he
      · cases he
    · cases he
  · cases he

/-- Every summary starts in the transfer. -/
theorem I2c.EndOk.summaryEvents_ss_le (h : s.EndOk p base m) (hle : s.tStart ≤ s.n) :
    ∀ e ∈ s.summaryEvents p, e.span.ss ≤ (s.n : Rat) := by
  unfold I2c.summaryEvents
  split
  · simp
  · next w hw =>
    simp only [List.mem_cons, List.mem_append, List.mem_map, List.mem_filterMap]
    rintro e (rfl | (⟨q, -, he⟩ | ⟨i, hi, rfl⟩) | ⟨i, hi, rfl⟩)
    · exact spanOf_ss_le hle _
    · exact I2c.regLenEvent_ss_le hle he
    · obtain ⟨h1, h2, -⟩ := h.dlDone i hi
      exact evenStart_le hw hle (h1.trans h2.le)
    · obtain ⟨h1, h2, -⟩ := h.apDone i hi
      exact evenStart_le hw hle (h1.trans h2.le)

/-! ### The operations of a sample (40_sampler.md R150 to R155) -/

/-- A transfer that opens at this sample (40_sampler.md R151). -/
theorem I2c.MidInv.startCond (h : s.MidInv p base) : s.startCond.MidInv p base ∧ s.startCond.AckInv := by
  obtain ⟨-, -, -, -, hreg⟩ := h.hdr
  have hend : I2c.EndOk p base s.xfer.length { s with
      active := true, tStart := s.n, xfer := [], phaseNo := 0, dlDone := [], apduDone := [] } :=
    { h.payload with
      apPairwise := .nil
      apDone := by simp
      dlPairwise := .nil
      dlDone := by simp }
  obtain ⟨hmid, hack⟩ := hend.beginPhase rfl le_rfl (by simp) hreg
  exact ⟨(hmid.emit (by simp [pointSpan, I2c.beginPhase]) _).emit
    (by simp [pointSpan, I2c.beginPhase]) _, hack⟩

theorem I2c.MidInv.rstartCond (h : s.MidInv p base) (hact : s.active = true)
    (hlt : ∀ b ∈ s.bitStarts, b < s.n) (ht : s.rstartCond p = .ok t) : t.MidInv p base ∧ t.AckInv := by
  simp only [I2c.rstartCond, run_bind_eq_ok] at ht
  obtain ⟨u, hu, v, hv, ht⟩ := ht
  have hkeep := (I2c.KeepsTransfer.partialAtCondition hu).trans
    (I2c.DlOnly.endPhase hv).keeps.toKeepsTransfer
  obtain ⟨hmid, -⟩ := h.partialAtCondition hact hlt hu
  obtain ⟨hlink, hend, -⟩ := hmid.endPhase hv
  obtain ⟨-, -, -, -, hreg⟩ := hlink.hdr
  obtain ⟨hbegun, hack⟩ := hend.beginPhase (hkeep.active.trans hact) hlink.tStart_le hlink.recs hreg
  cases ht
  exact ⟨hbegun.emit (by simp [pointSpan]) _, hack⟩

/-- The end of a transfer (40_sampler.md R155). -/
theorem I2c.MidInv.stopCond (h : s.MidInv p base) (hact : s.active = true)
    (hlt : ∀ b ∈ s.bitStarts, b < s.n) (ht : s.stopCond p = .ok t) : t.MidInv p base ∧ t.AckInv := by
  simp only [I2c.stopCond, run_bind_eq_ok] at ht
  obtain ⟨u, hu, v, hv, ht⟩ := ht
  obtain ⟨hmid, hack, hnil⟩ := h.partialAtCondition hact hlt hu
  obtain ⟨hlink, hend, hregs⟩ := hmid.endPhase hv
  have hkeep := (I2c.DlOnly.endPhase hv).keeps
  have hshut : I2c.EndOk p base v.xfer.length
      ((v.emit (pointSpan v.n) (.cond .stop)).emit (pointSpan v.n) (.bus .idle)) :=
    { hend with events := (hend.events.concat (by simp [pointSpan]) _).concat (by simp [pointSpan]) _ }
  rw [I2c.aggregate_eq] at ht
  cases ht
  refine ⟨{ hlink with
    phase_pos := by simp
    payload := { hend with
      apPairwise := .nil
      apDone := by simp
      dlPairwise := .nil
      dlDone := by simp
      ended := by simp
      events := hshut.events.append fun e he _ => hshut.summaryEvents_ss_le hlink.tStart_le e he }
    regs := hregs
    idle := fun _ => ⟨hkeep.bitStarts.trans hnil, rfl, rfl⟩ }, ?_⟩
  exact hkeep.ackInv hack

/-- A data bit, and the byte it may complete (40_sampler.md R153). -/
theorem I2c.MidInv.bit (h : s.MidInv p base) (hack : s.AckInv) (hact : s.active = true)
    (hlt : ∀ b ∈ s.bitStarts, b < s.n) (h8 : s.bitcnt < 8) {x : I2cSample} (ht : s.bit p x = .ok t) :
    t.MidInv p base ∧ t.AckInv := by
  obtain ⟨hlen, hrise, hin⟩ := h.bits
  have hshift : I2c.MidInv p base { s with
      acc := shiftIn s.acc x.sda
      bitStarts := s.bitStarts ++ [s.n]
      bitcnt := s.bitcnt + 1 } := by
    refine { h with
      bits := ⟨by simpa using hlen, ?_, fun b hb => ?_⟩
      payload := { h.payload with }
      idle := fun ha => by simp [hact] at ha }
    · refine List.pairwise_append.mpr ⟨hrise, List.pairwise_singleton _ _, fun a ha b hb => ?_⟩
      rw [List.mem_singleton.mp hb]
      exact hlt a ha
    · rcases List.mem_append.mp hb with hb | hb
      · exact hin b hb
      · rw [List.mem_singleton.mp hb]
        exact ⟨h.tStart_le, Nat.lt_succ_self _⟩
  obtain ⟨-, hawait, -⟩ := hack
  simp only [I2c.bit] at ht
  split at ht
  · next heq =>
    have htwo : 2 ≤ (s.bitStarts ++ [s.n]).length := by
      have hcnt : s.bitcnt = s.bitStarts.length := hlen
      have heq : s.bitcnt + 1 = 8 := heq
      simp only [List.length_append, List.length_singleton]
      omega
    obtain ⟨hcnt, hidx, hlen⟩ := I2c.completeByte_whole ht
    refine ⟨hshift.completeByte hact (.inr ⟨rfl, by simp, htwo⟩) ht, ?_⟩
    simp [I2c.AckInv, hcnt, hidx, hlen, heq]
  · next hne =>
    cases ht
    have hnone : s.ackIdx = none := by
      rw [← Option.not_isSome_iff_eq_none, hawait]
      exact h8.ne
    refine ⟨hshift, Nat.succ_le_of_lt h8, ?_, by simp [hnone]⟩
    simp [hnone, hne]

/-- A change of a record that leaves its phase and kind leaves the kinds of the phase. -/
theorem I2c.kinds_modify (s : I2c) (i : Nat) (f : I2cByteRec → I2cByteRec)
    (hf : ∀ r, (f r).phaseNo = r.phaseNo ∧ (f r).kind = r.kind) :
    { s with xfer := s.xfer.modify i f }.kinds = s.kinds := by
  have hkinds : ∀ u : I2c, u.kinds = ((u.xfer.map fun r => (r.phaseNo, r.kind)).filter
      fun q => q.1 == u.phaseNo).map Prod.snd := fun u => by
    simp [I2c.kinds, I2c.recsOf, List.filter_map, Function.comp_def]
  rw [hkinds, hkinds, map_modify_of_comp_eq fun r => by rw [(hf r).1, (hf r).2]]

/-- A record's acknowledge flag is no part of what is kept (40_sampler.md R154). -/
theorem I2c.MidInv.writeAck (h : s.MidInv p base) {ack : Bool} (ht : s.writeAck ack = .ok t) :
    t.MidInv p base := by
  unfold I2c.writeAck at ht
  split at ht
  · next i _ =>
    obtain ⟨-, rfl⟩ := (I2c.bufUpdate_eq_ok ..).mp ht
    have hlen : (s.xfer.modify i fun r => { r with ack := some ack }).length = s.xfer.length := by
      simp
    obtain ⟨h1, h2, h3, h4, h5⟩ := h.hdr
    have hkinds := I2c.kinds_modify s i (fun r => { r with ack := some ack }) fun _ => ⟨rfl, rfl⟩
    refine { h with
      hdr := ⟨h1, fun hst => ?_, fun hst => ?_, h4, h5⟩
      recs := forall_mem_modify (P := s.RecOk) (f := fun r => { r with ack := some ack })
        (fun _ hr => hr) h.recs i
      payload := ?_ }
    · obtain ⟨hrw, haddr, hm, hks⟩ := h2 hst
      change kindsOk s.matched s.expectReg s.rw s.j s.kinds at hks
      rw [← hkinds] at hks
      exact ⟨hrw, haddr, hm, hks⟩
    · have hnil : s.kinds = [] := by
        rw [I2c.kinds, h3 hst, List.map_nil]
      exact List.map_eq_nil_iff.mp (hkinds.trans hnil)
    · simp only [hlen]
      exact { h.payload with
        apDone := hlen ▸ h.payload.apDone
        dlDone := hlen ▸ h.payload.dlDone }
  · cases ht
    exact h

theorem I2c.MidInv.ackBit (h : s.MidInv p base) {x : I2cSample} (ht : s.ackBit x = .ok t) :
    t.MidInv p base ∧ t.AckInv := by
  simp only [I2c.ackBit, run_bind_eq_ok] at ht
  obtain ⟨b7, -, w, -, u, hu, ht⟩ := ht
  cases ht
  exact ⟨((h.emit (spanOf_ss_le le_rfl _) _).writeAck hu).clearBits, u.ackInv_clearBits⟩

/-- A sound stack after what a sample does. -/
theorem I2c.Inv.sampleOp (h : s.Inv p) {x : I2cSample} (hop : I2c.SampleOp p x s t) :
    t.MidInv p s.out ∧ t.AckInv := by
  have hmid := h.midInv
  obtain ⟨-, ⟨-, -, hbits⟩, hack, -⟩ := h
  have hlt : ∀ b ∈ s.bitStarts, b < s.n := fun b hb => (hbits b hb).2
  cases hop with
  | start => exact hmid.startCond
  | rstart hact ht => exact hmid.rstartCond hact hlt ht
  | stop hact ht => exact hmid.stopCond hact hlt ht
  | bit hact h8 ht => exact hmid.bit hack hact hlt h8 ht
  | ack _ _ ht => exact hmid.ackBit ht

/-- An I2C step from a sound stack leads to a sound stack, and none of its events but a late bit field
starts after its sample. -/
theorem I2c.Inv.step {x : I2cSample} (h : s.Inv p) (ht : s.takeSample p x = .ok t) :
    t.Inv p ∧ GrowsBy s.n s.out t.out := by
  have hmid := h.midInv
  obtain ⟨-, -, hack, -⟩ := id h
  rcases I2c.takeSample_cases ht with ⟨-, rfl⟩ | ⟨hfirst, rfl⟩ | ⟨u, hfirst, hop, rfl⟩
  · exact ⟨I2c.MidInv.inv (s := { s with first := false }) { hmid with payload := { hmid.payload with } }
      hack rfl x _, .refl _ _⟩
  · exact ⟨hmid.inv hack hfirst x _, .refl _ _⟩
  · obtain ⟨hmid', hack'⟩ := h.sampleOp hop
    refine ⟨hmid'.inv hack' (hop.grows.first.trans hfirst) x _, ?_⟩
    have hevents := hmid'.payload.events
    rw [hop.grows.n] at hevents
    exact hevents.portEvents _

/-- The stack after reset is sound under any parameters (70_reset_and_hazards.md R400). -/
theorem I2c.reset_inv (p : I2cParams) (out : List OutEvent) :
    I2c.Inv p { I2c.reset with out := out } := by
  simp [I2c.Inv, I2c.FreshInv, I2c.BitsInv, I2c.AckInv, I2c.HdrInv, I2c.RecInv, I2c.DlInv, I2c.ApInv,
    I2c.DoneInv, I2c.ActiveInv, I2c.reset, I2c.recsOf, Dl.reset, Ap.reset, Dl.stateOk, Ap.stateOk]

end Sys2Proof.Machine

end

/-! ## The step keeps a sound state sound and adds events only (10_state.md R27, R66) -/

section

namespace Sys2Proof.Machine

open Sys2Proof

/-- An SPI stack that has taken no sample is sound under any parameters
(70_reset_and_hazards.md R405). -/
theorem Spi.Inv.of_params {p q : SpiParams} {s : Spi} (h : s.Inv p) (hq : s.first = true ∨ q = p) :
    s.Inv q := by
  rcases hq with hfirst | rfl
  · rw [h.1 hfirst]
    exact Spi.reset_inv q s.out
  · exact h

/-- An I2C stack that has taken no sample is sound under any parameters
(70_reset_and_hazards.md R405). -/
theorem I2c.Inv.of_params {p q : I2cParams} {s : I2c} (h : s.Inv p) (hq : s.first = true ∨ q = p) :
    s.Inv q := by
  rcases hq with hfirst | rfl
  · rw [h.1 hfirst]
    exact I2c.reset_inv q s.out
  · exact h

/-- A step only adds events at the end. -/
theorem StepTo.out_prefix {s t : State} (h : StepTo s t) :
    s.spi.out <+: t.spi.out ∧ s.i2c.out <+: t.i2c.out := by
  cases h with
  | nothing _ => exact ⟨List.prefix_refl _, List.prefix_refl _⟩
  | spi _ hu =>
    obtain ⟨v, hv, rfl⟩ := Spi.takeSample_cases hu
    exact ⟨prefix_portEvents hv.grows.out _ _, List.prefix_refl _⟩
  | i2c _ hu =>
    refine ⟨List.prefix_refl _, ?_⟩
    rcases I2c.takeSample_out hu with hout | ⟨v, hv, hout⟩
    · rw [hout]
    · rw [hout]
      exact prefix_portEvents hv.grows.out _ _
  | reset _ => exact ⟨List.prefix_refl _, List.prefix_refl _⟩
  | params _ _ _ => exact ⟨List.prefix_refl _, List.prefix_refl _⟩

end Sys2Proof.Machine

open Sys2Proof Sys2Proof.Machine

/-- Settles O10: the invariant of the stack that takes the sample is kept operation by operation; a
reset, and parameters before the first sample, leave a stack as after reset. -/
theorem stepKeepsSoundness : Obligations.StepKeepsSoundness := by
  unfold Obligations.StepKeepsSoundness
  rintro s t ⟨hspi, hi2c⟩ hst
  cases StepTo.of_step hst with
  | nothing _ => exact ⟨hspi, hi2c⟩
  | spi _ hu => exact ⟨(hspi.step hu).1, hi2c⟩
  | i2c _ hu => exact ⟨hspi, (hi2c.step hu).1⟩
  | reset _ => exact ⟨Spi.reset_inv _ _, I2c.reset_inv _ _⟩
  | params _ hs hi => exact ⟨hspi.of_params hs, hi2c.of_params hi⟩

/-- Settles O14: the operations only add events, and from a sound stack only late bit fields start after
the sample. -/
theorem stepOnlyAppendsEvents : Obligations.StepOnlyAppendsEvents := by
  unfold Obligations.StepOnlyAppendsEvents
  intro s t hst
  have hto := StepTo.of_step hst
  obtain ⟨hs, hi⟩ := hto.out_prefix
  refine ⟨hs, hi, ?_⟩
  rintro ⟨hspi, hi2c⟩
  cases hto with
  | nothing _ => simp
  | spi _ hu => exact ⟨(hspi.step hu).2.drop, by simp⟩
  | i2c _ hu => exact ⟨by simp, (hi2c.step hu).2.drop⟩
  | reset _ => simp
  | params _ _ _ => simp

end

/-! ## Operations that answer and operations that do not fault (20_memory.md R72, 60_exceptions.md R371)

Only BufAppend and the start of a step refuse. Every operation that holds neither answers, given what it
reads; one that holds a BufAppend is free of faults. -/

section

namespace Sys2Proof.Machine

open Sys2Proof

/-- The operation gives a value. -/
def Answers {α : Type} (r : Run α) : Prop := ∃ a, r = .ok a

/-- The operation gives a value or is refused. -/
def FaultFree {α : Type} (r : Run α) : Prop := ∀ e, r ≠ .error (.fault e)

section

variable {α β : Type}

@[simp] theorem answers_ok (a : α) : Answers (.ok a : Run α) := ⟨a, rfl⟩

/-- Two operations in a row answer exactly when the first answers and the second does on its answer. -/
theorem answers_bind (a : Run α) (f : α → Run β) :
    Answers (a >>= f) ↔ ∃ x, a = .ok x ∧ Answers (f x) := by
  simp only [Answers, run_bind_eq_ok]
  exact ⟨fun ⟨b, x, hx, hb⟩ => ⟨x, hx, b, hb⟩, fun ⟨x, hx, b, hb⟩ => ⟨b, x, hx, hb⟩⟩

theorem Answers.ite {c : Prop} [Decidable c] {a b : Run α} (ha : c → Answers a)
    (hb : ¬ c → Answers b) : Answers (if c then a else b) := by
  split
  · next hc => exact ha hc
  · next hc => exact hb hc

theorem Answers.faultFree {r : Run α} (h : Answers r) : FaultFree r := by
  obtain ⟨a, rfl⟩ := h
  simp [FaultFree]

theorem faultFree_ok (a : α) : FaultFree (.ok a : Run α) := (answers_ok a).faultFree

theorem faultFree_refused (e : Refusal) : FaultFree (.error (.refused e) : Run α) := by
  simp [FaultFree]

/-- Operations in a row do not fault when none does on what the one before it answers. -/
theorem FaultFree.bind {a : Run α} {f : α → Run β} (ha : FaultFree a)
    (hf : ∀ x, a = .ok x → FaultFree (f x)) : FaultFree (a >>= f) := by
  rcases a with (e | e) | x
  · exact absurd rfl (ha e)
  · exact faultFree_refused e
  · exact hf x rfl

end

/-- An SPI operation that does not fault is an operation of the machine that does not. -/
theorem onSpi_ne_fault {s : State} {f : SpiParams → Spi → Run Spi}
    (h : FaultFree (f s.cfg.spi s.spi)) (e : Fault) : onSpi s f ≠ .fault e := by
  unfold onSpi
  rcases hf : f s.cfg.spi s.spi with (e' | e') | u
  · exact absurd hf (h e')
  · simp
  · simp

/-- An I2C operation that does not fault is an operation of the machine that does not. -/
theorem onI2c_ne_fault {s : State} {f : I2cParams → I2c → Run I2c}
    (h : FaultFree (f s.cfg.i2c s.i2c)) (e : Fault) : onI2c s f ≠ .fault e := by
  unfold onI2c
  rcases hf : f s.cfg.i2c s.i2c with (e' | e') | u
  · exact absurd hf (h e')
  · simp
  · simp

/-! ### The transfer buffers (20_memory.md R71 to R73) -/

/-- BufAppend appends where there is room and is refused elsewhere. -/
theorem Spi.bufAppend_eq (p : SpiParams) (r : SpiByteRec) (s : Spi) :
    s.bufAppend p r = if s.room p then .ok { s with xfer := s.xfer ++ [r] }
      else .error (.refused (.maxXferBytes (p.maxXferBytes.getD 0))) := by
  unfold Spi.bufAppend Spi.room
  cases p.maxXferBytes <;> simp

/-- BufAppend appends where there is room and is refused elsewhere. -/
theorem I2c.bufAppend_eq (p : I2cParams) (r : I2cByteRec) (s : I2c) :
    s.bufAppend p r = if s.room p then .ok { s with xfer := s.xfer ++ [r] }
      else .error (.refused (.maxXferBytes (p.maxXferBytes.getD 0))) := by
  unfold I2c.bufAppend I2c.room
  cases p.maxXferBytes <;> simp

theorem Spi.bufAppend_faultFree (p : SpiParams) (r : SpiByteRec) (s : Spi) :
    FaultFree (s.bufAppend p r) := by
  rw [Spi.bufAppend_eq]
  split
  · exact faultFree_ok _
  · exact faultFree_refused _

theorem I2c.bufAppend_faultFree (p : I2cParams) (r : I2cByteRec) (s : I2c) :
    FaultFree (s.bufAppend p r) := by
  rw [I2c.bufAppend_eq]
  split
  · exact faultFree_ok _
  · exact faultFree_refused _

/-- A record below the length is read. -/
theorem Spi.bufRead_answers {s : Spi} {i : Nat} (hi : i < s.xfer.length) : Answers (s.bufRead i) :=
  ⟨_, (Spi.bufRead_eq_ok ..).mpr (List.getElem?_eq_getElem hi)⟩

/-- A record below the length is read. -/
theorem I2c.bufRead_answers {s : I2c} {i : Nat} (hi : i < s.xfer.length) : Answers (s.bufRead i) :=
  ⟨_, (I2c.bufRead_eq_ok ..).mpr (List.getElem?_eq_getElem hi)⟩

/-- A record below the length is updated, and what follows may read it. -/
theorem Spi.update_read_answers {α : Type} {s : Spi} {i : Nat} {f : SpiByteRec → SpiByteRec}
    {g : Spi → SpiByteRec → Run α} (hi : i < s.xfer.length)
    (hg : ∀ r, Answers (g { s with xfer := s.xfer.modify i f } r)) :
    Answers (s.bufUpdate i f >>= fun u => u.bufRead i >>= g u) := by
  obtain ⟨r, hr⟩ := Spi.bufRead_answers (s := { s with xfer := s.xfer.modify i f }) (i := i)
    (by simpa using hi)
  exact (answers_bind ..).mpr
    ⟨_, (Spi.bufUpdate_eq_ok ..).mpr ⟨hi, rfl⟩, (answers_bind ..).mpr ⟨r, hr, hg r⟩⟩

/-- A record below the length is updated, and what follows may read it. -/
theorem I2c.update_read_answers {α : Type} {s : I2c} {i : Nat} {f : I2cByteRec → I2cByteRec}
    {g : I2c → I2cByteRec → Run α} (hi : i < s.xfer.length)
    (hg : ∀ r, Answers (g { s with xfer := s.xfer.modify i f } r)) :
    Answers (s.bufUpdate i f >>= fun u => u.bufRead i >>= g u) := by
  obtain ⟨r, hr⟩ := I2c.bufRead_answers (s := { s with xfer := s.xfer.modify i f }) (i := i)
    (by simpa using hi)
  exact (answers_bind ..).mpr
    ⟨_, (I2c.bufUpdate_eq_ok ..).mpr ⟨hi, rfl⟩, (answers_bind ..).mpr ⟨r, hr, hg r⟩⟩

/-! ### Pending bits (41_byte_assembler.md R171, R173) -/

/-- The last of some bits in rising samples has an end. -/
theorem lastBitEnd_answers {starts : List Nat} (hne : starts ≠ [])
    (hrise : starts.Pairwise (· < ·)) (lastEnd : Option Nat) : Answers (lastBitEnd starts lastEnd) := by
  unfold lastBitEnd
  split
  · exact answers_ok _
  · next b a l hrev =>
    have hab : a < b := by
      have := List.pairwise_reverse.mpr hrise
      rw [hrev] at this
      exact List.rel_of_pairwise_cons this List.mem_cons_self
    exact (answers_bind ..).mpr ⟨b - a, (natSub_eq_ok ..).mpr ⟨hab.le, rfl⟩, answers_ok _⟩
  · exact answers_ok _
  · next hrev => exact absurd (List.reverse_eq_nil_iff.mp hrev) hne

/-- One to eight bits in rising samples make a byte. -/
theorem pendingByte_answers {bitcnt : Nat} {starts : List Nat} (hne : starts ≠ [])
    (hcnt : bitcnt = starts.length) (h8 : bitcnt ≤ 8) (hrise : starts.Pairwise (· < ·))
    (lastEnd : Option Nat) : Answers (pendingByte bitcnt starts lastEnd) := by
  obtain ⟨stop, hstop⟩ := lastBitEnd_answers hne hrise lastEnd
  exact ⟨(starts.head hne, stop, starts.tail ++ [stop]),
    (pendingByte_eq_ok ..).mpr ⟨List.head?_eq_some_head hne, hcnt, h8, hstop, rfl⟩⟩

end Sys2Proof.Machine

open Sys2Proof Sys2Proof.Machine

/-- Settles O59: the buffer rows are the buffer operations of the stack that the row names. -/
theorem buffersAppendReadAndRefuse : Obligations.BuffersAppendReadAndRefuse := by
  unfold Obligations.BuffersAppendReadAndRefuse
  refine ⟨fun s r => ?_, fun s r => ?_, fun s k => ?_, fun s k => ?_⟩
  · simp only [exec, execBufAppend, onSpi, Spi.bufAppend_eq]
    cases s.spi.room s.cfg.spi <;> rfl
  · simp only [exec, execBufAppend, onI2c, I2c.bufAppend_eq]
    cases s.i2c.room s.cfg.i2c <;> rfl
  · simp only [exec, execBufRead, readBuf, Spi.bufRead]
    cases s.spi.xfer[k]? <;> rfl
  · simp only [exec, execBufRead, readBuf, I2c.bufRead]
    cases s.i2c.xfer[k]? <;> rfl

end

/-! ## The SPI operations answer (43_command_framer.md, 42_link_header.md, 45_aggregator.md) -/

section

namespace Sys2Proof.Machine

open Sys2Proof

variable {p : SpiParams} {base : List OutEvent} {k : Nat} {s t : Spi}

/-! ### The framer -/

/-- What the framer reads of its registers when a byte comes (43_command_framer.md R245, R248). -/
structure Spi.FramerReady (s : Spi) : Prop where
  hdr : s.fst = .hdr → s.fStart.isSome = true
    ∧ (s.fh = 9 → s.fshort = false → tpmHdrSize ≤ s.len.toNat)
  payload : s.fst = .payload → s.fStart.isSome = true ∧ s.fdir.isSome = true

theorem Spi.FramerInv.ready (h : s.FramerInv) : s.FramerReady := by
  obtain ⟨-, hhdr, hpay, -, hafter, -⟩ := h
  refine ⟨fun hst => ⟨(hhdr hst).1, fun h9 hlong => ?_⟩, fun hst => ?_⟩
  · have hiff := hafter hst (by omega)
    simpa [hlong] using hiff
  · obtain ⟨hstart, -, hdir, -⟩ := hpay hst
    exact ⟨hstart, hdir⟩

theorem Spi.closeFrame_answers (hdir : s.fdir.isSome = true) (hstart : s.fStart.isSome = true)
    (k : Nat) : Answers (s.closeFrame k) := by
  obtain ⟨d, hd⟩ := Option.isSome_iff_exists.mp hdir
  obtain ⟨a, ha⟩ := Option.isSome_iff_exists.mp hstart
  exact ⟨_, (Spi.closeFrame_eq_ok ..).mpr ⟨d, a, hd, ha, rfl⟩⟩

theorem payloadSize_answers {short : Bool} {len : BitVec 32}
    (h : short = false → tpmHdrSize ≤ len.toNat) : Answers (payloadSize short len) := by
  refine .ite (fun _ => answers_ok _) fun hshort => ?_
  have hle := h (by simpa using hshort)
  exact (answers_bind ..).mpr ⟨_, (natSub_eq_ok ..).mpr ⟨hle, rfl⟩, answers_ok _⟩

theorem Spi.tpmCodeDone_answers (hstart : s.fStart.isSome = true)
    (hlen : s.fshort = false → tpmHdrSize ≤ s.len.toNat) (k : Nat) (d : Dir) (fspan : Span) :
    Answers (s.tpmCodeDone p k d fspan) := by
  obtain ⟨size, hsize⟩ := payloadSize_answers hlen
  simp only [Spi.tpmCodeDone, answers_bind]
  refine ⟨size, hsize, .ite (fun _ => ?_) fun _ => answers_ok _⟩
  refine Spi.closeFrame_answers ?_ ?_ k
  · rfl
  · exact hstart

/-- Only the last field of the header needs anything: the frame's start, and a length to subtract
from. -/
theorem Spi.fieldDone_answers (h : s.fh = 10 → s.fStart.isSome = true
      ∧ (s.fshort = false → tpmHdrSize ≤ s.len.toNat)) (k : Nat) (d : Dir) (fspan : Span) :
    Answers (s.fieldDone p k d fspan) := by
  refine .ite (fun _ => answers_ok _) fun _ => .ite (fun _ => answers_ok _) fun _ =>
    .ite (fun h10 => ?_) fun _ => answers_ok _
  obtain ⟨hstart, hlen⟩ := h h10
  exact Spi.tpmCodeDone_answers hstart hlen k d fspan

theorem Spi.tpmHdr_answers (hk : k < s.xfer.length) (h : s.fh = 9 → s.fStart.isSome = true
      ∧ (s.fshort = false → tpmHdrSize ≤ s.len.toNat)) (x : Byte) (d : Dir) :
    Answers (s.tpmHdr p k x d) := by
  refine Spi.update_read_answers hk fun r => ?_
  rw [Spi.beginField_eq]
  refine Spi.fieldDone_answers ?_ k d _
  exact fun h10 => h (Nat.succ.inj h10)

theorem Spi.tpmPayload_answers (hk : k < s.xfer.length) (hdir : s.fdir.isSome = true)
    (hstart : s.fStart.isSome = true) (x : Byte) (d : Dir) : Answers (s.tpmPayload k x d) := by
  refine Spi.update_read_answers hk fun r => ?_
  refine .ite (fun _ => ?_) fun _ => answers_ok _
  refine Spi.closeFrame_answers ?_ ?_ k
  · exact hdir
  · exact hstart

theorem Spi.FramerReady.framerByte (h : s.FramerReady) (hk : k < s.xfer.length) (x : Byte) (d : Dir) :
    Answers (s.framerByte p k x d) := by
  unfold Spi.framerByte
  split
  · exact Spi.tpmHdr_answers (s := s.tpmStart k) hk (by simp [Spi.tpmStart]) x d
  · next hst =>
    obtain ⟨hstart, hlen⟩ := h.hdr hst
    exact Spi.tpmHdr_answers hk (fun h9 => ⟨hstart, hlen h9⟩) x d
  · next hst =>
    obtain ⟨hstart, hdir⟩ := h.payload hst
    exact .ite (fun _ => Spi.tpmPayload_answers hk hdir hstart x d) fun _ => answers_ok _

/-! ### The link header -/

theorem Spi.hdr3_answers (hhi : s.hdrRegHi.isSome = true) (h2 : 2 < s.xfer.length) (b : Byte)
    (miso : Option Byte) (start stop : Nat) : Answers (s.hdr3 p b miso start stop) := by
  obtain ⟨hi, hhi⟩ := Option.isSome_iff_exists.mp hhi
  obtain ⟨r, hr⟩ := Spi.bufRead_answers h2
  simp only [Spi.hdr3, answers_bind, need_eq_ok]
  obtain ⟨o, htake⟩ := s.takeReg_eq p (joinLow (highByte hi) b) (spanOf s.hdrB2Start stop)
  refine ⟨hi, hhi, r, ?_, answers_ok _⟩
  rw [htake]
  exact hr

theorem Spi.excessByte_answers (h4 : 4 ≤ k) (hk : k < s.xfer.length) : Answers (s.excessByte k) :=
  (answers_bind ..).mpr ⟨k - 4, (natSub_eq_ok ..).mpr ⟨h4, rfl⟩,
    Spi.update_read_answers hk fun _ => answers_ok _⟩

theorem Spi.dataByte_answers (h4 : 4 ≤ k) (hk : k < s.xfer.length) (hdir : s.hdrDir.isSome = true)
    (hframer : s.FramerReady) (v : Option Byte) : Answers (s.dataByte p k v) := by
  obtain ⟨d, hd⟩ := Option.isSome_iff_exists.mp hdir
  simp only [Spi.dataByte, answers_bind (natSub _ _ _), answers_bind (need _ _), natSub_eq_ok,
    need_eq_ok]
  refine ⟨k - 4, ⟨h4, rfl⟩, d, hd, Spi.update_read_answers hk fun r => ?_⟩
  split
  · refine .ite (fun _ => ?_) fun _ => answers_ok _
    refine Spi.FramerReady.framerByte ?_ ?_ _ d
    · exact ⟨hframer.hdr, hframer.payload⟩
    · simpa using hk
  · exact answers_ok _

theorem Spi.laterByte_answers (h4 : 4 ≤ k) (hk : k < s.xfer.length) (hdir : s.hdrDir.isSome = true)
    (hcount : s.hdrCount.isSome = true) (hframer : s.FramerReady) (r : SpiByteRec) :
    Answers (s.laterByte p r k) := by
  obtain ⟨d, hd⟩ := Option.isSome_iff_exists.mp hdir
  obtain ⟨c, hc⟩ := Option.isSome_iff_exists.mp hcount
  simp only [Spi.laterByte, answers_bind, natSub_eq_ok, need_eq_ok]
  exact ⟨k - 4, ⟨h4, rfl⟩, d, hd, c, hc, .ite (fun _ => Spi.excessByte_answers h4 hk)
    fun _ => Spi.dataByte_answers h4 hk hdir hframer _⟩

/-- The header decoder answers on a record appended to a sound transfer: the registers a byte reads are
those the bytes before it have written (42_link_header.md R209). -/
theorem Spi.HdrInv.headerByte_answers (h : s.HdrInv p) (hframer : s.FramerReady) {r : SpiByteRec}
    (hlane : r.mosi.isSome = p.haveMosi) :
    Answers ({ s with xfer := s.xfer ++ [r] }.headerByte p r) := by
  obtain ⟨hpos, hdir, hcount, -, hhi, -⟩ := h
  have hlen : s.pos < (s.xfer ++ [r]).length := by simp [hpos]
  simp only [Spi.headerByte]
  split
  · exact ⟨_, (Spi.bufUpdate_eq_ok ..).mpr ⟨hlen, rfl⟩⟩
  next hmosi =>
  have hmosi : p.haveMosi = true := by simpa using hmosi
  obtain ⟨b, hb⟩ := Option.isSome_iff_exists.mp (hlane.trans hmosi)
  refine (answers_bind ..).mpr ⟨b, (need_eq_ok ..).mpr hb, ?_⟩
  split
  · exact answers_ok _
  · exact answers_ok _
  · exact answers_ok _
  · next h3 =>
    refine Spi.hdr3_answers ?_ ?_ b _ _ _
    · exact hhi.mpr ⟨hmosi, by omega⟩
    · simp only
      omega
  · next h0 h1 h2 h3 =>
    simp only [imp_false] at h0 h1 h2 h3
    refine Spi.laterByte_answers (by omega) hlen ?_ ?_ ?_ r
    · exact hdir.mpr ⟨hmosi, by omega⟩
    · exact hcount.mpr ⟨hmosi, by omega⟩
    · exact ⟨hframer.hdr, hframer.payload⟩

/-! ### The aggregator pass (45_aggregator.md R340 to R345) -/

/-- The declared count is there when the header is complete. -/
theorem Spi.HdrInv.headerCheck_answers (h : s.HdrInv p) : Answers (s.headerCheck p) := by
  obtain ⟨hpos, -, hcount, -⟩ := h
  refine .ite (fun _ => answers_ok _) fun hmosi => .ite (fun _ => answers_ok _) fun hfour => ?_
  have hsome : s.hdrCount.isSome = true := hcount.mpr ⟨by simpa using hmosi, by omega⟩
  obtain ⟨c, hc⟩ := Option.isSome_iff_exists.mp hsome
  exact (answers_bind ..).mpr ⟨c, (need_eq_ok ..).mpr hc, answers_ok _⟩

theorem Spi.HdrInv.summaries_answers (h : s.HdrInv p) : Answers (s.summaries p) := by
  unfold Spi.summaries
  split
  · exact answers_ok _
  · obtain ⟨u, hu⟩ := Spi.HdrInv.headerCheck_answers
      (s := s.emit (spanOf s.tStart s.n) (.spiXferSum (s.xferSum p))) h
    exact (answers_bind ..).mpr ⟨u, hu, answers_ok _⟩

/-- A frame still open has a start: a sample, or an index of a transfer that so has bytes
(45_aggregator.md R344). -/
theorem Spi.frameCarry_answers (hstart : s.fst ≠ .idle → s.fStart.isSome = true)
    (hplace : ∀ i, s.fStart = some (.idx i) → i < s.xfer.length) : Answers s.frameCarry := by
  refine .ite (fun _ => answers_ok _) fun hopen => ?_
  obtain ⟨a, ha⟩ := Option.isSome_iff_exists.mp (hstart hopen)
  rw [ha]
  rcases a with i | r
  · have hw := (evenWidth_eq_some s.tStart s.n s.xfer.length _).mpr
      ⟨Nat.ne_zero_of_lt (hplace i ha), rfl⟩
    simp only [answers_bind, need_eq_ok]
    exact ⟨_, hw, _, rfl, .ite (fun _ => answers_ok _) fun _ => answers_ok _⟩
  · simp only [answers_bind]
    exact ⟨s, rfl, .ite (fun _ => by simp [ha]) fun _ => answers_ok _⟩

theorem Spi.MidInv.frameCarry_answers (h : s.MidInv p base) : Answers s.frameCarry := by
  obtain ⟨-, hhdr, hpay, -⟩ := h.framer
  refine Spi.frameCarry_answers (fun hopen => ?_) fun i hi => ?_
  · cases hst : s.fst
    case idle => exact absurd hst hopen
    case hdr => exact (hhdr hst).1
    case payload => exact (hpay hst).1
  · have hok := h.frames.1 _ hi
    simp only [FrameStart.ok, Bool.and_eq_true, decide_eq_true_eq] at hok
    exact hok.2

theorem Spi.MidInv.aggregate_answers (h : s.MidInv p base) : Answers (s.aggregate p) := by
  obtain ⟨u, hu⟩ := h.hdr.summaries_answers
  obtain ⟨v, hv⟩ := (h.summaries hu).frameCarry_answers
  simp only [Spi.aggregate, answers_bind]
  exact ⟨u, hu, v, hv, answers_ok _⟩

end Sys2Proof.Machine

end

/-! ## An SPI step from a sound stack does not fault -/

section

namespace Sys2Proof.Machine

open Sys2Proof

variable {p : SpiParams} {base : List OutEvent} {s t : Spi} {x : SpiLevels}

/-- A record of the right lanes is appended, where there is room, and decoded. -/
theorem Spi.HdrInv.takeRecord_faultFree (h : s.HdrInv p) (hframer : s.FramerReady) {r : SpiByteRec}
    (hlane : r.mosi.isSome = p.haveMosi) :
    FaultFree (s.bufAppend p r >>= fun u =>
      { u with bitcnt := 0, accMosi := 0#8, accMiso := 0#8, bitStarts := [] }.headerByte p r) := by
  refine (s.bufAppend_faultFree p r).bind fun u hu => ?_
  obtain ⟨-, rfl⟩ := (Spi.bufAppend_eq_ok ..).mp hu
  have hcleared : Spi.HdrInv p
      { s with bitcnt := 0, accMosi := 0#8, accMiso := 0#8, bitStarts := [] } := h
  exact (hcleared.headerByte_answers ⟨hframer.hdr, hframer.payload⟩ hlane).faultFree

/-- One to eight pending bits in rising samples become a byte, unless the buffer is full
(41_byte_assembler.md R173). -/
theorem Spi.HdrInv.completeByte_faultFree (h : s.HdrInv p) (hframer : s.FramerReady)
    (hne : s.bitStarts ≠ []) (hcnt : s.bitcnt = s.bitStarts.length) (h8 : s.bitcnt ≤ 8)
    (hrise : s.bitStarts.Pairwise (· < ·)) (tr : Bool) (lastEnd : Option Nat) :
    FaultFree (s.completeByte p tr lastEnd) := by
  refine (pendingByte_answers hne hcnt h8 hrise lastEnd).faultFree.bind fun b _ => ?_
  obtain ⟨start, stop, ends⟩ := b
  refine Spi.HdrInv.takeRecord_faultFree ?_ ?_ ?_
  · split <;> split <;> exact h
  · split <;> split <;> exact ⟨hframer.hdr, hframer.payload⟩
  · dsimp only
    cases p.haveMosi <;> rfl

theorem Spi.MidInv.sckSample_faultFree (h : s.MidInv p base) (hcnt : s.bitcnt ≤ 7)
    (hbits : ∀ b ∈ s.bitStarts, b < s.n) (x : SpiLevels) : FaultFree (s.sckSample p x) := by
  obtain ⟨hlen, hrise, -⟩ := h.bits
  have hready := h.framer.ready
  unfold Spi.sckSample
  dsimp only
  split
  · refine Spi.HdrInv.completeByte_faultFree ?_ ?_ ?_ ?_ ?_ ?_ false none
    · exact h.hdr
    · exact ⟨hready.hdr, hready.payload⟩
    · simp [Spi.shiftBits]
    · simpa [Spi.shiftBits] using hlen
    · rw [Spi.shiftBits_bitcnt]
      omega
    · refine List.pairwise_append.mpr ⟨hrise, List.pairwise_singleton _ _, fun a ha b hb => ?_⟩
      rw [List.mem_singleton.mp hb]
      exact hbits a ha
  · exact faultFree_ok _

/-- The first bit of a transfer completes no byte. -/
theorem Spi.sckSample_csAssert_answers (s : Spi) (x : SpiLevels) :
    Answers (s.csAssert.sckSample p x) := by
  unfold Spi.sckSample
  refine .ite (fun h8 => ?_) fun _ => answers_ok _
  simp [Spi.csAssert] at h8

theorem Spi.MidInv.cutByte_faultFree (h : s.MidInv p base) (hcnt : s.bitcnt ≤ 7) :
    FaultFree (s.cutByte p) := by
  obtain ⟨hlen, hrise, -⟩ := h.bits
  have hready := h.framer.ready
  unfold Spi.cutByte
  split
  · next hpos =>
    have hne : s.bitStarts ≠ [] := List.ne_nil_of_length_pos (hlen ▸ hpos)
    have hhead : need "bit_starts" s.bitStarts.head? = .ok (s.bitStarts.head hne) :=
      (need_eq_ok ..).mpr (List.head?_eq_some_head hne)
    refine (Answers.faultFree ⟨_, hhead⟩).bind fun b0 _ => ?_
    refine Spi.HdrInv.completeByte_faultFree ?_ ?_ ?_ ?_ ?_ ?_ true (some s.n)
    · exact h.hdr
    · exact ⟨hready.hdr, hready.payload⟩
    · exact hne
    · exact hlen
    · exact hcnt.trans (by omega)
    · exact hrise
  · exact faultFree_ok _

/-- The end of a transfer: the byte in progress is cut, and the pass reports what is left
(40_sampler.md R131). -/
theorem Spi.MidInv.csDeassert_faultFree (h : s.MidInv p base) (hcnt : s.bitcnt ≤ 7)
    (hbits : ∀ b ∈ s.bitStarts, b < s.n) : FaultFree (s.csDeassert p) := by
  unfold Spi.csDeassert
  split
  · next hact =>
    refine (h.cutByte_faultFree hcnt).bind fun u hu => ?_
    obtain ⟨hmid, -⟩ := h.cutByte hact hbits hu
    have hidle := hmid.emit (sp := pointSpan u.n) (by simp [pointSpan]) (.bus .idle)
    exact hidle.aggregate_answers.faultFree.bind fun v _ => faultFree_ok _
  · exact faultFree_ok _

/-- One row alone on a sound stack (40_sampler.md R130 to R133). -/
theorem Spi.Inv.doRow_faultFree (h : s.Inv p) (x : SpiLevels) (r : SpiRow) :
    FaultFree (s.doRow p x r) := by
  have hmid := h.midInv
  obtain ⟨-, ⟨-, -, hbits⟩, hcnt, -⟩ := h
  have hlt : ∀ b ∈ s.bitStarts, b < s.n := fun b hb => (hbits b hb).2
  cases r with
  | baseline => exact faultFree_ok _
  | csDeassert => exact hmid.csDeassert_faultFree hcnt hlt
  | csAssert => exact faultFree_ok _
  | sckSample => exact hmid.sckSample_faultFree hcnt hlt x
  | sckSampleF => exact hmid.sckSample_faultFree hcnt hlt x

/-- The rows of a sample: one alone, or a bit that follows an assertion and so is the first of its
transfer. -/
theorem Spi.Inv.doRows_faultFree (h : s.Inv p) (x : SpiLevels) :
    FaultFree (Spi.doRows p x (s.rowsFor p x) s) := by
  rcases s.rowsFor_cases p x with hr | ⟨r, hr⟩ | hr | hr <;> rw [hr]
  · exact faultFree_ok _
  · rw [Spi.doRows_singleton]
    exact h.doRow_faultFree x r
  · rw [Spi.doRows, Spi.doRow]
    exact (s.sckSample_csAssert_answers x).faultFree.bind fun _ _ => faultFree_ok _
  · rw [Spi.doRows, Spi.doRow]
    exact (s.sckSample_csAssert_answers x).faultFree.bind fun _ _ => faultFree_ok _

theorem Spi.Inv.takeSample_faultFree (h : s.Inv p) (y : SpiSample) :
    FaultFree (s.takeSample p y) := by
  unfold Spi.takeSample
  split
  · split
    · exact faultFree_refused _
    · exact (h.doRows_faultFree _).bind fun u _ => faultFree_ok _
  · exact faultFree_refused _

end Sys2Proof.Machine

end

/-! ## The I2C operations answer (44_datalink_apdu.md, 42_link_header.md) -/

section

namespace Sys2Proof.Machine

open Sys2Proof

variable {p : I2cParams} {base : List OutEvent} {k : Nat} {s t u : I2c} {d : Dir}

theorem I2c.recSpan_answers (hk : k < s.xfer.length) : Answers (s.recSpan k) := by
  obtain ⟨r, hr⟩ := I2c.bufRead_answers hk
  exact (answers_bind ..).mpr ⟨r, hr, answers_ok _⟩

/-! ### The ends of a datalink frame and of an APDU -/

theorem I2c.dlFinish_answers_iff (k : Nat) (d : Dir) (c : Bool) (s : I2c) :
    Answers (s.dlFinish k d c) ↔ ∃ f, s.dl.dFirst = some f := by
  simp [Answers, I2c.dlFinish_eq_ok]

theorem I2c.apduFinish_answers_iff (k : Nat) (d : Dir) (c : Bool) (s : I2c) :
    Answers (s.apduFinish k d c) ↔ ∃ f, s.ap.aFirst = some f := by
  simp [Answers, I2c.apduFinish_eq_ok]

/-! ### The APDU (44_datalink_apdu.md R298 to R302) -/

/-- What the two parsers read of their registers in a phase with direction `d` (44_datalink_apdu.md
R281, R306). -/
structure I2c.ParsersReady (p : I2cParams) (d : Dir) (s : I2c) : Prop where
  dlFirst : s.dl.dst = .fctr ↔ s.dl.dFirst = none
  dlState : s.dl.stateOk (some d) = true
  apFirst : s.ap.ast = .cmd ↔ s.ap.aFirst = none
  apState : s.ap.stateOk p = true
  apPlace : ∀ a, s.ap.aFirst = some a → a < s.xfer.length

/-- In a data phase the direction is there and the parsers are ready. -/
def I2c.DataReady (p : I2cParams) (s : I2c) : Prop :=
  s.phase = .data → ∃ d, s.rw = some d ∧ s.ParsersReady p d

/-- The parsers look at the phase, their registers and the number of records alone. -/
theorem I2c.DataReady.congr (h : s.DataReady p) (hphase : t.phase = s.phase) (hrw : t.rw = s.rw)
    (hdl : t.dl = s.dl) (hap : t.ap = s.ap) (hlen : s.xfer.length ≤ t.xfer.length) :
    t.DataReady p := by
  intro hst
  obtain ⟨d, hd, hready⟩ := h (hphase ▸ hst)
  refine ⟨d, hrw ▸ hd, hdl ▸ hready.dlFirst, hdl ▸ hready.dlState, hap ▸ hready.apFirst,
    hap ▸ hready.apState, fun a ha => ?_⟩
  rw [hap] at ha
  exact (hready.apPlace a ha).trans_le hlen

/-- An APDU that has begun has a first byte. -/
theorem I2c.ParsersReady.aFirst (h : s.ParsersReady p d) (hst : s.ap.ast ≠ .cmd) :
    ∃ a, s.ap.aFirst = some a :=
  Option.ne_none_iff_exists'.mp fun hnone => hst (h.apFirst.mpr hnone)

theorem I2c.apduData_answers {a : Nat} (hfirst : s.ap.aFirst = some a) (hrem : 1 ≤ s.ap.arem)
    (hk : k < s.xfer.length) (v : Byte) (d : Dir) : Answers (s.apduData k v d) := by
  obtain ⟨sp, hsp⟩ := I2c.recSpan_answers hk
  simp only [I2c.apduData, answers_bind, natSub_eq_ok]
  refine ⟨sp, hsp, _, ⟨hrem, rfl⟩, .ite (fun _ => ?_) fun _ => answers_ok _⟩
  exact (I2c.apduFinish_answers_iff ..).mpr ⟨a, hfirst⟩

theorem I2c.apduLen1_answers {a : Nat} (hfirst : s.ap.aFirst = some a) (hk : k < s.xfer.length)
    (v : Byte) (d : Dir) : Answers (s.apduLen1 p k v d) := by
  obtain ⟨r, hr⟩ := I2c.bufRead_answers hk
  refine (answers_bind ..).mpr ⟨r, hr, .ite (fun _ => ?_) fun _ => answers_ok _⟩
  exact (I2c.apduFinish_answers_iff ..).mpr ⟨a, hfirst⟩

/-- A byte of an APDU answers, by the parser's state. -/
theorem I2c.ParsersReady.apduByte_answers (h : s.ParsersReady p d) (hk : k < s.xfer.length) (v : Byte) :
    Answers (s.apduByte p k v d) := by
  obtain ⟨sp, hsp⟩ := I2c.recSpan_answers hk
  obtain ⟨r, hr⟩ := I2c.bufRead_answers hk
  unfold I2c.apduByte
  cases hst : s.ap.ast
  case cmd => exact (answers_bind ..).mpr ⟨sp, hsp, answers_ok _⟩
  case param => exact (answers_bind ..).mpr ⟨sp, hsp, answers_ok _⟩
  case len0 => exact (answers_bind ..).mpr ⟨r, hr, answers_ok _⟩
  case len1 =>
    obtain ⟨a, ha⟩ := h.aFirst (by simp [hst])
    exact I2c.apduLen1_answers ha hk v d
  case data =>
    obtain ⟨a, ha⟩ := h.aFirst (by simp [hst])
    have hstate := h.apState
    simp only [Ap.stateOk, hst, Bool.and_eq_true, decide_eq_true_eq] at hstate
    exact I2c.apduData_answers ha hstate.1 hk v d
  case done => exact (answers_bind ..).mpr ⟨sp, hsp, answers_ok _⟩

/-- After a byte of an APDU its first byte is this one, or still the one it was. -/
theorem I2c.apduByte_aFirst {v : Byte} (ht : s.apduByte p k v d = .ok t) :
    t.ap.aFirst = if s.ap.ast = .cmd then some k else s.ap.aFirst := by
  unfold I2c.apduByte at ht
  cases hst : s.ap.ast <;> rw [hst] at ht
  case cmd =>
    simp only [I2c.apduCmd, run_bind_eq_ok] at ht
    obtain ⟨sp, -, ht⟩ := ht
    cases ht
    split <;> rfl
  case param =>
    simp only [I2c.apduParam, run_bind_eq_ok] at ht
    obtain ⟨sp, -, ht⟩ := ht
    cases ht
    rfl
  case len0 =>
    simp only [I2c.apduLen0, run_bind_eq_ok] at ht
    obtain ⟨r, -, ht⟩ := ht
    cases ht
    rfl
  case len1 =>
    simp only [I2c.apduLen1, run_bind_eq_ok] at ht
    obtain ⟨r, -, ht⟩ := ht
    split at ht
    · obtain ⟨f, -, rfl⟩ := (I2c.apduFinish_eq_ok ..).mp ht
      rfl
    · cases ht
      rfl
  case data =>
    simp only [I2c.apduData, run_bind_eq_ok] at ht
    obtain ⟨sp, -, arem, -, ht⟩ := ht
    split at ht
    · obtain ⟨f, -, rfl⟩ := (I2c.apduFinish_eq_ok ..).mp ht
      rfl
    · cases ht
      rfl
  case done =>
    simp only [I2c.apduExcess, run_bind_eq_ok] at ht
    obtain ⟨sp, -, ht⟩ := ht
    cases ht
    rfl

/-- An APDU that has taken the byte in hand has its first byte in the buffer. -/
theorem I2c.ParsersReady.aFirst_of_apduByte (h : s.ParsersReady p d) (hk : k < s.xfer.length)
    {v : Byte} (ht : s.apduByte p k v d = .ok t) : ∃ a, t.ap.aFirst = some a ∧ a < s.xfer.length := by
  rw [I2c.apduByte_aFirst ht]
  split
  · exact ⟨k, rfl, hk⟩
  · next hst =>
    obtain ⟨a, ha⟩ := h.aFirst hst
    exact ⟨a, ha, h.apPlace a ha⟩

/-! ### The datalink frame (44_datalink_apdu.md R280 to R297) -/

theorem I2c.payloadBegin_answers_iff (d : Dir) (s : I2c) :
    Answers (s.payloadBegin d) ↔ ∃ c, s.dl.pctr = some c := by
  simp [Answers, I2c.payloadBegin_eq_ok]

theorem I2c.dlPctr_answers (hrem : 1 ≤ s.dl.drem) (hk : k < s.xfer.length) (v : Byte) (d : Dir) :
    Answers (s.dlPctr k v d) := by
  obtain ⟨sp, hsp⟩ := I2c.recSpan_answers hk
  simp only [I2c.dlPctr, answers_bind, natSub_eq_ok]
  refine ⟨sp, hsp, _, ⟨hrem, rfl⟩, .ite (fun _ => answers_ok _) fun _ => .ite (fun _ => ?_)
    fun _ => answers_ok _⟩
  exact (I2c.payloadBegin_answers_iff ..).mpr ⟨v, rfl⟩

theorem I2c.dlSctr_answers {c : Byte} (hc : s.dl.pctr = some c) (hrem : 1 ≤ s.dl.drem)
    (hk : k < s.xfer.length) (v : Byte) (d : Dir) : Answers (s.dlSctr k v d) := by
  obtain ⟨sp, hsp⟩ := I2c.recSpan_answers hk
  simp only [I2c.dlSctr, answers_bind, natSub_eq_ok]
  refine ⟨sp, hsp, _, ⟨hrem, rfl⟩, .ite (fun _ => ?_) fun _ => answers_ok _⟩
  exact (I2c.payloadBegin_answers_iff ..).mpr ⟨c, hc⟩

/-- An APDU that the end of the payload cuts has its first byte in the buffer. -/
theorem I2c.cutApdu_answers (hk : k < s.xfer.length)
    (hfirst : s.dl.apduMode = true → ∃ a, s.ap.aFirst = some a ∧ a < s.xfer.length) (d : Dir) :
    Answers (s.cutApdu k d) := by
  refine .ite (fun hcut => ?_) fun _ => answers_ok _
  obtain ⟨a, ha, hlt⟩ := hfirst hcut.1
  obtain ⟨ra, hra⟩ := I2c.bufRead_answers hlt
  obtain ⟨r, hr⟩ := I2c.bufRead_answers hk
  simp only [answers_bind, need_eq_ok]
  exact ⟨a, ha, ra, hra, r, hr, (I2c.apduFinish_answers_iff ..).mpr ⟨a, ha⟩⟩

theorem I2c.countPayload_answers (hrem : 1 ≤ s.dl.drem) (hk : k < s.xfer.length)
    (hfirst : s.dl.apduMode = true → ∃ a, s.ap.aFirst = some a ∧ a < s.xfer.length) (d : Dir) :
    Answers (s.countPayload k d) := by
  obtain ⟨v, hv⟩ := I2c.cutApdu_answers (s := { s with
    dl := { s.dl with dpay := s.dl.dpay + 1, drem := s.dl.drem - 1 } }) hk hfirst d
  simp only [I2c.countPayload, answers_bind (natSub _ _ _), natSub_eq_ok]
  exact ⟨_, ⟨hrem, rfl⟩, .ite (fun _ => (answers_bind ..).mpr ⟨v, hv, answers_ok _⟩)
    fun _ => answers_ok _⟩

theorem I2c.ParsersReady.dlPay_answers (h : s.ParsersReady p d) (hst : s.dl.dst = .pay)
    (hk : k < s.xfer.length) (v : Byte) : Answers (s.dlPay p k v d) := by
  have hstate := h.dlState
  simp only [Dl.stateOk, hst, Bool.and_eq_true, decide_eq_true_eq] at hstate
  obtain ⟨⟨⟨-, hrem⟩, -⟩, -⟩ := hstate
  obtain ⟨sp, hsp⟩ := I2c.recSpan_answers hk
  cases hmode : s.dl.apduMode
  case false =>
    obtain ⟨t, ht⟩ := I2c.countPayload_answers (s := s.emit sp (.payload .dl d s.dl.dpay v true))
      hrem hk (by simp [hmode]) d
    exact ⟨t, (I2c.dlPay_eq_ok ..).mpr ⟨sp, _, hsp, by simp [hmode], ht⟩⟩
  case true =>
    obtain ⟨u, hu⟩ := h.apduByte_answers hk v
    have hfirst := h.aFirst_of_apduByte hk hu
    have hrest := (I2c.ApOnly.apduByte hu).rest
    have hdl : u.dl = s.dl := by rw [hrest]
    have hxfer : u.xfer = s.xfer := by rw [hrest]
    obtain ⟨t, ht⟩ := I2c.countPayload_answers (s := u) (k := k) (by rwa [hdl]) (by rwa [hxfer])
      (fun _ => by rwa [hxfer]) d
    exact ⟨t, (I2c.dlPay_eq_ok ..).mpr ⟨sp, u, hsp, by simpa [hmode] using hu, ht⟩⟩

/-- A byte of a datalink frame answers, by the parser's state. -/
theorem I2c.ParsersReady.dlByte_answers (h : s.ParsersReady p d) (hk : k < s.xfer.length) (j : Nat)
    (v : Byte) : Answers (s.dlByte p k j v d) := by
  obtain ⟨sp, hsp⟩ := I2c.recSpan_answers hk
  obtain ⟨r, hr⟩ := I2c.bufRead_answers hk
  have hstate := h.dlState
  unfold I2c.dlByte
  cases hst : s.dl.dst <;>
    simp only [Dl.stateOk, hst, Bool.and_eq_true, decide_eq_true_eq] at hstate
  case fctr => exact (answers_bind ..).mpr ⟨sp, hsp, answers_ok _⟩
  case len0 => exact (answers_bind ..).mpr ⟨r, hr, answers_ok _⟩
  case len1 => exact (answers_bind ..).mpr ⟨r, hr, answers_ok _⟩
  case pctr =>
    obtain ⟨⟨-, hrem⟩, -⟩ := hstate
    exact I2c.dlPctr_answers hrem hk v d
  case sctr =>
    obtain ⟨⟨⟨⟨⟨hpctr, -⟩, -⟩, -⟩, hrem⟩, -⟩ := hstate
    have hsome : s.dl.pctr ≠ none := fun hnone => by simp [hnone] at hpctr
    obtain ⟨c, hc⟩ := Option.ne_none_iff_exists'.mp hsome
    exact I2c.dlSctr_answers hc hrem hk v d
  case pay => exact h.dlPay_answers hst hk v
  case fcs0 => exact (answers_bind ..).mpr ⟨r, hr, answers_ok _⟩
  case fcs1 =>
    obtain ⟨f, hf⟩ := Option.ne_none_iff_exists'.mp fun hnone => by
      simpa [hst] using h.dlFirst.mpr hnone
    exact (answers_bind ..).mpr ⟨r, hr, (I2c.dlFinish_answers_iff ..).mpr ⟨f, hf⟩⟩
  case done => exact (answers_bind ..).mpr ⟨sp, hsp, answers_ok _⟩

/-! ### The link header (42_link_header.md R210 to R214) -/

theorem I2c.ParsersReady.regData_answers (h : s.ParsersReady p d) (hrw : s.rw = some d)
    (hk : k < s.xfer.length) (v : Byte) : Answers (s.regData p k v) := by
  refine (answers_bind ..).mpr ⟨d, (need_eq_ok ..).mpr hrw, I2c.update_read_answers hk fun r => ?_⟩
  dsimp only
  split
  · exact answers_ok _
  · refine .ite (fun _ => ?_) fun _ => answers_ok _
    refine I2c.ParsersReady.dlByte_answers ?_ ?_ _ v
    · exact ⟨h.dlFirst, h.dlState, h.apFirst, h.apState, by simpa using h.apPlace⟩
    · simpa using hk

/-- The header decoder answers on the byte in hand, in a data phase with the parsers ready. -/
theorem I2c.DataReady.headerByte_answers (h : s.DataReady p) (hne : s.xfer ≠ []) (r : I2cByteRec) :
    Answers (s.headerByte p r) := by
  obtain ⟨k, hk⟩ := Nat.exists_eq_succ_of_ne_zero (mt List.length_eq_zero_iff.mp hne)
  have hlt : k < s.xfer.length := by omega
  refine (answers_bind ..).mpr ⟨k, (I2c.lastIdx_eq_ok ..).mpr hk, ?_⟩
  cases hst : s.phase
  case addr => exact I2c.update_read_answers hlt fun _ => answers_ok _
  case data =>
    obtain ⟨d, hrw, hready⟩ := h hst
    simp only [reduceCtorEq, if_false]
    refine .ite (fun _ => ?_) fun _ => .ite (fun _ => ?_) fun _ => ?_
    · exact ⟨_, (I2c.bufUpdate_eq_ok ..).mpr ⟨hlt, rfl⟩⟩
    · exact I2c.update_read_answers (s := { s with reg := some r.value, expectReg := false }) hlt
        fun _ => answers_ok _
    · exact hready.regData_answers hrw hlt r.value

/-! ### The end of a phase (44_datalink_apdu.md R303) -/

/-- In a data phase of a sound stack the parsers are ready. -/
theorem I2c.MidInv.dataReady (h : s.MidInv p base) : s.DataReady p := by
  intro hst
  obtain ⟨-, hdata, -⟩ := h.hdr
  obtain ⟨d, hd⟩ := Option.isSome_iff_exists.mp (hdata hst).1
  have hdl := h.payload.dl
  have hap := h.payload.ap
  exact ⟨d, hd, hdl.first_iff, hd ▸ hdl.state, hap.first_iff, hap.state, hap.place⟩

theorem I2c.endApdu_answers (hplace : ∀ a, s.ap.aFirst = some a → a < s.xfer.length) (k : Nat)
    (d : Dir) : Answers (s.endApdu k d) := by
  unfold I2c.endApdu
  split
  · next a hopen =>
    have hfirst : s.ap.aFirst = some a := by
      unfold I2c.openApdu at hopen
      split at hopen
      · exact hopen
      · cases hopen
    obtain ⟨ra, hra⟩ := I2c.bufRead_answers (hplace a hfirst)
    exact (answers_bind ..).mpr ⟨ra, hra, (I2c.apduFinish_answers_iff ..).mpr ⟨a, hfirst⟩⟩
  · exact answers_ok _

/-- A frame in progress has its first byte in the buffer and a phase with a direction. -/
theorem I2c.MidInv.endPhase_answers (h : s.MidInv p base) : Answers s.endPhase := by
  unfold I2c.endPhase
  split
  · exact answers_ok _
  next f hf =>
  refine .ite (fun _ => answers_ok _) fun _ => ?_
  have hlt : f < s.xfer.length := (h.payload.dl.place f hf).1
  have hbegun : s.dl.dst ≠ .fctr := fun hst => by
    simp [h.payload.dl.first_iff.mp hst] at hf
  obtain ⟨d, hd, -⟩ := h.dataReady (h.regs hbegun).1
  have hlast : s.lastIdx = .ok (s.xfer.length - 1) := (I2c.lastIdx_eq_ok ..).mpr (by omega)
  obtain ⟨u, hu⟩ := I2c.endApdu_answers h.payload.ap.place (s.xfer.length - 1) d
  have hrest := (I2c.ApOnly.endApdu hu).rest
  have hdl : u.dl.dFirst = some f := by rw [hrest]; exact hf
  obtain ⟨rf, hrf⟩ := I2c.bufRead_answers (s := u) (i := f) (by rw [hrest]; exact hlt)
  simp only [answers_bind, need_eq_ok]
  exact ⟨_, hlast, d, hd, u, hu, rf, hrf, (I2c.dlFinish_answers_iff ..).mpr ⟨f, hdl⟩⟩

end Sys2Proof.Machine

end

/-! ## An I2C step from a sound stack does not fault -/

section

namespace Sys2Proof.Machine

open Sys2Proof

variable {p : I2cParams} {base : List OutEvent} {s t : I2c} {x : I2cSample}

/-- A record is appended, where there is room, and decoded. -/
theorem I2c.DataReady.takeRecord_faultFree (h : s.DataReady p) (tr : Bool) (r : I2cByteRec) :
    FaultFree (s.bufAppend p r >>= fun u =>
      (if tr then u else { u with ackIdx := some (u.xfer.length - 1) }).headerByte p r) := by
  refine (s.bufAppend_faultFree p r).bind fun u hu => ?_
  obtain ⟨-, rfl⟩ := (I2c.bufAppend_eq_ok ..).mp hu
  have hlen : s.xfer.length ≤ (s.xfer ++ [r]).length := by simp
  refine (I2c.DataReady.headerByte_answers ?_ ?_ r).faultFree
  · split <;> exact h.congr rfl rfl rfl rfl hlen
  · split <;> simp

/-- One to eight pending bits in rising samples become a byte, unless the buffer is full
(41_byte_assembler.md R177). -/
theorem I2c.DataReady.completeByte_faultFree (h : s.DataReady p) (hne : s.bitStarts ≠ [])
    (hcnt : s.bitcnt = s.bitStarts.length) (h8 : s.bitcnt ≤ 8)
    (hrise : s.bitStarts.Pairwise (· < ·)) (tr : Bool) (lastEnd : Option Nat) :
    FaultFree (s.completeByte p tr lastEnd) := by
  refine (pendingByte_answers hne hcnt h8 hrise lastEnd).faultFree.bind fun b _ => ?_
  obtain ⟨start, stop, ends⟩ := b
  refine I2c.DataReady.takeRecord_faultFree ?_ tr _
  exact h.congr rfl rfl rfl rfl le_rfl

/-- The byte that a condition cuts, if there is one (41_byte_assembler.md R178). -/
theorem I2c.MidInv.partialAtCondition_faultFree (h : s.MidInv p base) :
    FaultFree (s.partialAtCondition p) := by
  obtain ⟨hlen, hrise, -⟩ := h.bits
  unfold I2c.partialAtCondition
  split
  · next hcut =>
    have hne : s.bitStarts ≠ [] := List.ne_nil_of_length_pos (by
      have hlen : s.bitcnt = s.bitStarts.length := hlen
      omega)
    have hhead : need "bit_starts" s.bitStarts.head? = .ok (s.bitStarts.head hne) :=
      (need_eq_ok ..).mpr (List.head?_eq_some_head hne)
    refine (Answers.faultFree ⟨_, hhead⟩).bind fun b0 _ => .bind ?_ fun _ _ => faultFree_ok _
    refine I2c.DataReady.completeByte_faultFree ?_ ?_ ?_ ?_ ?_ true (some s.n)
    · exact h.dataReady.congr rfl rfl rfl rfl le_rfl
    · exact hne
    · exact hlen
    · exact hcut.2.trans (by omega)
    · exact hrise
  · exact faultFree_ok _

/-- A condition cuts the byte in progress, then ends the phase (40_sampler.md R152, R155). -/
theorem I2c.MidInv.endAtCondition_faultFree (h : s.MidInv p base) (hact : s.active = true)
    (hlt : ∀ b ∈ s.bitStarts, b < s.n) (f : I2c → I2c) :
    FaultFree (s.partialAtCondition p >>= fun u => u.endPhase >>= fun v => .ok (f v)) := by
  refine h.partialAtCondition_faultFree.bind fun u hu => ?_
  obtain ⟨hmid, -⟩ := h.partialAtCondition hact hlt hu
  exact hmid.endPhase_answers.faultFree.bind fun v _ => faultFree_ok _

theorem I2c.MidInv.bit_faultFree (h : s.MidInv p base) (hlt : ∀ b ∈ s.bitStarts, b < s.n)
    (h8 : s.bitcnt < 8) (x : I2cSample) : FaultFree (s.bit p x) := by
  obtain ⟨hlen, hrise, -⟩ := h.bits
  unfold I2c.bit
  dsimp only
  split
  · refine I2c.DataReady.completeByte_faultFree ?_ ?_ ?_ ?_ ?_ false none
    · exact h.dataReady.congr rfl rfl rfl rfl le_rfl
    · simp
    · simpa using hlen
    · exact h8
    · refine List.pairwise_append.mpr ⟨hrise, List.pairwise_singleton _ _, fun a ha b hb => ?_⟩
      rw [List.mem_singleton.mp hb]
      exact hlt a ha
  · exact faultFree_ok _

theorem I2c.AckInv.writeAck_answers (h : s.AckInv) (ack : Bool) : Answers (s.writeAck ack) := by
  obtain ⟨-, -, hlast⟩ := h
  unfold I2c.writeAck
  split
  · next i hi =>
    have := hlast i hi
    exact ⟨_, (I2c.bufUpdate_eq_ok ..).mpr ⟨by omega, rfl⟩⟩
  · exact answers_ok _

/-- An acknowledge bit comes after eight bits, the last of them no later than it
(40_sampler.md R154). -/
theorem I2c.MidInv.ackBit_answers (h : s.MidInv p base) (hack : s.AckInv) (h8 : 8 ≤ s.bitcnt)
    (x : I2cSample) : Answers (s.ackBit x) := by
  obtain ⟨hlen, -, hin⟩ := h.bits
  have h7 : 7 < s.bitStarts.length := by
    have hlen : s.bitcnt = s.bitStarts.length := hlen
    omega
  have hle : s.bitStarts[7] ≤ s.n := Nat.le_of_lt_succ (hin _ (List.getElem_mem h7)).2
  obtain ⟨u, hu⟩ := I2c.AckInv.writeAck_answers
    (s := s.emit (spanOf s.n (s.n + (s.n - s.bitStarts[7]))) (.ack !x.sda)) hack (!x.sda)
  simp only [I2c.ackBit, answers_bind, need_eq_ok, natSub_eq_ok]
  exact ⟨_, List.getElem?_eq_getElem h7, _, ⟨hle, rfl⟩, u, hu, answers_ok _⟩

/-- The end of a step does not fault. -/
theorem I2c.finish_faultFree {r : Run I2c} (h : FaultFree r) (x : I2cSample) (old : I2c) :
    FaultFree (old.finish p x r) :=
  h.bind fun _ _ => faultFree_ok _

theorem I2c.Inv.takeSample_faultFree (h : s.Inv p) (x : I2cSample) :
    FaultFree (s.takeSample p x) := by
  have hmid := h.midInv
  obtain ⟨-, ⟨-, -, hbits⟩, hack, -⟩ := h
  have hlt : ∀ b ∈ s.bitStarts, b < s.n := fun b hb => (hbits b hb).2
  unfold I2c.takeSample
  split
  · exact faultFree_refused _
  rcases i2cHit (ci5 s.first s.prevScl s.prevSda x) with _ | _ | _ | _ | _ <;> unfold I2c.takeCond
  case none => exact faultFree_ok _
  case some.baseline => exact faultFree_ok _
  case some.start =>
    dsimp only
    split
    · next hact => exact I2c.finish_faultFree (hmid.endAtCondition_faultFree hact hlt _) x s
    · exact I2c.finish_faultFree (faultFree_ok _) x s
  case some.stop =>
    dsimp only
    split
    · next hact => exact I2c.finish_faultFree (hmid.endAtCondition_faultFree hact hlt _) x s
    · exact faultFree_ok _
  case some.bit =>
    dsimp only
    split
    · split
      · next h8 => exact I2c.finish_faultFree (hmid.ackBit_answers hack h8 x).faultFree x s
      · next h8 =>
        exact I2c.finish_faultFree (hmid.bit_faultFree hlt (Nat.lt_of_not_le h8) x) x s
    · exact faultFree_ok _

end Sys2Proof.Machine

open Sys2Proof Sys2Proof.Machine

/-- Settles O11: on a sound stack every register that an operation of the sample reads has been written,
so only BufAppend and the checks before the sample can stop the step, and those refuse. -/
theorem soundStateNeverFaults : Obligations.SoundStateNeverFaults := by
  unfold Obligations.SoundStateNeverFaults
  rintro s r ⟨hspi, hi2c⟩
  unfold step
  split
  · simp
  next a rest _ =>
  cases a with
  | spi w =>
    rw [takeInput, spiStep_eq_onSpi]
    exact onSpi_ne_fault (hspi.takeSample_faultFree _) r
  | i2c w =>
    rw [takeInput, i2cStep_eq_onI2c]
    exact onI2c_ne_fault (hi2c.takeSample_faultFree _) r
  | reset => simp [takeInput, exec, execReset]
  | params c =>
    rw [takeInput, takeParams]
    split <;> simp

end

/-! ## Fields and levels put together again (30_encoding.md R90 to R106)

A byte or a word is its neighbouring bit fields joined from the top bit down. -/

section

namespace Sys2Proof

/-- A bit is the field of width one at its place. -/
theorem ofBool_getLsbD {w : Nat} (b : BitVec w) (i : Nat) :
    BitVec.ofBool (b.getLsbD i) = b.extractLsb' i 1 := by
  ext j hj
  obtain rfl : j = 0 := by omega
  simp

/-- The bit of a direction read from a bit is that bit. -/
@[simp] theorem bitOfDir_dirOfBit (b : Bool) : bitOfDir (dirOfBit b) = b := by
  cases b <;> rfl

/-- SPI header byte 0 is its direction bit and its count (30_encoding.md R96). -/
theorem hdr0Byte_fields (b : Byte) : hdr0Byte (hdr0Dir b) (hdr0Count b) = b := by
  simp only [hdr0Byte, hdr0Dir, hdr0Count, bitOfDir_dirOfBit, ofBool_getLsbD,
    BitVec.extractLsb'_append_extractLsb'_eq_extractLsb']
  exact BitVec.extractLsb'_eq_self

/-- The I2C address byte is its address and its direction bit (30_encoding.md R101). -/
theorem addrByte_fields (b : Byte) : addrByte (addrBits b) (addrDir b) = b := by
  simp only [addrByte, addrBits, addrDir, bitOfDir_dirOfBit, ofBool_getLsbD,
    BitVec.extractLsb'_append_extractLsb'_eq_extractLsb']
  exact BitVec.extractLsb'_eq_self

/-- FCTR is its five fields (30_encoding.md R103). -/
theorem fctrByte_fields (b : Byte) :
    fctrByte (b.extractLsb' 7 1) (b.extractLsb' 5 2) (b.extractLsb' 4 1) (b.extractLsb' 2 2)
      (b.extractLsb' 0 2) = b := by
  simp only [fctrByte, BitVec.extractLsb'_append_extractLsb'_eq_extractLsb']
  exact BitVec.extractLsb'_eq_self

/-- PCTR is its three fields (30_encoding.md R105). -/
theorem pctrByte_fields (b : Byte) :
    pctrByte (b.extractLsb' 4 4) (b.extractLsb' 3 1) (b.extractLsb' 0 3) = b := by
  simp only [pctrByte, BitVec.extractLsb'_append_extractLsb'_eq_extractLsb']
  exact BitVec.extractLsb'_eq_self

/-- SCTR is its three fields (30_encoding.md R106). -/
theorem sctrByte_fields (b : Byte) :
    sctrByte (b.extractLsb' 6 2) (b.extractLsb' 2 4) (b.extractLsb' 0 2) = b := by
  simp only [sctrByte, BitVec.extractLsb'_append_extractLsb'_eq_extractLsb']
  exact BitVec.extractLsb'_eq_self

/-- An SPI sample word is its levels (30_encoding.md R90). -/
@[simp] theorem spiSampleWord_spiSampleOfWord (w : BitVec 4) :
    spiSampleWord (spiSampleOfWord w) = w := by
  simp only [spiSampleWord, spiSampleOfWord, ofBool_getLsbD,
    BitVec.extractLsb'_append_extractLsb'_eq_extractLsb']
  exact BitVec.extractLsb'_eq_self

/-- An I2C sample word is its levels (30_encoding.md R91). -/
@[simp] theorem i2cSampleWord_i2cSampleOfWord (w : BitVec 2) :
    i2cSampleWord (i2cSampleOfWord w) = w := by
  simp only [i2cSampleWord, i2cSampleOfWord, ofBool_getLsbD,
    BitVec.extractLsb'_append_extractLsb'_eq_extractLsb']
  exact BitVec.extractLsb'_eq_self

/-- The number of an SPI sample word: SCK counts one, CS eight (30_encoding.md R90). -/
theorem toNat_spiSampleWord (x : SpiSample) : (spiSampleWord x).toNat =
    x.sck.toNat + 2 * x.mosi.toNat + 4 * x.miso.toNat + 8 * x.cs.toNat := by
  rcases x with ⟨_ | _, _ | _, _ | _, _ | _⟩ <;> rfl

/-- The number of an I2C sample word: SCL counts one, SDA two (30_encoding.md R91). -/
theorem toNat_i2cSampleWord (x : I2cSample) :
    (i2cSampleWord x).toNat = x.scl.toNat + 2 * x.sda.toNat := by
  rcases x with ⟨_ | _, _ | _⟩ <;> rfl

/-- An SPI sample is read from a word exactly when it is written as that word. -/
theorem spiSampleOfWord_eq_iff (w : BitVec 4) (x : SpiSample) :
    spiSampleOfWord w = x ↔ w = spiSampleWord x :=
  ⟨fun h => by rw [← h, spiSampleWord_spiSampleOfWord],
    fun h => by rw [h, spiSampleOfWord_spiSampleWord]⟩

/-- An I2C sample is read from a word exactly when it is written as that word. -/
theorem i2cSampleOfWord_eq_iff (w : BitVec 2) (x : I2cSample) :
    i2cSampleOfWord w = x ↔ w = i2cSampleWord x :=
  ⟨fun h => by rw [← h, i2cSampleWord_i2cSampleOfWord],
    fun h => by rw [h, i2cSampleOfWord_i2cSampleWord]⟩

end Sys2Proof

open Sys2Proof

/-- Settles O4: a byte is its neighbouring fields joined, and reading a sample word is the inverse
of writing it. -/
theorem fieldsRebuildTheByteOrSampleWord : Obligations.FieldsRebuildTheByteOrSampleWord := by
  unfold Obligations.FieldsRebuildTheByteOrSampleWord
  refine ⟨fun b => ⟨hdr0Byte_fields b, addrByte_fields b, fctrByte_fields b, pctrByte_fields b,
      sctrByte_fields b⟩,
    fun w => ⟨spiSampleWord_spiSampleOfWord w, fun sck mosi miso cs => ?_⟩,
    fun w => ⟨i2cSampleWord_i2cSampleOfWord w, fun scl sda => ?_⟩⟩
  · rw [spiSampleOfWord_eq_iff, ← BitVec.toNat_inj, toNat_spiSampleWord]
  · rw [i2cSampleOfWord_eq_iff, ← BitVec.toNat_inj, toNat_i2cSampleWord]

end

/-! ## Condition rows in terms of the levels (30_encoding.md R92 to R95) -/

section

namespace Sys2Proof

/-- When an SPI row is hit: the table's conditions in words (30_encoding.md R92, R93). -/
def SpiRow.Holds (first prevAsserted : Bool) (prevSck : Bit) (x : SpiLevels) : SpiRow → Prop
  | .baseline => first = true
  | .csDeassert => first = false ∧ prevAsserted = true ∧ x.asserted = false
  | .csAssert => first = false ∧ prevAsserted = false ∧ x.asserted = true
  | .sckSample => first = false ∧ x.asserted = true ∧ prevSck = false ∧ x.sck = true
  | .sckSampleF => first = false ∧ x.asserted = true ∧ prevSck = true ∧ x.sck = false

/-- A row is hit exactly on its condition. -/
theorem mem_spiHits_iff (first prevAsserted : Bool) (prevSck : Bit) (x : SpiLevels) (r : SpiRow) :
    r ∈ spiHits (cs5 first prevAsserted prevSck x) ↔
      r.Holds first prevAsserted prevSck x := by
  rw [Machine.spiHits_eq]
  cases first <;> cases r <;> simp [SpiRow.Holds, and_assoc]

/-- The I2C condition in terms of the levels: the first that holds (30_encoding.md R94). -/
theorem i2cHit_eq (first : Bool) (prevScl prevSda : Bit) (x : I2cSample) :
    i2cHit (ci5 first prevScl prevSda x) =
      if first = true then some .baseline
      else if x.scl = true ∧ prevSda = true ∧ x.sda = false then some .start
      else if x.scl = true ∧ prevSda = false ∧ x.sda = true then some .stop
      else if prevScl = false ∧ x.scl = true then some .bit
      else none := by
  rcases x with ⟨scl, sda⟩
  revert first prevScl prevSda scl sda
  decide

/-- The I2C operation in terms of the levels and the state that selects (30_encoding.md R94,
R95). -/
theorem i2cSelect_ci5 (first : Bool) (prevScl prevSda : Bit) (active awaitAck : Bool)
    (x : I2cSample) :
    i2cSelect (ci5 first prevScl prevSda x) active awaitAck x =
      if first = true then .i2cBaseline x
      else if x.scl = true ∧ prevSda = true ∧ x.sda = false then
        (if active = true then .i2cRstart x else .i2cStart x)
      else if x.scl = true ∧ prevSda = false ∧ x.sda = true then
        (if active = true then .i2cStop x else .i2cStrayStop x)
      else if prevScl = false ∧ x.scl = true ∧ active = true then
        (if awaitAck = true then .i2cAck x else .i2cBit x)
      else .i2cIdleStep x := by
  rw [i2cSelect, i2cHit_eq]
  by_cases hfirst : first = true
  case pos => simp only [if_pos hfirst]
  by_cases hstart : x.scl = true ∧ prevSda = true ∧ x.sda = false
  case pos => simp only [if_neg hfirst, if_pos hstart]
  by_cases hstop : x.scl = true ∧ prevSda = false ∧ x.sda = true
  case pos => simp only [if_neg hfirst, if_neg hstart, if_pos hstop]
  simp only [if_neg hfirst, if_neg hstart, if_neg hstop]
  by_cases hbit : prevScl = false ∧ x.scl = true
  case pos => cases active <;> simp [hbit]
  case neg => simp [hbit, ← and_assoc]

end Sys2Proof

open Sys2Proof

/-- Settles O3: the masked match of each row is a condition on the levels, and the I2C operation is
selected from the first condition. -/
theorem conditionRowsSelectOperations : Obligations.ConditionRowsSelectOperations := by
  unfold Obligations.ConditionRowsSelectOperations
  refine ⟨fun first prevAsserted prevSck x => ?_, i2cSelect_ci5⟩
  have hit := mem_spiHits_iff first prevAsserted prevSck x
  exact ⟨hit .baseline, hit .csDeassert, hit .csAssert, hit .sckSample, hit .sckSampleF⟩

end

/-! ## Table words of eight bits (30_encoding.md R92, R93; notes/assumptions/10.md) -/

section

namespace Sys2Proof

/-- A table word of eight bits has no bits above its first byte. -/
theorem wordByte_above_eight {k : Nat} (w : Nat) (hk : 1 ≤ k) : wordByte (w % 2 ^ 8) k = 0#8 := by
  have hlt : w % 2 ^ 8 < 2 ^ (8 * k) :=
    (Nat.mod_lt w (by norm_num)).trans_le (Nat.pow_le_pow_right (by norm_num) (by omega))
  rw [wordByte, Nat.div_eq_of_lt hlt]

/-- The bytes of a table word of eight bits: the word, then a zero selector. -/
theorem tableBytes_eight (w : Nat) :
    ∃ rest, tableBytes 8 w = BitVec.ofNat 8 w :: 0#8 :: rest := by
  have hword : wordByte (w % 2 ^ 8) 0 = BitVec.ofNat 8 w := by
    simp [wordByte, ← BitVec.toNat_inj]
  have hrange : List.range maxWordBytes = 0 :: 1 :: List.range' 2 20 := rfl
  rw [tableBytes, hrange, List.map_cons, List.map_cons, hword, wordByte_above_eight w le_rfl]
  exact ⟨_, rfl⟩

/-- A table word of eight bits is read as a CS5 row: the selector byte after it is zero
(notes/assumptions/10.md). -/
theorem decodeTableWord_eight_eq_some (w : Nat) (i : Instr) :
    decodeTableWord 8 w = some i ↔ decodeCs5 (BitVec.ofNat 8 w) = .ok i := by
  obtain ⟨rest, hbytes⟩ := tableBytes_eight w
  have hsel : selOfByte 0#8 = .ok .spiCond := rfl
  rw [decodeTableWord, hbytes, decode, hsel]
  cases h : decodeCs5 (BitVec.ofNat 8 w) <;> simp [decodeRow, h, bind, Except.bind]

/-- The low bits of a table word are its condition word (30_encoding.md R92). -/
theorem extractLsb'_eq_cs5 (b : Byte) (mosi miso : Bit) :
    b.extractLsb' 0 5 = cs5 (b.getLsbD 4) (b.getLsbD 3) (b.getLsbD 1)
      ⟨b.getLsbD 0, mosi, miso, b.getLsbD 2⟩ := by
  simp only [cs5, ofBool_getLsbD, BitVec.extractLsb'_append_extractLsb'_eq_extractLsb']

/-- An SPI row whose condition holds is a well-formed operation on the levels. -/
theorem SpiRow.Holds.wf {first prevAsserted : Bool} {prevSck : Bit} {x : SpiLevels} {r : SpiRow}
    (h : r.Holds first prevAsserted prevSck x) : (r.instr x).wf = true := by
  cases r <;> simp_all [SpiRow.Holds, SpiRow.instr, Instr.wf]

/-- What a CS5 word can read as: SPI_IDLE_STEP, or a row whose sample the row admits
(30_encoding.md R92, R93). -/
theorem decodeCs5_cases {b : Byte} {i : Instr} (h : decodeCs5 b = .ok i) :
    (∃ x, i = .spiIdleStep x) ∨ ∃ (x : SpiLevels) (r : SpiRow), i = r.instr x ∧ i.wf = true := by
  unfold decodeCs5 at h
  split at h
  · cases h
  dsimp only at h
  split at h
  · next r hlast =>
    cases h
    have hmem := List.mem_of_getLast? hlast
    rw [extractLsb'_eq_cs5 b (b.getLsbD 5) (b.getLsbD 6), mem_spiHits_iff] at hmem
    exact .inr ⟨_, r, rfl, hmem.wf⟩
  · cases h
    exact .inl ⟨_, rfl⟩

end Sys2Proof

open Sys2Proof

/-- Settles O2: a table word is read through its condition word, and the other words through the
selector byte that follows them. -/
theorem wordsOfTheSpecDecode : Obligations.WordsOfTheSpecDecode := by
  unfold Obligations.WordsOfTheSpecDecode
  simp only [decodeTableWord_eight_eq_some]
  exact ⟨rfl, rfl, rfl, rfl, rfl, rfl, rfl, rfl, rfl, rfl, rfl⟩

end

/-! ## The step that a placed word runs (40_sampler.md R134, R136; notes/assumptions/11.md) -/

section

namespace Sys2Proof.Machine

open Sys2Proof

variable {s : State} {x : SpiLevels} {r : SpiRow}

theorem execAll_singleton (i : Instr) (s : State) : execAll [i] s = exec i s := by
  rw [execAll]
  cases exec i s <;> rfl

/-- An SPI step that hits no row is SPI_IDLE_STEP (40_sampler.md R136). -/
theorem spiStep_of_rowsFor_nil {y : SpiSample} (hlane : hasDataLane s.cfg.spi = true)
    (hlong : streamTooLong s.cfg.spi.sampleW s.spi.n = false) (hy : levelsOf s.cfg.spi y = x)
    (hrows : s.spi.rowsFor s.cfg.spi x = []) : spiStep y s = exec (.spiIdleStep x) s := by
  subst hy
  simp [spiStep, hlane, hlong, spiOps_eq, hrows, execAll_singleton]

/-- An SPI step that hits one row runs it, then the epilogue and the event port
(40_sampler.md R134). -/
theorem spiStep_of_rowsFor_singleton {y : SpiSample} (hlane : hasDataLane s.cfg.spi = true)
    (hlong : streamTooLong s.cfg.spi.sampleW s.spi.n = false) (hy : levelsOf s.cfg.spi y = x)
    (hrows : s.spi.rowsFor s.cfg.spi x = [r]) :
    spiStep y s = thenNext (exec (r.instr x) s) fun t =>
      { t with spi := (t.spi.epilogue x).emitted s.cfg.spi s.spi } := by
  subst hy
  simp [spiStep, hlane, hlong, spiOps_eq, hrows, execAll_singleton, SpiRow.instr_ne_idle]

/-- The chip-select level placed for a flag reads back as the flag (00_scope.md R13). -/
theorem asserted_csFor {p : SpiParams} (hcs : p.haveCs = true) (a : Bool) :
    asserted p (csFor p a) = a := by
  cases a <;> simp [asserted, csFor, hcs]

/-- Placed levels read back from the word of their sample (30_encoding.md R90, R92). -/
theorem levelsOf_placed {p : SpiParams} (hcs : p.haveCs = true) (x : SpiLevels) :
    levelsOf p (spiSampleOfWord (spiSampleWord ⟨x.sck, x.mosi, x.miso, csFor p x.asserted⟩)) =
      x := by
  rw [spiSampleOfWord_spiSampleWord, levelsOf, asserted_csFor hcs]

/-- The next step takes the levels placed. -/
theorem step_offerSpi (s : State) (e : SampleEdge) (first prevAsserted : Bool) (prevSck : Bit)
    (x : SpiLevels) :
    ∃ y, levelsOf (s.offerSpi e first prevAsserted prevSck x).cfg.spi y = x
      ∧ step (s.offerSpi e first prevAsserted prevSck x) =
        spiStep y { s.offerSpi e first prevAsserted prevSck x with port := s.port } :=
  ⟨_, levelsOf_placed rfl x, rfl⟩

/-- The levels placed for an SPI row hit that row alone (notes/assumptions/11.md). -/
theorem arrange_spiRow (s : State) (hwf : (r.instr x).wf = true) :
    ∃ e first prevAsserted prevSck,
      s.arrange (r.instr x) = s.offerSpi e first prevAsserted prevSck x
        ∧ (s.offerSpi e first prevAsserted prevSck x).spi.rowsFor
            (s.offerSpi e first prevAsserted prevSck x).cfg.spi x = [r] := by
  cases r <;> refine ⟨_, _, _, _, rfl, ?_⟩ <;>
    simp_all [Spi.rowsFor, spiHits_eq, State.offerSpi, SpiRow.instr, SpiRow.enabled, Instr.wf]

/-- The levels placed for SPI_IDLE_STEP, the same before and after, hit no row. -/
theorem rowsFor_offerSpi_unchanged (s : State) (e : SampleEdge) (x : SpiLevels) :
    (s.offerSpi e false x.asserted x.sck x).spi.rowsFor
      (s.offerSpi e false x.asserted x.sck x).cfg.spi x = [] := by
  cases ha : x.asserted <;> cases hk : x.sck <;>
    simp [Spi.rowsFor, spiHits_eq, State.offerSpi, ha, hk]

/-- A placed SPI row is run by the next step, then the epilogue and the event port. -/
theorem step_arrange_spiRow (hlane : hasDataLane s.cfg.spi = true) (hw : s.cfg.spi.sampleW = none)
    (hwf : (r.instr x).wf = true) :
    step (s.arrange (r.instr x)) =
      thenNext (exec (r.instr x) { s.arrange (r.instr x) with port := s.port }) fun t =>
        { t with spi := (t.spi.epilogue x).emitted s.cfg.spi (s.arrange (r.instr x)).spi } := by
  obtain ⟨e, first, prevAsserted, prevSck, harrange, hrows⟩ := arrange_spiRow s hwf
  obtain ⟨y, hy, hstep⟩ := step_offerSpi s e first prevAsserted prevSck x
  have hlong : streamTooLong s.cfg.spi.sampleW s.spi.n = false := by rw [hw, streamTooLong]
  rw [harrange, hstep]
  exact spiStep_of_rowsFor_singleton hlane hlong hy hrows

/-- A placed SPI_IDLE_STEP is the next step. -/
theorem step_arrange_spiIdleStep (hlane : hasDataLane s.cfg.spi = true)
    (hw : s.cfg.spi.sampleW = none) :
    step (s.arrange (.spiIdleStep x)) =
      exec (.spiIdleStep x) { s.arrange (.spiIdleStep x) with port := s.port } := by
  obtain ⟨y, hy, hstep⟩ := step_offerSpi s s.cfg.spi.sampleEdge false x.asserted x.sck x
  have hlong : streamTooLong s.cfg.spi.sampleW s.spi.n = false := by rw [hw, streamTooLong]
  rw [State.arrange, hstep]
  exact spiStep_of_rowsFor_nil hlane hlong hy (rowsFor_offerSpi_unchanged ..)

end Sys2Proof.Machine

open Sys2Proof Sys2Proof.Machine

/-- Settles O8: a table word reads as SPI_IDLE_STEP or as a row on levels that the row admits, and
the levels placed for it hit no row or that row alone. -/
theorem stepRunsThePlacedWord : Obligations.StepRunsThePlacedWord := by
  unfold Obligations.StepRunsThePlacedWord
  intro s w i _ hdata hw hdecode
  have hlane : hasDataLane s.cfg.spi = true := by simpa [hasDataLane] using hdata
  have hplaced : s.withFetchWord 8 w = s.arrange i := by rw [State.withFetchWord, hdecode]
  rw [decodeTableWord_eight_eq_some] at hdecode
  dsimp only
  rw [hplaced]
  rcases decodeCs5_cases hdecode with ⟨x, rfl⟩ | ⟨x, r, rfl, hwf⟩
  · exact ⟨rfl, x, .inl ⟨rfl, step_arrange_spiIdleStep hlane hw⟩⟩
  · exact ⟨hwf, x, .inr ⟨by cases r <;> simp [SpiRow.instr], step_arrange_spiRow hlane hw hwf⟩⟩

end

/-! ## The rows of the samplers, written out (40_sampler.md R130 to R133, R150 to R157)

Each row is an operation of one stack; what it leaves of that stack is an equation. -/

section

namespace Sys2Proof.Machine

open Sys2Proof

/-- An SPI operation that answers goes on with the stack it answers. -/
theorem onSpi_of_ok {s : State} {f : SpiParams → Spi → Run Spi} {u : Spi}
    (h : f s.cfg.spi s.spi = .ok u) : onSpi s f = spiNext s u := by
  rw [onSpi, h, spiNext]

/-- An I2C operation that answers goes on with the stack it answers. -/
theorem onI2c_of_ok {s : State} {f : I2cParams → I2c → Run I2c} {u : I2c}
    (h : f s.cfg.i2c s.i2c = .ok u) : onI2c s f = i2cNext s u := by
  rw [onI2c, h, i2cNext]

/-- Operations that agree on the stack at hand agree on the machine. -/
theorem onSpi_congr {s : State} {f g : SpiParams → Spi → Run Spi}
    (h : f s.cfg.spi s.spi = g s.cfg.spi s.spi) : onSpi s f = onSpi s g := by
  rw [onSpi, h, onSpi]

/-- An SPI operation followed by a change of its stack. -/
theorem onSpi_bind_ok (s : State) (f : SpiParams → Spi → Run Spi) (g : Spi → Spi) :
    (onSpi s fun p t => f p t >>= fun u => .ok (g u)) =
      thenNext (onSpi s f) fun u => { u with spi := g u.spi } := by
  rcases hf : f s.cfg.spi s.spi with (e | e) | u <;>
    simp [onSpi, thenNext, hf, bind, Except.bind]

/-! ### The SPI rows -/

theorem exec_spiBaseline (x : SpiLevels) (s : State) :
    exec (.spiBaseline x) s = onSpi s fun _ t => .ok (t.baseline x) := rfl

theorem exec_spiCsDeassert (x : SpiLevels) (s : State) :
    exec (.spiCsDeassert x) s = onSpi s fun p t => t.csDeassert p := rfl

theorem exec_completeSpiByte (tr : Bool) (s : State) :
    exec (.completeSpiByte tr) s =
      onSpi s fun p t => t.completeByte p tr (if tr then some t.n else none) := rfl

theorem Spi.baseline_of_asserted (t : Spi) {x : SpiLevels} (h : x.asserted = true) :
    t.baseline x = { t.csAssert with prevSck := x.sck, prevAsserted := true, first := false } := by
  simp [Spi.baseline, h, Spi.csAssert, Spi.emit, Spi.openTransfer]

theorem Spi.baseline_of_not_asserted (t : Spi) {x : SpiLevels} (h : x.asserted = false) :
    t.baseline x = { t with prevSck := x.sck, prevAsserted := false, first := false } := by
  simp [Spi.baseline, h]

/-- What follows the partial byte at a chip-select deassertion: the bus goes idle, the pass runs and the
transfer closes (40_sampler.md R131). -/
def Spi.closeTransfer (p : SpiParams) (t : Spi) : Run Spi :=
  (t.emit (pointSpan t.n) (.bus .idle)).aggregate p >>= fun u => .ok { u with active := false }

theorem Spi.csDeassert_of_not_active (p : SpiParams) {t : Spi} (h : t.active = false) :
    t.csDeassert p = .ok t := by
  simp [Spi.csDeassert, h]

theorem Spi.csDeassert_of_cutByte {p : SpiParams} {t u : Spi} (h : t.active = true)
    (hu : t.cutByte p = .ok u) : t.csDeassert p = u.closeTransfer p := by
  rw [Spi.csDeassert, if_pos h, hu]
  rfl

/-- With no bit pending there is no partial byte. -/
theorem Spi.cutByte_of_no_bits (p : SpiParams) {t : Spi} (h : t.bitcnt = 0) :
    t.cutByte p = .ok t := by
  simp [Spi.cutByte, h]

/-- With bits pending the byte is completed, cut at this sample (41_byte_assembler.md R175). -/
theorem Spi.cutByte_of_bits (p : SpiParams) {t : Spi} {b : Nat} {bs : List Nat}
    (h : 0 < t.bitcnt) (hb : t.bitStarts = b :: bs) :
    t.cutByte p =
      (t.diag .warnCsMidByte (spanOf b t.n) t.bitcnt).completeByte p true (some t.n) := by
  simp [Spi.cutByte, h, hb, need, bind, Except.bind]

/-- The pass of a transfer with no byte and no open frame reports nothing (45_aggregator.md R340). -/
theorem Spi.aggregate_of_empty (p : SpiParams) {t : Spi} (hx : t.xfer = []) (hf : t.fst = .idle) :
    t.aggregate p = .ok { t with closed := [] } := by
  simp [Spi.aggregate, Spi.summaries, Spi.frameCarry, evenWidth, hx, hf, bind, Except.bind]

theorem Spi.closeTransfer_of_empty (p : SpiParams) {t : Spi} (hx : t.xfer = [])
    (hf : t.fst = .idle) : t.closeTransfer p = .ok { t with
      active := false, closed := [], out := t.out ++ [⟨pointSpan t.n, .bus .idle⟩] } := by
  rw [Spi.closeTransfer,
    Spi.aggregate_of_empty p (t := t.emit (pointSpan t.n) (.bus .idle)) hx hf]
  rfl

/-- The end of a transfer, on the machine: the idle bus, the pass, the closing. -/
theorem onSpi_closeTransfer (s : State) :
    (onSpi s fun p t => t.closeTransfer p) =
      thenNext (exec .aggregateSpi { s with spi := s.spi.emit (pointSpan s.spi.n) (.bus .idle) })
        fun u => { u with spi := { u.spi with active := false } } :=
  onSpi_bind_ok s (fun p t => (t.emit (pointSpan t.n) (.bus .idle)).aggregate p) _

theorem Spi.sckSample_of_bits (p : SpiParams) (x : SpiLevels) {t : Spi} (h : t.bitcnt ≠ 7) :
    t.sckSample p x = .ok (t.shiftBits p x) := by
  simp [Spi.sckSample, h]

theorem Spi.sckSample_of_eighth (p : SpiParams) (x : SpiLevels) {t : Spi} (h : t.bitcnt = 7) :
    t.sckSample p x = (t.shiftBits p x).completeByte p false none := by
  simp [Spi.sckSample, h]

/-- The shifted lanes, each bit the new lowest one (20_memory.md R76). -/
theorem Spi.shiftBits_eq (p : SpiParams) (x : SpiLevels) (t : Spi) : t.shiftBits p x = { t with
    accMosi := if p.haveMosi then t.accMosi.extractLsb' 0 7 ++ BitVec.ofBool x.mosi else t.accMosi
    accMiso := if p.haveMiso then t.accMiso.extractLsb' 0 7 ++ BitVec.ofBool x.miso else t.accMiso
    bitStarts := t.bitStarts ++ [t.n]
    bitcnt := t.bitcnt + 1 } := by
  simp only [Spi.shiftBits, shiftIn_eq]

/-- Both edges sample alike (40_sampler.md R133). -/
theorem exec_sampling {i : Instr} {x : SpiLevels} (h : i = .spiSckSample x ∨ i = .spiSckSampleF x)
    (s : State) : exec i s = onSpi s fun p t => t.sckSample p x := by
  rcases h with rfl | rfl <;> rfl

/-! ### The I2C rows -/

theorem exec_partialAtCondition (s : State) :
    exec .partialAtCondition s = onI2c s fun p t => t.partialAtCondition p := rfl

theorem exec_endPhase (s : State) : exec .endPhase s = onI2c s fun _ t => t.endPhase := rfl

theorem exec_i2cStart (x : I2cSample) (s : State) :
    exec (.i2cStart x) s = onI2c s fun _ t => .ok t.startCond := rfl

theorem exec_i2cRstart (x : I2cSample) (s : State) :
    exec (.i2cRstart x) s = onI2c s fun p t => t.rstartCond p := rfl

theorem exec_i2cStop (x : I2cSample) (s : State) :
    exec (.i2cStop x) s = onI2c s fun p t => t.stopCond p := rfl

theorem exec_i2cBit (x : I2cSample) (s : State) :
    exec (.i2cBit x) s = onI2c s fun p t => t.bit p x := rfl

theorem exec_i2cAck (x : I2cSample) (s : State) :
    exec (.i2cAck x) s = onI2c s fun _ t => t.ackBit x := rfl

/-- Fewer than two bits, or a whole byte, are no partial byte: the bits go (41_byte_assembler.md
R178). -/
theorem I2c.partialAtCondition_of_no_partial (p : I2cParams) {t : I2c}
    (h : t.bitcnt ≤ 1 ∨ t.bitcnt = 8) : t.partialAtCondition p = .ok t.clearBits :=
  if_neg (by omega)

/-- A phase with no datalink frame begun ends without effect (44_datalink_apdu.md R303). -/
theorem I2c.endPhase_of_no_frame {t : I2c} (h : t.dl.dFirst = none) : t.endPhase = .ok t :=
  (I2c.endPhase_eq_ok ..).mpr (.inl ⟨.inl h, rfl⟩)

/-- The end of a phase at a condition: its partial byte, then its frame (40_sampler.md R152, R155). -/
def I2c.endAtCondition (p : I2cParams) (t : I2c) : Run I2c :=
  t.partialAtCondition p >>= I2c.endPhase

theorem I2c.endAtCondition_of_nothing_cut (p : I2cParams) {t : I2c}
    (hb : t.bitcnt ≤ 1 ∨ t.bitcnt = 8) (hf : t.dl.dFirst = none) :
    t.endAtCondition p = .ok t.clearBits := by
  rw [I2c.endAtCondition, I2c.partialAtCondition_of_no_partial p hb]
  exact I2c.endPhase_of_no_frame hf

theorem I2c.endAtCondition_n {p : I2cParams} {t v : I2c} (h : t.endAtCondition p = .ok v) :
    v.n = t.n := by
  obtain ⟨u, hu, hv⟩ := (run_bind_eq_ok ..).mp h
  exact (I2c.DlOnly.endPhase hv).keeps.n.trans (I2c.KeepsTransfer.partialAtCondition hu).n

/-- The two operations at a condition, one after the other on the machine, are the end of the phase. -/
theorem endAtCondition_of_exec {s a b : State} (ha : exec .partialAtCondition s = .next a)
    (hb : exec .endPhase a = .next b) :
    s.i2c.endAtCondition s.cfg.i2c = .ok b.i2c ∧ b = { s with i2c := b.i2c } := by
  rw [exec_partialAtCondition, onI2c_eq_next] at ha
  obtain ⟨u, hu, rfl⟩ := ha
  rw [exec_endPhase, onI2c_eq_next] at hb
  obtain ⟨v, hv, rfl⟩ := hb
  exact ⟨(run_bind_eq_ok ..).mpr ⟨u, hu, hv⟩, rfl⟩

theorem I2c.rstartCond_of_endAtCondition {p : I2cParams} {t v : I2c}
    (h : t.endAtCondition p = .ok v) :
    t.rstartCond p = .ok (v.beginPhase.emit (pointSpan t.n) (.cond .rstart)) := by
  rw [← I2c.endAtCondition_n h]
  obtain ⟨u, hu, hv⟩ := (run_bind_eq_ok ..).mp h
  simp [I2c.rstartCond, hu, hv, bind, Except.bind]

/-- The events of a STOP condition before the pass (40_sampler.md R155). -/
def stopEvents (n : Nat) : List OutEvent :=
  [⟨pointSpan n, .cond .stop⟩, ⟨pointSpan n, .bus .idle⟩]

theorem I2c.stopCond_of_endAtCondition {p : I2cParams} {t v : I2c}
    (h : t.endAtCondition p = .ok v) :
    t.stopCond p = .ok { (v.emitAll (stopEvents t.n)).aggregate p with active := false } := by
  rw [← I2c.endAtCondition_n h]
  obtain ⟨u, hu, hv⟩ := (run_bind_eq_ok ..).mp h
  simp [I2c.stopCond, hu, hv, bind, Except.bind, I2c.emit, I2c.emitAll, stopEvents]

/-- The pass of a transfer with no byte reports nothing (45_aggregator.md R350). -/
theorem I2c.aggregate_of_empty (p : I2cParams) {t : I2c} (h : t.xfer = []) :
    t.aggregate p = { t with dlDone := [], apduDone := [] } := by
  simp [I2c.aggregate, I2c.summaries, evenWidth, h]

/-- One data bit shifted in (40_sampler.md R153). -/
def I2c.shiftBit (x : I2cSample) (t : I2c) : I2c :=
  { t with
    acc := t.acc.extractLsb' 0 7 ++ BitVec.ofBool x.sda
    bitStarts := t.bitStarts ++ [t.n]
    bitcnt := t.bitcnt + 1 }

theorem I2c.bit_eq (p : I2cParams) (x : I2cSample) (t : I2c) :
    t.bit p x = if t.bitcnt = 7 then (t.shiftBit x).completeByte p false none
      else .ok (t.shiftBit x) := by
  simp [I2c.bit, I2c.shiftBit, shiftIn_eq]

/-- The records with the acknowledge flag written to the one that awaits it, where one does. -/
def recsWithAck (ack : Bool) (idx : Option Nat) (recs : List I2cByteRec) : List I2cByteRec :=
  match idx with
  | some k => recs.modify k fun r => { r with ack := some ack }
  | none => recs

theorem I2c.writeAck_eq (ack : Bool) {t : I2c} (h : ∀ k, t.ackIdx = some k → k < t.xfer.length) :
    t.writeAck ack = .ok { t with xfer := recsWithAck ack t.ackIdx t.xfer } := by
  unfold I2c.writeAck
  split
  · next k hk => exact (I2c.bufUpdate_eq_ok ..).mpr ⟨h k hk, by simp only [recsWithAck, hk]⟩
  · next hk =>
    have hrecs : recsWithAck ack t.ackIdx t.xfer = t.xfer := by rw [hk, recsWithAck]
    rw [hrecs]

/-- The acknowledge bit is reported with the width since the last data bit, recorded and cleared
(40_sampler.md R154). -/
theorem I2c.ackBit_eq (x : I2cSample) {t : I2c} {b : Nat} (hb : t.bitStarts[7]? = some b)
    (hle : b ≤ t.n) (hk : ∀ k, t.ackIdx = some k → k < t.xfer.length) :
    t.ackBit x = .ok { t with
      bitcnt := 0, acc := 0#8, bitStarts := [], ackIdx := none,
      xfer := recsWithAck (!x.sda) t.ackIdx t.xfer,
      out := t.out ++ [evAt t.n (t.n + (t.n - b)) (.ack !x.sda)] } := by
  have hack := I2c.writeAck_eq (!x.sda) (t := t.emit (spanOf t.n (t.n + (t.n - b))) (.ack !x.sda)) hk
  simp only [I2c.ackBit, hb, need, natSub, if_pos hle, bind, Except.bind, hack]
  simp [I2c.clearBits, evAt, spanOf, Nat.cast_sub hle, I2c.emit]

end Sys2Proof.Machine

open Sys2Proof Sys2Proof.Machine

/-- Settles O25: both rows are OpenTransfer and its event, under the levels the baseline takes. -/
theorem baselineAndAssertOpenATransfer : Obligations.BaselineAndAssertOpenATransfer := by
  unfold Obligations.BaselineAndAssertOpenATransfer
  intro s x
  simp only [exec_spiBaseline]
  refine ⟨rfl, fun h => onSpi_of_ok ?_, fun h => onSpi_of_ok ?_⟩
  · rw [Spi.baseline_of_asserted _ h]
    rfl
  · rw [Spi.baseline_of_not_asserted _ h]

/-- Settles O26: the partial byte, if there is one, and then the end of the transfer. -/
theorem deassertClosesTheTransfer : Obligations.DeassertClosesTheTransfer := by
  unfold Obligations.DeassertClosesTheTransfer
  intro s x
  simp only [exec_spiCsDeassert]
  refine ⟨fun h => onSpi_of_ok (Spi.csDeassert_of_not_active _ h), fun h h0 => ?_,
    fun h h0 hx hf => ?_, fun b bs u h hpos hb hu => ?_⟩
  · rw [onSpi_congr (Spi.csDeassert_of_cutByte h (Spi.cutByte_of_no_bits _ h0))]
    exact onSpi_closeTransfer s
  · refine onSpi_of_ok ?_
    rw [Spi.csDeassert_of_cutByte h (Spi.cutByte_of_no_bits _ h0)]
    exact Spi.closeTransfer_of_empty _ hx hf
  · rw [exec_completeSpiByte, onSpi_eq_next] at hu
    obtain ⟨v, hv, rfl⟩ := hu
    refine Eq.trans ?_ (onSpi_closeTransfer { s with spi := v })
    rw [onSpi, Spi.csDeassert_of_cutByte h ((Spi.cutByte_of_bits _ hpos hb).trans hv), onSpi]

/-- Settles O27: both edges shift, and the eighth bit completes the byte. -/
theorem sckSampleShiftsOneBit : Obligations.SckSampleShiftsOneBit := by
  unfold Obligations.SckSampleShiftsOneBit
  intro s x i hi
  simp only [← Spi.shiftBits_eq, exec_sampling hi]
  refine ⟨fun h => onSpi_of_ok (Spi.sckSample_of_bits _ _ h), fun h => ?_⟩
  rw [onSpi, Spi.sckSample_of_eighth _ _ h]
  rfl

/-- Settles O28: these rows are the epilogue of their stack. -/
theorem idleRowsDoTheEpilogueAlone : Obligations.IdleRowsDoTheEpilogueAlone := by
  unfold Obligations.IdleRowsDoTheEpilogueAlone
  exact fun s x y => ⟨rfl, rfl, rfl, rfl⟩

/-- Settles O29: the open transfer, its first phase and two events. -/
theorem startOpensATransferAndAPhase : Obligations.StartOpensATransferAndAPhase := by
  unfold Obligations.StartOpensATransferAndAPhase
  intro s x
  rw [exec_i2cStart]
  refine onI2c_of_ok (congrArg _ ?_)
  simp [I2c.startCond, I2c.beginPhase, I2c.emit, pointSpan, evAt]

/-- Settles O30: the end of the phase, then BeginPhase; with nothing cut the end only clears bits that
BeginPhase clears too. -/
theorem rstartEndsThePhaseAndBeginsOne : Obligations.RstartEndsThePhaseAndBeginsOne := by
  unfold Obligations.RstartEndsThePhaseAndBeginsOne
  intro s x
  simp only [exec_i2cRstart]
  refine ⟨fun a b ha hb => ?_, fun hbits hframe => ?_⟩
  · obtain ⟨hend, hb'⟩ := endAtCondition_of_exec ha hb
    rw [onI2c_of_ok (I2c.rstartCond_of_endAtCondition hend), hb']
    rfl
  · have hend := I2c.endAtCondition_of_nothing_cut s.cfg.i2c hbits hframe
    rw [onI2c_of_ok (I2c.rstartCond_of_endAtCondition hend)]
    rfl

/-- Settles O31: the end of the phase, two events, the pass, and the transfer closes. -/
theorem stopEndsTheTransfer : Obligations.StopEndsTheTransfer := by
  unfold Obligations.StopEndsTheTransfer
  intro s x
  simp only [exec_i2cStop]
  refine ⟨fun a b ha hb => ?_, fun hbits hframe hx => ?_⟩
  · obtain ⟨hend, hb'⟩ := endAtCondition_of_exec ha hb
    rw [onI2c_of_ok (I2c.stopCond_of_endAtCondition hend), hb']
    rfl
  · have hend := I2c.endAtCondition_of_nothing_cut s.cfg.i2c hbits hframe
    have hempty : (s.i2c.clearBits.emitAll (stopEvents s.i2c.n)).xfer = [] := hx
    rw [onI2c_of_ok (I2c.stopCond_of_endAtCondition hend), I2c.aggregate_of_empty _ hempty]
    rfl

/-- Settles O32: the eighth bit completes the byte; the ninth is reported, recorded and cleared. -/
theorem dataBitAndAcknowledgeBit : Obligations.DataBitAndAcknowledgeBit := by
  unfold Obligations.DataBitAndAcknowledgeBit
  intro s x b
  simp only [exec_i2cBit, exec_i2cAck]
  refine ⟨fun h => onI2c_of_ok ?_, fun h => ?_, fun hb hle hk => onI2c_of_ok ?_⟩
  · rw [I2c.bit_eq, if_neg h, I2c.shiftBit]
  · rw [onI2c, I2c.bit_eq, if_pos h]
    rfl
  · simp only [beq_false]
    exact I2c.ackBit_eq x hb hle hk

end

/-! ## The operations of a step, written out (40_sampler.md R134, R158)

What a sample selects is a list of rows of condition words; in terms of the levels each row is an `if`. -/

section

namespace Sys2Proof.Machine

open Sys2Proof

/-- The bound of the sample index in hand says that the stream is not too long (60_exceptions.md
R377). -/
theorem streamTooLong_eq_false {sampleW : Option Nat} {n : Nat}
    (h : ∀ w, sampleW = some w → n + 1 < 2 ^ w) : streamTooLong sampleW n = false := by
  cases sampleW with
  | none => rfl
  | some w => simpa [streamTooLong] using h w rfl

/-- The meaning of the chip-select level, by polarity (00_scope.md R13). -/
theorem asserted_eq (p : SpiParams) (cs : Bit) : asserted p cs =
    (!p.haveCs || (match p.csPolarity with | .activeLow => !cs | .activeHigh => cs)) := by
  cases hp : p.csPolarity <;> simp [asserted, assertedLevel, hp]

/-- The event port, an event at a time (10_state.md R66). -/
theorem portEvents_eq (bound : Bool) (n : Nat) (before out : List OutEvent) :
    portEvents bound n before out = if bound = true then
      before ++ (out.drop before.length).map fun e => evAt (min e.span.ss n) e.span.es e.event
    else out := rfl

/-! ### SPI -/

/-- An SPI step is its rows in order and the end of the step, also where there is no row
(40_sampler.md R134, R136). -/
theorem spiStep_eq_thenNext {y : SpiSample} {x : SpiLevels} {s : State}
    (hlane : hasDataLane s.cfg.spi = true)
    (hlong : streamTooLong s.cfg.spi.sampleW s.spi.n = false) (hy : levelsOf s.cfg.spi y = x) :
    spiStep y s =
      thenNext (execAll ((s.spi.rowsFor s.cfg.spi x).map (SpiRow.instr x)) s) fun t =>
        { t with spi := (t.spi.epilogue x).emitted s.cfg.spi s.spi } := by
  subst hy
  rw [execAll_spiRows, thenNext_onSpi, spiStep_eq_onSpi]
  simp [onSpi, Spi.takeSample, hlane, hlong]

/-- A row hit on a condition is there when the condition holds and the configuration has the row. -/
theorem filter_enabled_row (p : SpiParams) (c : Bool) (r : SpiRow) :
    (if c = true then [r] else []).filter (SpiRow.enabled p) =
      if r.enabled p = true ∧ c = true then [r] else [] := by
  cases c <;> simp [List.filter_singleton]

/-- The rows of a sample in terms of its levels (30_encoding.md R92, R93). -/
theorem Spi.rowsFor_eq (p : SpiParams) (x : SpiLevels) (t : Spi) :
    t.rowsFor p x =
      if t.first = true then [.baseline]
      else
        (if p.haveCs = true ∧ t.prevAsserted = true ∧ x.asserted = false then [.csDeassert] else [])
          ++ (if p.haveCs = true ∧ t.prevAsserted = false ∧ x.asserted = true then [.csAssert]
              else [])
          ++ (match p.sampleEdge with
            | .rising =>
              if x.asserted = true ∧ t.prevSck = false ∧ x.sck = true then [.sckSample] else []
            | .falling =>
              if x.asserted = true ∧ t.prevSck = true ∧ x.sck = false then [.sckSampleF]
              else []) := by
  rw [Spi.rowsFor, spiHits_eq]
  cases t.first
  case true => rfl
  simp only [Bool.false_eq_true, if_false, List.filter_append, filter_enabled_row]
  cases he : p.sampleEdge <;> simp [SpiRow.enabled, he, and_assoc]

/-- The operations of a sample in terms of its levels. -/
theorem Spi.rowsFor_map_instr (p : SpiParams) (x : SpiLevels) (t : Spi) :
    (t.rowsFor p x).map (SpiRow.instr x) =
      if t.first = true then [.spiBaseline x]
      else
        (if p.haveCs = true ∧ t.prevAsserted = true ∧ x.asserted = false then [.spiCsDeassert x]
          else [])
          ++ (if p.haveCs = true ∧ t.prevAsserted = false ∧ x.asserted = true then [.spiCsAssert x]
              else [])
          ++ (match p.sampleEdge with
            | .rising =>
              if x.asserted = true ∧ t.prevSck = false ∧ x.sck = true then [.spiSckSample x] else []
            | .falling =>
              if x.asserted = true ∧ t.prevSck = true ∧ x.sck = false then [.spiSckSampleF x]
              else []) := by
  rw [Spi.rowsFor_eq]
  cases p.sampleEdge <;> simp [apply_ite (List.map (SpiRow.instr x)), SpiRow.instr]

/-! ### I2C -/

/-- A step whose operation does not hold the epilogue is the operation and the end of the step
(40_sampler.md R158). -/
theorem i2cStep_eq_thenNext {x : I2cSample} {s : State} {op : Instr}
    (hlong : streamTooLong s.cfg.i2c.sampleW s.i2c.n = false) (hop : i2cOp s x = op)
    (h : ¬ I2c.holdsEpilogue x op) :
    i2cStep x s = thenNext (exec op s) fun t =>
      { t with i2c := (t.i2c.epilogue x).emitted s.cfg.i2c s.i2c } := by
  subst hop
  simp only [i2cStep, hlong, Bool.false_eq_true, if_false]
  rw [if_neg h]

end Sys2Proof.Machine

open Sys2Proof Sys2Proof.Machine

/-- Settles O5: the rows that a sample hits, in terms of its levels. -/
theorem spiStepRunsTheSelectedRows : Obligations.SpiStepRunsTheSelectedRows := by
  unfold Obligations.SpiStepRunsTheSelectedRows
  intro s word rest hport hdata hw p x s0 a l ops
  have hlane : hasDataLane s0.cfg.spi = true := by simpa [hasDataLane] using hdata
  have hlong : streamTooLong s0.cfg.spi.sampleW s0.spi.n = false := streamTooLong_eq_false hw
  have hlevels : levelsOf s0.cfg.spi (spiSampleOfWord word) = l :=
    congrArg (SpiLevels.mk _ _ _) (asserted_eq p x.cs)
  have hops : ops = (s0.spi.rowsFor s0.cfg.spi l).map (SpiRow.instr l) :=
    (Spi.rowsFor_map_instr ..).symm
  have hstep : step s = spiStep (spiSampleOfWord word) s0 := by rw [step, hport]; rfl
  refine ⟨?_, fun hnone => ?_⟩
  · rw [hstep, spiStep_eq_thenNext hlane hlong hlevels, ← hops]
    rfl
  · rw [hstep]
    refine spiStep_of_rowsFor_nil hlane hlong hlevels ?_
    rw [hops] at hnone
    exact List.map_eq_nil_iff.mp hnone

/-- Settles O6: the operation that the levels select, and the epilogue it holds or that follows. -/
theorem i2cStepRunsTheSelectedRow : Obligations.I2cStepRunsTheSelectedRow := by
  unfold Obligations.I2cStepRunsTheSelectedRow
  intro s word rest hport hw t x s0 fin
  have hlong : streamTooLong s0.cfg.i2c.sampleW s0.i2c.n = false := streamTooLong_eq_false hw
  have hstep : step s = i2cStep x s0 := by rw [step, hport]; rfl
  have hop : i2cOp s0 x = _ :=
    i2cSelect_ci5 t.first t.prevScl t.prevSda t.active (decide (8 ≤ t.bitcnt)) x
  have hend : ∀ op, i2cOp s0 x = op → ¬ I2c.holdsEpilogue x op →
      i2cStep x s0 = thenNext (exec op s0) fin := fun _ => i2cStep_eq_thenNext hlong
  rw [hstep]
  by_cases hfirst : t.first = true
  case pos =>
    rw [if_pos hfirst] at hop ⊢
    exact i2cStep_of_holdsEpilogue hlong hop (.inl rfl)
  rw [if_neg hfirst] at hop ⊢
  by_cases hstart : x.scl = true ∧ t.prevSda = true ∧ x.sda = false
  case pos =>
    rw [if_pos hstart] at hop ⊢
    exact hend _ hop (by split <;> simp)
  rw [if_neg hstart] at hop ⊢
  by_cases hstop : x.scl = true ∧ t.prevSda = false ∧ x.sda = true
  case pos =>
    rw [if_pos hstop] at hop ⊢
    split at hop
    · next hact => rw [if_pos hact]; exact hend _ hop (by simp)
    · next hact => rw [if_neg hact]; exact i2cStep_of_holdsEpilogue hlong hop (.inr (.inl rfl))
  rw [if_neg hstop] at hop ⊢
  split at hop
  · next hbit =>
    rw [if_pos hbit]
    simp only [decide_eq_true_eq, ← Nat.not_lt, ite_not] at hop
    exact hend _ hop (by split <;> simp)
  · next hbit =>
    rw [if_neg hbit]
    exact i2cStep_of_holdsEpilogue hlong hop (.inr (.inr rfl))

end

/-! ## What an SPI byte leaves in the buffer and at the event port (20_memory.md R71, 40_sampler.md R135)

The header decoder and the framer write to the record of the byte in hand alone, and report neither the
bus nor a summary. -/

section

namespace Sys2Proof.Machine

open Sys2Proof

/-- The events of a byte: neither the bus state nor a summary of the pass (45_aggregator.md R330). -/
def Event.ofSpiByte : Event → Bool
  | .bus _ | .spiXferSum _ | .cmdSum _ => false
  | _ => true

/-- From `s` to `t` only events of a byte are added. -/
def Spi.AddsByteEvents (s t : Spi) : Prop :=
  ∃ es, t.out = s.out ++ es ∧ ∀ e ∈ es, e.event.ofSpiByte = true

/-- From `s` to `t` the record at index `k` may change and no other one, and only events of a byte are
added: every operation of a byte whose record that is. -/
structure Spi.ByteOp (k : Nat) (s t : Spi) : Prop where
  recs : ∃ f, t.xfer = s.xfer.modify k f
  events : s.AddsByteEvents t

variable {p : SpiParams} {s t u : Spi} {k : Nat}

theorem Spi.AddsByteEvents.refl (s : Spi) : s.AddsByteEvents s := ⟨[], by simp, by simp⟩

theorem Spi.AddsByteEvents.trans (h : s.AddsByteEvents t) (h' : t.AddsByteEvents u) :
    s.AddsByteEvents u := by
  obtain ⟨es, hout, hes⟩ := h
  obtain ⟨es', hout', hes'⟩ := h'
  refine ⟨es ++ es', by rw [hout', hout, List.append_assoc], fun e he => ?_⟩
  rcases List.mem_append.mp he with he | he
  · exact hes e he
  · exact hes' e he

theorem Spi.ByteOp.of_emits (hrecs : t.xfer = s.xfer) (h : s.AddsByteEvents t) : s.ByteOp k t :=
  ⟨⟨id, by rw [hrecs, List.modify_id]⟩, h⟩

/-- An operation that writes registers only. -/
theorem Spi.ByteOp.of_silent (hrecs : t.xfer = s.xfer) (hout : t.out = s.out) : s.ByteOp k t :=
  .of_emits hrecs ⟨[], by simp [hout], by simp⟩

/-- An operation that writes registers and emits one event. -/
theorem Spi.ByteOp.of_emit {e : OutEvent} (hrecs : t.xfer = s.xfer) (hout : t.out = s.out ++ [e])
    (he : e.event.ofSpiByte = true) : s.ByteOp k t :=
  .of_emits hrecs ⟨[e], hout, by simpa using he⟩

theorem Spi.byteOp_emit (s : Spi) (sp : Span) {e : Event} (he : e.ofSpiByte = true) :
    s.ByteOp k (s.emit sp e) :=
  .of_emit rfl rfl he

theorem Spi.ByteOp.refl (s : Spi) : s.ByteOp k s := .of_silent rfl rfl

theorem Spi.ByteOp.trans (h : s.ByteOp k t) (h' : t.ByteOp k u) : s.ByteOp k u := by
  obtain ⟨⟨f, hf⟩, hes⟩ := h
  obtain ⟨⟨g, hg⟩, hes'⟩ := h'
  exact ⟨⟨g ∘ f, by rw [hg, hf, List.modify_modify_eq]⟩, hes.trans hes'⟩

theorem Spi.ByteOp.bufUpdate {f : SpiByteRec → SpiByteRec} (ht : s.bufUpdate k f = .ok t) :
    s.ByteOp k t := by
  obtain ⟨-, rfl⟩ := (Spi.bufUpdate_eq_ok ..).mp ht
  exact ⟨⟨f, rfl⟩, [], by simp, by simp⟩

/-! ### The framer (43_command_framer.md) -/

theorem Spi.ByteOp.closeFrame (ht : s.closeFrame k = .ok t) : s.ByteOp k t := by
  obtain ⟨d, a, -, -, rfl⟩ := (Spi.closeFrame_eq_ok ..).mp ht
  exact .of_silent rfl rfl

theorem Spi.ByteOp.closeFrame_if {c : Prop} [Decidable c] (h : s.ByteOp k u)
    (ht : (if c then u.closeFrame k else .ok u) = .ok t) : s.ByteOp k t := by
  split at ht
  · exact h.trans (.closeFrame ht)
  · cases ht
    exact h

theorem Spi.byteOp_tpmTagDone (s : Spi) (fspan : Span) : s.ByteOp k (s.tpmTagDone p fspan) := by
  simp only [Spi.tpmTagDone]
  split <;> exact .of_emit rfl rfl rfl

theorem Spi.byteOp_tpmLenDone (s : Spi) (fspan : Span) : s.ByteOp k (s.tpmLenDone fspan) := by
  have h : s.ByteOp k ({ s with len := s.facc }.emit fspan
      (.field .tpm .length s.facc.toNat none)) := .of_emit rfl rfl rfl
  simp only [Spi.tpmLenDone]
  split
  · exact h.trans (.of_emit rfl rfl rfl)
  · exact h

theorem codeEvent_ofSpiByte (p : SpiParams) (d : Dir) (code : BitVec 32) :
    (codeEvent p d code).ofSpiByte = true := by
  unfold codeEvent
  split <;> rfl

theorem Spi.ByteOp.tpmCodeDone {d : Dir} {fspan : Span} (ht : s.tpmCodeDone p k d fspan = .ok t) :
    s.ByteOp k t := by
  simp only [Spi.tpmCodeDone, run_bind_eq_ok] at ht
  obtain ⟨size, -, ht⟩ := ht
  split at ht
  · refine Spi.ByteOp.trans ?_ (.closeFrame ht)
    exact .of_emit rfl rfl (codeEvent_ofSpiByte ..)
  · cases ht
    exact .of_emit rfl rfl (codeEvent_ofSpiByte ..)

theorem Spi.ByteOp.fieldDone {d : Dir} {fspan : Span} (ht : s.fieldDone p k d fspan = .ok t) :
    s.ByteOp k t := by
  unfold Spi.fieldDone at ht
  split at ht
  · cases ht
    exact s.byteOp_tpmTagDone fspan
  · split at ht
    · cases ht
      exact s.byteOp_tpmLenDone fspan
    · split at ht
      · exact .tpmCodeDone ht
      · cases ht
        exact .refl _

theorem Spi.ByteOp.tpmHdr {x : Byte} {d : Dir} (ht : s.tpmHdr p k x d = .ok t) : s.ByteOp k t := by
  simp only [Spi.tpmHdr, run_bind_eq_ok] at ht
  obtain ⟨u, hu, r, -, ht⟩ := ht
  rw [Spi.beginField_eq] at ht
  refine .trans (.bufUpdate hu) (.trans ?_ (.fieldDone ht))
  exact .of_silent rfl rfl

theorem Spi.ByteOp.tpmPayload {x : Byte} {d : Dir} (ht : s.tpmPayload k x d = .ok t) :
    s.ByteOp k t := by
  simp only [Spi.tpmPayload, run_bind_eq_ok] at ht
  obtain ⟨u, hu, r, -, ht⟩ := ht
  refine .trans (.bufUpdate hu) (.closeFrame_if ?_ ht)
  exact .of_emit rfl rfl rfl

theorem Spi.ByteOp.framerByte {x : Byte} {d : Dir} (ht : s.framerByte p k x d = .ok t) :
    s.ByteOp k t := by
  unfold Spi.framerByte at ht
  split at ht
  · exact .trans (t := s.tpmStart k) (.of_silent rfl rfl) (.tpmHdr ht)
  · exact .tpmHdr ht
  · split at ht
    · exact .tpmPayload ht
    · cases ht
      exact .refl _

/-! ### The link header (42_link_header.md) -/

theorem Spi.byteOp_hdr0 (s : Spi) (b : Byte) (start stop : Nat) :
    s.ByteOp k (s.hdr0 b start stop) :=
  .of_emits rfl ⟨_, List.append_assoc .., by simp [Event.ofSpiByte]⟩

theorem Spi.byteOp_ackFlag (s : Spi) (b : Byte) (start stop : Nat) :
    s.ByteOp k (s.ackFlag p b start stop) := by
  unfold Spi.ackFlag
  split
  · exact .of_emit rfl rfl rfl
  · exact .refl _

theorem Spi.byteOp_takeReg (s : Spi) (reg : BitVec 16) (sp : Span) :
    s.ByteOp k (s.takeReg p reg sp) := by
  simp only [Spi.takeReg]
  split <;> exact .of_emit rfl rfl rfl

theorem Spi.ByteOp.hdr3 {b : Byte} {miso : Option Byte} {start stop : Nat}
    (ht : s.hdr3 p b miso start stop = .ok t) : s.ByteOp k t := by
  simp only [Spi.hdr3, run_bind_eq_ok] at ht
  obtain ⟨hi, -, b2, -, ht⟩ := ht
  have h1 := (s.byteOp_takeReg (p := p) (k := k) (joinLow (highByte hi) b)
    (spanOf s.hdrB2Start stop)).trans (Spi.byteOp_emit _ (subSpan (spanOf b2.start b2.stop) 0 4)
      (e := .hdr .locality ((joinLow (highByte hi) b).extractLsb' 12 4).toNat none) rfl)
  cases ht
  split
  · exact (h1.trans (Spi.byteOp_ackFlag _ _ _ _)).trans (.of_silent rfl rfl)
  · exact h1.trans (.of_silent rfl rfl)

theorem Spi.ByteOp.excessByte (ht : s.excessByte k = .ok t) : s.ByteOp k t := by
  simp only [Spi.excessByte, run_bind_eq_ok] at ht
  obtain ⟨i, -, u, hu, r, -, ht⟩ := ht
  cases ht
  exact .trans (.bufUpdate hu) (.of_emit rfl rfl rfl)

theorem fieldEvents_ofSpiByte (f : RegFields) (reg : Nat) (d : Dir) (i : Nat) (x : Byte) (sp : Span) :
    ∀ e ∈ fieldEvents f reg d i x sp, e.event.ofSpiByte = true := by
  simp only [fieldEvents, List.mem_flatMap]
  rintro e ⟨r, -, he⟩
  split at he <;> simp only [List.mem_cons, List.not_mem_nil, or_false] at he
  · rw [he]
    rfl
  · rcases he with rfl | rfl <;> rfl

theorem Spi.ByteOp.dataByte {v : Option Byte} (ht : s.dataByte p k v = .ok t) : s.ByteOp k t := by
  simp only [Spi.dataByte, run_bind_eq_ok] at ht
  obtain ⟨i, -, d, -, u, hu, r, -, ht⟩ := ht
  refine .trans (.bufUpdate hu) ?_
  split at ht
  · next x reg _ =>
    refine .trans (u.byteOp_emit (spanOf r.start r.stop) (e := .regdata reg.toNat d i x) rfl) ?_
    split at ht
    · exact .framerByte ht
    · cases ht
      exact .of_emits rfl ⟨_, rfl, fieldEvents_ofSpiByte _ _ _ _ _ _⟩
  · cases ht
    exact .refl _

theorem Spi.ByteOp.laterByte {r : SpiByteRec} (ht : s.laterByte p r k = .ok t) : s.ByteOp k t := by
  simp only [Spi.laterByte, run_bind_eq_ok] at ht
  obtain ⟨i, -, d, -, c, -, ht⟩ := ht
  split at ht
  · exact .excessByte ht
  · exact .dataByte ht

theorem Spi.ByteOp.headerByte {r : SpiByteRec} (ht : s.headerByte p r = .ok t) :
    s.ByteOp s.pos t := by
  have hpos : s.ByteOp s.pos { s with pos := s.pos + 1 } := .of_silent rfl rfl
  simp only [Spi.headerByte] at ht
  split at ht
  · exact hpos.trans (.bufUpdate ht)
  · rw [run_bind_eq_ok] at ht
    obtain ⟨b, -, ht⟩ := ht
    split at ht
    · cases ht
      exact hpos.trans (Spi.byteOp_hdr0 _ _ _ _)
    · cases ht
      exact .of_emit rfl rfl rfl
    · cases ht
      exact .of_silent rfl rfl
    · exact hpos.trans (.hdr3 ht)
    · exact hpos.trans (.laterByte ht)

/-! ### The byte assembler and the samplers -/

theorem laneEvents_ofSpiByte (lane : Lane) (v : Byte) (starts ends : List Nat) (start stop : Nat)
    (tr : Bool) : ∀ e ∈ laneEvents lane v starts ends start stop tr, e.event.ofSpiByte = true := by
  simp [laneEvents, Event.ofSpiByte]

/-- A completed byte appends its record, which the header decoder then may change at `pos`, and adds only
events of a byte. -/
theorem Spi.completeByte_adds {tr : Bool} {lastEnd : Option Nat}
    (ht : s.completeByte p tr lastEnd = .ok t) :
    (∃ r f, t.xfer = (s.xfer ++ [r]).modify s.pos f) ∧ s.AddsByteEvents t := by
  obtain ⟨start, stop, ends, r, u, -, -, hu, ht⟩ := (Spi.completeByte_eq_ok ..).mp ht
  obtain ⟨-, rfl⟩ := (Spi.bufAppend_eq_ok ..).mp hu
  obtain ⟨⟨f, hf⟩, hes⟩ := Spi.ByteOp.headerByte ht
  refine ⟨⟨r, f, hf⟩, .trans ⟨_, rfl, fun e he => ?_⟩ hes⟩
  rcases List.mem_append.mp he with he | he <;> split at he
  · exact laneEvents_ofSpiByte _ _ _ _ _ _ _ e he
  · cases he
  · exact laneEvents_ofSpiByte _ _ _ _ _ _ _ e he
  · cases he

theorem Spi.AddsByteEvents.sckSample {x : SpiLevels} (ht : s.sckSample p x = .ok t) :
    s.AddsByteEvents t := by
  by_cases h : s.bitcnt = 7
  · rw [Spi.sckSample_of_eighth p x h] at ht
    exact (Spi.completeByte_adds ht).2
  · rw [Spi.sckSample_of_bits p x h] at ht
    cases ht
    exact .refl s

/-- The event port of a step changes no event (10_state.md R66). -/
theorem Spi.AddsByteEvents.emitted (h : s.AddsByteEvents t) (p : SpiParams) :
    s.AddsByteEvents (t.emitted p s) := by
  obtain ⟨es, hout, hes⟩ := h
  refine ⟨_, by rw [Spi.emitted_out, hout, portEvents_append], ?_⟩
  split
  · simpa using hes
  · exact hes

/-! ### Without a chip select (40_sampler.md R135) -/

/-- Without a chip select a sample after the first one does nothing, or shifts a bit. -/
theorem Spi.doRows_of_no_cs {x : SpiLevels} (hcs : p.haveCs = false) (hfirst : s.first = false)
    (ht : Spi.doRows p x (s.rowsFor p x) s = .ok t) : t = s ∨ s.sckSample p x = .ok t := by
  simp only [Spi.rowsFor_eq, hfirst, hcs, Bool.false_eq_true, false_and, if_false,
    List.nil_append] at ht
  split at ht <;> split at ht
  · exact .inr (by rwa [Spi.doRows_singleton] at ht)
  · cases ht
    exact .inl rfl
  · exact .inr (by rwa [Spi.doRows_singleton] at ht)
  · cases ht
    exact .inl rfl

end Sys2Proof.Machine

open Sys2Proof Sys2Proof.Machine

/-- Settles O21: without a chip select a step after the first only samples bits, and the operations of a
byte leave the transfer open and report neither the bus nor a summary. -/
theorem withoutChipSelectNothingCloses : Obligations.WithoutChipSelectNothingCloses := by
  unfold Obligations.WithoutChipSelectNothingCloses
  intro s t w rest hport hcs hfirst hact hst
  simp only [step, hport, takeInput, spiStep_eq_onSpi, onSpi_eq_next] at hst
  obtain ⟨v, hv, rfl⟩ := hst
  obtain ⟨-, -, u, hu, rfl⟩ := (Spi.takeSample_eq_ok ..).mp hv
  have hbyte : u.active = true ∧ s.spi.AddsByteEvents u := by
    rcases Spi.doRows_of_no_cs hcs hfirst hu with rfl | hbit
    · exact ⟨hact, .refl _⟩
    · exact ⟨(Spi.KeepsTransfer.sckSample hbit).active.trans hact, .sckSample hbit⟩
  refine ⟨hbyte.1, fun e he b c d => ?_⟩
  obtain ⟨es, hout, hes⟩ : s.spi.AddsByteEvents ((u.epilogue _).emitted s.cfg.spi s.spi) :=
    hbyte.2.emitted s.cfg.spi
  have hmem : e ∈ es := by
    rw [hout, List.drop_left] at he
    exact he
  have hkind := hes e hmem
  refine ⟨?_, ?_, ?_⟩ <;> intro heq <;> simp [heq, Event.ofSpiByte] at hkind

end

/-! ## At most one SPI record a step (20_memory.md R71, 40_sampler.md R137) -/

section

namespace Sys2Proof.Machine

open Sys2Proof

/-- From `s` to `t` at most one record is appended, and the records before it stay, or the buffer is
cleared. That records stay needs the header decoder at the record appended (42_link_header.md R209). -/
structure Spi.AppendsOne (s t : Spi) : Prop where
  length_le : t.xfer.length ≤ s.xfer.length + 1
  kept : s.pos = s.xfer.length → t.xfer = [] ∨ s.xfer <+: t.xfer

variable {p : SpiParams} {s t u : Spi}

theorem Spi.AppendsOne.of_eq (h : t.xfer = s.xfer) : s.AppendsOne t :=
  ⟨by simp [h], fun _ => .inr (by rw [h])⟩

theorem Spi.AppendsOne.of_cleared (h : t.xfer = []) : s.AppendsOne t :=
  ⟨by simp [h], fun _ => .inl h⟩

theorem Spi.AppendsOne.completeByte {tr : Bool} {lastEnd : Option Nat}
    (ht : s.completeByte p tr lastEnd = .ok t) : s.AppendsOne t := by
  obtain ⟨⟨r, f, hrecs⟩, -⟩ := Spi.completeByte_adds ht
  refine ⟨by simp [hrecs], fun hpos => .inr ?_⟩
  rw [hrecs, hpos, modify_last]
  exact List.prefix_append ..

theorem Spi.AppendsOne.sckSample {x : SpiLevels} (ht : s.sckSample p x = .ok t) :
    s.AppendsOne t := by
  by_cases h : s.bitcnt = 7
  · rw [Spi.sckSample_of_eighth p x h] at ht
    have hbyte := Spi.AppendsOne.completeByte ht
    exact ⟨hbyte.length_le, hbyte.kept⟩
  · rw [Spi.sckSample_of_bits p x h] at ht
    cases ht
    exact .of_eq rfl

theorem Spi.AppendsOne.cutByte (ht : s.cutByte p = .ok t) : s.AppendsOne t := by
  unfold Spi.cutByte at ht
  split at ht
  · rw [run_bind_eq_ok] at ht
    obtain ⟨b0, -, ht⟩ := ht
    have hbyte := Spi.AppendsOne.completeByte ht
    exact ⟨hbyte.length_le, hbyte.kept⟩
  · cases ht
    exact .of_eq rfl

/-- The pass reads the buffer and leaves it (45_aggregator.md R340). -/
theorem Spi.aggregate_xfer (ht : s.aggregate p = .ok t) : t.xfer = s.xfer := by
  simp only [Spi.aggregate, run_bind_eq_ok] at ht
  obtain ⟨u, hu, v, hv, ht⟩ := ht
  have husum : u.xfer = s.xfer := by
    unfold Spi.summaries at hu
    split at hu
    · cases hu
      rfl
    · rw [run_bind_eq_ok] at hu
      obtain ⟨w, hw, hu⟩ := hu
      cases hu
      rw [Spi.headerCheck_eq hw]
      rfl
  have hcarry : v.xfer = u.xfer := by
    rcases Spi.frameCarry_cases hv with ⟨-, rfl⟩ | ⟨a, es, -, rfl, -, -⟩ <;> rfl
  cases ht
  exact hcarry.trans husum

theorem Spi.AppendsOne.csDeassert (ht : s.csDeassert p = .ok t) : s.AppendsOne t := by
  unfold Spi.csDeassert at ht
  split at ht
  · simp only [run_bind_eq_ok] at ht
    obtain ⟨u, hu, v, hv, ht⟩ := ht
    have hcut := Spi.AppendsOne.cutByte hu
    have hpass : v.xfer = u.xfer := (Spi.aggregate_xfer hv).trans rfl
    cases ht
    exact ⟨hpass ▸ hcut.length_le, hpass ▸ hcut.kept⟩
  · cases ht
    exact .of_eq rfl

theorem Spi.SampleOp.appendsOne {x : SpiLevels} (h : Spi.SampleOp p x s t) : s.AppendsOne t := by
  cases h with
  | baseline =>
    simp only [Spi.baseline]
    split
    · exact .of_cleared rfl
    · exact .of_eq rfl
  | deassert _ _ _ ht => exact .csDeassert ht
  | assert => exact .of_cleared rfl
  | assertBit _ _ _ ht =>
    rw [Spi.sckSample_of_bits p x (by simp [Spi.csAssert])] at ht
    cases ht
    exact .of_cleared rfl
  | bit _ _ _ ht => exact .sckSample ht
  | idle => exact .of_eq rfl

end Sys2Proof.Machine

end

/-! ## At most one I2C record a step (20_memory.md R71, 40_sampler.md R154, R159) -/

section

namespace Sys2Proof.Machine

open Sys2Proof

/-- The records without their acknowledge flags. -/
def I2c.unackedRecs (s : I2c) : List I2cByteRec := s.xfer.map fun r => { r with ack := none }

/-- From `s` to `t` at most one record is appended, and the records before it stay but for their
acknowledge flags, or the buffer is cleared. -/
structure I2c.AppendsOne (s t : I2c) : Prop where
  length_le : t.xfer.length ≤ s.xfer.length + 1
  kept : t.xfer = [] ∨ s.unackedRecs <+: t.unackedRecs

variable {p : I2cParams} {s t u : I2c} {pre : List I2cByteRec} {r : I2cByteRec}

theorem I2c.unackedRecs_congr (h : t.xfer = s.xfer) : t.unackedRecs = s.unackedRecs := by
  rw [I2c.unackedRecs, h, I2c.unackedRecs]

theorem I2c.AppendsOne.of_unackedRecs_eq (h : t.unackedRecs = s.unackedRecs) : s.AppendsOne t := by
  have hlen : t.xfer.length = s.xfer.length := by
    simpa [I2c.unackedRecs] using congrArg List.length h
  exact ⟨by omega, .inr (by rw [h])⟩

theorem I2c.AppendsOne.of_eq (h : t.xfer = s.xfer) : s.AppendsOne t :=
  .of_unackedRecs_eq (I2c.unackedRecs_congr h)

theorem I2c.AppendsOne.of_append (h : t.xfer = s.xfer ++ [r]) : s.AppendsOne t :=
  ⟨by simp [h], .inr (by simp [I2c.unackedRecs, h])⟩

/-- What an update of the byte in hand leaves of the buffer. -/
theorem I2c.bufUpdate_last {f : I2cByteRec → I2cByteRec} (ht : s.bufUpdate pre.length f = .ok t)
    (hs : s.xfer = pre ++ [r]) : t.xfer = pre ++ [f r] := by
  rw [I2c.bufUpdate_append f hs] at ht
  cases ht
  rfl

theorem I2c.DlOnly.xfer_eq (h : s.DlOnly t) : t.xfer = s.xfer := by rw [h.rest]

theorem I2c.regData_last {v : Byte} (hs : s.xfer = pre ++ [r])
    (ht : s.regData p pre.length v = .ok t) : ∃ q, t.xfer = pre ++ [q] := by
  simp only [I2c.regData, run_bind_eq_ok] at ht
  obtain ⟨d, -, u, hu, q, -, ht⟩ := ht
  have hlast := I2c.bufUpdate_last hu hs
  refine ⟨_, Eq.trans ?_ hlast⟩
  split at ht
  · cases ht
    split <;> rfl
  · split at ht
    · exact (I2c.DlOnly.dlByte ht).xfer_eq
    · cases ht
      rfl

/-- The header decoder changes the byte in hand alone (42_link_header.md R210 to R213). -/
theorem I2c.headerByte_last {q : I2cByteRec} (hs : s.xfer = pre ++ [r])
    (ht : s.headerByte p q = .ok t) : ∃ q', t.xfer = pre ++ [q'] := by
  rw [I2c.headerByte, I2c.lastIdx_append hs] at ht
  change (if s.phase = .addr then _ else _) = _ at ht
  split at ht
  · simp only [I2c.addrByteIn, run_bind_eq_ok] at ht
    obtain ⟨u, hu, q, -, ht⟩ := ht
    have hlast := I2c.bufUpdate_last hu hs
    cases ht
    exact ⟨_, hlast⟩
  · split at ht
    · exact ⟨_, I2c.bufUpdate_last ht hs⟩
    · split at ht
      · simp only [I2c.regNum, run_bind_eq_ok] at ht
        obtain ⟨u, hu, q, -, ht⟩ := ht
        have hlast := I2c.bufUpdate_last hu hs
        cases ht
        refine ⟨_, Eq.trans ?_ hlast⟩
        split <;> rfl
      · exact I2c.regData_last hs ht

theorem I2c.completeByte_appends {tr : Bool} {lastEnd : Option Nat}
    (ht : s.completeByte p tr lastEnd = .ok t) : ∃ q, t.xfer = s.xfer ++ [q] := by
  obtain ⟨start, stop, ends, r, u, -, -, hu, ht⟩ := (I2c.completeByte_eq_ok ..).mp ht
  obtain ⟨-, rfl⟩ := (I2c.bufAppend_eq_ok ..).mp hu
  refine I2c.headerByte_last (r := r) ?_ ht
  split <;> rfl

theorem I2c.AppendsOne.partialAtCondition (ht : s.partialAtCondition p = .ok t) :
    s.AppendsOne t := by
  unfold I2c.partialAtCondition at ht
  split at ht
  · simp only [run_bind_eq_ok] at ht
    obtain ⟨b0, -, u, hu, ht⟩ := ht
    obtain ⟨q, hq⟩ := I2c.completeByte_appends hu
    cases ht
    exact .of_append hq
  · cases ht
    exact .of_eq rfl

/-- What leaves the buffer as it is may follow. -/
theorem I2c.AppendsOne.then_eq (h : s.AppendsOne t) (hu : u.xfer = t.xfer) : s.AppendsOne u :=
  ⟨hu ▸ h.length_le, by rw [I2c.unackedRecs_congr hu, hu]; exact h.kept⟩

theorem I2c.AppendsOne.bit {x : I2cSample} (ht : s.bit p x = .ok t) : s.AppendsOne t := by
  rw [I2c.bit_eq] at ht
  split at ht
  · obtain ⟨q, hq⟩ := I2c.completeByte_appends ht
    exact .of_append hq
  · cases ht
    exact .of_eq rfl

/-- The acknowledge flag of one record is all that the acknowledge bit writes to the buffer
(40_sampler.md R154). -/
theorem I2c.unackedRecs_writeAck {ack : Bool} (ht : s.writeAck ack = .ok t) :
    t.unackedRecs = s.unackedRecs := by
  unfold I2c.writeAck at ht
  split at ht
  · obtain ⟨-, rfl⟩ := (I2c.bufUpdate_eq_ok ..).mp ht
    exact map_modify_of_comp_eq (by simp) _ _
  · cases ht
    rfl

theorem I2c.AppendsOne.ackBit {x : I2cSample} (ht : s.ackBit x = .ok t) : s.AppendsOne t := by
  simp only [I2c.ackBit, run_bind_eq_ok] at ht
  obtain ⟨b7, -, w, -, u, hu, ht⟩ := ht
  have hrecs := I2c.unackedRecs_writeAck hu
  cases ht
  exact .of_unackedRecs_eq hrecs

theorem I2c.SampleOp.appendsOne {x : I2cSample} (h : I2c.SampleOp p x s t) : s.AppendsOne t := by
  cases h with
  | start => exact ⟨Nat.zero_le _, .inl rfl⟩
  | rstart _ ht =>
    simp only [I2c.rstartCond, run_bind_eq_ok] at ht
    obtain ⟨u, hu, v, hv, ht⟩ := ht
    cases ht
    exact (I2c.AppendsOne.partialAtCondition hu).then_eq (I2c.DlOnly.endPhase hv).xfer_eq
  | stop _ ht =>
    simp only [I2c.stopCond, run_bind_eq_ok] at ht
    obtain ⟨u, hu, v, hv, ht⟩ := ht
    cases ht
    rw [I2c.aggregate_eq]
    exact (I2c.AppendsOne.partialAtCondition hu).then_eq (I2c.DlOnly.endPhase hv).xfer_eq
  | bit _ _ ht => exact .bit ht
  | ack _ _ ht => exact .ackBit ht

theorem I2c.AppendsOne.takeSample {x : I2cSample} (ht : s.takeSample p x = .ok t) :
    s.AppendsOne t := by
  rcases I2c.takeSample_cases ht with ⟨-, rfl⟩ | ⟨-, rfl⟩ | ⟨u, -, hu, rfl⟩
  · exact .of_eq rfl
  · exact .of_eq rfl
  · exact hu.appendsOne.then_eq rfl

/-- What a step of the machine does to both buffers. -/
theorem StepTo.appendsOne {s t : State} (h : StepTo s t) :
    s.spi.AppendsOne t.spi ∧ s.i2c.AppendsOne t.i2c := by
  cases h with
  | nothing _ => exact ⟨.of_eq rfl, .of_eq rfl⟩
  | spi _ hu =>
    obtain ⟨v, hv, rfl⟩ := Spi.takeSample_cases hu
    exact ⟨⟨hv.appendsOne.length_le, hv.appendsOne.kept⟩, .of_eq rfl⟩
  | i2c _ hu => exact ⟨.of_eq rfl, .takeSample hu⟩
  | reset _ => exact ⟨.of_cleared rfl, ⟨Nat.zero_le _, .inl rfl⟩⟩
  | params _ _ _ => exact ⟨.of_eq rfl, .of_eq rfl⟩

end Sys2Proof.Machine

open Sys2Proof Sys2Proof.Machine

/-- Settles O20: every operation of a sample appends at most one record, and in a sound state the header
decoder stands at the record appended. -/
theorem oneByteCompletesPerStep : Obligations.OneByteCompletesPerStep := by
  unfold Obligations.OneByteCompletesPerStep
  intro s t hst
  obtain ⟨hspi, hi2c⟩ := (StepTo.of_step hst).appendsOne
  refine ⟨hspi.length_le, hi2c.length_le, fun hinv => ⟨hspi.kept ?_, hi2c.kept⟩⟩
  obtain ⟨⟨-, -, -, ⟨hpos, -⟩, -⟩, -⟩ := hinv
  exact hpos

end

/-! ## The ends of a byte's bits (41_byte_assembler.md R171, R176) -/

section

namespace Sys2Proof.Machine

open Sys2Proof

/-- With no condition the last of two or more bits is as long as the bit before it
(41_byte_assembler.md R171). -/
theorem lastBitEnd_extrapolated (l : List Nat) {b a : Nat} (h : b ≤ a) :
    lastBitEnd (l ++ [b, a]) none = .ok (a + (a - b)) := by
  simp [lastBitEnd, natSub, h, bind, Except.bind]

/-- The bits of a byte, seen from its last one: it is the only one or follows another. -/
theorem eq_singleton_or_eq_append_pair {l : List Nat} {a : Nat} (h : l.getLast? = some a) :
    l = [a] ∨ ∃ pre b, l = pre ++ [b, a] := by
  obtain ⟨pre, rfl⟩ := List.getLast?_eq_some_iff.mp h
  rcases pre.eq_nil_or_concat with rfl | ⟨pre, b, rfl⟩
  · exact .inl rfl
  · exact .inr ⟨pre, b, by simp⟩

/-- The end of the last bit in each case, after the start of that bit (41_byte_assembler.md R171,
R176). -/
theorem lastBitEnd_spec {starts : List Nat} {lastEnd : Option Nat} {a : Nat}
    (hlast : starts.getLast? = some a) (hrise : starts.Pairwise (· < ·))
    (hcond : ∀ t, lastEnd = some t → a < t) :
    ∃ stop, lastBitEnd starts lastEnd = .ok stop ∧ a < stop
      ∧ (∀ t, lastEnd = some t → stop = t)
      ∧ (lastEnd = none → ∀ b, starts[starts.length - 2]? = some b → 2 ≤ starts.length →
          stop = a + (a - b))
      ∧ (lastEnd = none → starts.length = 1 → stop = a + 1) := by
  cases lastEnd with
  | some t => exact ⟨t, rfl, hcond t rfl, by simp⟩
  | none =>
    rcases eq_singleton_or_eq_append_pair hlast with rfl | ⟨pre, b, rfl⟩
    · exact ⟨a + 1, rfl, Nat.lt_succ_self a, by simp⟩
    · have hab : b < a := by
        rw [List.pairwise_append] at hrise
        simpa using hrise.2.1
      exact ⟨a + (a - b), lastBitEnd_extrapolated pre hab.le, by omega, by simp⟩

/-- There are as many ends as bits. -/
theorem length_of_bitEnds {starts ends : List Nat} {lastEnd : Option Nat} (hne : starts ≠ [])
    (h : bitEnds starts lastEnd = .ok ends) : ends.length = starts.length := by
  obtain ⟨stop, -, rfl⟩ := (bitEnds_eq_ok ..).mp h
  have := List.length_pos_iff.mpr hne
  simp only [List.length_append, List.length_tail, List.length_singleton]
  omega

/-- Each bit but the last ends where the next starts. -/
theorem getElem?_bitEnds_of_lt {starts : List Nat} (stop : Nat) {i : Nat}
    (h : i + 1 < starts.length) : (starts.tail ++ [stop])[i]? = starts[i + 1]? := by
  rw [List.getElem?_append_left (by simp; omega), List.getElem?_tail]

/-- Every bit of a byte ends after it starts, when the last one does (41_byte_assembler.md R176). -/
theorem lt_of_getElem?_bitEnds {starts : List Nat} {a stop i b e : Nat}
    (hlast : starts.getLast? = some a) (hrise : starts.Pairwise (· < ·)) (hstop : a < stop)
    (hb : starts[i]? = some b) (he : (starts.tail ++ [stop])[i]? = some e) : b < e := by
  obtain ⟨hi, rfl⟩ := List.getElem?_eq_some_iff.mp hb
  by_cases hnext : i + 1 < starts.length
  · rw [getElem?_bitEnds_of_lt stop hnext, List.getElem?_eq_getElem hnext] at he
    cases he
    exact List.pairwise_iff_getElem.mp hrise i (i + 1) hi hnext (Nat.lt_succ_self i)
  · obtain rfl : i = starts.length - 1 := by omega
    rw [← List.getLast?_eq_getElem?, hlast] at hb
    cases hb
    rw [← List.length_tail, List.getElem?_concat_length] at he
    cases he
    exact hstop

end Sys2Proof.Machine

open Sys2Proof Sys2Proof.Machine

/-- Settles O23: the starts after the first, then the end of the last bit in each of its cases. -/
theorem bitEndsFollowTheNextStart : Obligations.BitEndsFollowTheNextStart := by
  unfold Obligations.BitEndsFollowTheNextStart
  intro starts lastEnd a hlast hrise hcond
  obtain ⟨stop, hstop, hlt, hsome, hmany, hone⟩ := lastBitEnd_spec hlast hrise hcond
  have hok : bitEnds starts lastEnd = .ok (starts.tail ++ [stop]) :=
    (bitEnds_eq_ok ..).mpr ⟨stop, hstop, rfl⟩
  have hne : starts ≠ [] := List.ne_nil_of_mem (List.mem_of_getLast? hlast)
  have hend : (starts.tail ++ [stop]).getLast? = some stop := List.getLast?_concat
  refine ⟨starts.tail ++ [stop], hok, length_of_bitEnds hne hok,
    fun i hi => getElem?_bitEnds_of_lt stop hi, fun t ht => ?_, fun hn b hb h2 => ?_,
    fun hn h1 => ?_, fun i b e => lt_of_getElem?_bitEnds hlast hrise hlt⟩
  · rw [hend, hsome t ht]
  · rw [hend, hmany hn b hb h2]
  · rw [hend, hone hn h1]

end

/-! ## A completed byte and the header row that takes it (41_byte_assembler.md R173 to R178)

Completing a byte is forming a record and handing it to the header decoder; the decoder's branches are
the header rows, which read the record back as the last one of the buffer. -/

section

namespace Sys2Proof.Machine

open Sys2Proof

/-! ### Pending bits (41_byte_assembler.md R171 to R173) -/

/-- The entries of a BITS event, bit by bit. -/
theorem bitList_eq (v : Byte) {starts ends : List Nat} {k : Nat} (hs : starts.length = k)
    (he : ends.length = k) : bitList v starts ends =
      (List.range k).map fun i => ⟨v.getLsbD (7 - i), starts.getD i 0, ends.getD i 0⟩ := by
  refine List.ext_getElem (by simp [bitList, hs, he]) fun i hi _ => ?_
  simp only [bitList, List.length_map, List.length_zipIdx, List.length_zip, hs, he] at hi
  simp [bitList, List.getD_eq_getElem?_getD, hs, he, Nat.lt_min.mp hi]

/-- The events of one lane, bit by bit. -/
theorem laneEvents_eq (lane : Lane) (v : Byte) {starts ends : List Nat} {k : Nat}
    (hs : starts.length = k) (he : ends.length = k) (start stop : Nat) (tr : Bool) :
    laneEvents lane v starts ends start stop tr =
      [evAt start stop (.bits lane ((List.range k).map fun i =>
        ⟨v.getLsbD (7 - i), starts.getD i 0, ends.getD i 0⟩)),
        evAt start stop (.byte lane v tr)] := by
  rw [laneEvents, bitList_eq v hs he]
  rfl

/-- One to eight bits with their ends are a byte at hand, with as many ends as bits. -/
theorem pendingByte_of_bitEnds {bitcnt b stop : Nat} {starts bs ends : List Nat}
    {lastEnd : Option Nat} (hstarts : starts = b :: bs) (hcnt : bitcnt = bs.length + 1)
    (h8 : bitcnt ≤ 8) (hends : bitEnds starts lastEnd = .ok ends)
    (hstop : ends.getLast? = some stop) :
    pendingByte bitcnt starts lastEnd = .ok (b, stop, ends)
      ∧ starts.length = bitcnt ∧ ends.length = bitcnt := by
  subst hstarts
  refine ⟨?_, hcnt.symm, (length_of_bitEnds (List.cons_ne_nil _ _) hends).trans hcnt.symm⟩
  obtain ⟨x, hx, rfl⟩ := (bitEnds_eq_ok ..).mp hends
  obtain rfl : x = stop := by simpa using hstop
  exact (pendingByte_eq_ok ..).mpr ⟨rfl, hcnt, h8, hx, rfl⟩

/-! ### Operations of one stack on the machine -/

/-- Operations of two SPI stacks with one outcome agree on the machine. -/
theorem onSpi_eq_onSpi {s : State} {t : Spi} {f g : SpiParams → Spi → Run Spi}
    (h : f s.cfg.spi s.spi = g s.cfg.spi t) : onSpi s f = onSpi { s with spi := t } g := by
  simp only [onSpi, h]

/-- Operations of two I2C stacks with one outcome agree on the machine. -/
theorem onI2c_eq_onI2c {s : State} {t : I2c} {f g : I2cParams → I2c → Run I2c}
    (h : f s.cfg.i2c s.i2c = g s.cfg.i2c t) : onI2c s f = onI2c { s with i2c := t } g := by
  simp only [onI2c, h]

/-- An I2C operation followed by a change of its stack. -/
theorem onI2c_bind_ok (s : State) (f : I2cParams → I2c → Run I2c) (g : I2c → I2c) :
    (onI2c s fun p t => f p t >>= fun u => .ok (g u)) =
      thenNext (onI2c s f) fun u => { u with i2c := g u.i2c } := by
  rcases hf : f s.cfg.i2c s.i2c with (e | e) | u <;>
    simp [onI2c, thenNext, hf, bind, Except.bind]

/-! ### The SPI byte (41_byte_assembler.md R173) -/

/-- Events take no room in the buffer. -/
@[simp] theorem Spi.emitAll_room (p : SpiParams) (es : List OutEvent) (t : Spi) :
    (t.emitAll es).room p = t.room p := rfl

/-- The record of an SPI byte: a value for each present lane, left aligned (41_byte_assembler.md
R173). -/
def Spi.pendingRec (p : SpiParams) (tr : Bool) (start stop : Nat) (t : Spi) : SpiByteRec :=
  ⟨if p.haveMosi then some (leftAlign t.accMosi t.bitcnt) else none,
    if p.haveMiso then some (leftAlign t.accMiso t.bitcnt) else none, start, stop, tr, .header, none⟩

/-- The stack that has reported its byte and appended its record. -/
def Spi.byteTaken (p : SpiParams) (tr : Bool) (start stop : Nat) (ends : List Nat) (t : Spi) : Spi :=
  { t with
    bitcnt := 0, accMosi := 0#8, accMiso := 0#8, bitStarts := []
    xfer := t.xfer ++ [t.pendingRec p tr start stop]
    out := t.out
      ++ (if p.haveMosi then laneEvents .mosi (leftAlign t.accMosi t.bitcnt) t.bitStarts ends start
            stop tr else [])
      ++ (if p.haveMiso then laneEvents .miso (leftAlign t.accMiso t.bitcnt) t.bitStarts ends start
            stop tr else []) }

/-- Completing a byte takes it and hands its record to the header decoder. -/
theorem Spi.completeByte_eq {p : SpiParams} {tr : Bool} {lastEnd : Option Nat} {t : Spi}
    {start stop : Nat} {ends : List Nat}
    (hpend : pendingByte t.bitcnt t.bitStarts lastEnd = .ok (start, stop, ends))
    (hroom : t.room p = true) : t.completeByte p tr lastEnd =
      (t.byteTaken p tr start stop ends).headerByte p (t.pendingRec p tr start stop) := by
  simp only [Spi.completeByte, hpend, bind, Except.bind, Spi.bufAppend_eq]
  cases hmosi : p.haveMosi <;> cases hmiso : p.haveMiso <;>
    simp only [if_true, Bool.false_eq_true, if_false, Spi.emitAll_room, hroom] <;>
    simp [Spi.byteTaken, Spi.pendingRec, Spi.emitAll, hmosi, hmiso]

/-! ### The header decoder by position (42_link_header.md R200, R205, R208) -/

/-- The byte in hand counted in the position, as the header decoder does before it decodes it. -/
def Spi.posCounted (t : Spi) : Spi := { t with pos := t.pos + 1 }

section

variable {p : SpiParams} {r : SpiByteRec} {b : Byte} {t : Spi}

theorem Spi.headerByte_of_no_mosi (h : p.haveMosi = false) :
    t.headerByte p r = t.posCounted.noHeader t.pos := by
  simp [Spi.headerByte, Spi.posCounted, h]

theorem Spi.headerByte_zero (h : p.haveMosi = true) (hr : r.mosi = some b) (hpos : t.pos = 0) :
    t.headerByte p r = .ok (t.posCounted.hdr0 b r.start r.stop) := by
  simp [Spi.headerByte, Spi.posCounted, h, hr, hpos, need, bind, Except.bind]

theorem Spi.headerByte_one (h : p.haveMosi = true) (hr : r.mosi = some b) (hpos : t.pos = 1) :
    t.headerByte p r = .ok (t.posCounted.hdr1 b r.start r.stop) := by
  simp [Spi.headerByte, Spi.posCounted, h, hr, hpos, need, bind, Except.bind]

theorem Spi.headerByte_two (h : p.haveMosi = true) (hr : r.mosi = some b) (hpos : t.pos = 2) :
    t.headerByte p r = .ok (t.posCounted.hdr2 b r.start) := by
  simp [Spi.headerByte, Spi.posCounted, h, hr, hpos, need, bind, Except.bind]

theorem Spi.headerByte_three (h : p.haveMosi = true) (hr : r.mosi = some b) (hpos : t.pos = 3) :
    t.headerByte p r = t.posCounted.hdr3 p b r.miso r.start r.stop := by
  simp [Spi.headerByte, Spi.posCounted, h, hr, hpos, need, bind, Except.bind]

theorem Spi.headerByte_later {d : Dir} {c : Nat} (h : p.haveMosi = true) (hr : r.mosi = some b)
    (hpos : 4 ≤ t.pos) (hd : t.hdrDir = some d) (hc : t.hdrCount = some c) :
    t.headerByte p r = if c ≤ t.pos - 4 then t.posCounted.excessByte t.pos
      else t.posCounted.dataByte p t.pos (laneOf d r) := by
  have hlater : t.headerByte p r = t.posCounted.laterByte p r t.pos := by
    obtain ⟨k, hk⟩ := Nat.exists_eq_add_of_le' hpos
    simp [Spi.headerByte, Spi.posCounted, h, hr, hk, need, bind, Except.bind]
  rw [hlater]
  simp [Spi.laterByte, Spi.posCounted, hd, hc, need, natSub, hpos, bind, Except.bind]

end

/-! ### The SPI header rows on the record in hand (42_link_header.md R201 to R208) -/

section

variable {s : State} {pre : List SpiByteRec} {r : SpiByteRec} (h : s.spi.xfer = pre ++ [r])

include h

theorem exec_spiHdr0_last (b : Byte) : exec (.spiHdr0 (hdr0Dir b) (hdr0Count b)) s =
    onSpi s fun _ t => .ok (t.hdr0 b r.start r.stop) := by
  simp only [exec, execSpiHdr0, onSpi, Spi.lastIdx_append h, bind, Except.bind,
    Spi.bufRead_append h, hdr0Byte_fields]

theorem exec_spiHdr1_last (b : Byte) : exec (.spiHdr1 b) s =
    onSpi s fun _ t => .ok (t.hdr1 b r.start r.stop) := by
  simp only [exec, execSpiHdr1, onSpi, Spi.lastIdx_append h, bind, Except.bind, Spi.bufRead_append h]

theorem exec_spiHdr2_last (b : Byte) : exec (.spiHdr2 b) s =
    onSpi s fun _ t => .ok (t.hdr2 b r.start) := by
  simp only [exec, execSpiHdr2, onSpi, Spi.lastIdx_append h, bind, Except.bind, Spi.bufRead_append h]

theorem exec_spiHdr3_last (b : Byte) : exec (.spiHdr3 b) s =
    onSpi s fun p t => t.hdr3 p b r.miso r.start r.stop := by
  simp only [exec, execSpiHdr3, onSpi, Spi.lastIdx_append h, bind, Except.bind, Spi.bufRead_append h]

theorem exec_spiData_last (v : Option Byte) : exec (.spiData v) s =
    onSpi s fun p t => t.dataByte p pre.length v := by
  simp only [exec, execSpiData, onSpi, Spi.lastIdx_append h, bind, Except.bind]

theorem exec_spiExcess_last (v : Byte) : exec (.spiExcess v) s =
    onSpi s fun _ t => t.excessByte pre.length := by
  simp only [exec, execSpiExcess, onSpi, Spi.lastIdx_append h, bind, Except.bind]

theorem exec_spiNoHeader_last (v : Byte) : exec (.spiNoHeader v) s =
    onSpi s fun _ t => t.noHeader pre.length := by
  simp only [exec, execSpiNoHeader, onSpi, Spi.lastIdx_append h, bind, Except.bind]

end

/-! ### The I2C byte (41_byte_assembler.md R177, 42_link_header.md R210) -/

theorem exec_completeI2cByte (tr : Bool) (s : State) :
    exec (.completeI2cByte tr) s =
      onI2c s fun p t => t.completeByte p tr (if tr then some t.n else none) := rfl

/-- Events take no room in the buffer. -/
@[simp] theorem I2c.emitAll_room (p : I2cParams) (es : List OutEvent) (t : I2c) :
    (t.emitAll es).room p = t.room p := rfl

/-- The record of an I2C byte, left aligned (41_byte_assembler.md R177). -/
def I2c.pendingRec (tr : Bool) (start stop : Nat) (t : I2c) : I2cByteRec :=
  ⟨leftAlign t.acc t.bitcnt, start, stop, tr, t.phaseNo, .raw, t.rw, none⟩

/-- The stack that has reported its byte and appended its record; a whole byte awaits its acknowledge
bit. -/
def I2c.byteTaken (tr : Bool) (start stop : Nat) (ends : List Nat) (t : I2c) : I2c :=
  { t with
    xfer := t.xfer ++ [t.pendingRec tr start stop]
    ackIdx := if tr then t.ackIdx else some t.xfer.length
    out := t.out ++ laneEvents .sda (leftAlign t.acc t.bitcnt) t.bitStarts ends start stop tr }

/-- Completing a byte takes it and hands its record to the header decoder. -/
theorem I2c.completeByte_eq {p : I2cParams} {tr : Bool} {lastEnd : Option Nat} {t : I2c}
    {start stop : Nat} {ends : List Nat}
    (hpend : pendingByte t.bitcnt t.bitStarts lastEnd = .ok (start, stop, ends))
    (hroom : t.room p = true) : t.completeByte p tr lastEnd =
      (t.byteTaken tr start stop ends).headerByte p (t.pendingRec tr start stop) := by
  simp only [I2c.completeByte, hpend, bind, Except.bind, I2c.bufAppend_eq, I2c.emitAll_room, hroom]
  cases tr <;> simp [I2c.byteTaken, I2c.pendingRec, I2c.emitAll]

/-- The header decoder on the record in hand is the row that its phase selects (42_link_header.md
R210). -/
theorem onI2c_headerByte_last {s : State} {pre : List I2cByteRec} {r : I2cByteRec}
    (h : s.i2c.xfer = pre ++ [r]) : (onI2c s fun p t => t.headerByte p r) =
      if s.i2c.phase = .addr then exec (.i2cAddr (addrBits r.value) (addrDir r.value)) s
      else if s.i2c.matched = false then exec (.i2cRaw r.value) s
      else if s.i2c.expectReg = true then exec (.i2cRegnum r.value) s
      else exec (.i2cRegdata r.value) s := by
  have hidx := I2c.lastIdx_append h
  simp only [exec, execI2cAddr, execI2cRaw, execI2cRegnum, execI2cRegdata, onI2c, I2c.headerByte,
    hidx, bind, Except.bind, addrByte_fields]
  split_ifs <;> rfl

/-! ### The byte at a condition (41_byte_assembler.md R178) -/

/-- Two to seven bits are completed after a warning, and the bits go. -/
theorem I2c.partialAtCondition_of_partial (p : I2cParams) {t : I2c} {b : Nat} {bs : List Nat}
    (h2 : 2 ≤ t.bitcnt) (h7 : t.bitcnt ≤ 7) (hb : t.bitStarts = b :: bs) :
    t.partialAtCondition p =
      (t.diag .warnI2cPartialByte (spanOf b t.n) t.bitcnt).completeByte p true (some t.n)
        >>= fun u => .ok u.clearBits := by
  simp [I2c.partialAtCondition, h2, h7, hb, need, bind, Except.bind]

end Sys2Proof.Machine

open Sys2Proof Sys2Proof.Machine

/-- Settles O35: two to seven bits are a byte with a warning; otherwise the bits only go. -/
theorem partialByteAtACondition : Obligations.PartialByteAtACondition := by
  unfold Obligations.PartialByteAtACondition
  intro s
  simp only [exec_partialAtCondition]
  refine ⟨fun h => onI2c_of_ok (if_neg (by omega)), fun b bs h2 h7 hb => ?_⟩
  rw [exec_completeI2cByte]
  refine Eq.trans ?_ (onI2c_bind_ok _ _ I2c.clearBits)
  exact onI2c_eq_onI2c (I2c.partialAtCondition_of_partial _ h2 h7 hb)

/-- Settles O34: the byte is taken, and its phase selects the header row. -/
theorem i2cByteGoesToItsHeaderRow : Obligations.I2cByteGoesToItsHeaderRow := by
  unfold Obligations.I2cByteGoesToItsHeaderRow
  intro s tr b bs ends stop t hstarts hcnt h8 hends hstop hroom v bits r u
  obtain ⟨hpend, hlen, hlenEnds⟩ := pendingByte_of_bitEnds hstarts hcnt h8 hends hstop
  have hu : u = { s with i2c := t.byteTaken tr b stop ends } := by
    have hlane := fun x => laneEvents_eq .sda x hlen hlenEnds b stop tr
    simp only [I2c.byteTaken, hlane]
    rfl
  calc exec (.completeI2cByte tr) s
      = onI2c u fun p w => w.headerByte p r := by
        rw [exec_completeI2cByte, hu]
        exact onI2c_eq_onI2c (I2c.completeByte_eq hpend hroom)
    _ = _ := onI2c_headerByte_last rfl

/-- Settles O33: the byte is taken, and its position selects the header row. -/
theorem spiByteGoesToItsHeaderRow : Obligations.SpiByteGoesToItsHeaderRow := by
  unfold Obligations.SpiByteGoesToItsHeaderRow
  intro s tr b bs ends stop t p hstarts hcnt h8 hends hstop hroom hpos mv sv bits r u
  obtain ⟨hpend, hlen, hlenEnds⟩ := pendingByte_of_bitEnds hstarts hcnt h8 hends hstop
  have hu : u = { s with spi := (t.byteTaken p tr b stop ends).posCounted } := by
    have hlane := fun l x => laneEvents_eq l x hlen hlenEnds b stop tr
    simp only [Spi.posCounted, Spi.byteTaken, hlane]
    rfl
  have hlast : u.spi.xfer = t.xfer ++ [r] := rfl
  have hmosi : p.haveMosi = true → r.mosi = some mv := fun hm => if_pos hm
  have hrow : ∀ g : SpiParams → Spi → Run Spi,
      (t.byteTaken p tr b stop ends).headerByte p r =
        g p (t.byteTaken p tr b stop ends).posCounted →
      exec (.completeSpiByte tr) s = onSpi u g := by
    intro g hg
    rw [exec_completeSpiByte, hu]
    exact onSpi_eq_onSpi ((Spi.completeByte_eq hpend hroom).trans hg)
  refine ⟨fun hm => ?_, fun hm h0 => ?_, fun hm h1 => ?_, fun hm h2 => ?_, fun hm h3 => ?_,
    fun d c hm h4 hd hc => ?_⟩
  · rw [exec_spiNoHeader_last hlast, ← hpos]
    exact hrow _ (Spi.headerByte_of_no_mosi hm)
  · rw [exec_spiHdr0_last hlast]
    exact hrow _ (Spi.headerByte_zero hm (hmosi hm) h0)
  · rw [exec_spiHdr1_last hlast]
    exact hrow _ (Spi.headerByte_one hm (hmosi hm) h1)
  · rw [exec_spiHdr2_last hlast]
    exact hrow _ (Spi.headerByte_two hm (hmosi hm) h2)
  · rw [exec_spiHdr3_last hlast]
    exact hrow _ (Spi.headerByte_three hm (hmosi hm) h3)
  · have hbyte := Spi.headerByte_later (t := t.byteTaken p tr b stop ends) hm (hmosi hm) h4 hd hc
    rw [exec_spiExcess_last hlast, exec_spiData_last hlast, ← hpos]
    split
    · next hle => exact hrow _ (hbyte.trans (if_pos hle))
    · next hlt => exact hrow _ (hbyte.trans (if_neg hlt))

end

/-! ## Who writes the I2C register number (42_link_header.md R212, R216)

I2C_REGNUM alone writes it, and the header decoder runs that row only in a matched phase that awaits
the number. Inside a sample the decoder runs on the phase the sample began in. -/

section

namespace Sys2Proof.Machine

open Sys2Proof

/-- The next byte of the phase is a register number (42_link_header.md R210, R212). -/
structure I2c.AwaitsReg (s : I2c) : Prop where
  phase : s.phase = .data
  matched : s.matched = true
  expectReg : s.expectReg = true

variable {p : I2cParams} {s t : I2c} {k : Nat}

/-! ### The header rows that leave the register number -/

theorem I2c.DlOnly.reg_eq (h : s.DlOnly t) : t.reg = s.reg := by rw [h.rest]

theorem I2c.bufUpdate_reg {f : I2cByteRec → I2cByteRec} (ht : s.bufUpdate k f = .ok t) :
    t.reg = s.reg := by
  obtain ⟨-, rfl⟩ := (I2c.bufUpdate_eq_ok ..).mp ht
  rfl

theorem I2c.addrByteIn_reg {b : Byte} (ht : s.addrByteIn p k b = .ok t) : t.reg = s.reg := by
  simp only [I2c.addrByteIn, run_bind_eq_ok] at ht
  obtain ⟨u, hu, r, -, ht⟩ := ht
  have hreg := I2c.bufUpdate_reg hu
  cases ht
  exact hreg

theorem I2c.regData_reg {v : Byte} (ht : s.regData p k v = .ok t) : t.reg = s.reg := by
  simp only [I2c.regData, run_bind_eq_ok] at ht
  obtain ⟨d, -, u, hu, r, -, ht⟩ := ht
  have hreg : u.reg = s.reg := I2c.bufUpdate_reg (s := { s with j := s.j + 1 }) hu
  refine Eq.trans ?_ hreg
  split at ht
  · cases ht
    split <;> rfl
  · split at ht
    · exact (I2c.DlOnly.dlByte ht).reg_eq
    · cases ht
      rfl

/-! ### A byte and a sample -/

/-- The header decoder leaves the register number, or the phase awaits it. -/
theorem I2c.headerByte_reg {r : I2cByteRec} (ht : s.headerByte p r = .ok t) :
    t.reg = s.reg ∨ s.AwaitsReg := by
  simp only [I2c.headerByte, run_bind_eq_ok] at ht
  obtain ⟨idx, -, ht⟩ := ht
  split at ht
  · exact .inl (I2c.addrByteIn_reg ht)
  · next hphase =>
    split at ht
    · exact .inl (I2c.bufUpdate_reg ht)
    · next hmatched =>
      split at ht
      · next hexpect =>
        refine .inr ⟨?_, by simpa using hmatched, hexpect⟩
        cases hst : s.phase with
        | addr => exact absurd hst hphase
        | data => rfl
      · exact .inl (I2c.regData_reg ht)

theorem I2c.completeByte_reg {tr : Bool} {lastEnd : Option Nat}
    (ht : s.completeByte p tr lastEnd = .ok t) : t.reg = s.reg ∨ s.AwaitsReg := by
  obtain ⟨start, stop, ends, r, u, -, -, hu, ht⟩ := (I2c.completeByte_eq_ok ..).mp ht
  obtain ⟨-, rfl⟩ := (I2c.bufAppend_eq_ok ..).mp hu
  split at ht
  · exact (I2c.headerByte_reg ht).imp_right fun h => ⟨h.phase, h.matched, h.expectReg⟩
  · exact (I2c.headerByte_reg ht).imp_right fun h => ⟨h.phase, h.matched, h.expectReg⟩

theorem I2c.partialAtCondition_reg (ht : s.partialAtCondition p = .ok t) :
    t.reg = s.reg ∨ s.AwaitsReg := by
  unfold I2c.partialAtCondition at ht
  split at ht
  · simp only [run_bind_eq_ok] at ht
    obtain ⟨b0, -, u, hu, ht⟩ := ht
    cases ht
    exact (I2c.completeByte_reg hu).imp_right fun h => ⟨h.phase, h.matched, h.expectReg⟩
  · cases ht
    exact .inl rfl

theorem I2c.bit_reg {x : I2cSample} (ht : s.bit p x = .ok t) : t.reg = s.reg ∨ s.AwaitsReg := by
  rw [I2c.bit_eq] at ht
  split at ht
  · exact (I2c.completeByte_reg ht).imp_right fun h => ⟨h.phase, h.matched, h.expectReg⟩
  · cases ht
    exact .inl rfl

theorem I2c.writeAck_reg {ack : Bool} (ht : s.writeAck ack = .ok t) : t.reg = s.reg := by
  unfold I2c.writeAck at ht
  split at ht
  · exact I2c.bufUpdate_reg ht
  · cases ht
    rfl

theorem I2c.ackBit_reg {x : I2cSample} (ht : s.ackBit x = .ok t) : t.reg = s.reg := by
  simp only [I2c.ackBit, run_bind_eq_ok] at ht
  obtain ⟨b7, -, w, -, u, hu, ht⟩ := ht
  have hreg := I2c.writeAck_reg hu
  cases ht
  exact hreg

/-- What a sample does leaves the register number, or an open transfer's phase awaits it. -/
theorem I2c.SampleOp.reg {x : I2cSample} (h : I2c.SampleOp p x s t) :
    t.reg = s.reg ∨ s.active = true ∧ s.AwaitsReg := by
  cases h with
  | start => exact .inl rfl
  | rstart hact ht =>
    simp only [I2c.rstartCond, run_bind_eq_ok] at ht
    obtain ⟨u, hu, v, hv, ht⟩ := ht
    cases ht
    exact (I2c.partialAtCondition_reg hu).imp (I2c.DlOnly.endPhase hv).reg_eq.trans fun h => ⟨hact, h⟩
  | stop hact ht =>
    simp only [I2c.stopCond, run_bind_eq_ok] at ht
    obtain ⟨u, hu, v, hv, ht⟩ := ht
    cases ht
    rw [I2c.aggregate_eq]
    exact (I2c.partialAtCondition_reg hu).imp (I2c.DlOnly.endPhase hv).reg_eq.trans fun h => ⟨hact, h⟩
  | bit hact _ ht => exact (I2c.bit_reg ht).imp_right fun h => ⟨hact, h⟩
  | ack _ _ ht => exact .inl (I2c.ackBit_reg ht)

theorem I2c.takeSample_reg {x : I2cSample} (ht : s.takeSample p x = .ok t) :
    t.reg = s.reg ∨ s.active = true ∧ s.AwaitsReg := by
  rcases I2c.takeSample_cases ht with ⟨-, rfl⟩ | ⟨-, rfl⟩ | ⟨u, -, hu, rfl⟩
  · exact .inl rfl
  · exact .inl rfl
  · exact hu.reg

end Sys2Proof.Machine

open Sys2Proof.Machine

/-- Settles O19: only a phase that awaits a register number takes one, and in a sound state only a
matched WRITE phase awaits one. -/
theorem registerNumberChangesOnlyByRegnum : Obligations.RegisterNumberChangesOnlyByRegnum := by
  unfold Obligations.RegisterNumberChangesOnlyByRegnum
  intro s t x rest hinv hport hst hne
  cases StepTo.of_step hst with
  | i2c _ ht =>
    obtain ⟨hact, hawait⟩ := (I2c.takeSample_reg ht).resolve_left hne
    obtain ⟨-, -, -, -, ⟨-, -, -, hexpect, -⟩, -⟩ := hinv
    obtain ⟨-, hwrite, -⟩ := hexpect hawait.expectReg
    exact ⟨hact, hawait.phase, hawait.matched, hwrite, hawait.expectReg⟩
  | nothing h => exact absurd rfl hne
  | spi h => exact absurd rfl hne
  | reset h => rw [h] at hport; cases hport
  | params h => exact absurd rfl hne

end

/-! ## The SPI header bytes, written out (42_link_header.md R201 to R206)

A row reads its record as the last of the buffer; what it then does to the stack is one update. -/

section

namespace Sys2Proof.Machine

open Sys2Proof

/-! ### Fields of the header bytes (30_encoding.md R96, R111, R112) -/

@[simp] theorem dirOfBit_bitOfDir (d : Dir) : dirOfBit (bitOfDir d) = d := by
  cases d <;> rfl

theorem getLsbD_hdr0Byte_seven (d : Dir) (c : BitVec 7) : (hdr0Byte d c).getLsbD 7 = bitOfDir d := by
  rw [hdr0Byte, BitVec.getLsbD_append]
  simp

@[simp] theorem hdr0Dir_hdr0Byte (d : Dir) (c : BitVec 7) : hdr0Dir (hdr0Byte d c) = d := by
  rw [hdr0Dir, getLsbD_hdr0Byte_seven, dirOfBit_bitOfDir]

@[simp] theorem hdr0Count_hdr0Byte (d : Dir) (c : BitVec 7) : hdr0Count (hdr0Byte d c) = c := by
  rw [hdr0Count, hdr0Byte, BitVec.extractLsb'_append_eq_right]

/-- A field of one bit is that bit. -/
theorem bitField_single (b : Byte) (i : Nat) : bitField b i i = (b.getLsbD i).toNat := by
  rw [bitField_eq, BitVec.getLsbD, Nat.toNat_testBit]
  simp

/-- A 16-bit field joined from its bytes. -/
theorem joinLow_highByte (hi lo : Byte) : joinLow (highByte hi) lo = hi ++ lo := by
  refine BitVec.eq_of_getLsbD_eq fun i hi => ?_
  rw [joinLow, highByte, BitVec.getLsbD_append]
  by_cases h8 : i < 8
  · simp [h8, hi]
  · simp [h8, hi, Nat.le_of_not_lt h8]

/-- A sub-span of a byte in eighths of the byte's width (00_scope.md R14). -/
theorem subSpan_spanOf (a b off w : Nat) : subSpan (spanOf a b) off w =
    ⟨a + off * (((b : Rat) - a) / 8), a + (off + w : Nat) * (((b : Rat) - a) / 8)⟩ := by
  simp only [subSpan, spanOf, Nat.cast_add, Span.mk.injEq]
  constructor <;> ring

/-! ### Direction, count and address bytes (42_link_header.md R201 to R203) -/

theorem Spi.hdr0_eq (d : Dir) (c : BitVec 7) (a b : Nat) (t : Spi) :
    t.hdr0 (hdr0Byte d c) a b = { t with
      hdrDir := some d, hdrCount := some (c.toNat + 1), hdrB0Span := (a, b),
      out := t.out ++ [
        evAt a (a + ((b : Rat) - a) / 8) (.hdr .dir (bitOfDir d).toNat none),
        evAt (a + ((b : Rat) - a) / 8) b (.hdr .count (c.toNat + 1) none)] } := by
  have hwhole : (a : Rat) + (1 + 7 : Nat) * (((b : Rat) - a) / 8) = b := by
    push_cast
    ring
  simp only [Spi.hdr0, Spi.emit, hdr0Dir_hdr0Byte, hdr0Count_hdr0Byte, declaredCount,
    bitField_single, getLsbD_hdr0Byte_seven, subSpan_spanOf, hwhole, evAt]
  simp

/-! ### The register address and the ACK flag (42_link_header.md R203, R204, R206) -/

/-- A register address routes to the framer where the whole of it is a FIFO register's
(42_link_header.md R204). -/
theorem regRouted_of_full16 {p : SpiParams} (h : p.regMatch = .full16) (reg : BitVec 16) :
    regRouted p reg = decide (reg ∈ p.fifoRegs) := by
  rw [regRouted, h, Bool.eq_iff_iff]
  simp

/-- Under OFFSET12 the low twelve bits decide (42_link_header.md R204). -/
theorem regRouted_of_offset12 {p : SpiParams} (h : p.regMatch = .offset12) (reg : BitVec 16) :
    regRouted p reg = decide (∃ f ∈ p.fifoRegs, f.toNat % 4096 = reg.toNat % 4096) := by
  rw [regRouted, h, Bool.eq_iff_iff]
  simp [← BitVec.toNat_inj, BitVec.extractLsb'_toNat]

/-- The locality of a register address is its top four bits (42_link_header.md R203). -/
theorem toNat_locality (reg : BitVec 16) : (reg.extractLsb' 12 4).toNat = reg.toNat / 4096 := by
  have := reg.isLt
  rw [BitVec.extractLsb'_toNat, Nat.shiftRight_eq_div_pow]
  omega

/-- The ACK flag taken from a MISO byte of span `[a, b]`. -/
def Spi.flagTaken (p : SpiParams) (k : Byte) (a b : Nat) (t : Spi) : Spi :=
  { t with
    hdrAck := some (k.getLsbD p.ackBit == p.ackLevel)
    out := t.out ++ [evAt (a + (7 - p.ackBit.val : Nat) * (((b : Rat) - a) / 8))
      (a + (8 - p.ackBit.val : Nat) * (((b : Rat) - a) / 8))
      (.hdr .ack (k.getLsbD p.ackBit).toNat none)] }

theorem Spi.ackFlag_eq (p : SpiParams) (k : Byte) (a b : Nat) (t : Spi) :
    t.ackFlag p k a b = if p.haveMiso then t.flagTaken p k a b else t := by
  have hnext : 7 - p.ackBit.val + 1 = 8 - p.ackBit.val := by omega
  simp only [Spi.ackFlag, Spi.flagTaken, Spi.emit, subSpan_spanOf, hnext, evAt]

theorem exec_ackFlag_last {s : State} {pre : List SpiByteRec} {r : SpiByteRec}
    (h : s.spi.xfer = pre ++ [r]) (k : Byte) : exec (.ackFlag k) s =
      onSpi s fun p t => .ok (t.ackFlag p k r.start r.stop) := by
  simp only [exec, execAckFlag, onSpi, Spi.lastIdx_append h, bind, Except.bind, Spi.bufRead_append h]

/-- What is reported of a register address (42_link_header.md R203). -/
def regEvent (p : SpiParams) (reg : BitVec 16) : Event :=
  match lookupName p.knownReg reg with
  | some _ => .hdr .reg reg.toNat (lookupName p.knownReg reg)
  | none => .diag .errUnknownReg reg.toNat

theorem Spi.takeReg_eq_report (p : SpiParams) (reg : BitVec 16) (sp : Span) (t : Spi) :
    t.takeReg p reg sp = { t with
      hdrReg := some reg, hdrRegKnown := (lookupName p.knownReg reg).isSome,
      out := t.out ++ [⟨sp, regEvent p reg⟩] } := by
  simp only [Spi.takeReg, regEvent]
  cases lookupName p.knownReg reg <;> rfl

/-- The register address taken at byte 3, whose end is `stop`; byte 2 is `b2`. -/
def Spi.regTaken (p : SpiParams) (reg : BitVec 16) (stop : Nat) (b2 : SpiByteRec) (t : Spi) : Spi :=
  { t with
    hdrReg := some reg
    hdrRegKnown := (lookupName p.knownReg reg).isSome
    hdrRouted := regRouted p reg
    out := t.out ++ [
      evAt t.hdrB2Start stop (regEvent p reg),
      evAt b2.start (b2.start + ((b2.stop - b2.start : Rat) / 2))
        (.hdr .locality (reg.toNat / 4096) none)] }

/-- The ACK flag taken where the transfer is a READ with a MISO byte (42_link_header.md R203, R206). -/
def Spi.flagOfRead (p : SpiParams) (miso : Option Byte) (start stop : Nat) (t : Spi) : Spi :=
  match t.hdrDir, miso with
  | some .read, some k => t.ackFlag p k start stop
  | _, _ => t

theorem Spi.flagOfRead_of_write (p : SpiParams) (miso : Option Byte) (start stop : Nat) {t : Spi}
    (h : t.hdrDir ≠ some .read) : t.flagOfRead p miso start stop = t := by
  unfold Spi.flagOfRead
  split
  · next hdir => exact absurd hdir h
  · rfl

theorem Spi.flagOfRead_of_no_miso (p : SpiParams) (start stop : Nat) (t : Spi) :
    t.flagOfRead p none start stop = t := by
  simp [Spi.flagOfRead]

theorem Spi.flagOfRead_of_read (p : SpiParams) (k : Byte) (start stop : Nat) {t : Spi}
    (h : t.hdrDir = some .read) :
    t.flagOfRead p (some k) start stop = t.ackFlag p k start stop := by
  simp [Spi.flagOfRead, h]

/-- The routing decision and the ACK flag do not see each other. -/
theorem Spi.ackFlag_setRouted (p : SpiParams) (k : Byte) (start stop : Nat) (t : Spi) (routed : Bool) :
    { t.ackFlag p k start stop with hdrRouted := routed } =
      Spi.ackFlag p k start stop { t with hdrRouted := routed } := by
  unfold Spi.ackFlag
  split <;> rfl

theorem Spi.flagOfRead_setRouted (p : SpiParams) (miso : Option Byte) (start stop : Nat) (t : Spi)
    (routed : Bool) : { t.flagOfRead p miso start stop with hdrRouted := routed } =
      Spi.flagOfRead p miso start stop { t with hdrRouted := routed } := by
  unfold Spi.flagOfRead
  split
  · next hdir => simp [hdir, Spi.ackFlag_setRouted]
  · rfl

/-- SPI_HDR3 takes the register address, then the ACK flag of a READ. -/
theorem Spi.hdr3_eq (p : SpiParams) {t : Spi} {hi : Byte} {b2 : SpiByteRec}
    (hhi : t.hdrRegHi = some hi) (hb2 : t.xfer[2]? = some b2) (a : Byte) (miso : Option Byte)
    (start stop : Nat) : t.hdr3 p a miso start stop =
      .ok ((t.regTaken p (hi ++ a) stop b2).flagOfRead p miso start stop) := by
  have hhalf : (b2.start : Rat) + (0 + 4 : Nat) * (((b2.stop : Rat) - b2.start) / 8)
      = b2.start + ((b2.stop : Rat) - b2.start) / 2 := by
    push_cast
    ring
  simp only [Spi.hdr3, run_bind_eq_ok, need_eq_ok, joinLow_highByte, Spi.takeReg_eq_report,
    Spi.bufRead_eq_ok]
  refine ⟨hi, hhi, b2, hb2, ?_⟩
  have hspan : subSpan (spanOf b2.start b2.stop) 0 4 =
      ⟨b2.start, b2.start + ((b2.stop : Rat) - b2.start) / 2⟩ := by
    rw [subSpan_spanOf, hhalf]
    simp
  refine (congrArg Except.ok (Spi.flagOfRead_setRouted p miso start stop _ _)).trans ?_
  rw [toNat_locality, hspan]
  simp [Spi.regTaken, Spi.emit, evAt, spanOf]

end Sys2Proof.Machine

open Sys2Proof Sys2Proof.Machine

/-- Settles O39: the register address is taken and routed; only a READ with both MISO byte and lane
takes the flag. -/
theorem fourthHeaderByteGivesTheRegister : Obligations.FourthHeaderByteGivesTheRegister := by
  unfold Obligations.FourthHeaderByteGivesTheRegister
  intro s pre r b2 hi a h t p w ack
  have hack : ∀ k u, u.ackFlag p k r.start r.stop = if p.haveMiso then ack k u else u :=
    fun k u => Spi.ackFlag_eq p k r.start r.stop u
  refine ⟨?_, ?_⟩
  · rw [exec_ackFlag_last h]
    refine (onSpi_of_ok rfl).trans ?_
    rw [hack]
    cases p.haveMiso <;> rfl
  intro hhi hb2 reg nm routed v
  have hv : t.regTaken p reg r.stop b2 = v := by
    have hrouted : regRouted p reg = routed := by
      cases hmatch : p.regMatch with
      | full16 => exact (regRouted_of_full16 hmatch reg).trans (by simp only [routed, hmatch])
      | offset12 => exact (regRouted_of_offset12 hmatch reg).trans (by simp only [routed, hmatch])
    rw [Spi.regTaken, hrouted]
    rfl
  have hrow : exec (.spiHdr3 a) s = spiNext s (v.flagOfRead p r.miso r.start r.stop) := by
    rw [exec_spiHdr3_last h, ← hv]
    exact onSpi_of_ok (Spi.hdr3_eq p hhi hb2 a r.miso r.start r.stop)
  refine ⟨fun hdir => ?_, fun hdir => ?_⟩
  · rw [hrow, Spi.flagOfRead_of_write (t := v) p r.miso r.start r.stop hdir]
  · rw [hrow]
    cases r.miso with
    | none => rw [Spi.flagOfRead_of_no_miso]
    | some k =>
      rw [Spi.flagOfRead_of_read (t := v) p k r.start r.stop hdir, hack]
      cases p.haveMiso <;> rfl

/-- Settles O38: each of the three bytes is one update of the header registers. -/
theorem firstThreeHeaderBytes : Obligations.FirstThreeHeaderBytes := by
  unfold Obligations.FirstThreeHeaderBytes
  intro s pre r d c b h w
  refine ⟨?_, ?_, ?_⟩
  · have hrow := exec_spiHdr0_last h (hdr0Byte d c)
    rw [hdr0Dir_hdr0Byte, hdr0Count_hdr0Byte] at hrow
    rw [hrow]
    refine onSpi_of_ok ?_
    rw [Spi.hdr0_eq]
    cases d <;> rfl
  · rw [exec_spiHdr1_last h]
    exact onSpi_of_ok rfl
  · rw [exec_spiHdr2_last h]
    exact onSpi_of_ok rfl

end

/-! ## SPI bytes after the header, and fields, written out (42_link_header.md R205, R207, R208)

A data byte is marked and reported, then goes to a row of the framer or to FieldDecode: both stand at
the same last record. -/

section

namespace Sys2Proof.Machine

open Sys2Proof

/-! ### Fields of a register byte (42_link_header.md R207) -/

/-- What is reported of one field of the register byte `x` of span `[a, b]`. -/
def fieldReport (reg a b : Nat) (x : Byte) (f : FieldRec) : List OutEvent :=
  let w : Rat := ((b : Rat) - a) / 8
  let lo : Rat := a + (7 - f.hi.val : Nat) * w
  let hi : Rat := a + (7 - f.hi.val + (f.hi.val - f.lo.val + 1) : Nat) * w
  evAt lo hi (.regfield reg f.fieldId (x.toNat / 2 ^ f.lo.val % 2 ^ (f.hi.val - f.lo.val + 1)) f.valid)
    :: if f.valid then [] else [evAt lo hi (.diag .infoFieldInvalid f.fieldId)]

theorem fieldEvents_spanOf (fs : RegFields) (reg : Nat) (d : Dir) (i : Nat) (x : Byte) (a b : Nat) :
    fieldEvents fs reg d i x (spanOf a b) =
      (fieldsOf fs reg d i x).flatMap (fieldReport reg a b x) := by
  refine List.flatMap_congr fun f _ => ?_
  simp only [fieldReport, fieldSpan, subSpan_spanOf, bitField_eq, evAt]
  cases f.valid <;> rfl

/-- FieldDecode of the last record of the SPI buffer. -/
theorem Spi.fieldDecodeLast_eq {p : SpiParams} {x : Byte} {t : Spi} {pre : List SpiByteRec}
    {r : SpiByteRec} {reg : BitVec 16} {d : Dir} (h : t.xfer = pre ++ [r]) (h4 : 4 ≤ pre.length)
    (hreg : t.hdrReg = some reg) (hdir : t.hdrDir = some d) :
    t.fieldDecodeLast p x =
      .ok (t.fieldDecode p reg.toNat d (pre.length - 4) x (spanOf r.start r.stop)) := by
  simp [Spi.fieldDecodeLast, Spi.lastIdx_append h, Spi.bufRead_append h, hreg, hdir, need, natSub, h4,
    bind, Except.bind]

/-- FieldDecode of the last record of the I2C buffer. -/
theorem I2c.fieldDecodeLast_eq {p : I2cParams} {x : Byte} {t : I2c} {pre : List I2cByteRec}
    {r : I2cByteRec} {reg : Byte} {d : Dir} {k : Nat} (h : t.xfer = pre ++ [r])
    (hreg : t.reg = some reg) (hrw : t.rw = some d) (hj : t.j = k + 1) :
    t.fieldDecodeLast p x = .ok (t.fieldDecode p reg.toNat d k x (spanOf r.start r.stop)) := by
  simp [I2c.fieldDecodeLast, I2c.lastIdx_append h, I2c.bufRead_append h, hreg, hrw, hj, need, natSub,
    bind, Except.bind]

theorem exec_fieldDecode_spi (x : Byte) (s : State) :
    exec (.fieldDecode .spi x) s = onSpi s fun p t => t.fieldDecodeLast p x := rfl

theorem exec_fieldDecode_i2c (x : Byte) (s : State) :
    exec (.fieldDecode .i2c x) s = onI2c s fun p t => t.fieldDecodeLast p x := rfl

/-! ### Data and excess bytes (42_link_header.md R205) -/

/-- The byte in hand marked DATA. -/
def Spi.markedData (pre : List SpiByteRec) (r : SpiByteRec) (t : Spi) : Spi :=
  { t with xfer := pre ++ [{ r with role := .data }] }

@[simp] theorem Spi.markedData_hdrReg (pre : List SpiByteRec) (r : SpiByteRec) (t : Spi) :
    (t.markedData pre r).hdrReg = t.hdrReg := rfl

/-- A data byte marked and reported as register I/O. -/
def Spi.dataShown (pre : List SpiByteRec) (r : SpiByteRec) (reg : BitVec 16) (d : Dir) (x : Byte)
    (t : Spi) : Spi :=
  (t.markedData pre r).emit (spanOf r.start r.stop) (.regdata reg.toNat d (pre.length - 4) x)

section

variable {p : SpiParams} {t : Spi} {pre : List SpiByteRec} {r : SpiByteRec} {d : Dir}
  (h : t.xfer = pre ++ [r]) (h4 : 4 ≤ pre.length)

include h h4

theorem Spi.excessByte_eq : t.excessByte pre.length =
    .ok { t with
      xfer := pre ++ [{ r with role := .excess }]
      out := t.out ++ [evAt r.start r.stop (.diag .warnExcessByte (pre.length - 4))] } := by
  simp only [Spi.excessByte, natSub, if_pos h4, Spi.bufUpdate_append _ h, bind, Except.bind,
    Spi.bufRead_append (s := { t with xfer := pre ++ [{ r with role := .excess }] }) rfl]
  rfl

/-- A data byte is marked; with a value and a register it is reported, then routed or field-decoded. -/
theorem Spi.dataByte_eq (hdir : t.hdrDir = some d) (v : Option Byte) : t.dataByte p pre.length v =
    match v, t.hdrReg with
    | some x, some reg =>
      if t.hdrRouted then (t.dataShown pre r reg d x).framerByte p pre.length x d
      else (t.dataShown pre r reg d x).fieldDecodeLast p x
    | _, _ => .ok (t.markedData pre r) := by
  have hidx : natSub "pos" pre.length 4 = .ok (pre.length - 4) := if_pos h4
  have hneed : need "hdr_dir" t.hdrDir = .ok d := (need_eq_ok ..).mpr hdir
  have hmark : t.bufUpdate pre.length (fun q => { q with role := .data }) =
      .ok (t.markedData pre r) := Spi.bufUpdate_append _ h
  have hread : (t.markedData pre r).bufRead pre.length = .ok { r with role := .data } :=
    Spi.bufRead_append rfl
  simp only [Spi.dataByte, hidx, hneed, hmark, hread, bind, Except.bind, Spi.markedData_hdrReg]
  cases v with
  | none => rfl
  | some x =>
    cases hreg : t.hdrReg with
    | none => rfl
    | some reg =>
      simp only [Spi.fieldDecodeLast_eq (t := t.dataShown pre r reg d x) rfl h4 hreg hdir]
      rfl

end

/-! ### The framer row of a routed byte (43_command_framer.md R240, R241) -/

theorem exec_tpmOtherDir (x : Byte) (s : State) :
    exec (.tpmOtherDir x) s = onSpi s fun _ t => .ok t.tpmOtherDir := rfl

section

variable {s : State} {pre : List SpiByteRec} {r : SpiByteRec} {d : Dir} (x : Byte)
  (h : s.spi.xfer = pre ++ [r])

include h

theorem exec_tpmStart_last : exec (.tpmStart x) s = spiNext s (s.spi.tpmStart pre.length) := by
  simp only [exec, execTpmStart, onSpi, Spi.lastIdx_append h, bind, Except.bind, spiNext]

variable (hdir : s.spi.hdrDir = some d)

include hdir

theorem exec_tpmHdr_last : exec (.tpmHdr x) s = onSpi s fun p t => t.tpmHdr p pre.length x d := by
  simp only [exec, execTpmHdr, onSpi, Spi.lastIdx_append h, hdir, need, bind, Except.bind]

theorem exec_tpmPayload_last :
    exec (.tpmPayload x) s = onSpi s fun _ t => t.tpmPayload pre.length x d := by
  simp only [exec, execTpmPayload, onSpi, Spi.lastIdx_append h, hdir, need, bind, Except.bind]

theorem execAll_tpmStart_tpmHdr : execAll [.tpmStart x, .tpmHdr x] s =
    onSpi s fun p t => (t.tpmStart pre.length).tpmHdr p pre.length x d := by
  rw [execAll, exec_tpmStart_last x h, spiNext]
  refine (execAll_singleton _ _).trans ?_
  rw [exec_tpmHdr_last x (s := { s with spi := s.spi.tpmStart pre.length }) h hdir]
  rfl

/-- The state of the framer selects the row that takes a routed byte. -/
theorem onSpi_framerByte_last : (onSpi s fun p t => t.framerByte p pre.length x d) =
    match s.spi.fst with
    | .idle => execAll [.tpmStart x, .tpmHdr x] s
    | .hdr => exec (.tpmHdr x) s
    | .payload => if s.spi.fdir = some d then exec (.tpmPayload x) s else exec (.tpmOtherDir x) s := by
  rw [execAll_tpmStart_tpmHdr x h hdir, exec_tpmHdr_last x h hdir, exec_tpmPayload_last x h hdir,
    exec_tpmOtherDir]
  cases hst : s.spi.fst with
  | idle => exact onSpi_congr (by rw [Spi.framerByte, hst])
  | hdr => exact onSpi_congr (by rw [Spi.framerByte, hst])
  | payload =>
    have hbyte : s.spi.framerByte s.cfg.spi pre.length x d =
        if s.spi.fdir = some d then s.spi.tpmPayload pre.length x d else .ok s.spi.tpmOtherDir := by
      rw [Spi.framerByte, hst]
    change _ = if s.spi.fdir = some d then _ else _
    split
    · next hsame => exact onSpi_congr (hbyte.trans (if_pos hsame))
    · next hother => exact onSpi_congr (hbyte.trans (if_neg hother))

end

end Sys2Proof.Machine

open Sys2Proof Sys2Proof.Machine

/-- Settles O40: a data byte is marked, reported, and handed on; the other two rows mark the byte. -/
theorem spiDataExcessAndHeaderlessBytes : Obligations.SpiDataExcessAndHeaderlessBytes := by
  unfold Obligations.SpiDataExcessAndHeaderlessBytes
  intro s pre r d b h t
  refine ⟨?_, fun h4 => ?_, fun h4 hdir => ?_, fun v h4 hdir hreg => ?_, ?_⟩
  · rw [exec_spiNoHeader_last h]
    exact onSpi_of_ok (Spi.bufUpdate_append _ h)
  · rw [exec_spiExcess_last h]
    exact onSpi_of_ok (Spi.excessByte_eq h h4)
  · rw [exec_spiData_last h]
    exact onSpi_of_ok (Spi.dataByte_eq h h4 hdir none)
  · rw [exec_spiData_last h]
    refine onSpi_of_ok ((Spi.dataByte_eq h h4 hdir v).trans ?_)
    rw [hreg]
    cases v <;> rfl
  · intro x reg h4 hdir hreg u
    have hbyte : s.spi.dataByte s.cfg.spi pre.length (some x) =
        if s.spi.hdrRouted then u.spi.framerByte s.cfg.spi pre.length x d
        else u.spi.fieldDecodeLast s.cfg.spi x := by
      rw [Spi.dataByte_eq h h4 hdir, hreg]
      rfl
    rw [exec_spiData_last h]
    refine ⟨fun hrouted => ?_, fun hrouted => ?_⟩
    · exact onSpi_eq_onSpi (g := fun p v => v.fieldDecodeLast p x)
        (hbyte.trans (if_neg (by simp [hrouted])))
    · refine Eq.trans ?_ (onSpi_framerByte_last (s := u) x rfl hdir)
      exact onSpi_eq_onSpi (hbyte.trans (if_pos hrouted))

/-- Settles O41: the fields of the last record's byte, each in its eighths of the byte. -/
theorem fieldDecodeReportsEveryField : Obligations.FieldDecodeReportsEveryField := by
  unfold Obligations.FieldDecodeReportsEveryField
  intro s x d fields evs
  have hevs : ∀ fs reg i a b, fieldsOf fs reg d i x = fields →
      fieldEvents fs reg d i x (spanOf a b) = evs reg a b := by
    intro fs reg i a b hfields
    rw [fieldEvents_spanOf, hfields]
    rfl
  refine ⟨fun pre r reg h h4 hreg hdir hfields => ?_, fun pre r reg k h hreg hrw hj hfields => ?_⟩
  · rw [exec_fieldDecode_spi, ← hevs _ _ _ _ _ hfields]
    exact onSpi_of_ok (Spi.fieldDecodeLast_eq h h4 hreg hdir)
  · rw [exec_fieldDecode_i2c, ← hevs _ _ _ _ _ hfields]
    exact onI2c_of_ok (I2c.fieldDecodeLast_eq h hreg hrw hj)

end

/-! ## The bytes of an I2C phase, written out (42_link_header.md R210 to R214, 44_datalink_apdu.md R280) -/

section

namespace Sys2Proof.Machine

open Sys2Proof

/-! ### Fields of the address byte (30_encoding.md R101) -/

@[simp] theorem addrBits_addrByte (a : BitVec 7) (d : Dir) : addrBits (addrByte a d) = a := by
  rw [addrBits, addrByte, BitVec.extractLsb'_append_eq_left]

@[simp] theorem addrDir_addrByte (a : BitVec 7) (d : Dir) : addrDir (addrByte a d) = d := by
  rw [addrDir, addrByte, BitVec.getLsbD_append]
  simp

/-! ### The rows on the record in hand -/

section

variable {s : State} {pre : List I2cByteRec} {r : I2cByteRec} (h : s.i2c.xfer = pre ++ [r])

include h

theorem exec_i2cAddr_last (a : BitVec 7) (d : Dir) : exec (.i2cAddr a d) s =
    onI2c s fun p t => t.addrByteIn p pre.length (addrByte a d) := by
  simp only [exec, execI2cAddr, onI2c, I2c.lastIdx_append h, bind, Except.bind]

theorem exec_i2cRaw_last (b : Byte) : exec (.i2cRaw b) s =
    onI2c s fun _ t => t.rawByte pre.length := by
  simp only [exec, execI2cRaw, onI2c, I2c.lastIdx_append h, bind, Except.bind]

theorem exec_i2cRegnum_last (b : Byte) : exec (.i2cRegnum b) s =
    onI2c s fun p t => t.regNum p pre.length b := by
  simp only [exec, execI2cRegnum, onI2c, I2c.lastIdx_append h, bind, Except.bind]

theorem exec_i2cRegdata_last (v : Byte) : exec (.i2cRegdata v) s =
    onI2c s fun p t => t.regData p pre.length v := by
  simp only [exec, execI2cRegdata, onI2c, I2c.lastIdx_append h, bind, Except.bind]

end

/-! ### Address and register number (42_link_header.md R210, R212) -/

section

variable (p : I2cParams) {t : I2c} {pre : List I2cByteRec} {r : I2cByteRec}
  (h : t.xfer = pre ++ [r])

include h

theorem I2c.addrByteIn_eq (a : BitVec 7) (d : Dir) :
    t.addrByteIn p pre.length (addrByte a d) = .ok { t with
      addr7 := some a, rw := some d, matched := decide (a = p.targetAddr), phase := .data,
      expectReg := decide (a = p.targetAddr ∧ d = .write),
      xfer := pre ++ [{ r with kind := .addr, dir := some d }],
      out := t.out ++ [evAt r.start r.stop (.addr a d (decide (a = p.targetAddr)))] } := by
  have hmatch : (a == p.targetAddr) = decide (a = p.targetAddr) := beq_eq_decide ..
  have hexpect : (decide (a = p.targetAddr) && d == .write) =
      decide (a = p.targetAddr ∧ d = .write) := by
    rw [Bool.decide_and, beq_eq_decide d]
  simp only [I2c.addrByteIn, addrBits_addrByte, addrDir_addrByte, run_bind_eq_ok,
    I2c.bufUpdate_eq_ok, I2c.bufRead_eq_ok]
  refine ⟨_, ⟨by simp [h], rfl⟩, { r with kind := .addr, dir := some d }, by simp [h, modify_last], ?_⟩
  simp only [hexpect, hmatch, h, modify_last]
  rfl

/-- What is reported of a register number (42_link_header.md R212). -/
def regnumEvent (p : I2cParams) (b : Byte) : Event :=
  match lookupName p.knownReg b with
  | some nm => .hdr .i2cReg b.toNat (some nm)
  | none => .diag .errUnknownI2cReg b.toNat

theorem I2c.regNum_eq (b : Byte) : t.regNum p pre.length b = .ok { t with
    reg := some b, expectReg := false, regKnown := (lookupName p.knownReg b).isSome,
    xfer := pre ++ [{ r with kind := .reg, dir := some .write }],
    out := t.out ++ [evAt r.start r.stop (regnumEvent p b)] } := by
  simp only [I2c.regNum, run_bind_eq_ok, I2c.bufUpdate_eq_ok, I2c.bufRead_eq_ok]
  refine ⟨_, ⟨by simp [h], rfl⟩, { r with kind := .reg, dir := some .write },
    by simp [h, modify_last], ?_⟩
  simp only [regnumEvent, h, modify_last]
  cases lookupName p.knownReg b <;> rfl

end

/-! ### Register data (42_link_header.md R213, R214) -/

/-- The byte in hand marked DATA and counted. -/
def I2c.dataCounted (pre : List I2cByteRec) (r : I2cByteRec) (d : Dir) (t : I2c) : I2c :=
  { t with j := t.j + 1, xfer := pre ++ [{ r with kind := .data, dir := some d }] }

/-- Register data marked, counted and reported. -/
def I2c.dataShown (pre : List I2cByteRec) (r : I2cByteRec) (d : Dir) (reg v : Byte) (t : I2c) : I2c :=
  (t.dataCounted pre r d).emit (spanOf r.start r.stop) (.regdata reg.toNat d t.j v)

/-- Register data is marked and counted; with a register it is reported, then parsed or field-decoded;
without one the first byte is warned of. -/
theorem I2c.regData_eq (p : I2cParams) {t : I2c} {pre : List I2cByteRec} {r : I2cByteRec} {d : Dir}
    (h : t.xfer = pre ++ [r]) (hrw : t.rw = some d) (v : Byte) : t.regData p pre.length v =
      match t.reg with
      | none => .ok (if t.j = 0 then (t.dataCounted pre r d).diag .warnNoRegister
          (spanOf r.start r.stop) 0 else t.dataCounted pre r d)
      | some reg =>
        if reg = p.dataReg then (t.dataShown pre r d reg v).dlByte p pre.length t.j v d
        else (t.dataShown pre r d reg v).fieldDecodeLast p v := by
  have hneed : need "rw" t.rw = .ok d := (need_eq_ok ..).mpr hrw
  have hmark : I2c.bufUpdate pre.length (fun q => { q with kind := .data, dir := some d })
      { t with j := t.j + 1 } = .ok (t.dataCounted pre r d) := I2c.bufUpdate_append _ h
  have hread : (t.dataCounted pre r d).bufRead pre.length =
      .ok { r with kind := .data, dir := some d } := I2c.bufRead_append rfl
  simp only [I2c.regData, hneed, hmark, hread, bind, Except.bind]
  cases hreg : t.reg with
  | none =>
    have hcounted : (t.dataCounted pre r d).reg = none := hreg
    rw [hcounted]
  | some reg =>
    have hcounted : (t.dataCounted pre r d).reg = some reg := hreg
    simp only [I2c.fieldDecodeLast_eq (t := t.dataShown pre r d reg v) rfl hreg hrw rfl]
    rw [hcounted]
    rfl

/-! ### The datalink row of a data byte (44_datalink_apdu.md R280) -/

/-- The row that takes the byte `v` of the data register, by the state of the datalink parser. -/
def dlRow (v : Byte) : DlSt → Instr
  | .fctr => .dlFctr (v.extractLsb' 7 1) (v.extractLsb' 5 2) (v.extractLsb' 4 1)
      (v.extractLsb' 2 2) (v.extractLsb' 0 2)
  | .len0 => .dlLen0 v
  | .len1 => .dlLen1 v
  | .pctr => .dlPctr (v.extractLsb' 4 4) (v.extractLsb' 3 1) (v.extractLsb' 0 3)
  | .sctr => .dlSctr (v.extractLsb' 6 2) (v.extractLsb' 2 4) (v.extractLsb' 0 2)
  | .pay => .dlPay v
  | .fcs0 => .dlFcs0 v
  | .fcs1 => .dlFcs1 v
  | .done => .dlExcess v

/-- The parser on the byte in hand is the row that its state selects. -/
theorem exec_dlRow_last {s : State} {pre : List I2cByteRec} {r : I2cByteRec} {d : Dir} {j : Nat}
    (h : s.i2c.xfer = pre ++ [r]) (hrw : s.i2c.rw = some d) (hj : s.i2c.j = j + 1) (v : Byte) :
    exec (dlRow v s.i2c.dl.dst) s = onI2c s fun p t => t.dlByte p pre.length j v d := by
  have hidx := I2c.lastIdx_append h
  have hneed : need "rw" s.i2c.rw = .ok d := (need_eq_ok ..).mpr hrw
  have hcount : natSub "j" s.i2c.j 1 = .ok j := by simp [hj, natSub]
  cases hst : s.i2c.dl.dst with
  | fctr =>
    simp only [dlRow, exec, execDlFctr, onI2c, hidx, bind, Except.bind, fctrByte_fields, I2c.dlByte, hst]
  | len0 => simp only [dlRow, exec, execDlLen0, onI2c, hidx, bind, Except.bind, I2c.dlByte, hst]
  | len1 => simp only [dlRow, exec, execDlLen1, onI2c, hidx, bind, Except.bind, I2c.dlByte, hst]
  | pctr =>
    simp only [dlRow, exec, execDlPctr, onI2c, hidx, hneed, bind, Except.bind, pctrByte_fields,
      I2c.dlByte, hst]
  | sctr =>
    simp only [dlRow, exec, execDlSctr, onI2c, hidx, hneed, bind, Except.bind, sctrByte_fields,
      I2c.dlByte, hst]
  | pay => simp only [dlRow, exec, execDlPay, onI2c, hidx, hneed, bind, Except.bind, I2c.dlByte, hst]
  | fcs0 => simp only [dlRow, exec, execDlFcs0, onI2c, hidx, bind, Except.bind, I2c.dlByte, hst]
  | fcs1 => simp only [dlRow, exec, execDlFcs1, onI2c, hidx, hneed, bind, Except.bind, I2c.dlByte, hst]
  | done =>
    simp only [dlRow, exec, execDlExcess, onI2c, hidx, hcount, bind, Except.bind, I2c.dlByte, hst]

end Sys2Proof.Machine

open Sys2Proof Sys2Proof.Machine

/-- Settles O42: each of the three rows is one update of the phase and of the record in hand. -/
theorem phaseHeaderBytes : Obligations.PhaseHeaderBytes := by
  unfold Obligations.PhaseHeaderBytes
  intro s pre r a d b h
  refine ⟨?_, ?_, ?_⟩
  · rw [exec_i2cAddr_last h]
    exact onI2c_of_ok (I2c.addrByteIn_eq _ h a d)
  · rw [exec_i2cRaw_last h]
    exact onI2c_of_ok (I2c.bufUpdate_append _ h)
  · rw [exec_i2cRegnum_last h]
    exact onI2c_of_ok (I2c.regNum_eq _ h b)

/-- Settles O43: register data is counted, reported, and handed to the datalink row or to FieldDecode. -/
theorem registerDataIsReportedAndRouted : Obligations.RegisterDataIsReportedAndRouted := by
  unfold Obligations.RegisterDataIsReportedAndRouted
  intro s pre r v d h hrw t
  rw [exec_i2cRegdata_last h]
  have hbyte := I2c.regData_eq s.cfg.i2c h hrw v
  refine ⟨fun hreg => ?_, ?_⟩
  · rw [hreg] at hbyte
    refine onI2c_of_ok (hbyte.trans ?_)
    by_cases hj : s.i2c.j = 0
    · simp only [hj, if_true]
      rfl
    · simp only [hj, if_false, List.append_nil]
      rfl
  · intro reg hreg u
    rw [hreg] at hbyte
    refine ⟨fun hother => ?_, fun hdata => ?_⟩
    · exact onI2c_eq_onI2c (g := fun p w => w.fieldDecodeLast p v) (hbyte.trans (if_neg hother))
    · refine Eq.trans ?_ (exec_dlRow_last (s := u) rfl hrw rfl v).symm
      exact onI2c_eq_onI2c (hbyte.trans (if_pos hdata))

end

/-! ## Name tables decide only names (43_command_framer.md R250, 70_reset_and_hazards.md R408): what both
stacks share

Two runs of a stack that differ in their name and field tables go side by side: each operation leads from
stacks that are the same but for names to stacks that are the same but for names, and no operation reads
what differs. Where a proof takes the relation `h` apart to see that, and still needs it, it takes `id h`
apart. -/

section

namespace Sys2Proof.Machine

open Sys2Proof

/-! ### Runs side by side -/

/-- Where `x` answers, so does `y`, with an answer that `R` relates to that of `x`. -/
def Run.Sim {α β : Type} (R : α → β → Prop) (x : Run α) (y : Run β) : Prop :=
  ∀ a, x = .ok a → ∃ b, y = .ok b ∧ R a b

section

variable {α β γ δ : Type} {R : α → β → Prop} {S : γ → δ → Prop}

theorem Run.Sim.ok {a : α} {b : β} (h : R a b) : Run.Sim R (.ok a) (.ok b) := by
  rintro _ ⟨⟩
  exact ⟨b, rfl, h⟩

/-- A run that stops is followed by any. -/
theorem Run.Sim.stop {e : Stop} {y : Run β} : Run.Sim R (.error e) y :=
  fun _ h => nomatch h

theorem Run.Sim.bind {x : Run α} {y : Run β} {f : α → Run γ} {g : β → Run δ} (h : Run.Sim R x y)
    (hf : ∀ a b, R a b → Run.Sim S (f a) (g b)) : Run.Sim S (x >>= f) (y >>= g) := by
  intro c hc
  obtain ⟨a, ha, hc⟩ := (run_bind_eq_ok ..).mp hc
  obtain ⟨b, hb, hab⟩ := h a ha
  obtain ⟨d, hd, hcd⟩ := hf a b hab c hc
  exact ⟨d, (run_bind_eq_ok ..).mpr ⟨b, hb, hd⟩, hcd⟩

/-- Both runs read the same value. -/
theorem Run.Sim.read {x y : Run α} {f : α → Run γ} {g : α → Run δ} (h : y = x)
    (hf : ∀ a, Run.Sim S (f a) (g a)) : Run.Sim S (x >>= f) (y >>= g) := by
  subst h
  refine Run.Sim.bind (R := Eq) (fun a ha => ⟨a, ha, rfl⟩) ?_
  rintro a _ rfl
  exact hf a

/-- Both runs take the same branch. -/
theorem Run.Sim.ite {c : Prop} [Decidable c] {x x' : Run α} {y y' : Run β} (h : Run.Sim R x y)
    (h' : Run.Sim R x' y') : Run.Sim R (if c then x else x') (if c then y else y') := by
  split
  · exact h
  · exact h'

end

/-! ### Events side by side -/

@[simp] theorem unnamedEvents_nil : unnamedEvents [] = [] := rfl

/-- An event alone, read without names. -/
theorem unnamedEvents_singleton (sp : Span) (e : Event) :
    unnamedEvents [⟨sp, e⟩] = (e.unnamed.map fun v => OutEvent.mk sp v).toList := by
  cases h : e.unnamed <;> simp [unnamedEvents, h]

/-- Two events at one place that report the same but for names. -/
theorem unnamedEvents_singleton_congr (sp : Span) {e f : Event} (h : e.unnamed = f.unnamed) :
    unnamedEvents [⟨sp, e⟩] = unnamedEvents [⟨sp, f⟩] := by
  rw [unnamedEvents_singleton, unnamedEvents_singleton, h]

/-- The bound of 10_state.md R66 reads no name. -/
theorem unnamedEvents_map_boundBy (n : Nat) (es : List OutEvent) :
    unnamedEvents (es.map (OutEvent.boundBy n)) = (unnamedEvents es).map (OutEvent.boundBy n) := by
  simp only [unnamedEvents, List.filterMap_map, List.map_filterMap]
  congr 1
  funext e
  simp only [Function.comp_apply, OutEvent.boundBy_event, Option.map_map]
  rfl

/-- `out` is `a` and then some events, `out'` is `b` and then events that are the same but for names. -/
def EmitAlike (a b out out' : List OutEvent) : Prop :=
  ∃ es fs, out = a ++ es ∧ out' = b ++ fs ∧ unnamedEvents es = unnamedEvents fs

variable {a b out out' : List OutEvent}

theorem EmitAlike.refl (a b : List OutEvent) : EmitAlike a b a b := ⟨[], [], by simp⟩

/-- Events that are the same but for names may follow. -/
theorem EmitAlike.append (h : EmitAlike a b out out') {es fs : List OutEvent}
    (he : unnamedEvents es = unnamedEvents fs) : EmitAlike a b (out ++ es) (out' ++ fs) := by
  obtain ⟨es0, fs0, rfl, rfl, h0⟩ := h
  exact ⟨es0 ++ es, fs0 ++ fs, by simp, by simp, by simp [h0, he]⟩

/-- The same event may follow. -/
theorem EmitAlike.concat (h : EmitAlike a b out out') (e : OutEvent) :
    EmitAlike a b (out ++ [e]) (out' ++ [e]) := h.append rfl

/-- The event port lets events through that are the same but for names. -/
theorem EmitAlike.portEvents (h : EmitAlike a b out out') (bound : Bool) (n : Nat) :
    EmitAlike a b (portEvents bound n a out) (portEvents bound n b out') := by
  obtain ⟨es, fs, rfl, rfl, he⟩ := h
  rw [portEvents_append, portEvents_append]
  refine ⟨_, _, rfl, rfl, ?_⟩
  cases bound
  · exact he
  · simp only [if_true, unnamedEvents_map_boundBy, he]

/-- What follows is the same but for names. -/
theorem EmitAlike.drop (h : EmitAlike a b out out') :
    unnamedEvents (out'.drop b.length) = unnamedEvents (out.drop a.length) := by
  obtain ⟨es, fs, rfl, rfl, he⟩ := h
  simpa using he.symm

end Sys2Proof.Machine

end

/-! ## The SPI stack under other tables (43_command_framer.md R250) -/

section

namespace Sys2Proof

/-- The parameters `p` with the name tables and the field table of `q`. -/
def SpiParams.withTables (p q : SpiParams) : SpiParams :=
  { p with
    knownReg := q.knownReg
    knownTag := q.knownTag
    knownCc := q.knownCc
    knownRc := q.knownRc
    regFields := q.regFields }

end Sys2Proof

namespace Sys2Proof.Machine

open Sys2Proof

/-- Two SPI stacks that differ only in the `known` flag and in the names of the events that follow `a` and
`b`. -/
def Spi.Alike (a b : List OutEvent) (s u : Spi) : Prop :=
  ∃ out known, EmitAlike a b s.out out ∧ u = { s with out := out, hdrRegKnown := known }

variable {a b : List OutEvent} {p q : SpiParams} {s u s' u' : Spi}

theorem Spi.Alike.ite {c : Prop} [Decidable c] (h : Spi.Alike a b s u) (h' : Spi.Alike a b s' u') :
    Spi.Alike a b (if c then s else s') (if c then u else u') := by
  split
  · exact h
  · exact h'

theorem Spi.Alike.emitAll (h : Spi.Alike a b s u) {es fs : List OutEvent}
    (he : unnamedEvents es = unnamedEvents fs) : Spi.Alike a b (s.emitAll es) (u.emitAll fs) := by
  obtain ⟨o, known, ho, rfl⟩ := h
  exact ⟨_, _, ho.append he, rfl⟩

theorem Spi.Alike.emit (h : Spi.Alike a b s u) {sp : Span} {e f : Event}
    (he : e.unnamed = f.unnamed) : Spi.Alike a b (s.emit sp e) (u.emit sp f) :=
  h.emitAll (unnamedEvents_singleton_congr sp he)

theorem Spi.Alike.bufAppend (h : Spi.Alike a b s u) (r : SpiByteRec) :
    Run.Sim (Spi.Alike a b) (s.bufAppend p r) (u.bufAppend (p.withTables q) r) := by
  obtain ⟨o, known, ho, rfl⟩ := h
  intro t ht
  obtain ⟨hroom, rfl⟩ := (Spi.bufAppend_eq_ok ..).mp ht
  exact ⟨_, (Spi.bufAppend_eq_ok ..).mpr ⟨hroom, rfl⟩, _, _, ho, rfl⟩

theorem Spi.Alike.bufUpdate (h : Spi.Alike a b s u) (k : Nat) (f : SpiByteRec → SpiByteRec) :
    Run.Sim (Spi.Alike a b) (s.bufUpdate k f) (u.bufUpdate k f) := by
  obtain ⟨o, known, ho, rfl⟩ := h
  intro t ht
  obtain ⟨hk, rfl⟩ := (Spi.bufUpdate_eq_ok ..).mp ht
  exact ⟨_, (Spi.bufUpdate_eq_ok ..).mpr ⟨hk, rfl⟩, _, _, ho, rfl⟩

/-! ### The framer (43_command_framer.md) -/

theorem Spi.Alike.closeFrame (h : Spi.Alike a b s u) (k : Nat) :
    Run.Sim (Spi.Alike a b) (s.closeFrame k) (u.closeFrame k) := by
  obtain ⟨o, known, ho, rfl⟩ := h
  intro t ht
  obtain ⟨d, f, hd, hf, rfl⟩ := (Spi.closeFrame_eq_ok ..).mp ht
  exact ⟨_, (Spi.closeFrame_eq_ok ..).mpr ⟨d, f, hd, hf, rfl⟩, _, _, ho, rfl⟩

/-- The event of a complete code is the code, known or unknown (43_command_framer.md R245). -/
theorem codeEvent_unnamed (p : SpiParams) (d : Dir) (code : BitVec 32) :
    (codeEvent p d code).unnamed = some (.field .tpm .code code.toNat none) := by
  unfold codeEvent
  cases lookupName (codeTable p d) code <;> cases d <;> rfl

/-- A tag is reported, known or unknown (43_command_framer.md R243). -/
theorem Spi.Alike.tpmTagDone (h : Spi.Alike a b s u) (sp : Span) :
    Spi.Alike a b (s.tpmTagDone p sp) (u.tpmTagDone (p.withTables q) sp) := by
  obtain ⟨o, known, ho, rfl⟩ := h
  simp only [Spi.tpmTagDone]
  split <;> split <;> refine Spi.Alike.emit ?_ rfl <;> exact ⟨_, _, ho, rfl⟩

theorem Spi.Alike.tpmLenDone (h : Spi.Alike a b s u) (sp : Span) :
    Spi.Alike a b (s.tpmLenDone sp) (u.tpmLenDone sp) := by
  obtain ⟨o, known, ho, rfl⟩ := h
  exact .ite ⟨_, _, (ho.concat _).concat _, rfl⟩ ⟨_, _, ho.concat _, rfl⟩

theorem Spi.Alike.tpmCodeDone (h : Spi.Alike a b s u) (k : Nat) (d : Dir) (sp : Span) :
    Run.Sim (Spi.Alike a b) (s.tpmCodeDone p k d sp) (u.tpmCodeDone (p.withTables q) k d sp) := by
  obtain ⟨o, known, ho, rfl⟩ := h
  have hcode := (codeEvent_unnamed p d s.facc).trans (codeEvent_unnamed (p.withTables q) d s.facc).symm
  have ho' := ho.append (unnamedEvents_singleton_congr sp hcode)
  exact .read rfl fun size =>
    .ite (Spi.Alike.closeFrame ⟨_, _, ho', rfl⟩ k) (.ok ⟨_, _, ho', rfl⟩)

theorem Spi.Alike.fieldDone (h : Spi.Alike a b s u) (k : Nat) (d : Dir) (sp : Span) :
    Run.Sim (Spi.Alike a b) (s.fieldDone p k d sp) (u.fieldDone (p.withTables q) k d sp) := by
  have hfh : u.fh = s.fh := by
    obtain ⟨o, known, ho, rfl⟩ := h
    rfl
  simp only [Spi.fieldDone, hfh]
  exact .ite (.ok (h.tpmTagDone sp)) (.ite (.ok (h.tpmLenDone sp)) (.ite (h.tpmCodeDone k d sp) (.ok h)))

theorem Spi.Alike.beginField (h : Spi.Alike a b s u) (start : Nat) :
    Spi.Alike a b (s.beginField start) (u.beginField start) := by
  obtain ⟨o, known, ho, rfl⟩ := h
  exact .ite ⟨_, _, ho, rfl⟩ ⟨_, _, ho, rfl⟩

theorem Spi.Alike.tpmHdr (h : Spi.Alike a b s u) (k : Nat) (x : Byte) (d : Dir) :
    Run.Sim (Spi.Alike a b) (s.tpmHdr p k x d) (u.tpmHdr (p.withTables q) k x d) := by
  obtain ⟨o, known, ho, rfl⟩ := h
  refine .bind (Spi.Alike.bufUpdate ⟨_, _, ho, rfl⟩ k _) fun t v h => ?_
  obtain ⟨o, known, ho, rfl⟩ := h
  refine .read rfl fun r => ?_
  have hbegun := Spi.Alike.beginField (s := t) ⟨o, known, ho, rfl⟩ r.start
  generalize Spi.beginField r.start { t with out := o, hdrRegKnown := known } = v at hbegun ⊢
  obtain ⟨o, known, ho, rfl⟩ := hbegun
  refine Spi.Alike.fieldDone ?_ k d _
  exact ⟨_, _, ho, rfl⟩

theorem Spi.Alike.tpmPayload (h : Spi.Alike a b s u) (k : Nat) (x : Byte) (d : Dir) :
    Run.Sim (Spi.Alike a b) (s.tpmPayload k x d) (u.tpmPayload k x d) := by
  obtain ⟨o, known, ho, rfl⟩ := h
  refine .bind (Spi.Alike.bufUpdate ⟨_, _, ho, rfl⟩ k _) fun t v h => ?_
  obtain ⟨o, known, ho, rfl⟩ := h
  exact .read rfl fun r =>
    .ite (Spi.Alike.closeFrame ⟨_, _, ho.concat _, rfl⟩ k) (.ok ⟨_, _, ho.concat _, rfl⟩)

theorem Spi.Alike.framerByte (h : Spi.Alike a b s u) (k : Nat) (x : Byte) (d : Dir) :
    Run.Sim (Spi.Alike a b) (s.framerByte p k x d) (u.framerByte (p.withTables q) k x d) := by
  obtain ⟨o, known, ho, rfl⟩ := h
  simp only [Spi.framerByte]
  split
  · refine Spi.Alike.tpmHdr ?_ k x d
    exact ⟨_, _, ho, rfl⟩
  · exact Spi.Alike.tpmHdr ⟨_, _, ho, rfl⟩ k x d
  · exact .ite (Spi.Alike.tpmPayload ⟨_, _, ho, rfl⟩ k x d) (.ok ⟨_, _, ho, rfl⟩)

/-! ### The link header (42_link_header.md) -/

theorem Spi.Alike.ackFlag (h : Spi.Alike a b s u) (x : Byte) (start stop : Nat) :
    Spi.Alike a b (s.ackFlag p x start stop) (u.ackFlag (p.withTables q) x start stop) := by
  obtain ⟨o, known, ho, rfl⟩ := h
  exact .ite ⟨_, _, ho.concat _, rfl⟩ ⟨_, _, ho, rfl⟩

/-- A register address is reported, known or unknown (42_link_header.md R203). -/
theorem Spi.Alike.takeReg (h : Spi.Alike a b s u) (reg : BitVec 16) (sp : Span) :
    Spi.Alike a b (s.takeReg p reg sp) (u.takeReg (p.withTables q) reg sp) := by
  obtain ⟨o, known, ho, rfl⟩ := h
  simp only [Spi.takeReg]
  split <;> split <;> refine Spi.Alike.emit ?_ rfl <;> exact ⟨_, _, ho, rfl⟩

theorem Spi.Alike.withRouted (h : Spi.Alike a b s u) (routed : Bool) :
    Spi.Alike a b { s with hdrRouted := routed } { u with hdrRouted := routed } := by
  obtain ⟨o, known, ho, rfl⟩ := h
  exact ⟨_, _, ho, rfl⟩

theorem Spi.Alike.hdr3 (h : Spi.Alike a b s u) (x : Byte) (miso : Option Byte) (start stop : Nat) :
    Run.Sim (Spi.Alike a b) (s.hdr3 p x miso start stop)
      (u.hdr3 (p.withTables q) x miso start stop) := by
  obtain ⟨o, known, ho, rfl⟩ := id h
  refine .read rfl fun hi => ?_
  have htaken := h.takeReg (p := p) (q := q) (joinLow (highByte hi) x) (spanOf s.hdrB2Start stop)
  dsimp only
  generalize Spi.takeReg p _ _ s = t at htaken ⊢
  generalize Spi.takeReg (p.withTables q) _ _ _ = v at htaken ⊢
  obtain ⟨o, known, ho, rfl⟩ := htaken
  refine .read rfl fun b2 => .ok (Spi.Alike.withRouted ?_ (regRouted p (joinLow (highByte hi) x)))
  dsimp only [Spi.emit]
  split
  · refine Spi.Alike.ackFlag ?_ _ start stop
    exact ⟨_, _, ho.concat _, rfl⟩
  · exact ⟨_, _, ho.concat _, rfl⟩

/-- The fields of a byte are no part of what is compared (42_link_header.md R207). -/
theorem Spi.Alike.fieldDecode (h : Spi.Alike a b s u) (reg : Nat) (d : Dir) (i : Nat) (x : Byte)
    (sp : Span) :
    Spi.Alike a b (s.fieldDecode p reg d i x sp) (u.fieldDecode (p.withTables q) reg d i x sp) :=
  h.emitAll (by simp)

theorem Spi.Alike.excessByte (h : Spi.Alike a b s u) (k : Nat) :
    Run.Sim (Spi.Alike a b) (s.excessByte k) (u.excessByte k) := by
  refine .read rfl fun i => .bind (h.bufUpdate k _) fun t v h => ?_
  obtain ⟨o, known, ho, rfl⟩ := h
  exact .read rfl fun r => .ok ⟨_, _, ho.concat _, rfl⟩

theorem Spi.Alike.dataByte (h : Spi.Alike a b s u) (k : Nat) (v : Option Byte) :
    Run.Sim (Spi.Alike a b) (s.dataByte p k v) (u.dataByte (p.withTables q) k v) := by
  obtain ⟨o, known, ho, rfl⟩ := h
  refine .read rfl fun i => .read rfl fun d => ?_
  refine .bind (Spi.Alike.bufUpdate ⟨_, _, ho, rfl⟩ k _) fun t w h => ?_
  obtain ⟨o, known, ho, rfl⟩ := h
  refine .read rfl fun r => ?_
  dsimp only
  split
  · refine .ite (Spi.Alike.framerByte ?_ k _ d) (.ok (Spi.Alike.fieldDecode ?_ _ _ _ _ _)) <;>
      exact ⟨_, _, ho.concat _, rfl⟩
  · exact .ok ⟨_, _, ho, rfl⟩

theorem Spi.Alike.laterByte (h : Spi.Alike a b s u) (r : SpiByteRec) (k : Nat) :
    Run.Sim (Spi.Alike a b) (s.laterByte p r k) (u.laterByte (p.withTables q) r k) := by
  obtain ⟨o, known, ho, rfl⟩ := id h
  exact .read rfl fun i => .read rfl fun d => .read rfl fun c =>
    .ite (h.excessByte k) (h.dataByte k _)

theorem Spi.Alike.headerByte (h : Spi.Alike a b s u) (r : SpiByteRec) :
    Run.Sim (Spi.Alike a b) (s.headerByte p r) (u.headerByte (p.withTables q) r) := by
  obtain ⟨o, known, ho, rfl⟩ := h
  have h : Spi.Alike a b { s with pos := s.pos + 1 }
      { s with pos := s.pos + 1, out := o, hdrRegKnown := known } := ⟨_, _, ho, rfl⟩
  refine .ite (h.bufUpdate _ _) (.read rfl fun x => ?_)
  dsimp only
  split
  · exact .ok ⟨_, _, (ho.concat _).concat _, rfl⟩
  · exact .ok ⟨_, _, ho.concat _, rfl⟩
  · exact .ok ⟨_, _, ho, rfl⟩
  · exact h.hdr3 x r.miso r.start r.stop
  · exact h.laterByte r _

/-! ### Bytes, the aggregator pass and the samplers -/

theorem Spi.Alike.completeByte (h : Spi.Alike a b s u) (tr : Bool) (lastEnd : Option Nat) :
    Run.Sim (Spi.Alike a b) (s.completeByte p tr lastEnd)
      (u.completeByte (p.withTables q) tr lastEnd) := by
  obtain ⟨o, known, ho, rfl⟩ := h
  intro t ht
  obtain ⟨start, stop, ends, r, v, hp, hr, hv, ht⟩ := (Spi.completeByte_eq_ok ..).mp ht
  have h : Spi.Alike a b s { s with out := o, hdrRegKnown := known } := ⟨_, _, ho, rfl⟩
  obtain ⟨w, hw, o, known, ho, rfl⟩ := (h.emitAll rfl).bufAppend (q := q) r v hv
  have h : Spi.Alike a b { v with bitcnt := 0, accMosi := 0#8, accMiso := 0#8, bitStarts := [] }
    { v with out := o, hdrRegKnown := known, bitcnt := 0, accMosi := 0#8, accMiso := 0#8,
             bitStarts := [] } := ⟨_, _, ho, rfl⟩
  obtain ⟨x, hx, hax⟩ := h.headerByte (q := q) r t ht
  exact ⟨x, (Spi.completeByte_eq_ok ..).mpr ⟨start, stop, ends, r, _, hp, hr, hw, hx⟩, hax⟩

theorem Spi.Alike.sckSample (h : Spi.Alike a b s u) (x : SpiLevels) :
    Run.Sim (Spi.Alike a b) (s.sckSample p x) (u.sckSample (p.withTables q) x) := by
  obtain ⟨o, known, ho, rfl⟩ := h
  have h : Spi.Alike a b (s.shiftBits p x)
    (Spi.shiftBits (p.withTables q) x { s with out := o, hdrRegKnown := known }) := ⟨_, _, ho, rfl⟩
  exact .ite (h.completeByte false none) (.ok h)

theorem Spi.Alike.cutByte (h : Spi.Alike a b s u) :
    Run.Sim (Spi.Alike a b) (s.cutByte p) (u.cutByte (p.withTables q)) := by
  obtain ⟨o, known, ho, rfl⟩ := id h
  exact .ite (.read rfl fun b0 => (h.emit rfl).completeByte true _) (.ok h)

theorem Spi.Alike.headerCheck (h : Spi.Alike a b s u) :
    Run.Sim (Spi.Alike a b) (s.headerCheck p) (u.headerCheck (p.withTables q)) := by
  obtain ⟨o, known, ho, rfl⟩ := id h
  exact .ite (.ok h) (.ite (.ok (h.emit rfl)) (.read rfl fun c => .ok (.ite (h.emit rfl) h)))

/-- The summary of a closed frame names its tag and code, and reads no other table (45_aggregator.md R345). -/
theorem unnamedEvents_cmdSumEvents (p q : SpiParams) (t0 : Nat) (w : Rat) (fs : List FrameInfo) :
    unnamedEvents (fs.map (cmdSumEvent p t0 w)) = unnamedEvents (fs.map (cmdSumEvent q t0 w)) := by
  simp only [unnamedEvents, List.filterMap_map]
  rfl

theorem Spi.Alike.summaries (h : Spi.Alike a b s u) :
    Run.Sim (Spi.Alike a b) (s.summaries p) (u.summaries (p.withTables q)) := by
  obtain ⟨o, known, ho, rfl⟩ := id h
  simp only [Spi.summaries]
  split
  · exact .ok h
  · refine .bind (Spi.Alike.headerCheck (h.emit rfl)) fun t v h => ?_
    obtain ⟨o, known, ho, rfl⟩ := h
    refine .ok (Spi.Alike.emitAll ?_ (unnamedEvents_cmdSumEvents ..))
    exact ⟨_, _, ho, rfl⟩

/-- The flag of a frame that is still open and took a byte of the transfer (45_aggregator.md R344). -/
def Spi.flagOpenFrame (s : Spi) : Run Spi :=
  if s.touched then
    match s.fStart with
    | some (.at r) => .ok (s.diag .warnFrameOpenAtIdle ⟨r, s.n⟩ s.remaining.toNat)
    | _ => .error (.fault (.noValue "f_start"))
  else .ok s

/-- FrameCarry: the open frame gets a sample as its start, then its flag (45_aggregator.md R344). -/
theorem Spi.frameCarry_eq (s : Spi) : s.frameCarry =
    if s.fst = .idle then .ok s
    else match s.fStart with
      | some (.idx i) => need "w" (evenWidth s.tStart s.n s.xfer.length) >>= fun w =>
          { s with fStart := some (.at (s.tStart + i * w)) }.flagOpenFrame
      | _ => s.flagOpenFrame := by
  unfold Spi.frameCarry
  split
  · rfl
  · rcases s.fStart with _ | _ | _ <;> rfl

theorem Spi.Alike.flagOpenFrame (h : Spi.Alike a b s u) :
    Run.Sim (Spi.Alike a b) s.flagOpenFrame u.flagOpenFrame := by
  obtain ⟨o, known, ho, rfl⟩ := id h
  refine .ite ?_ (.ok h)
  dsimp only
  split
  · exact .ok (h.emit rfl)
  · exact .stop

theorem Spi.Alike.frameCarry (h : Spi.Alike a b s u) :
    Run.Sim (Spi.Alike a b) s.frameCarry u.frameCarry := by
  rw [Spi.frameCarry_eq, Spi.frameCarry_eq]
  obtain ⟨o, known, ho, rfl⟩ := id h
  refine .ite (.ok h) ?_
  dsimp only
  split
  · refine .read rfl fun w => Spi.Alike.flagOpenFrame ?_
    exact ⟨_, _, ho, rfl⟩
  · exact h.flagOpenFrame

theorem Spi.Alike.aggregate (h : Spi.Alike a b s u) :
    Run.Sim (Spi.Alike a b) (s.aggregate p) (u.aggregate (p.withTables q)) := by
  refine .bind h.summaries fun t v h => .bind h.frameCarry fun t v h => ?_
  obtain ⟨o, known, ho, rfl⟩ := h
  exact .ok ⟨_, _, ho, rfl⟩

theorem Spi.Alike.csAssert (h : Spi.Alike a b s u) : Spi.Alike a b s.csAssert u.csAssert := by
  obtain ⟨o, known, ho, rfl⟩ := h
  exact ⟨_, _, ho.concat _, rfl⟩

theorem Spi.Alike.baseline (h : Spi.Alike a b s u) (x : SpiLevels) :
    Spi.Alike a b (s.baseline x) (u.baseline x) := by
  obtain ⟨o, known, ho, rfl⟩ := h
  refine .ite (Spi.Alike.csAssert ?_) ?_ <;> exact ⟨_, _, ho, rfl⟩

theorem Spi.Alike.csDeassert (h : Spi.Alike a b s u) :
    Run.Sim (Spi.Alike a b) (s.csDeassert p) (u.csDeassert (p.withTables q)) := by
  obtain ⟨o, known, ho, rfl⟩ := id h
  refine .ite (.bind h.cutByte fun t v h => ?_) (.ok h)
  obtain ⟨o, known, ho, rfl⟩ := id h
  refine .bind (Spi.Alike.aggregate (h.emit rfl)) fun t v h => ?_
  obtain ⟨o, known, ho, rfl⟩ := h
  exact .ok ⟨_, _, ho, rfl⟩

theorem Spi.Alike.doRow (h : Spi.Alike a b s u) (x : SpiLevels) (r : SpiRow) :
    Run.Sim (Spi.Alike a b) (s.doRow p x r) (u.doRow (p.withTables q) x r) := by
  cases r with
  | baseline => exact .ok (h.baseline x)
  | csDeassert => exact h.csDeassert
  | csAssert => exact .ok h.csAssert
  | sckSample => exact h.sckSample x
  | sckSampleF => exact h.sckSample x

theorem Spi.Alike.doRows (h : Spi.Alike a b s u) (x : SpiLevels) (rows : List SpiRow) :
    Run.Sim (Spi.Alike a b) (Spi.doRows p x rows s) (Spi.doRows (p.withTables q) x rows u) := by
  induction rows generalizing s u with
  | nil => exact .ok h
  | cons r rs ih => exact .bind (h.doRow x r) fun t v h => ih h

/-- The end of a step reads no name. -/
theorem Spi.Alike.finish (h : Spi.Alike s.out u.out s u) (x : SpiLevels) {r r' : Run Spi}
    (hr : Run.Sim (Spi.Alike s.out u.out) r r') :
    Run.Sim (Spi.Alike s.out u.out) (s.finish p x r) (u.finish (p.withTables q) x r') := by
  refine .bind hr fun t v hv => .ok ?_
  obtain ⟨o, known, ho, rfl⟩ := hv
  have hn : u.n = s.n := by
    obtain ⟨_, _, -, rfl⟩ := h
    rfl
  refine ⟨_, known, ho.portEvents p.boundStarts s.n, ?_⟩
  rw [← hn]
  rfl

/-- A whole SPI step reads no name. -/
theorem Spi.Alike.takeSample (h : Spi.Alike s.out u.out s u) (x : SpiSample) :
    Run.Sim (Spi.Alike s.out u.out) (s.takeSample p x) (u.takeSample (p.withTables q) x) := by
  obtain ⟨o, known, ho, rfl⟩ := id h
  exact .ite (.ite .stop (h.finish _ (h.doRows _ _))) .stop

end Sys2Proof.Machine

end

/-! ## The I2C stack under other tables (42_link_header.md R216, 44_datalink_apdu.md R298) -/

section

namespace Sys2Proof

/-- The parameters `p` with the name tables and the field table of `q`. -/
def I2cParams.withTables (p q : I2cParams) : I2cParams :=
  { p with
    knownReg := q.knownReg
    knownApduCmd := q.knownApduCmd
    knownApduSta := q.knownApduSta
    regFields := q.regFields }

end Sys2Proof

namespace Sys2Proof.Machine

open Sys2Proof

/-- Two I2C stacks that differ only in the `known` flag and in the names of the events that follow `a` and
`b`. -/
def I2c.Alike (a b : List OutEvent) (s u : I2c) : Prop :=
  ∃ out known, EmitAlike a b s.out out ∧ u = { s with out := out, regKnown := known }

variable {a b : List OutEvent} {p q : I2cParams} {s u s' u' : I2c}

theorem I2c.Alike.ite {c : Prop} [Decidable c] (h : I2c.Alike a b s u) (h' : I2c.Alike a b s' u') :
    I2c.Alike a b (if c then s else s') (if c then u else u') := by
  split
  · exact h
  · exact h'

theorem I2c.Alike.emitAll (h : I2c.Alike a b s u) {es fs : List OutEvent}
    (he : unnamedEvents es = unnamedEvents fs) : I2c.Alike a b (s.emitAll es) (u.emitAll fs) := by
  obtain ⟨o, known, ho, rfl⟩ := h
  exact ⟨_, _, ho.append he, rfl⟩

theorem I2c.Alike.emit (h : I2c.Alike a b s u) {sp : Span} {e f : Event}
    (he : e.unnamed = f.unnamed) : I2c.Alike a b (s.emit sp e) (u.emit sp f) :=
  h.emitAll (unnamedEvents_singleton_congr sp he)

theorem I2c.Alike.bufAppend (h : I2c.Alike a b s u) (r : I2cByteRec) :
    Run.Sim (I2c.Alike a b) (s.bufAppend p r) (u.bufAppend (p.withTables q) r) := by
  obtain ⟨o, known, ho, rfl⟩ := h
  intro t ht
  obtain ⟨hroom, rfl⟩ := (I2c.bufAppend_eq_ok ..).mp ht
  exact ⟨_, (I2c.bufAppend_eq_ok ..).mpr ⟨hroom, rfl⟩, _, _, ho, rfl⟩

theorem I2c.Alike.bufUpdate (h : I2c.Alike a b s u) (k : Nat) (f : I2cByteRec → I2cByteRec) :
    Run.Sim (I2c.Alike a b) (s.bufUpdate k f) (u.bufUpdate k f) := by
  obtain ⟨o, known, ho, rfl⟩ := h
  intro t ht
  obtain ⟨hk, rfl⟩ := (I2c.bufUpdate_eq_ok ..).mp ht
  exact ⟨_, (I2c.bufUpdate_eq_ok ..).mpr ⟨hk, rfl⟩, _, _, ho, rfl⟩

/-! ### The APDU (44_datalink_apdu.md R298 to R302) -/

theorem I2c.Alike.apduFinish (h : I2c.Alike a b s u) (k : Nat) (d : Dir) (c : Bool) :
    Run.Sim (I2c.Alike a b) (s.apduFinish k d c) (u.apduFinish k d c) := by
  obtain ⟨o, known, ho, rfl⟩ := h
  exact .read rfl fun f => .ok ⟨_, _, ho, rfl⟩

/-- An APDU's command or status is reported, known or unknown (44_datalink_apdu.md R298). -/
theorem I2c.Alike.apduCmd (h : I2c.Alike a b s u) (k : Nat) (v : Byte) (d : Dir) :
    Run.Sim (I2c.Alike a b) (s.apduCmd p k v d) (u.apduCmd (p.withTables q) k v d) := by
  obtain ⟨o, known, ho, rfl⟩ := h
  refine .read rfl fun sp => .ok ?_
  cases d <;> dsimp only [apduHead] <;> split <;> split <;>
    refine I2c.Alike.emit ?_ rfl <;> exact ⟨_, _, ho, rfl⟩

theorem I2c.Alike.apduParam (h : I2c.Alike a b s u) (k : Nat) (v : Byte) :
    Run.Sim (I2c.Alike a b) (s.apduParam k v) (u.apduParam k v) := by
  obtain ⟨o, known, ho, rfl⟩ := h
  exact .read rfl fun sp => .ok ⟨_, _, ho.concat _, rfl⟩

theorem I2c.Alike.apduLen0 (h : I2c.Alike a b s u) (k : Nat) (v : Byte) :
    Run.Sim (I2c.Alike a b) (s.apduLen0 k v) (u.apduLen0 k v) := by
  obtain ⟨o, known, ho, rfl⟩ := h
  exact .read rfl fun r => .ok ⟨_, _, ho, rfl⟩

theorem I2c.Alike.apduLen1 (h : I2c.Alike a b s u) (k : Nat) (v : Byte) (d : Dir) :
    Run.Sim (I2c.Alike a b) (s.apduLen1 p k v d) (u.apduLen1 (p.withTables q) k v d) := by
  obtain ⟨o, known, ho, rfl⟩ := h
  refine .read rfl fun r => .ite (I2c.Alike.apduFinish ?_ k d true) (.ok ?_) <;>
    exact ⟨_, _, ho.concat _, rfl⟩

theorem I2c.Alike.apduData (h : I2c.Alike a b s u) (k : Nat) (v : Byte) (d : Dir) :
    Run.Sim (I2c.Alike a b) (s.apduData k v d) (u.apduData k v d) := by
  obtain ⟨o, known, ho, rfl⟩ := h
  refine .read rfl fun sp => .read rfl fun n => .ite (I2c.Alike.apduFinish ?_ k d true) (.ok ?_) <;>
    exact ⟨_, _, ho.concat _, rfl⟩

theorem I2c.Alike.apduExcess (h : I2c.Alike a b s u) (k : Nat) :
    Run.Sim (I2c.Alike a b) (s.apduExcess k) (u.apduExcess k) := by
  obtain ⟨o, known, ho, rfl⟩ := h
  exact .read rfl fun sp => .ok ⟨_, _, ho.concat _, rfl⟩

theorem I2c.Alike.apduByte (h : I2c.Alike a b s u) (k : Nat) (v : Byte) (d : Dir) :
    Run.Sim (I2c.Alike a b) (s.apduByte p k v d) (u.apduByte (p.withTables q) k v d) := by
  obtain ⟨o, known, ho, rfl⟩ := id h
  simp only [I2c.apduByte]
  split
  · exact h.apduCmd k v d
  · exact h.apduParam k v
  · exact h.apduLen0 k v
  · exact h.apduLen1 k v d
  · exact h.apduData k v d
  · exact h.apduExcess k

/-! ### The datalink frame (44_datalink_apdu.md R280 to R297) -/

theorem I2c.Alike.dlFinish (h : I2c.Alike a b s u) (k : Nat) (d : Dir) (c : Bool) :
    Run.Sim (I2c.Alike a b) (s.dlFinish k d c) (u.dlFinish k d c) := by
  obtain ⟨o, known, ho, rfl⟩ := h
  exact .read rfl fun f => .ok ⟨_, _, ho, rfl⟩

theorem I2c.Alike.setDst (h : I2c.Alike a b s u) (st : DlSt) :
    I2c.Alike a b { s with dl := { s.dl with dst := st } } { u with dl := { u.dl with dst := st } } := by
  obtain ⟨o, known, ho, rfl⟩ := h
  exact ⟨_, _, ho, rfl⟩

theorem I2c.Alike.payloadBegin (h : I2c.Alike a b s u) (d : Dir) :
    Run.Sim (I2c.Alike a b) (s.payloadBegin d) (u.payloadBegin d) := by
  obtain ⟨o, known, ho, rfl⟩ := h
  exact .read rfl fun c => .ok ⟨_, _, ho, rfl⟩

theorem I2c.Alike.dlFctr (h : I2c.Alike a b s u) (k : Nat) (v : Byte) :
    Run.Sim (I2c.Alike a b) (s.dlFctr k v) (u.dlFctr k v) := by
  obtain ⟨o, known, ho, rfl⟩ := h
  exact .read rfl fun sp => .ok ⟨_, _, ho.append rfl, rfl⟩

theorem I2c.Alike.dlLen0 (h : I2c.Alike a b s u) (k : Nat) (v : Byte) :
    Run.Sim (I2c.Alike a b) (s.dlLen0 k v) (u.dlLen0 k v) := by
  obtain ⟨o, known, ho, rfl⟩ := h
  exact .read rfl fun r => .ok ⟨_, _, ho, rfl⟩

theorem I2c.Alike.dlLen1 (h : I2c.Alike a b s u) (k : Nat) (v : Byte) :
    Run.Sim (I2c.Alike a b) (s.dlLen1 k v) (u.dlLen1 k v) := by
  obtain ⟨o, known, ho, rfl⟩ := h
  exact .read rfl fun r => .ok ⟨_, _, ho.concat _, rfl⟩

theorem I2c.Alike.dlPctr (h : I2c.Alike a b s u) (k : Nat) (v : Byte) (d : Dir) :
    Run.Sim (I2c.Alike a b) (s.dlPctr k v d) (u.dlPctr k v d) := by
  obtain ⟨o, known, ho, rfl⟩ := h
  refine .read rfl fun sp => .read rfl fun n =>
    .ite (.ok ?_) (.ite (I2c.Alike.payloadBegin ?_ d) (.ok ?_)) <;>
    exact ⟨_, _, ho.append rfl, rfl⟩

theorem I2c.Alike.dlSctr (h : I2c.Alike a b s u) (k : Nat) (v : Byte) (d : Dir) :
    Run.Sim (I2c.Alike a b) (s.dlSctr k v d) (u.dlSctr k v d) := by
  obtain ⟨o, known, ho, rfl⟩ := h
  refine .read rfl fun sp => .read rfl fun n => .ite (I2c.Alike.payloadBegin ?_ d) (.ok ?_) <;>
    exact ⟨_, _, ho.append rfl, rfl⟩

theorem I2c.Alike.cutApdu (h : I2c.Alike a b s u) (k : Nat) (d : Dir) :
    Run.Sim (I2c.Alike a b) (s.cutApdu k d) (u.cutApdu k d) := by
  obtain ⟨o, known, ho, rfl⟩ := id h
  refine .ite (.read rfl fun f => .read rfl fun r => .read rfl fun q => ?_) (.ok h)
  exact I2c.Alike.apduFinish (h.emit rfl) k d false

/-- DL_PAY as the byte itself and then its count (44_datalink_apdu.md R295). -/
theorem I2c.dlPay_eq (p : I2cParams) (idx : Nat) (v : Byte) (d : Dir) (s : I2c) :
    s.dlPay p idx v d = s.recSpan idx >>= fun sp =>
      if s.dl.apduMode then s.apduByte p idx v d >>= I2c.countPayload idx d
      else (s.emit sp (.payload .dl d s.dl.dpay v true)).countPayload idx d := rfl

theorem I2c.Alike.countPayload (h : I2c.Alike a b s u) (k : Nat) (d : Dir) :
    Run.Sim (I2c.Alike a b) (s.countPayload k d) (u.countPayload k d) := by
  obtain ⟨o, known, ho, rfl⟩ := h
  refine .read rfl fun n => .ite (.bind (R := I2c.Alike a b) (I2c.Alike.cutApdu ?_ k d)
    fun t v h => .ok (h.setDst .fcs0)) (.ok ?_) <;> exact ⟨_, _, ho, rfl⟩

theorem I2c.Alike.dlPay (h : I2c.Alike a b s u) (k : Nat) (v : Byte) (d : Dir) :
    Run.Sim (I2c.Alike a b) (s.dlPay p k v d) (u.dlPay (p.withTables q) k v d) := by
  rw [I2c.dlPay_eq, I2c.dlPay_eq]
  obtain ⟨o, known, ho, rfl⟩ := id h
  exact .read rfl fun sp => .ite (.bind (h.apduByte k v d) fun t w h => h.countPayload k d)
    (I2c.Alike.countPayload (h.emit rfl) k d)

theorem I2c.Alike.dlFcs0 (h : I2c.Alike a b s u) (k : Nat) (v : Byte) :
    Run.Sim (I2c.Alike a b) (s.dlFcs0 k v) (u.dlFcs0 k v) := by
  obtain ⟨o, known, ho, rfl⟩ := h
  exact .read rfl fun r => .ok ⟨_, _, ho, rfl⟩

theorem I2c.Alike.dlFcs1 (h : I2c.Alike a b s u) (k : Nat) (v : Byte) (d : Dir) :
    Run.Sim (I2c.Alike a b) (s.dlFcs1 k v d) (u.dlFcs1 k v d) := by
  obtain ⟨o, known, ho, rfl⟩ := h
  refine .read rfl fun r => I2c.Alike.dlFinish ?_ k d true
  exact ⟨_, _, ho.concat _, rfl⟩

theorem I2c.Alike.dlExcess (h : I2c.Alike a b s u) (k j : Nat) :
    Run.Sim (I2c.Alike a b) (s.dlExcess k j) (u.dlExcess k j) := by
  obtain ⟨o, known, ho, rfl⟩ := h
  exact .read rfl fun sp => .ok ⟨_, _, ho.concat _, rfl⟩

theorem I2c.Alike.dlByte (h : I2c.Alike a b s u) (k j : Nat) (v : Byte) (d : Dir) :
    Run.Sim (I2c.Alike a b) (s.dlByte p k j v d) (u.dlByte (p.withTables q) k j v d) := by
  obtain ⟨o, known, ho, rfl⟩ := id h
  simp only [I2c.dlByte]
  split
  · exact h.dlFctr k v
  · exact h.dlLen0 k v
  · exact h.dlLen1 k v
  · exact h.dlPctr k v d
  · exact h.dlSctr k v d
  · exact h.dlPay k v d
  · exact h.dlFcs0 k v
  · exact h.dlFcs1 k v d
  · exact h.dlExcess k j

/-! ### The end of a phase (44_datalink_apdu.md R303) -/

theorem I2c.Alike.endApdu (h : I2c.Alike a b s u) (k : Nat) (d : Dir) :
    Run.Sim (I2c.Alike a b) (s.endApdu k d) (u.endApdu k d) := by
  obtain ⟨o, known, ho, rfl⟩ := id h
  have hopen : I2c.openApdu { s with out := o, regKnown := known } = s.openApdu := rfl
  simp only [I2c.endApdu, hopen]
  split
  · exact .read rfl fun r => I2c.Alike.apduFinish (h.emit rfl) k d false
  · exact .ok h

theorem I2c.Alike.endPhase (h : I2c.Alike a b s u) :
    Run.Sim (I2c.Alike a b) s.endPhase u.endPhase := by
  obtain ⟨o, known, ho, rfl⟩ := id h
  simp only [I2c.endPhase]
  split
  · exact .ok h
  · refine .ite (.ok h) (.read rfl fun last => .read rfl fun d => .bind (h.endApdu last d) ?_)
    intro t v h
    obtain ⟨o, known, ho, rfl⟩ := id h
    exact .read rfl fun r => I2c.Alike.dlFinish (h.emit rfl) last d false

/-! ### The link header (42_link_header.md R210 to R214) -/

theorem I2c.Alike.addrByteIn (h : I2c.Alike a b s u) (k : Nat) (x : Byte) :
    Run.Sim (I2c.Alike a b) (s.addrByteIn p k x) (u.addrByteIn (p.withTables q) k x) := by
  obtain ⟨o, known, ho, rfl⟩ := h
  refine .bind (R := I2c.Alike a b) (I2c.Alike.bufUpdate ?_ k _) fun t v h => ?_
  · exact ⟨_, _, ho, rfl⟩
  · obtain ⟨o, known, ho, rfl⟩ := h
    exact .read rfl fun r => .ok ⟨_, _, ho.concat _, rfl⟩

/-- A register number is reported, known or unknown (42_link_header.md R212). -/
theorem I2c.Alike.regNum (h : I2c.Alike a b s u) (k : Nat) (x : Byte) :
    Run.Sim (I2c.Alike a b) (s.regNum p k x) (u.regNum (p.withTables q) k x) := by
  obtain ⟨o, known, ho, rfl⟩ := h
  refine .bind (R := I2c.Alike a b) (I2c.Alike.bufUpdate ?_ k _) fun t v h => ?_
  · exact ⟨_, _, ho, rfl⟩
  · obtain ⟨o, known, ho, rfl⟩ := h
    refine .read rfl fun r => .ok ?_
    split <;> split <;> refine I2c.Alike.emit ?_ rfl <;> exact ⟨_, _, ho, rfl⟩

/-- The fields of a byte are no part of what is compared (42_link_header.md R207). -/
theorem I2c.Alike.fieldDecode (h : I2c.Alike a b s u) (reg : Nat) (d : Dir) (i : Nat) (x : Byte)
    (sp : Span) :
    I2c.Alike a b (s.fieldDecode p reg d i x sp) (u.fieldDecode (p.withTables q) reg d i x sp) :=
  h.emitAll (by simp)

theorem I2c.Alike.regData (h : I2c.Alike a b s u) (k : Nat) (v : Byte) :
    Run.Sim (I2c.Alike a b) (s.regData p k v) (u.regData (p.withTables q) k v) := by
  obtain ⟨o, known, ho, rfl⟩ := h
  refine .read rfl fun d => .bind (R := I2c.Alike a b) (I2c.Alike.bufUpdate ?_ k _) fun t w h => ?_
  · exact ⟨_, _, ho, rfl⟩
  · obtain ⟨o, known, ho, rfl⟩ := id h
    refine .read rfl fun r => ?_
    dsimp only
    split
    · exact .ok (.ite (h.emit rfl) h)
    · exact .ite (I2c.Alike.dlByte (h.emit rfl) k _ v d)
        (.ok (I2c.Alike.fieldDecode (h.emit rfl) _ _ _ _ _))

theorem I2c.Alike.headerByte (h : I2c.Alike a b s u) (r : I2cByteRec) :
    Run.Sim (I2c.Alike a b) (s.headerByte p r) (u.headerByte (p.withTables q) r) := by
  obtain ⟨o, known, ho, rfl⟩ := id h
  exact .read rfl fun k => .ite (h.addrByteIn k r.value)
    (.ite (h.bufUpdate k _) (.ite (h.regNum k r.value) (h.regData k r.value)))

/-! ### Bytes, the aggregator pass and the samplers -/

theorem I2c.Alike.completeByte (h : I2c.Alike a b s u) (tr : Bool) (lastEnd : Option Nat) :
    Run.Sim (I2c.Alike a b) (s.completeByte p tr lastEnd)
      (u.completeByte (p.withTables q) tr lastEnd) := by
  obtain ⟨o, known, ho, rfl⟩ := id h
  refine .read rfl fun e => .bind (I2c.Alike.bufAppend (h.emitAll rfl) _) fun t v h => ?_
  obtain ⟨o, known, ho, rfl⟩ := id h
  refine I2c.Alike.headerByte (.ite h ?_) _
  exact ⟨_, _, ho, rfl⟩

theorem I2c.Alike.clearBits (h : I2c.Alike a b s u) : I2c.Alike a b s.clearBits u.clearBits := by
  obtain ⟨o, known, ho, rfl⟩ := h
  exact ⟨_, _, ho, rfl⟩

theorem I2c.Alike.partialAtCondition (h : I2c.Alike a b s u) :
    Run.Sim (I2c.Alike a b) (s.partialAtCondition p) (u.partialAtCondition (p.withTables q)) := by
  obtain ⟨o, known, ho, rfl⟩ := id h
  exact .ite (.read rfl fun b0 =>
    .bind (I2c.Alike.completeByte (h.emit rfl) true _) fun t v h => .ok h.clearBits) (.ok h.clearBits)

theorem I2c.Alike.beginPhase (h : I2c.Alike a b s u) : I2c.Alike a b s.beginPhase u.beginPhase := by
  obtain ⟨o, known, ho, rfl⟩ := h
  exact ⟨_, _, ho, rfl⟩

theorem I2c.Alike.startCond (h : I2c.Alike a b s u) : I2c.Alike a b s.startCond u.startCond := by
  obtain ⟨o, known, ho, rfl⟩ := h
  exact ⟨_, _, (ho.concat _).concat _, rfl⟩

theorem I2c.Alike.rstartCond (h : I2c.Alike a b s u) :
    Run.Sim (I2c.Alike a b) (s.rstartCond p) (u.rstartCond (p.withTables q)) := by
  refine .bind h.partialAtCondition fun t v h => .bind h.endPhase fun t v h => ?_
  obtain ⟨o, known, ho, rfl⟩ := id h
  exact .ok (I2c.Alike.emit h.beginPhase rfl)

theorem I2c.Alike.bit (h : I2c.Alike a b s u) (x : I2cSample) :
    Run.Sim (I2c.Alike a b) (s.bit p x) (u.bit (p.withTables q) x) := by
  obtain ⟨o, known, ho, rfl⟩ := h
  refine .ite (I2c.Alike.completeByte ?_ false none) (.ok ?_) <;> exact ⟨_, _, ho, rfl⟩

theorem I2c.Alike.writeAck (h : I2c.Alike a b s u) (ack : Bool) :
    Run.Sim (I2c.Alike a b) (s.writeAck ack) (u.writeAck ack) := by
  obtain ⟨o, known, ho, rfl⟩ := id h
  simp only [I2c.writeAck]
  split
  · exact h.bufUpdate _ _
  · exact .ok h

theorem I2c.Alike.ackBit (h : I2c.Alike a b s u) (x : I2cSample) :
    Run.Sim (I2c.Alike a b) (s.ackBit x) (u.ackBit x) := by
  obtain ⟨o, known, ho, rfl⟩ := id h
  exact .read rfl fun b7 => .read rfl fun w =>
    .bind (I2c.Alike.writeAck (h.emit rfl) _) fun t v h => .ok h.clearBits

/-- The summaries of a transfer read no name table. -/
theorem I2c.Alike.summaries (h : I2c.Alike a b s u) :
    I2c.Alike a b (s.summaries p) (u.summaries (p.withTables q)) := by
  obtain ⟨o, known, ho, rfl⟩ := id h
  simp only [I2c.summaries]
  split
  · exact h
  · exact (((h.emit rfl).emitAll rfl).emitAll rfl).emitAll rfl

theorem I2c.Alike.aggregate (h : I2c.Alike a b s u) :
    I2c.Alike a b (s.aggregate p) (u.aggregate (p.withTables q)) := by
  obtain ⟨o, known, ho, hu⟩ := h.summaries (p := p) (q := q)
  refine ⟨o, known, ho, ?_⟩
  rw [I2c.aggregate, hu]
  rfl

theorem I2c.Alike.deactivate (h : I2c.Alike a b s u) :
    I2c.Alike a b { s with active := false } { u with active := false } := by
  obtain ⟨o, known, ho, rfl⟩ := h
  exact ⟨_, _, ho, rfl⟩

theorem I2c.Alike.stopCond (h : I2c.Alike a b s u) :
    Run.Sim (I2c.Alike a b) (s.stopCond p) (u.stopCond (p.withTables q)) := by
  refine .bind h.partialAtCondition fun t v h => .bind h.endPhase fun t v h => .ok ?_
  obtain ⟨o, known, ho, rfl⟩ := id h
  exact I2c.Alike.deactivate (I2c.Alike.aggregate (I2c.Alike.emit (h.emit rfl) rfl))

/-- The end of a step reads no name. -/
theorem I2c.Alike.finish (h : I2c.Alike s.out u.out s u) (x : I2cSample) {r r' : Run I2c}
    (hr : Run.Sim (I2c.Alike s.out u.out) r r') :
    Run.Sim (I2c.Alike s.out u.out) (s.finish p x r) (u.finish (p.withTables q) x r') := by
  refine .bind hr fun t v hv => .ok ?_
  obtain ⟨o, known, ho, rfl⟩ := hv
  have hn : u.n = s.n := by
    obtain ⟨_, _, -, rfl⟩ := h
    rfl
  refine ⟨_, known, ho.portEvents p.boundStarts s.n, ?_⟩
  rw [← hn]
  rfl

theorem I2c.Alike.epilogue (h : I2c.Alike a b s u) (x : I2cSample) :
    I2c.Alike a b (s.epilogue x) (u.epilogue x) := by
  obtain ⟨o, known, ho, rfl⟩ := h
  exact ⟨_, _, ho, rfl⟩

theorem I2c.Alike.takeCond (h : I2c.Alike s.out u.out s u) (x : I2cSample) (c : Option I2cCond) :
    Run.Sim (I2c.Alike s.out u.out) (s.takeCond p x c) (u.takeCond (p.withTables q) x c) := by
  obtain ⟨o, known, ho, rfl⟩ := id h
  rcases c with _ | _ | _ | _ | _
  · exact .ok (h.epilogue x)
  · exact .ok ⟨_, _, ho, rfl⟩
  · exact .ite (h.finish x h.rstartCond) (h.finish x (.ok h.startCond))
  · exact .ite (h.finish x h.stopCond) (.ok (h.epilogue x))
  · exact .ite (.ite (h.finish x (h.ackBit x)) (h.finish x (h.bit x))) (.ok (h.epilogue x))

/-- A whole I2C step reads no name. -/
theorem I2c.Alike.takeSample (h : I2c.Alike s.out u.out s u) (x : I2cSample) :
    Run.Sim (I2c.Alike s.out u.out) (s.takeSample p x) (u.takeSample (p.withTables q) x) := by
  obtain ⟨o, known, ho, rfl⟩ := id h
  exact .ite .stop (h.takeCond x _)

end Sys2Proof.Machine

end

/-! ## Other tables, the same decoding (43_command_framer.md R250, 70_reset_and_hazards.md R408) -/

section

open Sys2Proof Sys2Proof.Machine

/-- Settles O18: the step of either stack leads from stacks that are the same but for names to such
stacks, operation by operation. -/
theorem nameTablesDecideOnlyNames : Obligations.NameTablesDecideOnlyNames := by
  unfold Obligations.NameTablesDecideOnlyNames
  intro s u t a rest hs hu ha hpspi hpi2c hspi hi2c hst
  rcases ha with ⟨x, rfl⟩ | ⟨x, rfl⟩
  · have halike : Spi.Alike s.spi.out u.spi.out s.spi u.spi := ⟨_, _, .refl _ _, hspi⟩
    have hp : u.cfg.spi = s.cfg.spi.withTables u.cfg.spi := hpspi
    simp only [step, hs, takeInput, spiStep_eq_onSpi, onSpi_eq_next] at hst
    obtain ⟨w, hw, rfl⟩ := hst
    obtain ⟨v, hv, o, known, ho, rfl⟩ := halike.takeSample (q := u.cfg.spi) _ w hw
    rw [← hp] at hv
    refine ⟨{ u with port := rest, spi := { w with out := o, hdrRegKnown := known } }, ?_, rfl, hi2c,
      ho.drop, by simp⟩
    simp only [step, hu, takeInput, spiStep_eq_onSpi, onSpi_eq_next]
    exact ⟨_, hv, rfl⟩
  · have halike : I2c.Alike s.i2c.out u.i2c.out s.i2c u.i2c := ⟨_, _, .refl _ _, hi2c⟩
    have hp : u.cfg.i2c = s.cfg.i2c.withTables u.cfg.i2c := hpi2c
    simp only [step, hs, takeInput, i2cStep_eq_onI2c, onI2c_eq_next] at hst
    obtain ⟨w, hw, rfl⟩ := hst
    obtain ⟨v, hv, o, known, ho, rfl⟩ := halike.takeSample (q := u.cfg.i2c) _ w hw
    rw [← hp] at hv
    refine ⟨{ u with port := rest, i2c := { w with out := o, regKnown := known } }, ?_, hspi, rfl,
      by simp, ho.drop⟩
    simp only [step, hu, takeInput, i2cStep_eq_onI2c, onI2c_eq_next]
    exact ⟨_, hv, rfl⟩

end

/-! ## The framer's rows, written out (43_command_framer.md R241 to R248)

A row reads its record as the last of the buffer; what it then does to the framer is one update, or the
row that the byte completes. -/

section

namespace Sys2Proof.Machine

open Sys2Proof

/-! ### Numbers (30_encoding.md R111, 43_command_framer.md R245, R246) -/

/-- A byte accumulated big-endian: the low 24 bits before it, then the byte (30_encoding.md R111). -/
theorem accumulate32_eq (acc : BitVec 32) (x : Byte) : accumulate32 acc x = acc.extractLsb' 0 24 ++ x := by
  refine BitVec.eq_of_getLsbD_eq fun i hi => ?_
  rw [accumulate32, BitVec.getLsbD_append]
  by_cases h8 : i < 8
  · simp [h8, hi]
  · have h24 : i - 8 < 24 := by omega
    have h32 : i - 8 < 32 := by omega
    simp [h8, hi, h24, Nat.le_of_not_lt h8, BitVec.getLsbD_eq_getElem h32]

/-- A 32-bit count below its modulus is zero only as the number zero. -/
theorem ofNat32_eq_zero_iff {k : Nat} (h : k < 2 ^ 32) : BitVec.ofNat 32 k = 0#32 ↔ k = 0 := by
  rw [← BitVec.toNat_inj, BitVec.toNat_ofNat, Nat.mod_eq_of_lt h]
  rfl

/-- The payload a length declares, where a length that is not short covers the header
(43_command_framer.md R245). -/
theorem payloadSize_eq {short : Bool} {len : BitVec 32} (h : short = false → 10 ≤ len.toNat) :
    payloadSize short len = .ok (BitVec.ofNat 32 (if short then 0 else len.toNat - 10)) := by
  cases short with
  | true => rfl
  | false => simp [payloadSize, natSub, tpmHdrSize, h rfl, bind, Except.bind]

/-- `remaining` counts down and stays at zero (43_command_framer.md R246). -/
theorem countDown_eq (k : BitVec 32) :
    (if k = 0#32 then 0#32 else k - 1#32) = BitVec.ofNat 32 (k.toNat - 1) := by
  split
  · next h => rw [h]; rfl
  · next h =>
    have hpos : k.toNat ≠ 0 := fun h0 => h (BitVec.eq_of_toNat_eq h0)
    have := k.isLt
    refine BitVec.eq_of_toNat_eq ?_
    rw [BitVec.toNat_sub, BitVec.toNat_ofNat, BitVec.toNat_ofNat]
    omega

/-! ### The rows on the record in hand -/

section

variable {s : State} {pre : List SpiByteRec} {r : SpiByteRec} (h : s.spi.xfer = pre ++ [r])

include h

theorem exec_closeFrame_last :
    exec .closeFrame s = onSpi s fun _ t => t.closeFrame pre.length := by
  simp only [exec, execCloseFrame, onSpi, Spi.lastIdx_append h, bind, Except.bind]

theorem Spi.fieldSpanSoFar_append :
    s.spi.fieldSpanSoFar pre.length = .ok (spanOf s.spi.fFieldStart r.stop) := by
  simp only [Spi.fieldSpanSoFar, Spi.bufRead_append h, bind, Except.bind]

theorem exec_tpmTagDone_last (x : Byte) : exec (.tpmTagDone x) s =
    onSpi s fun p t => .ok (t.tpmTagDone p (spanOf t.fFieldStart r.stop)) := by
  simp only [exec, execTpmTagDone, onSpi, Spi.lastIdx_append h, Spi.fieldSpanSoFar_append h, bind,
    Except.bind]

theorem exec_tpmLenDone_last (x : Byte) : exec (.tpmLenDone x) s =
    onSpi s fun _ t => .ok (t.tpmLenDone (spanOf t.fFieldStart r.stop)) := by
  simp only [exec, execTpmLenDone, onSpi, Spi.lastIdx_append h, Spi.fieldSpanSoFar_append h, bind,
    Except.bind]

theorem exec_tpmCodeDone_last (x : Byte) {d : Dir} (hdir : s.spi.hdrDir = some d) :
    exec (.tpmCodeDone x) s =
      onSpi s fun p t => t.tpmCodeDone p pre.length d (spanOf t.fFieldStart r.stop) := by
  simp only [exec, execTpmCodeDone, onSpi, Spi.lastIdx_append h, Spi.fieldSpanSoFar_append h, hdir,
    need, bind, Except.bind]

end

/-! ### A header byte (43_command_framer.md R242) -/

/-- The framer with a header byte taken into the field in progress, the record in hand tagged. -/
def Spi.hdrByteTaken (pre : List SpiByteRec) (r : SpiByteRec) (x : Byte) (t : Spi) : Spi :=
  let fresh : Bool := t.fh == 0 || t.fh == 2 || t.fh == 6
  { t with
    xfer := pre ++ [{ r with fseq := some t.fseq }]
    fFieldStart := if fresh then r.start else t.fFieldStart
    facc := (if fresh then 0#24 else t.facc.extractLsb' 0 24) ++ x
    fh := t.fh + 1 }

/-- TPM_HDR takes the byte, then completes the field that is now whole. -/
theorem Spi.tpmHdr_eq (p : SpiParams) {t : Spi} {pre : List SpiByteRec} {r : SpiByteRec}
    (h : t.xfer = pre ++ [r]) (x : Byte) (d : Dir) : t.tpmHdr p pre.length x d =
      (t.hdrByteTaken pre r x).fieldDone p pre.length d
        (spanOf (t.hdrByteTaken pre r x).fFieldStart r.stop) := by
  have htag := Spi.bufUpdate_append (fun q => { q with fseq := some t.fseq }) h
  have hread := Spi.bufRead_append (s := { t with xfer := pre ++ [{ r with fseq := some t.fseq }] }) rfl
  simp only [Spi.tpmHdr, htag, hread, bind, Except.bind, Spi.beginField, accumulate32_eq,
    Spi.hdrByteTaken, Bool.or_eq_true, beq_iff_eq, or_assoc]
  split <;> rfl

/-- A field that a header byte may have completed is the row of its number of bytes. -/
theorem onSpi_fieldDone_last {s : State} {pre : List SpiByteRec} {r : SpiByteRec} {d : Dir}
    (h : s.spi.xfer = pre ++ [r]) (hdir : s.spi.hdrDir = some d) (x : Byte) :
    (onSpi s fun p t => t.fieldDone p pre.length d (spanOf t.fFieldStart r.stop)) =
      if s.spi.fh = 2 then exec (.tpmTagDone x) s
      else if s.spi.fh = 6 then exec (.tpmLenDone x) s
      else if s.spi.fh = 10 then exec (.tpmCodeDone x) s
      else .next s := by
  rw [exec_tpmTagDone_last h, exec_tpmLenDone_last h, exec_tpmCodeDone_last h x hdir]
  split
  · next h2 => exact onSpi_congr (if_pos h2)
  next h2 =>
  split
  · next h6 => exact onSpi_congr ((if_neg h2).trans (if_pos h6))
  next h6 =>
  split
  · next h10 => exact onSpi_congr ((if_neg h2).trans ((if_neg h6).trans (if_pos h10)))
  · next h10 => exact onSpi_of_ok ((if_neg h2).trans ((if_neg h6).trans (if_neg h10)))

/-! ### A complete tag, length and code (43_command_framer.md R243 to R245) -/

/-- What is reported of a tag. -/
def tagEvent (p : SpiParams) (tag : BitVec 16) : Event :=
  match p.knownTag.lookup tag with
  | some nm => .field .tpm .tag tag.toNat (some nm)
  | none => .diag .errUnknownTag tag.toNat

theorem Spi.tpmTagDone_eq (p : SpiParams) (sp : Span) (t : Spi) : t.tpmTagDone p sp =
    { t with
      tag := t.facc.extractLsb' 0 16
      out := t.out ++ [⟨sp, tagEvent p (t.facc.extractLsb' 0 16)⟩] } := by
  simp only [Spi.tpmTagDone, tagEvent, lookupName, BitVec.setWidth_eq_extractLsb' (by decide : 16 ≤ 32)]
  cases p.knownTag.lookup (t.facc.extractLsb' 0 16) <;> rfl

theorem Spi.tpmLenDone_of_le {t : Spi} (h : 10 ≤ t.facc.toNat) (sp : Span) : t.tpmLenDone sp =
    { t with
      len := t.facc
      out := t.out ++ [⟨sp, .field .tpm .length t.facc.toNat none⟩] } :=
  if_neg (Nat.not_lt.mpr h)

/-- A length below the header size is reported and flagged (43_command_framer.md R244). -/
theorem Spi.tpmLenDone_of_lt {t : Spi} (h : t.facc.toNat < 10) (sp : Span) : t.tpmLenDone sp =
    { t with
      len := t.facc
      fshort := true
      out := t.out ++ [⟨sp, .field .tpm .length t.facc.toNat none⟩,
        ⟨sp, .diag .warnLengthShort t.facc.toNat⟩] } := by
  refine (if_pos h).trans ?_
  simp only [Spi.diag, Spi.emit, List.append_assoc, List.cons_append, List.nil_append]

/-- The framer with a complete code taken, before the frame closes or its payload begins. -/
def Spi.codeTaken (p : SpiParams) (d : Dir) (sp : Span) (t : Spi) : Spi :=
  { t with
    code := t.facc
    fdir := some d
    remaining := BitVec.ofNat 32 (if t.fshort then 0 else t.len.toNat - 10)
    out := t.out ++ [⟨sp, codeEvent p d t.facc⟩] }

/-- TPM_CODE_DONE takes the code; a frame with no payload closes, another awaits its payload. -/
theorem Spi.tpmCodeDone_eq (p : SpiParams) (k : Nat) (d : Dir) (sp : Span) {t : Spi}
    (h : t.fshort = false → 10 ≤ t.len.toNat) : t.tpmCodeDone p k d sp =
      if (if t.fshort then 0 else t.len.toNat - 10) = 0 then (t.codeTaken p d sp).closeFrame k
      else .ok { t.codeTaken p d sp with fst := .payload } := by
  have hlt : (if t.fshort then 0 else t.len.toNat - 10) < 2 ^ 32 := by
    have := t.len.isLt
    split <;> omega
  simp only [Spi.tpmCodeDone, Spi.emit_fshort, Spi.emit_len, payloadSize_eq h, bind, Except.bind,
    ofNat32_eq_zero_iff hlt]
  rfl

/-! ### A payload byte (43_command_framer.md R246) -/

/-- The framer with a payload byte reported and counted, the record in hand tagged. -/
def Spi.payloadTaken (pre : List SpiByteRec) (r : SpiByteRec) (x : Byte) (d : Dir) (t : Spi) : Spi :=
  { t with
    xfer := pre ++ [{ r with fseq := some t.fseq }]
    pcount := t.pcount + 1
    remaining := if t.remaining = 0#32 then 0#32 else t.remaining - 1#32
    out := t.out ++ [evAt r.start r.stop (.payload .tpm d t.pcount x false)] }

/-- TPM_PAYLOAD takes the byte; one that leaves nothing closes the frame. -/
theorem Spi.tpmPayload_eq {t : Spi} {pre : List SpiByteRec} {r : SpiByteRec}
    (h : t.xfer = pre ++ [r]) (x : Byte) (d : Dir) : t.tpmPayload pre.length x d =
      if (t.payloadTaken pre r x d).remaining = 0#32 then
        (t.payloadTaken pre r x d).closeFrame pre.length
      else .ok (t.payloadTaken pre r x d) := by
  have htag := Spi.bufUpdate_append (fun q => { q with fseq := some t.fseq }) h
  have hread := Spi.bufRead_append (s := { t with xfer := pre ++ [{ r with fseq := some t.fseq }] }) rfl
  simp only [Spi.tpmPayload, htag, hread, bind, Except.bind]
  rfl

end Sys2Proof.Machine

open Sys2Proof Sys2Proof.Machine

/-- Settles O44: the three rows on the record in hand. -/
theorem framesOpenAndClose : Obligations.FramesOpenAndClose := by
  unfold Obligations.FramesOpenAndClose
  intro s pre r x h
  refine ⟨exec_tpmStart_last x h, rfl, fun d a hdir hstart => ?_⟩
  rw [exec_closeFrame_last h]
  exact onSpi_of_ok ((Spi.closeFrame_eq_ok ..).mpr ⟨d, a, hdir, hstart, rfl⟩)

/-- Settles O45: the byte is taken into its field, and a field of two, six or ten bytes goes to its row. -/
theorem frameHeaderByteAccumulates : Obligations.FrameHeaderByteAccumulates := by
  unfold Obligations.FrameHeaderByteAccumulates
  intro s pre r x d h hdir fresh u
  have hrow := onSpi_fieldDone_last (s := u) rfl hdir x
  simp only [show u.spi.fh = s.spi.fh + 1 from rfl, Nat.reduceEqDiff] at hrow
  rw [exec_tpmHdr_last x h hdir, ← hrow]
  exact onSpi_eq_onSpi (Spi.tpmHdr_eq s.cfg.spi h x d)

/-- Settles O46: each row is one update of the framer. -/
theorem tagAndLengthAreReported : Obligations.TagAndLengthAreReported := by
  unfold Obligations.TagAndLengthAreReported
  intro s pre r x h t tag
  refine ⟨?_, fun hlong => ?_, fun hshort => ?_, fun k => rfl⟩
  · rw [exec_tpmTagDone_last h]
    exact onSpi_of_ok (congrArg Except.ok (Spi.tpmTagDone_eq ..))
  · rw [exec_tpmLenDone_last h]
    exact onSpi_of_ok (congrArg Except.ok (Spi.tpmLenDone_of_le hlong _))
  · rw [exec_tpmLenDone_last h]
    exact onSpi_of_ok (congrArg Except.ok (Spi.tpmLenDone_of_lt hshort _))

/-- Settles O47: the code is taken, and then the payload size decides. -/
theorem codeFixesDirectionAndPayload : Obligations.CodeFixesDirectionAndPayload := by
  unfold Obligations.CodeFixesDirectionAndPayload
  intro s pre r x d h hdir hlen t size u
  have hu : t.codeTaken s.cfg.spi d (spanOf t.fFieldStart r.stop) = u := by
    cases d <;> rfl
  have hcode := Spi.tpmCodeDone_eq s.cfg.spi pre.length d (spanOf t.fFieldStart r.stop) hlen
  rw [hu] at hcode
  rw [exec_tpmCodeDone_last h x hdir]
  refine ⟨fun hsize => onSpi_of_ok (hcode.trans (if_neg hsize)), fun hsize => ?_⟩
  rw [exec_closeFrame_last (s := { s with spi := u }) h]
  exact onSpi_eq_onSpi (hcode.trans (if_pos hsize))

/-- Settles O48: the byte is taken, and the last one closes the frame. -/
theorem payloadByteCountsDown : Obligations.PayloadByteCountsDown := by
  unfold Obligations.PayloadByteCountsDown
  intro s pre r x d h hdir t u
  have hu : t.payloadTaken pre r x d = u := by
    rw [Spi.payloadTaken, countDown_eq]
  have hlast : u.remaining = 0#32 ↔ t.remaining.toNat ≤ 1 := by
    rw [ofNat32_eq_zero_iff (by omega)]
    omega
  have hbyte := Spi.tpmPayload_eq h x d
  rw [hu] at hbyte
  rw [exec_tpmPayload_last x h hdir]
  refine ⟨fun hmore => onSpi_of_ok (hbyte.trans (if_neg ?_)), fun hone => ?_⟩
  · exact fun hzero => absurd (hlast.mp hzero) (by omega)
  · rw [exec_closeFrame_last (s := { s with spi := u }) rfl]
    exact onSpi_eq_onSpi (hbyte.trans (if_pos (hlast.mpr hone)))

end

/-! ## The datalink frame and its APDU, written out (44_datalink_apdu.md R282 to R303)

A row reads its record as the last of the buffer; what it then does is one update of the datalink and
APDU registers, or the row that the byte completes. -/

section

namespace Sys2Proof.Machine

open Sys2Proof

/-! ### Fields of FCTR, PCTR and SCTR (30_encoding.md R103, R105, R106) -/

/-- The high byte of a 16-bit field above zeros (30_encoding.md R111). -/
theorem highByte_eq (v : Byte) : highByte v = v ++ 0#8 := by
  simpa [joinLow] using joinLow_highByte v 0#8

/-- Joined words as a number. -/
theorem toNat_append_eq_add {m n : Nat} (x : BitVec m) (y : BitVec n) :
    (x ++ y).toNat = x.toNat * 2 ^ n + y.toNat := by
  rw [BitVec.toNat_append, ← Nat.shiftLeft_add_eq_or_of_lt y.isLt, Nat.shiftLeft_eq]

/-- Where the `m`-th eighth of a byte's span begins (00_scope.md R14). -/
def eighthAt (a b m : Nat) : Rat := a + m * (((b : Rat) - a) / 8)

/-- The event of a bit field spans its eighths of the byte. -/
theorem bitFieldEvent_spanOf (layer : Layer) (f : FieldName) (v : Byte) (hi lo a b : Nat) :
    bitFieldEvent layer f v hi lo (spanOf a b) =
      evAt (eighthAt a b (7 - hi)) (eighthAt a b (7 - hi + (hi - lo + 1)))
        (.field layer f (bitField v hi lo) none) := by
  rw [bitFieldEvent, fieldSpan, subSpan_spanOf]
  rfl

section

variable (t : BitVec 1) (q : BitVec 2) (z : BitVec 1) (f k : BitVec 2)

theorem toNat_fctrByte : (fctrByte t q z f k).toNat =
    t.toNat * 128 + q.toNat * 32 + z.toNat * 16 + f.toNat * 4 + k.toNat := by
  simp only [fctrByte, toNat_append_eq_add]
  omega

theorem fctrEvents_spanOf (a b : Nat) : fctrEvents (fctrByte t q z f k) (spanOf a b) = [
    evAt (eighthAt a b 0) (eighthAt a b 1) (.field .dl .ftype t.toNat none),
    evAt (eighthAt a b 1) (eighthAt a b 3) (.field .dl .seqctr q.toNat none),
    evAt (eighthAt a b 3) (eighthAt a b 4) (.field .dl .rfu z.toNat none),
    evAt (eighthAt a b 4) (eighthAt a b 6) (.field .dl .frnr f.toNat none),
    evAt (eighthAt a b 6) (eighthAt a b 8) (.field .dl .acknr k.toNat none)] := by
  have ht : bitField (fctrByte t q z f k) 7 7 = t.toNat := by
    rw [bitField_eq, toNat_fctrByte]; omega
  have hq : bitField (fctrByte t q z f k) 6 5 = q.toNat := by
    rw [bitField_eq, toNat_fctrByte]; omega
  have hz : bitField (fctrByte t q z f k) 4 4 = z.toNat := by
    rw [bitField_eq, toNat_fctrByte]; omega
  have hf : bitField (fctrByte t q z f k) 3 2 = f.toNat := by
    rw [bitField_eq, toNat_fctrByte]; omega
  have hk : bitField (fctrByte t q z f k) 1 0 = k.toNat := by
    rw [bitField_eq, toNat_fctrByte]; omega
  simp only [fctrEvents, bitFieldEvent_spanOf, ht, hq, hz, hf, hk]

end

section

variable (c : BitVec 4) (z : BitVec 1) (h : BitVec 3)

theorem toNat_pctrByte : (pctrByte c z h).toNat = c.toNat * 16 + z.toNat * 8 + h.toNat := by
  simp only [pctrByte, toNat_append_eq_add]
  omega

theorem bitField_pctrByte_presence : bitField (pctrByte c z h) 3 3 = z.toNat := by
  rw [bitField_eq, toNat_pctrByte]
  omega

/-- PRESENCE, the bit that announces SCTR (44_datalink_apdu.md R288). -/
theorem getLsbD_pctrByte_three : (pctrByte c z h).getLsbD 3 = true ↔ z = 1#1 := by
  rw [← BitVec.toNat_inj, ← bitField_pctrByte_presence c z h, bitField_single]
  cases (pctrByte c z h).getLsbD 3 <;> simp

theorem pctrEvents_spanOf (a b : Nat) : pctrEvents (pctrByte c z h) (spanOf a b) = [
    evAt (eighthAt a b 0) (eighthAt a b 4) (.field .net .channel c.toNat none),
    evAt (eighthAt a b 4) (eighthAt a b 5) (.field .net .presence z.toNat none),
    evAt (eighthAt a b 5) (eighthAt a b 8) (.field .net .chaining h.toNat none)] := by
  have hc : bitField (pctrByte c z h) 7 4 = c.toNat := by
    rw [bitField_eq, toNat_pctrByte]; omega
  have hh : bitField (pctrByte c z h) 2 0 = h.toNat := by
    rw [bitField_eq, toNat_pctrByte]; omega
  simp only [pctrEvents, bitFieldEvent_spanOf, hc, bitField_pctrByte_presence, hh]

end

section

variable (o : BitVec 2) (m : BitVec 4) (k : BitVec 2)

theorem toNat_sctrByte : (sctrByte o m k).toNat = o.toNat * 64 + m.toNat * 4 + k.toNat := by
  simp only [sctrByte, toNat_append_eq_add]
  omega

theorem sctrEvents_spanOf (a b : Nat) : sctrEvents (sctrByte o m k) (spanOf a b) = [
    evAt (eighthAt a b 0) (eighthAt a b 2) (.field .pres .protocol o.toNat none),
    evAt (eighthAt a b 2) (eighthAt a b 6) (.field .pres .message m.toNat none),
    evAt (eighthAt a b 6) (eighthAt a b 8) (.field .pres .protection k.toNat none)] := by
  have ho : bitField (sctrByte o m k) 7 6 = o.toNat := by
    rw [bitField_eq, toNat_sctrByte]; omega
  have hm : bitField (sctrByte o m k) 5 2 = m.toNat := by
    rw [bitField_eq, toNat_sctrByte]; omega
  have hk : bitField (sctrByte o m k) 1 0 = k.toNat := by
    rw [bitField_eq, toNat_sctrByte]; omega
  simp only [sctrEvents, bitFieldEvent_spanOf, ho, hm, hk]

end

/-- The payload mode in numbers: CHAINING and MESSAGE zero, and the PROTECTION bit of the direction
(44_datalink_apdu.md R297). -/
theorem apduModeOf_eq (p : Byte) (sctr : Option Byte) (d : Dir) : apduModeOf p sctr d =
    (decide (p.toNat % 8 = 0) && (match sctr with
      | none => true
      | some x => decide (x.toNat / 4 % 16 = 0) && (match d with
        | .write => decide (x.toNat % 2 = 0)
        | .read => decide (x.toNat / 2 % 2 = 0)))) := by
  have hbit : ∀ (x : Byte) (i : Nat), (!x.getLsbD i) = decide (x.toNat / 2 ^ i % 2 = 0) := by
    intro x i
    have := (bitField_eq x i i).symm.trans (bitField_single x i)
    simp only [Nat.sub_self, Nat.zero_add, Nat.pow_one] at this
    rw [this]
    cases x.getLsbD i <;> rfl
  have hchaining : (bitField p 2 0 == 0) = decide (p.toNat % 8 = 0) := by
    simp [bitField_eq, beq_eq_decide]
  have hmessage : ∀ x : Byte, (bitField x 5 2 == 0) = decide (x.toNat / 4 % 16 = 0) := by
    simp [bitField_eq, beq_eq_decide]
  unfold apduModeOf
  rw [hchaining]
  cases sctr with
  | none => rfl
  | some x => cases d <;> simp only [hmessage, hbit, pow_zero, pow_one, Nat.div_one]

/-! ### The rows on the record in hand -/

section

variable {s : State} {pre : List I2cByteRec} {r : I2cByteRec} (h : s.i2c.xfer = pre ++ [r])

/-- A row that reads the direction of the phase. -/
theorem onI2c_dir {d : Dir} (hrw : s.i2c.rw = some d) (f : I2c → Dir → Run I2c) :
    (onI2c s fun _ t => do
      let d ← need "rw" t.rw
      f t d) = onI2c s fun _ t => f t d := by
  simp only [onI2c, (need_eq_ok ..).mpr hrw, bind, Except.bind]

include h

/-- A row that reads the index of the byte in hand. -/
theorem onI2c_last (f : I2c → Nat → Run I2c) :
    (onI2c s fun _ t => do
      let idx ← t.lastIdx
      f t idx) = onI2c s fun _ t => f t pre.length := by
  simp only [onI2c, I2c.lastIdx_append h, bind, Except.bind]

/-- A row that reads the index of the byte in hand and the direction of the phase. -/
theorem onI2c_last_dir {d : Dir} (hrw : s.i2c.rw = some d)
    (f : I2cParams → I2c → Nat → Dir → Run I2c) :
    (onI2c s fun p t => do
      let idx ← t.lastIdx
      let d ← need "rw" t.rw
      f p t idx d) = onI2c s fun p t => f p t pre.length d := by
  simp only [onI2c, I2c.lastIdx_append h, (need_eq_ok ..).mpr hrw, bind, Except.bind]

theorem exec_dlFctr_last (t : BitVec 1) (q : BitVec 2) (z : BitVec 1) (f k : BitVec 2) :
    exec (.dlFctr t q z f k) s = onI2c s fun _ u => u.dlFctr pre.length (fctrByte t q z f k) :=
  onI2c_last h fun u idx => u.dlFctr idx (fctrByte t q z f k)

theorem exec_dlLen0_last (v : Byte) :
    exec (.dlLen0 v) s = onI2c s fun _ t => t.dlLen0 pre.length v :=
  onI2c_last h fun t idx => t.dlLen0 idx v

theorem exec_dlLen1_last (v : Byte) :
    exec (.dlLen1 v) s = onI2c s fun _ t => t.dlLen1 pre.length v :=
  onI2c_last h fun t idx => t.dlLen1 idx v

theorem exec_dlFcs0_last (v : Byte) :
    exec (.dlFcs0 v) s = onI2c s fun _ t => t.dlFcs0 pre.length v :=
  onI2c_last h fun t idx => t.dlFcs0 idx v

theorem exec_dlExcess_last {j : Nat} (hj : s.i2c.j = j + 1) (v : Byte) :
    exec (.dlExcess v) s = onI2c s fun _ t => t.dlExcess pre.length j := by
  have hcount : natSub "j" s.i2c.j 1 = .ok j := (natSub_eq_ok ..).mpr ⟨by omega, by omega⟩
  simp only [exec, execDlExcess, onI2c, I2c.lastIdx_append h, hcount, bind, Except.bind]

theorem exec_apduParam_last (v : Byte) :
    exec (.apduParam v) s = onI2c s fun _ t => t.apduParam pre.length v :=
  onI2c_last h fun t idx => t.apduParam idx v

theorem exec_apduLen0_last (v : Byte) :
    exec (.apduLen0 v) s = onI2c s fun _ t => t.apduLen0 pre.length v :=
  onI2c_last h fun t idx => t.apduLen0 idx v

theorem exec_apduExcess_last (v : Byte) :
    exec (.apduExcess v) s = onI2c s fun _ t => t.apduExcess pre.length :=
  onI2c_last h fun t idx => t.apduExcess idx

variable {d : Dir} (hrw : s.i2c.rw = some d)

include hrw

theorem exec_dlPctr_last (c : BitVec 4) (z : BitVec 1) (e : BitVec 3) :
    exec (.dlPctr c z e) s = onI2c s fun _ t => t.dlPctr pre.length (pctrByte c z e) d :=
  onI2c_last_dir h hrw fun _ t idx d => t.dlPctr idx (pctrByte c z e) d

theorem exec_dlSctr_last (o : BitVec 2) (m : BitVec 4) (k : BitVec 2) :
    exec (.dlSctr o m k) s = onI2c s fun _ t => t.dlSctr pre.length (sctrByte o m k) d :=
  onI2c_last_dir h hrw fun _ t idx d => t.dlSctr idx (sctrByte o m k) d

theorem exec_dlPay_last (v : Byte) :
    exec (.dlPay v) s = onI2c s fun p t => t.dlPay p pre.length v d :=
  onI2c_last_dir h hrw fun p t idx d => t.dlPay p idx v d

theorem exec_dlFcs1_last (v : Byte) :
    exec (.dlFcs1 v) s = onI2c s fun _ t => t.dlFcs1 pre.length v d :=
  onI2c_last_dir h hrw fun _ t idx d => t.dlFcs1 idx v d

theorem exec_dlFinish_last (c : Bool) :
    exec (.dlFinish c) s = onI2c s fun _ t => t.dlFinish pre.length d c :=
  onI2c_last_dir h hrw fun _ t idx d => t.dlFinish idx d c

theorem exec_apduCmd_last (v : Byte) :
    exec (.apduCmd v) s = onI2c s fun p t => t.apduCmd p pre.length v d :=
  onI2c_last_dir h hrw fun p t idx d => t.apduCmd p idx v d

theorem exec_apduLen1_last (v : Byte) :
    exec (.apduLen1 v) s = onI2c s fun p t => t.apduLen1 p pre.length v d :=
  onI2c_last_dir h hrw fun p t idx d => t.apduLen1 p idx v d

theorem exec_apduData_last (v : Byte) :
    exec (.apduData v) s = onI2c s fun _ t => t.apduData pre.length v d :=
  onI2c_last_dir h hrw fun _ t idx d => t.apduData idx v d

theorem exec_apduFinish_last (c : Bool) :
    exec (.apduFinish c) s = onI2c s fun _ t => t.apduFinish pre.length d c :=
  onI2c_last_dir h hrw fun _ t idx d => t.apduFinish idx d c

end

theorem exec_payloadBegin_dir {s : State} {d : Dir} (hrw : s.i2c.rw = some d) :
    exec .payloadBegin s = onI2c s fun _ t => t.payloadBegin d :=
  onI2c_dir hrw fun t d => t.payloadBegin d

/-- The row that takes an APDU byte, by the state of the APDU parser (44_datalink_apdu.md R298). -/
def apduRow (v : Byte) : ApSt → Instr
  | .cmd => .apduCmd v
  | .param => .apduParam v
  | .len0 => .apduLen0 v
  | .len1 => .apduLen1 v
  | .data => .apduData v
  | .done => .apduExcess v

/-- The APDU parser on the byte in hand is the row that its state selects. -/
theorem exec_apduRow_last {s : State} {pre : List I2cByteRec} {r : I2cByteRec} {d : Dir}
    (h : s.i2c.xfer = pre ++ [r]) (hrw : s.i2c.rw = some d) (v : Byte) :
    exec (apduRow v s.i2c.ap.ast) s = onI2c s fun p t => t.apduByte p pre.length v d := by
  cases hst : s.i2c.ap.ast with
  | cmd => simp only [apduRow, exec_apduCmd_last h hrw, onI2c, I2c.apduByte, hst]
  | param => simp only [apduRow, exec_apduParam_last h, onI2c, I2c.apduByte, hst]
  | len0 => simp only [apduRow, exec_apduLen0_last h, onI2c, I2c.apduByte, hst]
  | len1 => simp only [apduRow, exec_apduLen1_last h hrw, onI2c, I2c.apduByte, hst]
  | data => simp only [apduRow, exec_apduData_last h hrw, onI2c, I2c.apduByte, hst]
  | done => simp only [apduRow, exec_apduExcess_last h, onI2c, I2c.apduByte, hst]

/-! ### The bytes around the payload (44_datalink_apdu.md R282 to R294) -/

/-- The checksum complete with its low byte, the byte of the record `r`. -/
def I2c.fcsTaken (r : I2cByteRec) (v : Byte) (t : I2c) : I2c :=
  { t with
    dl := { t.dl with fcs := joinLow t.dl.fcs v, dst := .done }
    out := t.out ++ [evAt t.dl.dFcsStart r.stop
      (.field .dl .fcs (joinLow t.dl.fcs v).toNat none)] }

section

variable {t : I2c} {pre : List I2cByteRec} {r : I2cByteRec} (h : t.xfer = pre ++ [r])

include h

theorem I2c.dlFctr_last (a : BitVec 1) (q : BitVec 2) (z : BitVec 1) (f k : BitVec 2) :
    t.dlFctr pre.length (fctrByte a q z f k) = .ok { t with
      dl := { t.dl with dFirst := some pre.length, fctr := fctrByte a q z f k, dst := .len0 }
      out := t.out ++ fctrEvents (fctrByte a q z f k) (spanOf r.start r.stop) } := by
  simp only [I2c.dlFctr, I2c.recSpan_append h, bind, Except.bind]
  rfl

theorem I2c.dlLen0_last (v : Byte) : t.dlLen0 pre.length v = .ok { t with
    dl := { t.dl with dLenStart := r.start, dlen := v ++ 0#8, dst := .len1 } } := by
  simp only [I2c.dlLen0, I2c.bufRead_append h, bind, Except.bind, highByte_eq]

theorem I2c.dlLen1_last (v : Byte) : t.dlLen1 pre.length v = .ok { t with
    dl := { t.dl with
      dlen := joinLow t.dl.dlen v
      drem := (joinLow t.dl.dlen v).toNat
      dst := if joinLow t.dl.dlen v = 0#16 then .fcs0 else .pctr }
    out := t.out ++ [evAt t.dl.dLenStart r.stop
      (.field .dl .len (joinLow t.dl.dlen v).toNat none)] } := by
  simp only [I2c.dlLen1, I2c.bufRead_append h, bind, Except.bind]
  rfl

theorem I2c.dlFcs0_last (v : Byte) : t.dlFcs0 pre.length v = .ok { t with
    dl := { t.dl with dFcsStart := r.start, fcs := v ++ 0#8, dst := .fcs1 } } := by
  simp only [I2c.dlFcs0, I2c.bufRead_append h, bind, Except.bind, highByte_eq]

/-- DL_FCS1 takes the checksum, then completes the frame. -/
theorem I2c.dlFcs1_last (v : Byte) (d : Dir) :
    t.dlFcs1 pre.length v d = (t.fcsTaken r v).dlFinish pre.length d true := by
  simp only [I2c.dlFcs1, I2c.bufRead_append h, bind, Except.bind]
  rfl

theorem I2c.dlExcess_last (j : Nat) : t.dlExcess pre.length j = .ok { t with
    out := t.out ++ [evAt r.start r.stop (.diag .warnDlExcess j)] } := by
  simp only [I2c.dlExcess, I2c.recSpan_append h, bind, Except.bind]
  rfl

end

/-- PCTR taken from the record `r`, with `rem` bytes left after it. -/
def I2c.pctrTaken (r : I2cByteRec) (rem : Nat) (c : BitVec 4) (z : BitVec 1) (h : BitVec 3)
    (t : I2c) : I2c :=
  { t with
    dl := { t.dl with pctr := some (pctrByte c z h), drem := rem }
    out := t.out ++ pctrEvents (pctrByte c z h) (spanOf r.start r.stop) }

/-- SCTR taken from the record `r`, with `rem` bytes left after it. -/
def I2c.sctrTaken (r : I2cByteRec) (rem : Nat) (o : BitVec 2) (m : BitVec 4) (k : BitVec 2)
    (t : I2c) : I2c :=
  { t with
    dl := { t.dl with sctr := some (sctrByte o m k), drem := rem }
    out := t.out ++ sctrEvents (sctrByte o m k) (spanOf r.start r.stop) }

/-- The parser in another state of the frame. -/
def I2c.setDst (q : DlSt) (t : I2c) : I2c := { t with dl := { t.dl with dst := q } }

/-- One byte fewer of the payload. -/
theorem natSub_one_of_eq {k rem : Nat} (h : k = rem + 1) (field : String) :
    natSub field k 1 = .ok rem :=
  (natSub_eq_ok ..).mpr ⟨by omega, by omega⟩

section

variable {t : I2c} {pre : List I2cByteRec} {r : I2cByteRec} (h : t.xfer = pre ++ [r])
  {rem : Nat} (hrem : t.dl.drem = rem + 1)

include h hrem

/-- DL_PCTR takes the byte, then passes on by PRESENCE and the bytes left. -/
theorem I2c.dlPctr_last (c : BitVec 4) (z : BitVec 1) (e : BitVec 3) (d : Dir) :
    t.dlPctr pre.length (pctrByte c z e) d =
      if z = 1#1 ∧ 0 < rem then .ok ((t.pctrTaken r rem c z e).setDst .sctr)
      else if 0 < rem then (t.pctrTaken r rem c z e).payloadBegin d
      else .ok ((t.pctrTaken r rem c z e).setDst .fcs0) := by
  simp only [I2c.dlPctr, I2c.recSpan_append h, natSub_one_of_eq hrem, bind, Except.bind,
    getLsbD_pctrByte_three]
  rfl

/-- DL_SCTR takes the byte, then passes on by the bytes left. -/
theorem I2c.dlSctr_last (o : BitVec 2) (m : BitVec 4) (k : BitVec 2) (d : Dir) :
    t.dlSctr pre.length (sctrByte o m k) d =
      if 0 < rem then (t.sctrTaken r rem o m k).payloadBegin d
      else .ok ((t.sctrTaken r rem o m k).setDst .fcs0) := by
  simp only [I2c.dlSctr, I2c.recSpan_append h, natSub_one_of_eq hrem, bind, Except.bind]
  rfl

end

/-! ### The payload (44_datalink_apdu.md R295) -/

theorem I2c.cutApdu_of_not_open {t : I2c} (k : Nat) (d : Dir)
    (h : t.dl.apduMode = true → t.ap.ast = .done) : t.cutApdu k d = .ok t :=
  if_neg fun hopen => hopen.2 (h hopen.1)

/-- An open APDU is warned of and recorded as cut. -/
theorem I2c.cutApdu_of_open {t : I2c} {pre : List I2cByteRec} {r ra : I2cByteRec} {a : Nat}
    (h : t.xfer = pre ++ [r]) (d : Dir) (hmode : t.dl.apduMode = true) (hopen : t.ap.ast ≠ .done)
    (hfirst : t.ap.aFirst = some a) (hra : t.xfer[a]? = some ra) :
    t.cutApdu pre.length d = (t.diag .warnApduTruncated (spanOf ra.start r.stop)
      t.ap.arem).apduFinish pre.length d false := by
  simp only [I2c.cutApdu, hmode, hopen, ne_eq, not_false_eq_true, and_self, if_true,
    (need_eq_ok ..).mpr hfirst, (I2c.bufRead_eq_ok ..).mpr hra, I2c.bufRead_append h, bind,
    Except.bind]

/-- One more payload byte counted, with `rem` left after it. -/
def I2c.payCounted (rem : Nat) (t : I2c) : I2c :=
  { t with dl := { t.dl with dpay := t.dl.dpay + 1, drem := rem } }

section

variable {t : I2c} {rem : Nat} (hrem : t.dl.drem = rem + 1)

include hrem

/-- A payload byte is counted; the last one cuts an open APDU and ends the payload. -/
theorem I2c.countPayload_of_drem (k : Nat) (d : Dir) : t.countPayload k d =
    if rem = 0 then (t.payCounted rem).cutApdu k d >>= fun u => .ok (u.setDst .fcs0)
    else .ok (t.payCounted rem) := by
  simp only [I2c.countPayload, natSub_one_of_eq hrem, bind, Except.bind]
  rfl

theorem I2c.countPayload_of_more (k : Nat) (d : Dir) (hmore : 0 < rem) :
    t.countPayload k d = .ok (t.payCounted rem) :=
  (I2c.countPayload_of_drem hrem k d).trans (if_neg hmore.ne')

theorem I2c.countPayload_of_last (k : Nat) (d : Dir) (hzero : rem = 0)
    (hdone : t.dl.apduMode = true → t.ap.ast = .done) :
    t.countPayload k d = .ok ((t.payCounted rem).setDst .fcs0) := by
  rw [I2c.countPayload_of_drem hrem, if_pos hzero,
    I2c.cutApdu_of_not_open (t := t.payCounted rem) k d hdone]
  rfl

theorem I2c.countPayload_of_cut {pre : List I2cByteRec} {r ra : I2cByteRec} {a : Nat}
    (h : t.xfer = pre ++ [r]) (d : Dir) (hzero : rem = 0) (hmode : t.dl.apduMode = true)
    (hopen : t.ap.ast ≠ .done) (hfirst : t.ap.aFirst = some a) (hra : t.xfer[a]? = some ra) :
    t.countPayload pre.length d =
      ((t.payCounted rem).diag .warnApduTruncated (spanOf ra.start r.stop) t.ap.arem).apduFinish
        pre.length d false >>= fun u => .ok (u.setDst .fcs0) := by
  rw [I2c.countPayload_of_drem hrem, if_pos hzero,
    I2c.cutApdu_of_open (t := t.payCounted rem) h d hmode hopen hfirst hra]
  rfl

end

section

variable {t : I2c} {pre : List I2cByteRec} {r : I2cByteRec} (h : t.xfer = pre ++ [r])

include h

theorem I2c.dlPay_of_protected (p : I2cParams) (v : Byte) (d : Dir)
    (hmode : t.dl.apduMode = false) : t.dlPay p pre.length v d =
      (t.emit (spanOf r.start r.stop) (.payload .dl d t.dl.dpay v true)).countPayload
        pre.length d := by
  simp only [I2c.dlPay_eq, I2c.recSpan_append h, hmode, bind, Except.bind]
  rfl

theorem I2c.dlPay_of_apdu {p : I2cParams} {v : Byte} {d : Dir} {u : I2c}
    (hmode : t.dl.apduMode = true) (hu : t.apduByte p pre.length v d = .ok u) :
    t.dlPay p pre.length v d = u.countPayload pre.length d := by
  simp only [I2c.dlPay_eq, I2c.recSpan_append h, hmode, hu, bind, Except.bind, if_true]

end

/-! ### The APDU (44_datalink_apdu.md R298 to R302) -/

/-- What is reported of APDU byte 0 (44_datalink_apdu.md R298). -/
def apduHeadEvent (p : I2cParams) (v : Byte) : Dir → Event
  | .write => match p.knownApduCmd.lookup v with
    | some nm => .field .apdu .cmd v.toNat (some nm)
    | none => .diag .errUnknownApduCmd v.toNat
  | .read => match p.knownApduSta.lookup v with
    | some nm => .field .apdu .sta v.toNat (some nm)
    | none => .diag .errUnknownApduSta v.toNat

/-- The length of an APDU complete with its low byte, the byte of the record `r`. -/
def I2c.lenTaken (p : I2cParams) (r : I2cByteRec) (v : Byte) (t : I2c) : I2c :=
  let alen : BitVec 16 := joinLow t.ap.alen v
  { t with
    ap := { t.ap with alen := alen, arem := apduDataSize p alen }
    out := t.out ++ [evAt t.ap.aLenStart r.stop (.field .apdu .len alen.toNat none)] }

/-- A data byte of an APDU reported and counted. -/
def I2c.dataTaken (r : I2cByteRec) (v : Byte) (d : Dir) (t : I2c) : I2c :=
  { t with
    ap := { t.ap with adata := t.ap.adata + 1, arem := t.ap.arem - 1 }
    out := t.out ++ [evAt r.start r.stop (.payload .apdu d t.ap.adata v false)] }

section

variable {t : I2c} {pre : List I2cByteRec} {r : I2cByteRec} (h : t.xfer = pre ++ [r])

include h

theorem I2c.apduCmd_last (p : I2cParams) (v : Byte) (d : Dir) :
    t.apduCmd p pre.length v d = .ok { t with
      ap := { t.ap with aFirst := some pre.length, cmd := v, ast := .param }
      out := t.out ++ [evAt r.start r.stop (apduHeadEvent p v d)] } := by
  simp only [I2c.apduCmd, I2c.recSpan_append h, bind, Except.bind, lookupName]
  cases d with
  | write =>
    simp only [apduHead, apduHeadEvent]
    cases p.knownApduCmd.lookup v <;> rfl
  | read =>
    simp only [apduHead, apduHeadEvent]
    cases p.knownApduSta.lookup v <;> rfl

theorem I2c.apduParam_last (v : Byte) : t.apduParam pre.length v = .ok { t with
    ap := { t.ap with param := v, ast := .len0 }
    out := t.out ++ [evAt r.start r.stop (.field .apdu .param v.toNat none)] } := by
  simp only [I2c.apduParam, I2c.recSpan_append h, bind, Except.bind]
  rfl

theorem I2c.apduLen0_last (v : Byte) : t.apduLen0 pre.length v = .ok { t with
    ap := { t.ap with aLenStart := r.start, alen := v ++ 0#8, ast := .len1 } } := by
  simp only [I2c.apduLen0, I2c.bufRead_append h, bind, Except.bind, highByte_eq]

/-- APDU_LEN1 takes the length; an APDU with no data is complete, another awaits its data. -/
theorem I2c.apduLen1_last (p : I2cParams) (v : Byte) (d : Dir) : t.apduLen1 p pre.length v d =
    if (t.lenTaken p r v).ap.arem = 0 then (t.lenTaken p r v).apduFinish pre.length d true
    else .ok { t.lenTaken p r v with ap := { (t.lenTaken p r v).ap with ast := .data } } := by
  simp only [I2c.apduLen1, I2c.bufRead_append h, bind, Except.bind]
  rfl

/-- APDU_DATA takes the byte; one that leaves nothing completes the APDU. -/
theorem I2c.apduData_last (v : Byte) (d : Dir) (hpos : 1 ≤ t.ap.arem) :
    t.apduData pre.length v d =
      if t.ap.arem - 1 = 0 then (t.dataTaken r v d).apduFinish pre.length d true
      else .ok (t.dataTaken r v d) := by
  have hrem : natSub "arem" t.ap.arem 1 = .ok (t.ap.arem - 1) := (natSub_eq_ok ..).mpr ⟨hpos, rfl⟩
  simp only [I2c.apduData, I2c.recSpan_append h, hrem, bind, Except.bind]
  rfl

theorem I2c.apduExcess_last : t.apduExcess pre.length = .ok { t with
    out := t.out ++ [evAt r.start r.stop (.diag .warnApduExcess t.dl.dpay)] } := by
  simp only [I2c.apduExcess, I2c.recSpan_append h, bind, Except.bind]
  rfl

end

/-! ### The end of a phase (44_datalink_apdu.md R303) -/

theorem I2c.endPhase_of_no_open_frame {t : I2c} (h : t.dl.dFirst = none ∨ t.dl.dst = .done) :
    t.endPhase = .ok t :=
  (I2c.endPhase_eq_ok t t).mpr (.inl ⟨h, rfl⟩)

/-- An open frame is warned of and recorded as cut, after its APDU. -/
theorem I2c.endPhase_of_open_frame {t u : I2c} {pre : List I2cByteRec} {r rf : I2cByteRec} {d : Dir}
    {f : Nat} (h : t.xfer = pre ++ [r]) (hrw : t.rw = some d) (hfirst : t.dl.dFirst = some f)
    (hrun : t.dl.dst ≠ .done) (hu : t.endApdu pre.length d = .ok u) (hrf : t.xfer[f]? = some rf) :
    t.endPhase = (u.diag .warnDlTruncated (spanOf rf.start t.n) t.dl.drem).dlFinish
      pre.length d false := by
  have hkeeps := (I2c.ApOnly.endApdu hu).rest
  have hread : u.bufRead f = .ok rf := (I2c.bufRead_eq_ok ..).mpr (by rwa [I2c.endApdu_xfer hu])
  have hn : u.n = t.n := by rw [hkeeps]
  have hdl : u.dl = t.dl := by rw [hkeeps]
  simp only [I2c.endPhase, hfirst, hrun, if_false, I2c.lastIdx_append h, (need_eq_ok ..).mpr hrw, hu,
    hread, hn, hdl, bind, Except.bind]

theorem I2c.endApdu_of_not_open {t : I2c} (k : Nat) (d : Dir)
    (h : t.dl.dst ≠ .pay ∨ t.dl.apduMode = false ∨ t.ap.ast = .done ∨ t.ap.aFirst = none) :
    t.endApdu k d = .ok t := by
  have hnone : t.openApdu = none := by
    unfold I2c.openApdu
    split
    · next hopen =>
      obtain ⟨hpay, hmode, hast⟩ := hopen
      rcases h with h | h | h | h
      · exact absurd hpay h
      · simp [h] at hmode
      · exact absurd h hast
      · exact h
    · rfl
  rw [I2c.endApdu, hnone]

theorem I2c.endApdu_of_open {t : I2c} {a : Nat} {ra : I2cByteRec} (k : Nat) (d : Dir)
    (hpay : t.dl.dst = .pay) (hmode : t.dl.apduMode = true) (hopen : t.ap.ast ≠ .done)
    (hfirst : t.ap.aFirst = some a) (hra : t.xfer[a]? = some ra) :
    t.endApdu k d = (t.diag .warnApduTruncated (spanOf ra.start t.n) t.ap.arem).apduFinish
      k d false := by
  have hsome : t.openApdu = some a := (if_pos ⟨hpay, hmode, hopen⟩).trans hfirst
  simp only [I2c.endApdu, hsome, (I2c.bufRead_eq_ok ..).mpr hra, bind, Except.bind]

end Sys2Proof.Machine

open Sys2Proof Sys2Proof.Machine

/-- Settles O49: each of the four rows is one update of the frame's registers. -/
theorem datalinkHeaderBytes : Obligations.DatalinkHeaderBytes := by
  unfold Obligations.DatalinkHeaderBytes
  intro s pre r v t q z f k h u w at8 dlen
  refine ⟨?_, ?_, ?_, ?_⟩
  · rw [exec_dlFctr_last h]
    refine onI2c_of_ok ((I2c.dlFctr_last h ..).trans ?_)
    rw [fctrEvents_spanOf]
    rfl
  · rw [exec_dlLen0_last h]
    exact onI2c_of_ok (I2c.dlLen0_last h v)
  · rw [exec_dlLen1_last h]
    exact onI2c_of_ok (I2c.dlLen1_last h v)
  · rw [exec_dlFcs0_last h]
    exact onI2c_of_ok (I2c.dlFcs0_last h v)

/-- Settles O50: the control byte is taken, then PRESENCE and the bytes left decide. -/
theorem controlBytesBeginThePayload : Obligations.ControlBytesBeginThePayload := by
  unfold Obligations.ControlBytesBeginThePayload
  intro s pre r d rem c z h o m k hlast hrw u w at8 withP withS enter
  have hP : u.pctrTaken r rem c z h = withP := by
    rw [I2c.pctrTaken, pctrEvents_spanOf]
    rfl
  have hS : u.sctrTaken r rem o m k = withS := by
    rw [I2c.sctrTaken, sctrEvents_spanOf]
    rfl
  refine ⟨fun hrem => ?_, fun p hp => ?_⟩
  · have hpctr := I2c.dlPctr_last hlast hrem c z h d
    have hsctr := I2c.dlSctr_last hlast hrem o m k d
    rw [hP] at hpctr
    rw [hS] at hsctr
    rw [exec_dlPctr_last hlast hrw, exec_dlSctr_last hlast hrw,
      exec_payloadBegin_dir (s := { s with i2c := withP }) hrw,
      exec_payloadBegin_dir (s := { s with i2c := withS }) hrw]
    refine ⟨fun hz hmore => ?_, fun hz hmore => ?_, fun hnone => ?_, fun hmore => ?_,
      fun hnone => ?_⟩
    · exact onI2c_of_ok (hpctr.trans (if_pos ⟨hz, hmore⟩))
    · have hz1 : ¬(z = 1#1 ∧ 0 < rem) := by simp [hz]
      exact onI2c_eq_onI2c (hpctr.trans ((if_neg hz1).trans (if_pos hmore)))
    · exact onI2c_of_ok (hpctr.trans ((if_neg (by omega)).trans (if_neg (by omega))))
    · exact onI2c_eq_onI2c (hsctr.trans (if_pos hmore))
    · exact onI2c_of_ok (hsctr.trans (if_neg (by omega)))
  · rw [exec_payloadBegin_dir hrw]
    refine onI2c_of_ok ((I2c.payloadBegin_eq_ok ..).mpr ⟨p, hp, ?_⟩)
    exact congrArg (fun mode => { u with
      ap := Ap.reset, dl := { u.dl with dst := .pay, apduMode := mode } })
      (apduModeOf_eq p u.dl.sctr d).symm

/-- Settles O51: the byte is protected payload or an APDU row's, and is then counted. -/
theorem datalinkPayloadByte : Obligations.DatalinkPayloadByte := by
  unfold Obligations.DatalinkPayloadByte
  intro s pre r v d rem h hrw hrem u apdu
  rw [exec_dlPay_last h hrw]
  refine ⟨fun hmode => ?_, ?_⟩
  · have hbyte := I2c.dlPay_of_protected h s.cfg.i2c v d hmode
    rcases Nat.eq_zero_or_pos rem with hzero | hmore
    · rw [if_pos hzero]
      refine onI2c_of_ok (hbyte.trans
        (I2c.countPayload_of_last (t := s.i2c.emit _ _) hrem _ d hzero ?_))
      exact fun hapdu => absurd (hapdu.symm.trans hmode) (by simp)
    · rw [if_neg hmore.ne']
      exact onI2c_of_ok (hbyte.trans
        (I2c.countPayload_of_more (t := s.i2c.emit _ _) hrem _ d hmore))
  · intro q hmode hq counted
    have hrow : apduRow v u.ap.ast = apdu := rfl
    rw [← hrow, exec_apduRow_last h hrw, onI2c_eq_next] at hq
    obtain ⟨t, ht, rfl⟩ := hq
    have hkeeps := (I2c.ApOnly.apduByte ht).rest
    have hdl : t.dl = u.dl := by rw [hkeeps]
    have hxfer : t.xfer = pre ++ [r] := by rw [hkeeps]; exact h
    have hrw' : t.rw = some d := by rw [hkeeps]; exact hrw
    have hrem' : t.dl.drem = rem + 1 := by rw [hdl]; exact hrem
    have hmode' : t.dl.apduMode = true := by rw [hdl]; exact hmode
    have hcounted : t.payCounted rem = counted := by simp only [I2c.payCounted, counted, hdl]
    have hbyte := I2c.dlPay_of_apdu h hmode ht
    refine ⟨fun hmore => ?_, fun hzero hdone => ?_, fun a ra hzero hopen hfirst hra => ?_⟩
    · rw [← hcounted]
      exact onI2c_of_ok (hbyte.trans (I2c.countPayload_of_more hrem' _ d hmore))
    · rw [← hcounted]
      exact onI2c_of_ok (hbyte.trans (I2c.countPayload_of_last hrem' _ d hzero fun _ => hdone))
    · have hcut := hbyte.trans
        (I2c.countPayload_of_cut hrem' hxfer d hzero hmode' hopen hfirst hra)
      have hfinish := exec_apduFinish_last (s := { s with
        i2c := (t.payCounted rem).diag .warnApduTruncated (spanOf ra.start r.stop) t.ap.arem })
        hxfer hrw' false
      rw [hcounted] at hcut hfinish
      refine (onI2c_eq_onI2c (g := fun _ w => w.apduFinish pre.length d false >>= fun x =>
        .ok (x.setDst .fcs0)) hcut).trans ?_
      rw [onI2c_bind_ok]
      exact congrArg (thenNext · _) hfinish.symm

/-- Settles O52: the frame or the APDU that ends is recorded, an excess byte is warned of. -/
theorem framesAndApdusAreRecorded : Obligations.FramesAndApdusAreRecorded := by
  unfold Obligations.FramesAndApdusAreRecorded
  intro s pre r v d complete f h hrw u fcs
  refine ⟨fun _ => ?_, fun hfirst => ?_, fun hfirst => ?_, fun hj => ?_, ?_⟩
  · rw [exec_dlFcs1_last h hrw]
    refine Eq.trans ?_ (exec_dlFinish_last (s := { s with i2c := u.fcsTaken r v }) h hrw true).symm
    exact onI2c_eq_onI2c (I2c.dlFcs1_last h v d)
  · rw [exec_dlFinish_last h hrw]
    exact onI2c_of_ok ((I2c.dlFinish_eq_ok ..).mpr ⟨f, hfirst, rfl⟩)
  · rw [exec_apduFinish_last h hrw]
    exact onI2c_of_ok ((I2c.apduFinish_eq_ok ..).mpr ⟨f, hfirst, rfl⟩)
  · rw [exec_dlExcess_last h (Nat.sub_add_cancel hj).symm]
    exact onI2c_of_ok (I2c.dlExcess_last h _)
  · rw [exec_apduExcess_last h]
    exact onI2c_of_ok (I2c.apduExcess_last h)

/-- Settles O53: each row is one update of the APDU registers, or completes the APDU. -/
theorem apduBytes : Obligations.ApduBytes := by
  unfold Obligations.ApduBytes
  intro s pre r v d h hrw u alen size withLen withData
  have hlen := I2c.apduLen1_last h s.cfg.i2c v d
  have hdata := I2c.apduData_last h v d
  rw [exec_apduCmd_last h hrw, exec_apduParam_last h, exec_apduLen0_last h,
    exec_apduLen1_last h hrw, exec_apduData_last h hrw,
    exec_apduFinish_last (s := { s with i2c := withLen }) h hrw,
    exec_apduFinish_last (s := { s with i2c := withData }) h hrw]
  refine ⟨?_, ?_, ?_, fun hsize => ?_, fun hsize => ?_, fun (hmore : 2 ≤ s.i2c.ap.arem) => ?_,
    fun (hone : s.i2c.ap.arem = 1) => ?_⟩
  · refine onI2c_of_ok ((I2c.apduCmd_last h _ v d).trans ?_)
    cases d <;> rfl
  · exact onI2c_of_ok (I2c.apduParam_last h v)
  · exact onI2c_of_ok (I2c.apduLen0_last h v)
  · exact onI2c_of_ok (hlen.trans (if_neg hsize))
  · exact onI2c_eq_onI2c (hlen.trans (if_pos hsize))
  · exact onI2c_of_ok ((hdata (by omega)).trans (if_neg (by omega)))
  · exact onI2c_eq_onI2c ((hdata (by omega)).trans (if_pos (by omega)))

/-- Settles O54: an open frame is recorded as cut, after the APDU in progress if there is one. -/
theorem endPhaseEndsAnOpenFrame : Obligations.EndPhaseEndsAnOpenFrame := by
  unfold Obligations.EndPhaseEndsAnOpenFrame
  intro s u
  rw [exec_endPhase]
  refine ⟨fun hclosed => onI2c_of_ok (I2c.endPhase_of_no_open_frame hclosed), ?_⟩
  intro f rf d hfirst hrun hrw hrf cut
  obtain ⟨pre, r, h⟩ : ∃ pre r, u.xfer = pre ++ [r] :=
    (List.eq_nil_or_concat' u.xfer).resolve_left (List.ne_nil_of_mem (List.mem_of_getElem? hrf))
  have hcut : ∀ t : I2c, u.endApdu pre.length d = .ok t →
      onI2c s (fun _ t => t.endPhase) = cut { s with i2c := t } := by
    intro t ht
    have hkeeps := (I2c.ApOnly.endApdu ht).rest
    have hxfer : t.xfer = pre ++ [r] := by rw [hkeeps]; exact h
    have hrw' : t.rw = some d := by rw [hkeeps]; exact hrw
    refine Eq.trans ?_ (exec_dlFinish_last (s := { s with
      i2c := t.diag .warnDlTruncated (spanOf rf.start u.n) u.dl.drem }) hxfer hrw' false).symm
    exact onI2c_eq_onI2c (I2c.endPhase_of_open_frame h hrw hfirst hrun ht hrf)
  refine ⟨fun hno => hcut u (I2c.endApdu_of_not_open pre.length d hno),
    fun a ra q hpay hmode hopen ha hra hq => ?_⟩
  replace hq := (exec_apduFinish_last (s := { s with
    i2c := u.diag .warnApduTruncated (spanOf ra.start u.n) u.ap.arem }) h hrw false).symm.trans hq
  rw [onI2c_eq_next] at hq
  obtain ⟨t, ht, rfl⟩ := hq
  exact hcut t ((I2c.endApdu_of_open pre.length d hpay hmode hopen ha hra).trans ht)

end

/-! ## Summaries come only with the end of a transfer (45_aggregator.md R330)

Every operation of a byte, of a condition or of a phase's end adds events that are no summary. Only
the aggregator passes add summaries, and the two steps that run them close the transfer. -/

section

namespace Sys2Proof.Machine

open Sys2Proof

/-- The summaries of an SPI pass (45_aggregator.md R340). -/
def Event.isSpiSummary : Event → Bool
  | .spiXferSum _ | .cmdSum _ => true
  | _ => false

/-- The summaries of an I2C pass (45_aggregator.md R350). -/
def Event.isI2cSummary : Event → Bool
  | .i2cXferSum _ | .reglenSum _ | .dlSum _ | .apduSum _ => true
  | _ => false

/-- The events `out` are `base` and then events of which `q` holds of none. -/
def AddsNo (q : Event → Bool) (base out : List OutEvent) : Prop :=
  ∃ es, out = base ++ es ∧ ∀ e ∈ es, q e.event = false

variable {q : Event → Bool} {a b c : List OutEvent}

theorem AddsNo.refl (a : List OutEvent) : AddsNo q a a := ⟨[], by simp, by simp⟩

theorem AddsNo.append (h : AddsNo q a b) {es : List OutEvent}
    (hes : ∀ e ∈ es, q e.event = false) : AddsNo q a (b ++ es) := by
  obtain ⟨fs, rfl, hfs⟩ := h
  exact ⟨fs ++ es, List.append_assoc .., List.forall_mem_append.mpr ⟨hfs, hes⟩⟩

theorem AddsNo.concat (h : AddsNo q a b) {e : OutEvent}
    (he : q e.event = false) : AddsNo q a (b ++ [e]) :=
  h.append (by simpa using he)

theorem AddsNo.trans (h : AddsNo q a b) (h' : AddsNo q b c) : AddsNo q a c := by
  obtain ⟨es, rfl, hes⟩ := h'
  exact h.append hes

/-- The event port changes no event, only where it starts (10_state.md R66). -/
theorem AddsNo.portEvents (h : AddsNo q a b) (bound : Bool) (n : Nat) :
    AddsNo q a (portEvents bound n a b) := by
  obtain ⟨es, rfl, hes⟩ := h
  rw [portEvents_append]
  refine (AddsNo.refl a).append ?_
  split
  · simpa using hes
  · exact hes

theorem AddsNo.drop (h : AddsNo q a b) :
    ∀ e ∈ b.drop a.length, q e.event = false := by
  obtain ⟨es, rfl, hes⟩ := h
  simpa using hes

/-! ### The SPI stack -/

section

variable {p : SpiParams} {s t : Spi}

theorem Spi.AddsByteEvents.addsNoSummary (h : s.AddsByteEvents t) :
    AddsNo Event.isSpiSummary s.out t.out := by
  obtain ⟨es, hout, hes⟩ := h
  refine ⟨es, hout, fun e he => ?_⟩
  have hkind := hes e he
  revert hkind
  cases e.event <;> simp [Event.ofSpiByte, Event.isSpiSummary]

/-- A sample's operation emits no summary, or closes the open transfer at a deasserted chip select
(40_sampler.md R131). -/
theorem Spi.SampleOp.addsNoSummary_or_closes {x : SpiLevels} (h : Spi.SampleOp p x s t) :
    AddsNo Event.isSpiSummary s.out t.out
      ∨ p.haveCs = true ∧ s.active = true ∧ t.active = false := by
  have hassert : ∀ u : Spi, AddsNo Event.isSpiSummary u.out u.csAssert.out := fun u =>
    (AddsNo.refl _).concat rfl
  cases h with
  | baseline =>
    refine .inl ?_
    unfold Spi.baseline
    split
    · exact hassert _
    · exact .refl _
  | deassert _ hcs _ ht =>
    unfold Spi.csDeassert at ht
    split at ht
    · next hact =>
      simp only [run_bind_eq_ok] at ht
      obtain ⟨u, -, v, -, ht⟩ := ht
      cases ht
      exact .inr ⟨hcs, hact, rfl⟩
    · cases ht
      exact .inl (.refl _)
  | assert => exact .inl (hassert s)
  | assertBit _ _ _ ht =>
    exact .inl ((hassert s).trans (Spi.AddsByteEvents.sckSample ht).addsNoSummary)
  | bit _ _ _ ht => exact .inl (Spi.AddsByteEvents.sckSample ht).addsNoSummary
  | idle => exact .inl (.refl _)

theorem Spi.takeSample_addsNoSummary_or_closes {x : SpiSample} (ht : s.takeSample p x = .ok t) :
    AddsNo Event.isSpiSummary s.out t.out
      ∨ p.haveCs = true ∧ s.active = true ∧ t.active = false := by
  obtain ⟨u, hop, rfl⟩ := Spi.takeSample_cases ht
  exact hop.addsNoSummary_or_closes.imp_left fun h => h.portEvents _ _

end

/-! ### The I2C stack: datalink and APDU (44_datalink_apdu.md) -/

section

variable {p : I2cParams} {s t : I2c} {k j : Nat} {v : Byte} {d : Dir}

/-- An operation that writes registers only. -/
theorem I2c.addsNoSummary_of_silent (h : t.out = s.out) : AddsNo Event.isI2cSummary s.out t.out :=
  h ▸ .refl _

theorem I2c.addsNoSummary_emit (s : I2c) (sp : Span) {e : Event} (he : e.isI2cSummary = false) :
    AddsNo Event.isI2cSummary s.out (s.emit sp e).out :=
  (AddsNo.refl _).concat he

theorem I2c.apduFinish_out {c : Bool} (ht : s.apduFinish k d c = .ok t) : t.out = s.out := by
  obtain ⟨f, -, rfl⟩ := (I2c.apduFinish_eq_ok ..).mp ht
  rfl

theorem I2c.dlFinish_out {c : Bool} (ht : s.dlFinish k d c = .ok t) : t.out = s.out := by
  obtain ⟨f, -, rfl⟩ := (I2c.dlFinish_eq_ok ..).mp ht
  rfl

theorem I2c.payloadBegin_out (ht : s.payloadBegin d = .ok t) : t.out = s.out := by
  obtain ⟨c, -, rfl⟩ := (I2c.payloadBegin_eq_ok ..).mp ht
  rfl

theorem I2c.apduCmd_addsNoSummary (ht : s.apduCmd p k v d = .ok t) :
    AddsNo Event.isI2cSummary s.out t.out := by
  simp only [I2c.apduCmd, run_bind_eq_ok] at ht
  obtain ⟨sp, -, ht⟩ := ht
  cases ht
  split <;> exact (AddsNo.refl _).concat rfl

theorem I2c.apduLen1_addsNoSummary (ht : s.apduLen1 p k v d = .ok t) :
    AddsNo Event.isI2cSummary s.out t.out := by
  simp only [I2c.apduLen1, run_bind_eq_ok] at ht
  obtain ⟨r, -, ht⟩ := ht
  split at ht
  · rw [I2c.apduFinish_out ht]
    exact (AddsNo.refl _).concat rfl
  · cases ht
    exact (AddsNo.refl _).concat rfl

theorem I2c.apduData_addsNoSummary (ht : s.apduData k v d = .ok t) :
    AddsNo Event.isI2cSummary s.out t.out := by
  simp only [I2c.apduData, run_bind_eq_ok] at ht
  obtain ⟨sp, -, arem, -, ht⟩ := ht
  split at ht
  · rw [I2c.apduFinish_out ht]
    exact (AddsNo.refl _).concat rfl
  · cases ht
    exact (AddsNo.refl _).concat rfl

theorem I2c.apduByte_addsNoSummary (ht : s.apduByte p k v d = .ok t) :
    AddsNo Event.isI2cSummary s.out t.out := by
  unfold I2c.apduByte at ht
  cases hst : s.ap.ast <;> rw [hst] at ht
  case cmd => exact I2c.apduCmd_addsNoSummary ht
  case len1 => exact I2c.apduLen1_addsNoSummary ht
  case data => exact I2c.apduData_addsNoSummary ht
  all_goals
    simp only [I2c.apduParam, I2c.apduLen0, I2c.apduExcess, run_bind_eq_ok] at ht
    obtain ⟨r, -, ht⟩ := ht
    cases ht
  case param => exact (AddsNo.refl _).concat rfl
  case len0 => exact .refl _
  case done => exact (AddsNo.refl _).concat rfl

theorem I2c.dlPctr_addsNoSummary (ht : s.dlPctr k v d = .ok t) :
    AddsNo Event.isI2cSummary s.out t.out := by
  simp only [I2c.dlPctr, run_bind_eq_ok] at ht
  obtain ⟨sp, -, drem, -, ht⟩ := ht
  have hfields : AddsNo Event.isI2cSummary s.out (s.out ++ pctrEvents v sp) :=
    (AddsNo.refl _).append (by simp [pctrEvents, bitFieldEvent, Event.isI2cSummary])
  split at ht
  · cases ht
    exact hfields
  · split at ht
    · rw [I2c.payloadBegin_out ht]
      exact hfields
    · cases ht
      exact hfields

theorem I2c.dlSctr_addsNoSummary (ht : s.dlSctr k v d = .ok t) :
    AddsNo Event.isI2cSummary s.out t.out := by
  simp only [I2c.dlSctr, run_bind_eq_ok] at ht
  obtain ⟨sp, -, drem, -, ht⟩ := ht
  have hfields : AddsNo Event.isI2cSummary s.out (s.out ++ sctrEvents v sp) :=
    (AddsNo.refl _).append (by simp [sctrEvents, bitFieldEvent, Event.isI2cSummary])
  split at ht
  · rw [I2c.payloadBegin_out ht]
    exact hfields
  · cases ht
    exact hfields

theorem I2c.cutApdu_addsNoSummary (ht : s.cutApdu k d = .ok t) :
    AddsNo Event.isI2cSummary s.out t.out := by
  unfold I2c.cutApdu at ht
  split at ht
  · simp only [run_bind_eq_ok] at ht
    obtain ⟨a, -, ra, -, r, -, ht⟩ := ht
    rw [I2c.apduFinish_out ht]
    exact (AddsNo.refl _).concat rfl
  · cases ht
    exact .refl _

theorem I2c.countPayload_addsNoSummary (ht : s.countPayload k d = .ok t) :
    AddsNo Event.isI2cSummary s.out t.out := by
  simp only [I2c.countPayload, run_bind_eq_ok] at ht
  obtain ⟨drem, -, ht⟩ := ht
  split at ht
  · rw [run_bind_eq_ok] at ht
    obtain ⟨u, hu, ht⟩ := ht
    have hcut := I2c.cutApdu_addsNoSummary hu
    cases ht
    exact hcut
  · cases ht
    exact .refl _

theorem I2c.dlPay_addsNoSummary (ht : s.dlPay p k v d = .ok t) :
    AddsNo Event.isI2cSummary s.out t.out := by
  obtain ⟨sp, u, -, hu, ht⟩ := (I2c.dlPay_eq_ok ..).mp ht
  refine .trans ?_ (I2c.countPayload_addsNoSummary ht)
  split at hu
  · exact I2c.apduByte_addsNoSummary hu
  · cases hu
    exact (AddsNo.refl _).concat rfl

theorem I2c.dlByte_addsNoSummary (ht : s.dlByte p k j v d = .ok t) :
    AddsNo Event.isI2cSummary s.out t.out := by
  unfold I2c.dlByte at ht
  cases hst : s.dl.dst <;> rw [hst] at ht
  case pctr => exact I2c.dlPctr_addsNoSummary ht
  case sctr => exact I2c.dlSctr_addsNoSummary ht
  case pay => exact I2c.dlPay_addsNoSummary ht
  all_goals
    simp only [I2c.dlFctr, I2c.dlLen0, I2c.dlLen1, I2c.dlFcs0, I2c.dlFcs1, I2c.dlExcess,
      run_bind_eq_ok] at ht
    obtain ⟨r, -, ht⟩ := ht
  case fcs1 =>
    rw [I2c.dlFinish_out ht]
    exact (AddsNo.refl _).concat rfl
  all_goals cases ht
  case fctr =>
    exact (AddsNo.refl _).append (by simp [fctrEvents, bitFieldEvent, Event.isI2cSummary])
  case len0 => exact .refl _
  case len1 => exact (AddsNo.refl _).concat rfl
  case fcs0 => exact .refl _
  case done => exact (AddsNo.refl _).concat rfl

theorem I2c.endApdu_addsNoSummary (ht : s.endApdu k d = .ok t) :
    AddsNo Event.isI2cSummary s.out t.out := by
  unfold I2c.endApdu at ht
  split at ht
  · rw [run_bind_eq_ok] at ht
    obtain ⟨ra, -, ht⟩ := ht
    rw [I2c.apduFinish_out ht]
    exact (AddsNo.refl _).concat rfl
  · cases ht
    exact .refl _

theorem I2c.endPhase_addsNoSummary (ht : s.endPhase = .ok t) :
    AddsNo Event.isI2cSummary s.out t.out := by
  rcases (I2c.endPhase_eq_ok ..).mp ht with
    ⟨-, rfl⟩ | ⟨f, last, d, u, rf, -, -, -, -, hu, -, ht⟩
  · exact .refl _
  · rw [I2c.dlFinish_out ht]
    exact (I2c.endApdu_addsNoSummary hu).concat rfl

/-! ### The I2C stack: the link header, the bytes and the samplers -/

theorem I2c.bufUpdate_out {f : I2cByteRec → I2cByteRec} (ht : s.bufUpdate k f = .ok t) :
    t.out = s.out := by
  obtain ⟨-, rfl⟩ := (I2c.bufUpdate_eq_ok ..).mp ht
  rfl

theorem fieldEvents_no_summary (f : RegFields) (reg : Nat) (d : Dir) (i : Nat) (x : Byte)
    (sp : Span) : ∀ e ∈ fieldEvents f reg d i x sp, e.event.isI2cSummary = false := by
  simp only [fieldEvents, List.mem_flatMap]
  rintro e ⟨r, -, he⟩
  split at he <;> simp only [List.mem_cons, List.not_mem_nil, or_false] at he
  · rw [he]
    rfl
  · rcases he with rfl | rfl <;> rfl

theorem I2c.addrByteIn_addsNoSummary (ht : s.addrByteIn p k v = .ok t) :
    AddsNo Event.isI2cSummary s.out t.out := by
  simp only [I2c.addrByteIn, run_bind_eq_ok] at ht
  obtain ⟨u, hu, r, -, ht⟩ := ht
  have hout : u.out = s.out := (I2c.bufUpdate_out hu :)
  cases ht
  rw [← hout]
  exact (AddsNo.refl _).concat rfl

theorem I2c.regNum_addsNoSummary (ht : s.regNum p k v = .ok t) :
    AddsNo Event.isI2cSummary s.out t.out := by
  simp only [I2c.regNum, run_bind_eq_ok] at ht
  obtain ⟨u, hu, r, -, ht⟩ := ht
  have hout : u.out = s.out := (I2c.bufUpdate_out hu :)
  cases ht
  rw [← hout]
  split <;> exact (AddsNo.refl _).concat rfl

theorem I2c.regData_addsNoSummary (ht : s.regData p k v = .ok t) :
    AddsNo Event.isI2cSummary s.out t.out := by
  simp only [I2c.regData, run_bind_eq_ok] at ht
  obtain ⟨d, -, u, hu, r, -, ht⟩ := ht
  have hout : u.out = s.out := (I2c.bufUpdate_out hu :)
  rw [← hout]
  split at ht
  · cases ht
    split
    · exact (AddsNo.refl _).concat rfl
    · exact .refl _
  · next reg _ =>
    have hdata := u.addsNoSummary_emit (spanOf r.start r.stop)
      (e := .regdata reg.toNat d s.j v) rfl
    split at ht
    · exact hdata.trans (I2c.dlByte_addsNoSummary ht)
    · cases ht
      exact hdata.append (fieldEvents_no_summary _ _ _ _ _ _)

theorem I2c.headerByte_addsNoSummary {r : I2cByteRec} (ht : s.headerByte p r = .ok t) :
    AddsNo Event.isI2cSummary s.out t.out := by
  simp only [I2c.headerByte, run_bind_eq_ok] at ht
  obtain ⟨idx, -, ht⟩ := ht
  split at ht
  · exact I2c.addrByteIn_addsNoSummary ht
  · split at ht
    · exact I2c.addsNoSummary_of_silent (I2c.bufUpdate_out ht)
    · split at ht
      · exact I2c.regNum_addsNoSummary ht
      · exact I2c.regData_addsNoSummary ht

theorem I2c.completeByte_addsNoSummary {tr : Bool} {lastEnd : Option Nat}
    (ht : s.completeByte p tr lastEnd = .ok t) : AddsNo Event.isI2cSummary s.out t.out := by
  obtain ⟨start, stop, ends, r, u, -, -, hu, ht⟩ := (I2c.completeByte_eq_ok ..).mp ht
  obtain ⟨-, rfl⟩ := (I2c.bufAppend_eq_ok ..).mp hu
  refine .trans ?_ (I2c.headerByte_addsNoSummary ht)
  split <;> exact (AddsNo.refl _).append (by simp [laneEvents, Event.isI2cSummary])

theorem I2c.partialAtCondition_addsNoSummary (ht : s.partialAtCondition p = .ok t) :
    AddsNo Event.isI2cSummary s.out t.out := by
  unfold I2c.partialAtCondition at ht
  split at ht
  · simp only [run_bind_eq_ok] at ht
    obtain ⟨b0, -, u, hu, ht⟩ := ht
    have hbyte := (s.addsNoSummary_emit (spanOf b0 s.n)
      (e := .diag .warnI2cPartialByte s.bitcnt) rfl).trans (I2c.completeByte_addsNoSummary hu)
    cases ht
    exact hbyte
  · cases ht
    exact .refl _

theorem I2c.rstartCond_addsNoSummary (ht : s.rstartCond p = .ok t) :
    AddsNo Event.isI2cSummary s.out t.out := by
  simp only [I2c.rstartCond, run_bind_eq_ok] at ht
  obtain ⟨u, hu, v, hv, ht⟩ := ht
  have hend := (I2c.partialAtCondition_addsNoSummary hu).trans (I2c.endPhase_addsNoSummary hv)
  cases ht
  exact hend.concat rfl

theorem I2c.bit_addsNoSummary {x : I2cSample} (ht : s.bit p x = .ok t) :
    AddsNo Event.isI2cSummary s.out t.out := by
  simp only [I2c.bit] at ht
  split at ht
  · exact (I2c.completeByte_addsNoSummary ht :)
  · cases ht
    exact .refl _

theorem I2c.ackBit_addsNoSummary {x : I2cSample} (ht : s.ackBit x = .ok t) :
    AddsNo Event.isI2cSummary s.out t.out := by
  simp only [I2c.ackBit, run_bind_eq_ok] at ht
  obtain ⟨b7, -, w, -, u, hu, ht⟩ := ht
  have hack := s.addsNoSummary_emit (spanOf s.n (s.n + w)) (e := .ack !x.sda) rfl
  cases ht
  refine hack.trans (I2c.addsNoSummary_of_silent ?_)
  unfold I2c.writeAck at hu
  split at hu
  · exact (I2c.bufUpdate_out hu :)
  · cases hu
    rfl

/-- A sample's operation emits no summary, or is the STOP that closes the transfer (40_sampler.md
R155). -/
theorem I2c.SampleOp.addsNoSummary_or_closes {x : I2cSample} (h : I2c.SampleOp p x s t) :
    AddsNo Event.isI2cSummary s.out t.out ∨ s.active = true ∧ t.active = false := by
  cases h with
  | start => exact .inl (((AddsNo.refl _).concat rfl).concat rfl)
  | rstart _ ht => exact .inl (I2c.rstartCond_addsNoSummary ht)
  | stop hact ht =>
    simp only [I2c.stopCond, run_bind_eq_ok] at ht
    obtain ⟨u, -, v, -, ht⟩ := ht
    cases ht
    exact .inr ⟨hact, rfl⟩
  | bit _ _ ht => exact .inl (I2c.bit_addsNoSummary ht)
  | ack _ _ ht => exact .inl (I2c.ackBit_addsNoSummary ht)

theorem I2c.takeSample_addsNoSummary_or_closes {x : I2cSample} (ht : s.takeSample p x = .ok t) :
    AddsNo Event.isI2cSummary s.out t.out ∨ s.active = true ∧ t.active = false := by
  rcases I2c.takeSample_cases ht with ⟨-, rfl⟩ | ⟨-, rfl⟩ | ⟨u, -, hop, rfl⟩
  · exact .inl (.refl _)
  · exact .inl (.refl _)
  · exact hop.addsNoSummary_or_closes.imp_left fun h => h.portEvents _ _

end

end Sys2Proof.Machine

open Sys2Proof Sys2Proof.Machine

/-- Settles O22: a step whose operation does not close the transfer adds no summary. -/
theorem summariesOnlyAtATransferEnd : Obligations.SummariesOnlyAtATransferEnd := by
  unfold Obligations.SummariesOnlyAtATransferEnd
  intro s t e hst
  have hspi : AddsNo Event.isSpiSummary s.spi.out t.spi.out
      ∨ s.cfg.spi.haveCs = true ∧ s.spi.active = true ∧ t.spi.active = false := by
    cases StepTo.of_step hst with
    | spi _ hu => exact Spi.takeSample_addsNoSummary_or_closes hu
    | nothing _ | i2c _ _ | reset _ | params _ _ _ => exact .inl (.refl _)
  have hi2c : AddsNo Event.isI2cSummary s.i2c.out t.i2c.out
      ∨ s.i2c.active = true ∧ t.i2c.active = false := by
    cases StepTo.of_step hst with
    | i2c _ hu => exact I2c.takeSample_addsNoSummary_or_closes hu
    | nothing _ | spi _ _ | reset _ | params _ _ _ => exact .inl (.refl _)
  refine ⟨fun he hsum => hspi.resolve_left fun hno => ?_,
    fun he hsum => hi2c.resolve_left fun hno => ?_⟩
  · have hkind := hno.drop e he
    rcases hsum with ⟨c, heq⟩ | ⟨c, heq⟩ <;> simp [heq, Event.isSpiSummary] at hkind
  · have hkind := hno.drop e he
    rcases hsum with ⟨c, heq⟩ | ⟨c, heq⟩ | ⟨c, heq⟩ | ⟨c, heq⟩ <;>
      simp [heq, Event.isI2cSummary] at hkind

end

/-! ## The aggregator rows (45_aggregator.md R340 to R356)

Each pass answers with its events appended and its results cleared. What the passes report is
written as lists of events, tied to the model once. -/

section

namespace Sys2Proof.Machine

open Sys2Proof

/-! ### The SPI pass -/

section

variable {p : SpiParams} {s t : Spi}

/-- The flag of an open frame that starts at the sample `r`, which stays its start (45_aggregator.md
R344). -/
theorem Spi.flagOpenFrame_of_at {r : Rat} (h : s.fStart = some (.at r)) :
    s.flagOpenFrame = .ok { s with
      fStart := some (.at r)
      out := s.out ++ if ∃ b ∈ s.xfer, b.fseq = some s.fseq then
        [evAt r s.n (.diag .warnFrameOpenAtIdle s.remaining.toNat)] else [] } := by
  have htouched : s.touched = true ↔ ∃ b ∈ s.xfer, b.fseq = some s.fseq := by
    simp [Spi.touched]
  unfold Spi.flagOpenFrame
  by_cases ht : ∃ b ∈ s.xfer, b.fseq = some s.fseq
  · rw [if_pos (htouched.mpr ht), if_pos ht]
    split
    · next r' hr =>
      cases h.symm.trans hr
      rw [← h]
      rfl
    · next hno => exact absurd h (hno r)
  · rw [if_neg (mt htouched.mp ht), if_neg ht, List.append_nil, ← h]

/-- The diagnostics of the header check (45_aggregator.md R342, R343). -/
def Spi.headerEvents (p : SpiParams) (s : Spi) : List OutEvent :=
  if p.haveMosi = false then []
  else if s.xfer.length < 4 then
    [evAt s.tStart s.n (.diag .warnHeaderIncomplete s.xfer.length)]
  else match s.hdrCount with
    | some c => if s.xfer.length - 4 < c then
        [evAt s.tStart s.n (.diag .warnShortTransfer (c - (s.xfer.length - 4)))] else []
    | none => []

/-- The header check answers when a complete header left its count. -/
theorem Spi.headerCheck_of_count
    (hcount : p.haveMosi = true → 4 ≤ s.xfer.length → s.hdrCount.isSome = true) :
    s.headerCheck p = .ok (s.emitAll (s.headerEvents p)) := by
  unfold Spi.headerCheck Spi.headerEvents
  cases hmosi : p.haveMosi
  case false => simp [Spi.emitAll]
  simp only [Bool.not_true, Bool.false_eq_true, if_false, reduceCtorEq]
  split
  · rfl
  · next hlen =>
    obtain ⟨c, hc⟩ := Option.isSome_iff_exists.mp (hcount hmosi (by omega))
    simp only [hc, need, bind, Except.bind]
    split
    · rfl
    · simp [Spi.emitAll]

/-- A transfer with no byte has no summary. -/
theorem Spi.summaries_of_empty (p : SpiParams) (h : s.xfer.length = 0) : s.summaries p = .ok s := by
  simp [Spi.summaries, evenWidth, h]

/-- The pass of a transfer with bytes reports it, its header, and each closed frame over its bytes
(45_aggregator.md R340). -/
theorem Spi.summaries_of_bytes (hpos : 0 < s.xfer.length)
    (hcount : p.haveMosi = true → 4 ≤ s.xfer.length → s.hdrCount.isSome = true) :
    s.summaries p = .ok { s with
      out := s.out ++ [evAt s.tStart s.n (.spiXferSum (s.xferSum p))] ++ s.headerEvents p
        ++ s.closed.map (cmdSumEvent p s.tStart (((s.n : Rat) - s.tStart) / s.xfer.length)) } := by
  have hw := (evenWidth_eq_some s.tStart s.n s.xfer.length _).mpr ⟨hpos.ne', rfl⟩
  have hcheck := Spi.headerCheck_of_count (p := p)
    (s := s.emit (spanOf s.tStart s.n) (.spiXferSum (s.xferSum p))) hcount
  simp only [Spi.summaries, hw, hcheck]
  rfl

theorem exec_frameCarry (s : State) :
    exec .frameCarry s = onSpi s fun _ t => t.frameCarry := rfl

/-- AggregateSpi is FrameCarry after the summaries; then the closed frames are forgotten
(45_aggregator.md R340, R356). -/
theorem exec_aggregateSpi_of_summaries {s : State} {t : Spi}
    (h : s.spi.summaries s.cfg.spi = .ok t) :
    exec .aggregateSpi s = thenNext (exec .frameCarry { s with spi := t })
      fun u => { u with spi := { u.spi with closed := [] } } := by
  have hpass : exec .aggregateSpi s = onSpi { s with spi := t } fun _ u =>
      u.frameCarry >>= fun v => .ok { v with closed := [] } :=
    onSpi_eq_onSpi (f := fun p u => u.aggregate p) (by rw [Spi.aggregate, h]; rfl)
  rw [hpass, exec_frameCarry]
  exact onSpi_bind_ok _ (fun _ u => u.frameCarry) fun v => { v with closed := [] }

end

/-! ### The I2C pass -/

section

variable {p : I2cParams} {s : I2c} {q : Nat}

/-- The records of phase `q` with their indices: a WRITE phase whose one register byte is the state
register, and `d0`, `d1` its first two data bytes (45_aggregator.md R352). -/
def I2c.StateLength (p : I2cParams) (s : I2c) (q : Nat) (d0 d1 : I2cByteRec × Nat) : Prop :=
  let recs := s.xfer.zipIdx.filter fun e => e.1.phaseNo = q
  (∃ a rest, recs = a :: rest ∧ a.1.kind = .addr ∧ a.1.dir = some .write)
    ∧ (∃ r, recs.filter (·.1.kind = .reg) = [r] ∧ r.1.value = p.stateReg)
    ∧ ∃ more, recs.filter (·.1.kind = .data) = d0 :: d1 :: more

/-- RegLen has an event exactly for a phase that wrote a length to the state register. -/
theorem I2c.regLenEvent_eq_some (e : OutEvent) : s.regLenEvent p q = some e ↔
    ∃ d0 d1, s.StateLength p q d0 d1 ∧
      e = evAt (s.tStart + d0.2 * (((s.n : Rat) - s.tStart) / s.xfer.length))
        (s.tStart + (d1.2 + 1) * (((s.n : Rat) - s.tStart) / s.xfer.length))
        (.reglenSum (d0.1.value ++ d1.1.value)) := by
  unfold I2c.regLenEvent
  constructor
  · intro he
    split at he
    · next w a rest hw hrecs =>
      split at he
      · next hwrite =>
        split at he
        · next r d0 d1 more hreg hdata =>
          split at he
          · next hstate =>
            obtain ⟨-, rfl⟩ := (evenWidth_eq_some ..).mp hw
            cases he
            refine ⟨d0, d1, ⟨⟨a, rest, hrecs, hwrite⟩, ⟨r, hrecs ▸ hreg, hstate⟩, more,
              hrecs ▸ hdata⟩, ?_⟩
            rw [joinLow_highByte]
            rfl
          · cases he
        · cases he
      · cases he
    · cases he
  · rintro ⟨d0, d1, ⟨⟨a, rest, hrecs, hwrite⟩, ⟨r, hreg, hstate⟩, more, hdata⟩, rfl⟩
    rw [hrecs] at hreg hdata
    have hne : s.xfer.length ≠ 0 := by
      intro hzero
      rw [List.length_eq_zero_iff.mp hzero] at hrecs
      cases hrecs
    have hw := (evenWidth_eq_some s.tStart s.n s.xfer.length _).mpr ⟨hne, rfl⟩
    simp only [beq_eq_decide, hw, hrecs, hreg, hdata]
    rw [if_pos hwrite, if_pos hstate, joinLow_highByte]
    rfl

theorem exec_regLen (q : Nat) (s : State) : exec (.regLen q) s =
    i2cNext s (s.i2c.emitAll (s.i2c.regLenEvent s.cfg.i2c q).toList) := rfl

@[simp] theorem I2c.emitAll_nil (s : I2c) : s.emitAll [] = s := by
  simp [I2c.emitAll]

@[simp] theorem I2c.emitAll_emitAll (es fs : List OutEvent) :
    (s.emitAll es).emitAll fs = s.emitAll (es ++ fs) := by
  simp [I2c.emitAll]

/-- RegLen reads no event. -/
@[simp] theorem I2c.regLenEvent_emitAll (es : List OutEvent) :
    (s.emitAll es).regLenEvent p = s.regLenEvent p := rfl

/-- RegLen reads no event, so its rows in order append their events in order (45_aggregator.md
R350). -/
theorem execAll_regLen (qs : List Nat) (s : State) : execAll (qs.map .regLen) s =
    i2cNext s (s.i2c.emitAll (qs.filterMap (s.i2c.regLenEvent s.cfg.i2c))) := by
  induction qs generalizing s with
  | nil => simp [execAll, i2cNext]
  | cons q qs ih =>
    rw [List.map_cons, execAll, exec_regLen]
    refine (ih _).trans ?_
    cases he : s.i2c.regLenEvent s.cfg.i2c q <;> simp [i2cNext, he]

theorem exec_aggregateI2c (s : State) : exec .aggregateI2c s = i2cNext s { s.i2c with
    dlDone := [], apduDone := [], out := s.i2c.out ++ s.i2c.summaryEvents s.cfg.i2c } :=
  onI2c_of_ok (f := fun p t => .ok (t.aggregate p)) (congrArg Except.ok (I2c.aggregate_eq ..))

/-- A transfer with no byte has no summary. -/
theorem I2c.summaryEvents_of_empty (p : I2cParams) (h : s.xfer = []) : s.summaryEvents p = [] := by
  simp [I2c.summaryEvents, evenWidth, h]

end

end Sys2Proof.Machine

open Sys2Proof Sys2Proof.Machine

/-- Settles O55: the summaries are the listed events, and FrameCarry runs on what they leave. -/
theorem spiPassReportsTheTransfer : Obligations.SpiPassReportsTheTransfer := by
  unfold Obligations.SpiPassReportsTheTransfer
  intro s lanes t p count w clear
  refine ⟨fun hzero => exec_aggregateSpi_of_summaries (Spi.summaries_of_empty p hzero), ?_⟩
  intro hpos hcount hlanes sum header frames
  have hsum : sum = evAt t.tStart t.n (.spiXferSum (t.xferSum p)) := by
    simp only [sum, Spi.xferSum, hlanes, Bool.decide_and, Bool.decide_eq_true]
    rfl
  have hframes : frames = t.closed.map (cmdSumEvent p t.tStart w) := by
    refine List.map_congr_left fun f _ => ?_
    obtain ⟨fseq, dir, tag, len, code, pcount, short, start, last⟩ := f
    cases start <;> cases dir <;> rfl
  rw [hsum, hframes]
  exact exec_aggregateSpi_of_summaries (Spi.summaries_of_bytes hpos hcount)

/-- Settles O56: the start becomes a sample, if it is not one, and the flag starts there. -/
theorem openFrameIsCarriedAndFlagged : Obligations.OpenFrameIsCarriedAndFlagged := by
  unfold Obligations.OpenFrameIsCarriedAndFlagged
  intro s t
  rw [exec_frameCarry]
  refine ⟨fun hidle => onSpi_of_ok ((Spi.frameCarry_eq t).trans (if_pos hidle)), ?_⟩
  intro a hopen ha hbytes r
  refine onSpi_of_ok ((Spi.frameCarry_eq t).trans ((if_neg hopen).trans ?_))
  rcases a with i | r
  · have hw := (evenWidth_eq_some t.tStart t.n t.xfer.length _).mpr ⟨(hbytes i rfl).ne', rfl⟩
    simp only [ha, hw, need, bind, Except.bind]
    exact Spi.flagOpenFrame_of_at rfl
  · simp only [ha]
    exact Spi.flagOpenFrame_of_at ha

/-- Settles O57: the pass appends its events, of which those of RegLen are the rows run in order. -/
theorem i2cPassReportsTheTransfer : Obligations.I2cPassReportsTheTransfer := by
  unfold Obligations.I2cPassReportsTheTransfer
  intro s t w clear rsp phases
  rw [exec_aggregateI2c]
  refine ⟨fun hnil => ?_, fun hbytes => ?_⟩
  · rw [I2c.summaryEvents_of_empty _ hnil, List.append_nil]
  · have hw := (evenWidth_eq_some t.tStart t.n t.xfer.length _).mpr
      ⟨mt List.length_eq_zero_iff.mp hbytes, rfl⟩
    have hphases : phases = (t.xferSum s.cfg.i2c).phases := by
      simp only [phases, I2c.xferSum, I2c.addrRec, Bool.decide_and, beq_eq_decide]
      rfl
    rw [execAll_regLen, hphases, I2c.summaryEvents, hw]
    dsimp only
    rw [List.append_cons, ← List.append_assoc, ← List.append_assoc]
    rfl

/-- Settles O58: RegLen appends its event, and it has one exactly where the statement says. -/
theorem stateRegisterLengthSummary : Obligations.StateRegisterLengthSummary := by
  unfold Obligations.StateRegisterLengthSummary
  intro s q t w recs sums
  rw [exec_regLen]
  refine ⟨fun d0 d1 hlen => ?_, fun hno => ?_, fun v => rfl⟩
  · rw [(I2c.regLenEvent_eq_some _).mpr ⟨d0, d1, hlen, rfl⟩]
    rfl
  · have hnone : t.regLenEvent s.cfg.i2c q = none := by
      refine Option.eq_none_iff_forall_ne_some.mpr fun e he => ?_
      obtain ⟨d0, d1, hlen, -⟩ := (I2c.regLenEvent_eq_some e).mp he
      exact hno d0 d1 hlen
    rw [hnone]
    simp [i2cNext]

end

/-! ## Operations that go through from a sound state with room (60_exceptions.md R371)

BufAppend is the only operation inside these rows that can refuse, and room in the buffer takes that
away: what a sound stack runs without a fault it then runs to an answer. -/

section

namespace Sys2Proof.Machine

open Sys2Proof

/-- A row goes on when the SPI operation that it is answers. -/
theorem exec_goesOn_of_onSpi {i : Instr} {s : State} {f : SpiParams → Spi → Run Spi}
    (hi : exec i s = onSpi s f) (h : Answers (f s.cfg.spi s.spi)) : ∃ t, exec i s = .next t := by
  obtain ⟨u, hu⟩ := h
  exact ⟨_, hi.trans (onSpi_of_ok hu)⟩

/-- A row goes on when the I2C operation that it is answers. -/
theorem exec_goesOn_of_onI2c {i : Instr} {s : State} {f : I2cParams → I2c → Run I2c}
    (hi : exec i s = onI2c s f) (h : Answers (f s.cfg.i2c s.i2c)) : ∃ t, exec i s = .next t := by
  obtain ⟨u, hu⟩ := h
  exact ⟨_, hi.trans (onI2c_of_ok hu)⟩

theorem exec_aggregateSpi (s : State) :
    exec .aggregateSpi s = onSpi s fun p t => t.aggregate p := rfl

/-! ### Pending bits (41_byte_assembler.md R170, R173) -/

/-- One to eight pending bits, as many as `bitcnt` says, in rising samples: what makes a byte. -/
structure PendingBits (bitcnt : Nat) (starts : List Nat) : Prop where
  nonempty : starts ≠ []
  count : bitcnt = starts.length
  atMostEight : bitcnt ≤ 8
  rising : starts.Pairwise (· < ·)

theorem PendingBits.byte {bitcnt : Nat} {starts : List Nat} (h : PendingBits bitcnt starts)
    (lastEnd : Option Nat) :
    ∃ start stop ends, pendingByte bitcnt starts lastEnd = .ok (start, stop, ends) := by
  obtain ⟨⟨start, stop, ends⟩, hb⟩ :=
    pendingByte_answers h.nonempty h.count h.atMostEight h.rising lastEnd
  exact ⟨start, stop, ends, hb⟩

/-- The bits of a byte in progress. -/
theorem pendingBits_of_pos {bitcnt : Nat} {starts : List Nat} (hcnt : bitcnt = starts.length)
    (hrise : starts.Pairwise (· < ·)) (hpos : 1 ≤ bitcnt) (h8 : bitcnt ≤ 8) :
    PendingBits bitcnt starts :=
  ⟨List.ne_nil_of_length_pos (hcnt ▸ hpos), hcnt, h8, hrise⟩

/-- The bits of a byte in progress with one more, at a later sample. -/
theorem pendingBits_concat {bitcnt n : Nat} {starts : List Nat} (hcnt : bitcnt = starts.length)
    (hrise : starts.Pairwise (· < ·)) (h7 : bitcnt ≤ 7) (hlt : ∀ b ∈ starts, b < n) :
    PendingBits (bitcnt + 1) (starts ++ [n]) := by
  refine ⟨by simp, by simpa using hcnt, by omega, ?_⟩
  refine List.pairwise_append.mpr ⟨hrise, List.pairwise_singleton _ _, fun a ha b hb => ?_⟩
  rw [List.mem_singleton.mp hb]
  exact hlt a ha

/-! ### The SPI byte and the end of an SPI transfer (40_sampler.md R131, R133) -/

section

variable {p : SpiParams} {s : Spi}

/-- Pending bits become a byte where there is room, and the header decoder takes it
(41_byte_assembler.md R173). -/
theorem Spi.HdrInv.completeByte_answers (h : s.HdrInv p) (hframer : s.FramerReady)
    (hbits : PendingBits s.bitcnt s.bitStarts) (hroom : s.room p = true) (tr : Bool)
    (lastEnd : Option Nat) : Answers (s.completeByte p tr lastEnd) := by
  obtain ⟨start, stop, ends, hpend⟩ := hbits.byte lastEnd
  rw [Spi.completeByte_eq hpend hroom]
  refine Spi.HdrInv.headerByte_answers
    (s := { s.byteTaken p tr start stop ends with xfer := s.xfer }) h ⟨hframer.hdr, hframer.payload⟩ ?_
  unfold Spi.pendingRec
  cases p.haveMosi <;> rfl

/-- The bits of a sound stack with a byte in progress. -/
theorem Spi.Inv.pendingBits (h : s.Inv p) (hpos : 1 ≤ s.bitcnt) :
    PendingBits s.bitcnt s.bitStarts := by
  obtain ⟨-, ⟨hcnt, hrise, -⟩, h7, -⟩ := h
  exact pendingBits_of_pos hcnt hrise hpos (by omega)

theorem Spi.Inv.framerReady (h : s.Inv p) : s.FramerReady := by
  obtain ⟨-, -, -, -, -, hframer, -⟩ := h
  exact hframer.ready

theorem Spi.Inv.completeByte_answers (h : s.Inv p) (hroom : s.room p = true) (hpos : 1 ≤ s.bitcnt)
    (tr : Bool) (lastEnd : Option Nat) : Answers (s.completeByte p tr lastEnd) :=
  h.midInv.hdr.completeByte_answers h.framerReady (h.pendingBits hpos) hroom tr lastEnd

/-- One more bit, of which the eighth completes the byte. -/
theorem Spi.Inv.sckSample_answers (h : s.Inv p) (hroom : s.room p = true) (x : SpiLevels) :
    Answers (s.sckSample p x) := by
  have hready := h.framerReady
  obtain ⟨-, ⟨hcnt, hrise, hin⟩, h7, hhdr, -⟩ := h
  by_cases heighth : s.bitcnt = 7
  · rw [Spi.sckSample_of_eighth p x heighth]
    refine Spi.HdrInv.completeByte_answers (s := s.shiftBits p x) hhdr ?_ ?_ hroom false none
    · exact ⟨hready.hdr, hready.payload⟩
    · exact pendingBits_concat hcnt hrise h7 fun b hb => (hin b hb).2
  · rw [Spi.sckSample_of_bits p x heighth]
    exact answers_ok _

/-- The byte that a deassertion cuts, if there is one. -/
theorem Spi.Inv.cutByte_answers (h : s.Inv p) (hroom : s.room p = true) : Answers (s.cutByte p) := by
  by_cases hpos : 0 < s.bitcnt
  · have hbits := h.pendingBits hpos
    have hready := h.framerReady
    obtain ⟨b, bs, hb⟩ := List.exists_cons_of_ne_nil hbits.nonempty
    rw [Spi.cutByte_of_bits p hpos hb]
    exact Spi.HdrInv.completeByte_answers (s := s.diag _ _ _) h.midInv.hdr
      ⟨hready.hdr, hready.payload⟩ hbits hroom true (some s.n)
  · rw [Spi.cutByte_of_no_bits p (by omega)]
    exact answers_ok _

/-- The end of a transfer: the byte in progress is cut, and the pass runs on a stack that is still
sound. -/
theorem Spi.Inv.csDeassert_answers (h : s.Inv p) (hroom : s.room p = true) :
    Answers (s.csDeassert p) := by
  cases hact : s.active
  case false =>
    rw [Spi.csDeassert_of_not_active p hact]
    exact answers_ok _
  case true =>
    obtain ⟨u, hu⟩ := h.cutByte_answers hroom
    obtain ⟨-, ⟨-, -, hin⟩, -⟩ := id h
    obtain ⟨hmid, -⟩ := h.midInv.cutByte hact (fun b hb => (hin b hb).2) hu
    have hidle := hmid.emit (sp := pointSpan u.n) le_rfl (.bus .idle)
    obtain ⟨v, hv⟩ := hidle.aggregate_answers
    rw [Spi.csDeassert_of_cutByte hact hu]
    exact (answers_bind ..).mpr ⟨v, hv, answers_ok _⟩

end

/-! ### The I2C byte and the end of a phase (40_sampler.md R152 to R155) -/

section

variable {p : I2cParams} {s t : I2c}

/-- Pending bits become a byte where there is room, and the header decoder takes it
(41_byte_assembler.md R177). -/
theorem I2c.DataReady.completeByte_answers (h : s.DataReady p)
    (hbits : PendingBits s.bitcnt s.bitStarts) (hroom : s.room p = true) (tr : Bool)
    (lastEnd : Option Nat) : Answers (s.completeByte p tr lastEnd) := by
  obtain ⟨start, stop, ends, hpend⟩ := hbits.byte lastEnd
  rw [I2c.completeByte_eq hpend hroom]
  refine I2c.DataReady.headerByte_answers (s := s.byteTaken tr start stop ends)
    (h.congr rfl rfl rfl rfl ?_) ?_ _
  · simp [I2c.byteTaken]
  · simp [I2c.byteTaken]

/-- The bits of a sound stack with a byte in progress, or with one that awaits its acknowledge bit. -/
theorem I2c.Inv.pendingBits (h : s.Inv p) (hpos : 1 ≤ s.bitcnt) :
    PendingBits s.bitcnt s.bitStarts := by
  obtain ⟨-, ⟨hcnt, hrise, -⟩, ⟨h8, -⟩, -⟩ := h
  exact pendingBits_of_pos hcnt hrise hpos h8

theorem I2c.Inv.completeByte_answers (h : s.Inv p) (hroom : s.room p = true) (hpos : 1 ≤ s.bitcnt)
    (tr : Bool) (lastEnd : Option Nat) : Answers (s.completeByte p tr lastEnd) :=
  h.midInv.dataReady.completeByte_answers (h.pendingBits hpos) hroom tr lastEnd

/-- One more bit, of which the eighth completes the byte. -/
theorem I2c.Inv.bit_answers (h : s.Inv p) (hroom : s.room p = true) (h7 : s.bitcnt ≤ 7)
    (x : I2cSample) : Answers (s.bit p x) := by
  have hready := h.midInv.dataReady
  obtain ⟨-, ⟨hcnt, hrise, hin⟩, -⟩ := h
  rw [I2c.bit_eq]
  refine .ite (fun _ => ?_) fun _ => answers_ok _
  refine I2c.DataReady.completeByte_answers (s := s.shiftBit x) ?_ ?_ hroom false none
  · exact hready.congr rfl rfl rfl rfl le_rfl
  · exact pendingBits_concat hcnt hrise h7 fun b hb => (hin b hb).2

/-- The byte that a condition cuts, if there is one. -/
theorem I2c.Inv.partialAtCondition_answers (h : s.Inv p) (hroom : s.room p = true) :
    Answers (s.partialAtCondition p) := by
  by_cases hpartial : 2 ≤ s.bitcnt ∧ s.bitcnt ≤ 7
  · obtain ⟨h2, h7⟩ := hpartial
    have hbits := h.pendingBits (by omega)
    obtain ⟨b, bs, hb⟩ := List.exists_cons_of_ne_nil hbits.nonempty
    rw [I2c.partialAtCondition_of_partial p h2 h7 hb]
    obtain ⟨u, hu⟩ := I2c.DataReady.completeByte_answers
      (s := s.diag .warnI2cPartialByte (spanOf b s.n) s.bitcnt)
      (h.midInv.dataReady.congr rfl rfl rfl rfl le_rfl) hbits hroom true (some s.n)
    exact (answers_bind ..).mpr ⟨u, hu, answers_ok _⟩
  · exact ⟨_, if_neg hpartial⟩

/-- A condition leaves a sound stack sound: outside a transfer no bit is pending, so nothing is cut. -/
theorem I2c.Inv.partialAtCondition (h : s.Inv p) (ht : s.partialAtCondition p = .ok t) :
    t.MidInv p s.out := by
  have hmid := h.midInv
  obtain ⟨-, ⟨hcnt, -, hin⟩, -⟩ := h
  cases hact : s.active
  case false =>
    obtain ⟨hnil, -⟩ := hmid.idle hact
    rw [hnil] at hcnt
    rw [I2c.partialAtCondition_of_no_partial p (.inl (by simp [hcnt]))] at ht
    cases ht
    exact hmid.clearBits
  case true =>
    obtain ⟨hmid', -⟩ := hmid.partialAtCondition hact (fun b hb => (hin b hb).2) ht
    exact hmid'

/-- A condition cuts the byte in progress, then ends the phase. -/
theorem I2c.Inv.endAtCondition_answers (h : s.Inv p) (hroom : s.room p = true) :
    Answers (s.endAtCondition p) := by
  obtain ⟨u, hu⟩ := h.partialAtCondition_answers hroom
  exact (answers_bind ..).mpr ⟨u, hu, (h.partialAtCondition hu).endPhase_answers⟩

end

end Sys2Proof.Machine

open Sys2Proof Sys2Proof.Machine

/-- Settles O36: a sound stack has what its rows read, and with room the byte is appended; the framer's
registers and the direction are all that the data rows read besides the byte in hand. -/
theorem spiRowsCompleteOnSoundStates : Obligations.SpiRowsCompleteOnSoundStates := by
  unfold Obligations.SpiRowsCompleteOnSoundStates
  refine ⟨fun s x tr h hroom => ?_, fun s v x d hframer h5 hdir => ?_⟩
  · have hsample := h.sckSample_answers hroom x
    exact ⟨exec_goesOn_of_onSpi (exec_sampling (.inl rfl) s) hsample,
      exec_goesOn_of_onSpi (exec_sampling (.inr rfl) s) hsample,
      exec_goesOn_of_onSpi (exec_spiCsDeassert x s) (h.csDeassert_answers hroom),
      exec_goesOn_of_onSpi (exec_aggregateSpi s) h.midInv.aggregate_answers,
      exec_goesOn_of_onSpi (exec_frameCarry s) h.midInv.frameCarry_answers,
      fun hpos => exec_goesOn_of_onSpi (exec_completeSpiByte tr s)
        (h.completeByte_answers hroom hpos tr _)⟩
  · have hne : s.spi.xfer ≠ [] := List.ne_nil_of_length_pos (by omega)
    obtain ⟨pre, r, hx⟩ := (List.eq_nil_or_concat' s.spi.xfer).resolve_left hne
    have hlen : s.spi.xfer.length = pre.length + 1 := by simp [hx]
    have hk : pre.length < s.spi.xfer.length := by omega
    have hready := hframer.ready
    refine ⟨?_, fun hst => ?_, fun hst => ?_⟩
    · exact exec_goesOn_of_onSpi (exec_spiData_last hx v)
        (Spi.dataByte_answers (by omega) hk (by simp [hdir]) hready v)
    · obtain ⟨hstart, hsize⟩ := hready.hdr hst
      exact exec_goesOn_of_onSpi (exec_tpmHdr_last x hx hdir)
        (Spi.tpmHdr_answers hk (fun h9 => ⟨hstart, hsize h9⟩) x d)
    · obtain ⟨hstart, hfdir⟩ := hready.payload hst
      exact exec_goesOn_of_onSpi (exec_tpmPayload_last x hx hdir)
        (Spi.tpmPayload_answers hk hfdir hstart x d)

/-- Settles O37: a sound stack has what its rows read, and with room the byte is appended; the two
parsers and the direction are all that the data rows read besides the byte in hand. -/
theorem i2cRowsCompleteOnSoundStates : Obligations.I2cRowsCompleteOnSoundStates := by
  unfold Obligations.I2cRowsCompleteOnSoundStates
  refine ⟨fun s x tr h hroom => ?_,
    fun s v d hne hrw hdlFirst hdlState hapFirst hapState hapPlace => ?_⟩
  · obtain ⟨-, -, hack, -⟩ := id h
    obtain ⟨u, hu⟩ := h.endAtCondition_answers hroom
    exact ⟨fun h7 => exec_goesOn_of_onI2c (exec_i2cBit x s) (h.bit_answers hroom h7 x),
      fun h8 => exec_goesOn_of_onI2c (exec_i2cAck x s) (h.midInv.ackBit_answers hack h8.ge x),
      exec_goesOn_of_onI2c (exec_i2cRstart x s) ⟨_, I2c.rstartCond_of_endAtCondition hu⟩,
      exec_goesOn_of_onI2c (exec_i2cStop x s) ⟨_, I2c.stopCond_of_endAtCondition hu⟩,
      exec_goesOn_of_onI2c (exec_endPhase s) h.midInv.endPhase_answers,
      exec_goesOn_of_onI2c (exec_partialAtCondition s) (h.partialAtCondition_answers hroom),
      fun hpos => exec_goesOn_of_onI2c (exec_completeI2cByte tr s)
        (h.completeByte_answers hroom hpos tr _)⟩
  · obtain ⟨pre, r, hx⟩ := (List.eq_nil_or_concat' s.i2c.xfer).resolve_left hne
    have hk : pre.length < s.i2c.xfer.length := by simp [hx]
    have hready : s.i2c.ParsersReady s.cfg.i2c d :=
      ⟨hdlFirst, hdlState, hapFirst, hapState, hapPlace⟩
    exact ⟨exec_goesOn_of_onI2c (exec_i2cRegdata_last hx v) (hready.regData_answers hrw hk v),
      fun hst => exec_goesOn_of_onI2c (exec_dlPay_last hx hrw v) (hready.dlPay_answers hst hk v)⟩

end

/-! ## Operation words read back (30_encoding.md sections 2 and 3; notes/assumptions/10.md)

A word is the table's byte, a selector byte and operand bytes, which the decoder takes apart. -/

section

namespace Sys2Proof

/-- A selector is read back from its byte. -/
theorem selOfByte_selByte (s : Sel) : selOfByte (selByte s) = .ok s := by
  cases s <;> rfl

/-- The decoder reads an operation's word by the row of its selector. -/
theorem decode_encode_append (i : Instr) (rest : List Byte) :
    decode (encode i ++ rest) =
      decodeRow (encodeRow i).2.1 (encodeRow i).1 ((encodeRow i).2.2 ++ rest) := by
  simp only [encode, List.cons_append, decode, selOfByte_selByte, bind, Except.bind]

/-! ### Condition words (30_encoding.md R92 to R95) -/

/-- Each part of a CS5 byte stands at its place. -/
theorem cs5Byte_fields (first prevAsserted : Bool) (prevSck : Bit) (x : SpiLevels) :
    let b := cs5Byte first prevAsserted prevSck x
    b.getLsbD 7 = false ∧ b.extractLsb' 0 5 = cs5 first prevAsserted prevSck x
      ∧ (⟨b.getLsbD 0, b.getLsbD 5, b.getLsbD 6, b.getLsbD 2⟩ : SpiLevels) = x := by
  rcases x with ⟨sck, mosi, miso, asserted⟩
  revert first prevAsserted prevSck sck mosi miso asserted
  decide

/-- Each part of a CI5 byte stands at its place. -/
theorem ci5Byte_fields (first : Bool) (prevScl prevSda : Bit) (active awaitAck : Bool)
    (x : I2cSample) :
    let b := ci5Byte first prevScl prevSda active awaitAck x
    b.getLsbD 7 = false ∧ b.extractLsb' 0 5 = ci5 first prevScl prevSda x
      ∧ b.getLsbD 5 = active ∧ b.getLsbD 6 = awaitAck
      ∧ (⟨b.getLsbD 2, b.getLsbD 0⟩ : I2cSample) = x := by
  rcases x with ⟨scl, sda⟩
  revert first prevScl prevSda active awaitAck scl sda
  decide

/-- A CS5 byte is read as the last row that its condition hits, or as SPI_IDLE_STEP (30_encoding.md
R92, R93). -/
theorem decodeCs5_cs5Byte (first prevAsserted : Bool) (prevSck : Bit) (x : SpiLevels) :
    decodeCs5 (cs5Byte first prevAsserted prevSck x) =
      .ok (((spiHits (cs5 first prevAsserted prevSck x)).getLast?.map (SpiRow.instr x)).getD
        (.spiIdleStep x)) := by
  obtain ⟨hunused, hword, hx⟩ := cs5Byte_fields first prevAsserted prevSck x
  simp only [decodeCs5, hunused, hword, hx, Bool.false_eq_true, if_false]
  cases (spiHits (cs5 first prevAsserted prevSck x)).getLast? <;> rfl

/-- A CI5 byte is read as the operation its condition and state select (30_encoding.md R94, R95). -/
theorem decodeCi5_ci5Byte (first : Bool) (prevScl prevSda : Bit) (active awaitAck : Bool)
    (x : I2cSample) :
    decodeCi5 (ci5Byte first prevScl prevSda active awaitAck x) =
      .ok (i2cSelect (ci5 first prevScl prevSda x) active awaitAck x) := by
  obtain ⟨hunused, hword, hactive, hack, hx⟩ :=
    ci5Byte_fields first prevScl prevSda active awaitAck x
  simp only [decodeCi5, hunused, hword, hactive, hack, hx, Bool.false_eq_true, if_false]

/-! ### Buffer records (10_state.md R29, R34) -/

/-- A number that fits the operation word is read back. -/
theorem takeNat_of_fits32 {k : Nat} (h : fits32 k = true) (bs : List Byte) :
    takeNat (natBytes k ++ bs) = .ok (k, bs) :=
  takeNat_natBytes k bs (of_decide_eq_true h)

/-- An SPI record whose numbers fit is read back. -/
theorem takeSpiRec_spiRecBytes (r : SpiByteRec) (bs : List Byte) (h : r.wf = true) :
    takeSpiRec (spiRecBytes r ++ bs) = .ok (r, bs) := by
  simp only [SpiByteRec.wf, Bool.and_eq_true, Option.all_eq_true] at h
  obtain ⟨⟨hstart, hstop⟩, hseq⟩ := h
  have hfseq := takeOptNat_bytes r.fseq bs fun k hk => of_decide_eq_true (hseq k hk)
  simp only [spiRecBytes, List.append_assoc, List.cons_append, List.nil_append, takeSpiRec,
    takeOptByte_bytes, takeNat_of_fits32 hstart, takeNat_of_fits32 hstop, takeFlag_flagByte,
    takeRole_roleByte, hfseq, bind, Except.bind]

/-- An I2C record whose numbers fit is read back. -/
theorem takeI2cRec_i2cRecBytes (r : I2cByteRec) (bs : List Byte) (h : r.wf = true) :
    takeI2cRec (i2cRecBytes r ++ bs) = .ok (r, bs) := by
  simp only [I2cByteRec.wf, Bool.and_eq_true] at h
  obtain ⟨⟨hstart, hstop⟩, hphase⟩ := h
  simp only [i2cRecBytes, List.append_assoc, List.cons_append, List.nil_append, takeI2cRec,
    takeByte_cons, takeNat_of_fits32 hstart, takeNat_of_fits32 hstop, takeNat_of_fits32 hphase,
    takeFlag_flagByte, takeKind_kindByte, takeOptBool_byte, map_dirOfBit_bitOfDir, bind,
    Except.bind]

/-- A buffer record whose numbers fit is read back. -/
theorem takeBufRec_bufRecBytes (r : BufRec) (bs : List Byte) (h : r.wf = true) :
    takeBufRec (bufRecBytes r ++ bs) = .ok (r, bs) := by
  cases r with
  | spi r =>
    simp only [bufRecBytes, List.cons_append, takeBufRec, takeStack_stackByte,
      takeSpiRec_spiRecBytes r bs h, bind, Except.bind]
  | i2c r =>
    simp only [bufRecBytes, List.cons_append, takeBufRec, takeStack_stackByte,
      takeI2cRec_i2cRecBytes r bs h, bind, Except.bind]

/-! ### Bit fields of a byte (30_encoding.md R103, R105, R106) -/

/-- The fields of FCTR stand at their places. -/
theorem fctrByte_extract (t : BitVec 1) (q : BitVec 2) (z : BitVec 1) (f k : BitVec 2) :
    let b := fctrByte t q z f k
    b.extractLsb' 7 1 = t ∧ b.extractLsb' 5 2 = q ∧ b.extractLsb' 4 1 = z
      ∧ b.extractLsb' 2 2 = f ∧ b.extractLsb' 0 2 = k := by
  simp only [← BitVec.toNat_inj, BitVec.extractLsb'_toNat,
    Nat.shiftRight_eq_div_pow, Machine.toNat_fctrByte]
  omega

/-- The fields of PCTR stand at their places. -/
theorem pctrByte_extract (c : BitVec 4) (z : BitVec 1) (h : BitVec 3) :
    let b := pctrByte c z h
    b.extractLsb' 4 4 = c ∧ b.extractLsb' 3 1 = z ∧ b.extractLsb' 0 3 = h := by
  simp only [← BitVec.toNat_inj, BitVec.extractLsb'_toNat,
    Nat.shiftRight_eq_div_pow, Machine.toNat_pctrByte]
  omega

/-- The fields of SCTR stand at their places. -/
theorem sctrByte_extract (o : BitVec 2) (m : BitVec 4) (k : BitVec 2) :
    let b := sctrByte o m k
    b.extractLsb' 6 2 = o ∧ b.extractLsb' 2 4 = m ∧ b.extractLsb' 0 2 = k := by
  simp only [← BitVec.toNat_inj, BitVec.extractLsb'_toNat,
    Nat.shiftRight_eq_div_pow, Machine.toNat_sctrByte]
  omega

/-! ### The rows -/

/-- The row of a CS5 word, where one is hit. -/
theorem decodeRow_cs5Byte_of_hit {first prevAsserted : Bool} {prevSck : Bit} {x : SpiLevels}
    {r : SpiRow} (h : (spiHits (cs5 first prevAsserted prevSck x)).getLast? = some r)
    (bs : List Byte) :
    decodeRow .spiCond (cs5Byte first prevAsserted prevSck x) bs = .ok (r.instr x, bs) := by
  simp only [decodeRow, decodeCs5_cs5Byte, h, bind, Except.bind, Option.map_some, Option.getD_some]

/-- The row of a CI5 word. -/
theorem decodeRow_ci5Byte {first : Bool} {prevScl prevSda : Bit} {active awaitAck : Bool}
    {x : I2cSample} {i : Instr}
    (h : i2cSelect (ci5 first prevScl prevSda x) active awaitAck x = i) (bs : List Byte) :
    decodeRow .i2cCond (ci5Byte first prevScl prevSda active awaitAck x) bs = .ok (i, bs) := by
  simp only [decodeRow, decodeCi5_ci5Byte, h, bind, Except.bind]

/-- Each row reads back what it was written from. -/
theorem decodeRow_encodeRow (i : Instr) (rest : List Byte) (h : i.wf = true) :
    decodeRow (encodeRow i).2.1 (encodeRow i).1 ((encodeRow i).2.2 ++ rest) = .ok (i, rest) := by
  cases i with
  | spiBaseline x =>
    exact decodeRow_cs5Byte_of_hit (r := .baseline) (by simp [Machine.spiHits_eq]) _
  | spiCsDeassert x =>
    have ha : x.asserted = false := by simpa [Instr.wf] using h
    exact decodeRow_cs5Byte_of_hit (r := .csDeassert) (by simp [Machine.spiHits_eq, ha]) _
  | spiCsAssert x =>
    have ha : x.asserted = true := h
    exact decodeRow_cs5Byte_of_hit (r := .csAssert) (by simp [Machine.spiHits_eq, ha]) _
  | spiSckSample x =>
    have ha : x.asserted = true ∧ x.sck = true := by simpa [Instr.wf] using h
    exact decodeRow_cs5Byte_of_hit (r := .sckSample) (by simp [Machine.spiHits_eq, ha]) _
  | spiSckSampleF x =>
    have ha : x.asserted = true ∧ x.sck = false := by simpa [Instr.wf] using h
    exact decodeRow_cs5Byte_of_hit (r := .sckSampleF) (by simp [Machine.spiHits_eq, ha]) _
  | spiIdleStep x =>
    have hnone : spiHits (cs5 false x.asserted x.sck x) = [] := by simp [Machine.spiHits_eq]
    simp only [encodeRow, decodeRow, decodeCs5_cs5Byte, hnone, bind, Except.bind]
    rfl
  | i2cBaseline x => exact decodeRow_ci5Byte (by simp [i2cSelect_ci5]) _
  | i2cStart x | i2cRstart x =>
    have hx : x.scl = true ∧ x.sda = false := by simpa [Instr.wf] using h
    exact decodeRow_ci5Byte (by simp [i2cSelect_ci5, hx]) _
  | i2cStop x | i2cStrayStop x =>
    have hx : x.scl = true ∧ x.sda = true := by simpa [Instr.wf] using h
    exact decodeRow_ci5Byte (by simp [i2cSelect_ci5, hx]) _
  | i2cBit x | i2cAck x =>
    have hx : x.scl = true := h
    exact decodeRow_ci5Byte (by simp [i2cSelect_ci5, hx]) _
  | i2cIdleStep x => exact decodeRow_ci5Byte (by simp [i2cSelect_ci5]) _
  | spiHdr0 d c =>
    simp only [encodeRow, decodeRow, Machine.hdr0Dir_hdr0Byte, Machine.hdr0Count_hdr0Byte,
      List.nil_append]
  | i2cAddr a r =>
    simp only [encodeRow, decodeRow, Machine.addrBits_addrByte, Machine.addrDir_addrByte,
      List.nil_append]
  | dlFctr t q z f k =>
    obtain ⟨ht, hq, hz, hf, hk⟩ := fctrByte_extract t q z f k
    simp only [encodeRow, decodeRow, ht, hq, hz, hf, hk, List.nil_append]
  | dlPctr c z n =>
    obtain ⟨hc, hz, hn⟩ := pctrByte_extract c z n
    simp only [encodeRow, decodeRow, hc, hz, hn, List.nil_append]
  | dlSctr o m k =>
    obtain ⟨ho, hm, hk⟩ := sctrByte_extract o m k
    simp only [encodeRow, decodeRow, ho, hm, hk, List.nil_append]
  | spiData v => cases v <;> rfl
  | completeSpiByte f | completeI2cByte f | dlFinish f | apduFinish f => cases f <;> rfl
  | fieldDecode k x => cases k <;> rfl
  | regLen q =>
    simp only [encodeRow, decodeRow, action, if_true, takeNat_of_fits32 h, bind, Except.bind]
  | bufAppend r =>
    simp only [encodeRow, decodeRow, action, if_true, takeBufRec_bufRecBytes r rest h, bind,
      Except.bind]
  | bufRead k q =>
    simp only [encodeRow, decodeRow, action, if_true, List.cons_append, takeStack_stackByte,
      takeNat_of_fits32 h, bind, Except.bind]
  | _ => rfl

end Sys2Proof

open Sys2Proof

/-- Settles O1: the selector byte finds the row of the operation, and the row reads back what it was
written from. -/
theorem decodeOfEncodeIsTheOperation : Obligations.DecodeOfEncodeIsTheOperation := by
  unfold Obligations.DecodeOfEncodeIsTheOperation
  intro i rest h
  rw [decode_encode_append]
  exact decodeRow_encodeRow i rest h

end

/-! ## Events emitted before (70_reset_and_hazards.md R402 to R404)

No operation reads the events that its stack has emitted. So on the same stack with events in front
of its own each operation reads the same, takes the same branch and emits the same: it stops for the
same reason, or leads to the same stack with those events in front. One lemma each says so. -/

section

namespace Sys2Proof.Machine

open Sys2Proof

/-! ### Runs that end alike -/

/-- Both runs stop for the same reason, or both answer, with answers that `R` relates. -/
inductive Run.Agrees {α β : Type} (R : α → β → Prop) : Run α → Run β → Prop
  | ok {a : α} {b : β} : R a b → Agrees R (.ok a) (.ok b)
  | stop (e : Stop) : Agrees R (.error e) (.error e)

section

variable {α β γ δ : Type} {R : α → β → Prop} {S : γ → δ → Prop}

theorem Run.Agrees.bind {x : Run α} {y : Run β} {f : α → Run γ} {g : β → Run δ}
    (h : Run.Agrees R x y) (hf : ∀ a b, R a b → Run.Agrees S (f a) (g b)) :
    Run.Agrees S (x >>= f) (y >>= g) := by
  cases h with
  | ok hab => exact hf _ _ hab
  | stop e => exact .stop e

/-- Both runs read the same value. -/
theorem Run.Agrees.read {x y : Run α} {f : α → Run γ} {g : α → Run δ} (h : y = x)
    (hf : ∀ a, Run.Agrees S (f a) (g a)) : Run.Agrees S (x >>= f) (y >>= g) := by
  subst h
  cases y with
  | ok a => exact hf a
  | error e => exact .stop e

/-- Both runs take the same branch. -/
theorem Run.Agrees.ite {c : Prop} [Decidable c] {x x' : Run α} {y y' : Run β}
    (h : Run.Agrees R x y) (h' : Run.Agrees R x' y') :
    Run.Agrees R (if c then x else x') (if c then y else y') := by
  split
  · exact h
  · exact h'

end

/-! ### Events in front -/

/-- `out'` is `out` with the events `front` before it. -/
def HasFront (front out out' : List OutEvent) : Prop := out' = front ++ out

variable {front out out' before before' : List OutEvent}

theorem HasFront.append (h : HasFront front out out') (es : List OutEvent) :
    HasFront front (out ++ es) (out' ++ es) := by
  rw [HasFront, h, List.append_assoc]

theorem HasFront.concat (h : HasFront front out out') (e : OutEvent) :
    HasFront front (out ++ [e]) (out' ++ [e]) := h.append [e]

/-- The event port bounds what the step adds, and leaves what is in front (10_state.md R66). -/
theorem HasFront.portEvents (hb : HasFront front before before') (h : HasFront front out out')
    (bound : Bool) (n : Nat) :
    HasFront front (portEvents bound n before out) (portEvents bound n before' out') := by
  subst hb h
  cases bound <;> simp [HasFront, Machine.portEvents, ← List.drop_drop]

end Sys2Proof.Machine

end

/-! ## The SPI stack with events in front -/

section

namespace Sys2Proof.Machine

open Sys2Proof

/-- The SPI stack `u` is `s` with the events `front` before its own. -/
def Spi.After (front : List OutEvent) (s u : Spi) : Prop :=
  ∃ out, HasFront front s.out out ∧ u = { s with out := out }

variable {front : List OutEvent} {p : SpiParams} {s u : Spi}

theorem Spi.After.emitAll (h : Spi.After front s u) (es : List OutEvent) :
    Spi.After front (s.emitAll es) (u.emitAll es) := by
  obtain ⟨o, ho, rfl⟩ := h
  exact ⟨_, ho.append es, rfl⟩

theorem Spi.After.emit (h : Spi.After front s u) (sp : Span) (e : Event) :
    Spi.After front (s.emit sp e) (u.emit sp e) := h.emitAll [⟨sp, e⟩]

theorem Spi.After.bufUpdate (h : Spi.After front s u) (k : Nat) (f : SpiByteRec → SpiByteRec) :
    Run.Agrees (Spi.After front) (s.bufUpdate k f) (u.bufUpdate k f) := by
  obtain ⟨o, ho, rfl⟩ := h
  exact .ite (.ok ⟨_, ho, rfl⟩) (.stop _)

theorem Spi.After.ite {c : Prop} [Decidable c] {s' u' : Spi} (h : Spi.After front s u)
    (h' : Spi.After front s' u') : Spi.After front (if c then s else s') (if c then u else u') := by
  split
  · exact h
  · exact h'

/-! ### The framer (43_command_framer.md) -/

theorem Spi.After.closeFrame (h : Spi.After front s u) (k : Nat) :
    Run.Agrees (Spi.After front) (s.closeFrame k) (u.closeFrame k) := by
  obtain ⟨o, ho, rfl⟩ := h
  exact .read rfl fun d => .read rfl fun f => .ok ⟨_, ho, rfl⟩

/-- The row of a field that is whole (43_command_framer.md R243 to R245). -/
theorem Spi.After.fieldDone (h : Spi.After front s u) (k : Nat) (d : Dir) (sp : Span) :
    Run.Agrees (Spi.After front) (s.fieldDone p k d sp) (u.fieldDone p k d sp) := by
  obtain ⟨o, ho, rfl⟩ := id h
  refine .ite (.ok ?tag) (.ite (.ok (.ite ?short ?long))
    (.ite (.read rfl fun size => ?code) (.ok h)))
  case tag =>
    rw [Spi.tpmTagDone_eq, Spi.tpmTagDone_eq]
    exact ⟨_, ho.concat _, rfl⟩
  case short => exact ⟨_, (ho.concat _).concat _, rfl⟩
  case long => exact ⟨_, ho.concat _, rfl⟩
  case code =>
    refine .ite (Spi.After.closeFrame ?_ k) (.ok ?_) <;> exact ⟨_, ho.concat _, rfl⟩

theorem Spi.After.tpmHdr (h : Spi.After front s u) (k : Nat) (x : Byte) (d : Dir) :
    Run.Agrees (Spi.After front) (s.tpmHdr p k x d) (u.tpmHdr p k x d) := by
  obtain ⟨o, ho, rfl⟩ := id h
  refine .bind (h.bufUpdate k _) fun t v h => ?_
  obtain ⟨o, ho, rfl⟩ := h
  refine .read rfl fun r => ?_
  have hbegun : Spi.After front (t.beginField r.start)
      (Spi.beginField r.start { t with out := o }) := .ite ⟨_, ho, rfl⟩ ⟨_, ho, rfl⟩
  generalize t.beginField r.start = t' at hbegun ⊢
  obtain ⟨o', ho', hu⟩ := hbegun
  dsimp only
  rw [hu]
  refine Spi.After.fieldDone ?_ k d _
  exact ⟨_, ho', rfl⟩

theorem Spi.After.tpmPayload (h : Spi.After front s u) (k : Nat) (x : Byte) (d : Dir) :
    Run.Agrees (Spi.After front) (s.tpmPayload k x d) (u.tpmPayload k x d) := by
  obtain ⟨o, ho, rfl⟩ := id h
  refine .bind (h.bufUpdate k _) fun t v h => ?_
  obtain ⟨o, ho, rfl⟩ := h
  exact .read rfl fun r =>
    .ite (Spi.After.closeFrame ⟨_, ho.concat _, rfl⟩ k) (.ok ⟨_, ho.concat _, rfl⟩)

theorem Spi.After.framerByte (h : Spi.After front s u) (k : Nat) (x : Byte) (d : Dir) :
    Run.Agrees (Spi.After front) (s.framerByte p k x d) (u.framerByte p k x d) := by
  obtain ⟨o, ho, rfl⟩ := id h
  simp only [Spi.framerByte]
  split
  · refine Spi.After.tpmHdr ?_ k x d
    exact ⟨_, ho, rfl⟩
  · exact h.tpmHdr k x d
  · exact .ite (h.tpmPayload k x d) (.ok h)

/-! ### The link header (42_link_header.md) -/

/-- A register address is looked up and reported (42_link_header.md R203). -/
theorem Spi.After.takeReg (h : Spi.After front s u) (reg : BitVec 16) (sp : Span) :
    Spi.After front (s.takeReg p reg sp) (u.takeReg p reg sp) := by
  obtain ⟨o, ho, rfl⟩ := h
  simp only [Spi.takeReg]
  cases lookupName p.knownReg reg <;> exact ⟨_, ho.concat _, rfl⟩

theorem Spi.After.ackFlag (h : Spi.After front s u) (x : Byte) (start stop : Nat) :
    Spi.After front (s.ackFlag p x start stop) (u.ackFlag p x start stop) := by
  obtain ⟨o, ho, rfl⟩ := h
  exact .ite ⟨_, ho.concat _, rfl⟩ ⟨_, ho, rfl⟩

theorem Spi.After.withRouted (h : Spi.After front s u) (routed : Bool) :
    Spi.After front { s with hdrRouted := routed } { u with hdrRouted := routed } := by
  obtain ⟨o, ho, rfl⟩ := h
  exact ⟨_, ho, rfl⟩

theorem Spi.After.hdr3 (h : Spi.After front s u) (x : Byte) (miso : Option Byte)
    (start stop : Nat) :
    Run.Agrees (Spi.After front) (s.hdr3 p x miso start stop) (u.hdr3 p x miso start stop) := by
  obtain ⟨o, ho, rfl⟩ := id h
  refine .read rfl fun hi => ?_
  have htaken := h.takeReg (p := p) (joinLow (highByte hi) x) (spanOf s.hdrB2Start stop)
  dsimp only
  generalize Spi.takeReg p _ _ s = t at htaken ⊢
  generalize Spi.takeReg p _ _ _ = v at htaken ⊢
  obtain ⟨o, ho, rfl⟩ := htaken
  refine .read rfl fun b2 => .ok (Spi.After.withRouted ?_ (regRouted p (joinLow (highByte hi) x)))
  dsimp only [Spi.emit]
  split
  · refine Spi.After.ackFlag ?_ _ start stop
    exact ⟨_, ho.concat _, rfl⟩
  · exact ⟨_, ho.concat _, rfl⟩

theorem Spi.After.excessByte (h : Spi.After front s u) (k : Nat) :
    Run.Agrees (Spi.After front) (s.excessByte k) (u.excessByte k) := by
  refine .read rfl fun i => .bind (h.bufUpdate k _) fun t v h => ?_
  obtain ⟨o, ho, rfl⟩ := h
  exact .read rfl fun r => .ok ⟨_, ho.concat _, rfl⟩

theorem Spi.After.dataByte (h : Spi.After front s u) (k : Nat) (v : Option Byte) :
    Run.Agrees (Spi.After front) (s.dataByte p k v) (u.dataByte p k v) := by
  obtain ⟨o, ho, rfl⟩ := id h
  refine .read rfl fun i => .read rfl fun d => .bind (h.bufUpdate k _) fun t w h => ?_
  obtain ⟨o, ho, rfl⟩ := id h
  refine .read rfl fun r => ?_
  dsimp only
  split
  · exact .ite ((h.emit _ _).framerByte k _ d) (.ok ((h.emit _ _).emitAll _))
  · exact .ok h

theorem Spi.After.headerByte (h : Spi.After front s u) (r : SpiByteRec) :
    Run.Agrees (Spi.After front) (s.headerByte p r) (u.headerByte p r) := by
  obtain ⟨o, ho, rfl⟩ := h
  have h : Spi.After front { s with pos := s.pos + 1 } { s with pos := s.pos + 1, out := o } :=
    ⟨_, ho, rfl⟩
  refine .ite (h.bufUpdate _ _) (.read rfl fun x => ?_)
  dsimp only
  split
  · exact .ok ⟨_, (ho.concat _).concat _, rfl⟩
  · exact .ok ⟨_, ho.concat _, rfl⟩
  · exact .ok ⟨_, ho, rfl⟩
  · exact h.hdr3 x r.miso r.start r.stop
  · exact .read rfl fun i => .read rfl fun d => .read rfl fun c =>
      .ite (h.excessByte _) (h.dataByte _ _)

/-! ### Bytes, the aggregator pass and the samplers -/

/-- Completing a byte: the pending bits, then a full buffer refuses the record, or the header
decoder takes it (41_byte_assembler.md R173 to R175, 20_memory.md R73). -/
theorem Spi.completeByte_eq_bind (p : SpiParams) (tr : Bool) (lastEnd : Option Nat) (s : Spi) :
    s.completeByte p tr lastEnd = pendingByte s.bitcnt s.bitStarts lastEnd >>= fun e =>
      if s.room p then (s.byteTaken p tr e.1 e.2.1 e.2.2).headerByte p (s.pendingRec p tr e.1 e.2.1)
      else .error (.refused (.maxXferBytes (p.maxXferBytes.getD 0))) := by
  cases hpend : pendingByte s.bitcnt s.bitStarts lastEnd with
  | error e => simp only [Spi.completeByte, hpend, bind, Except.bind]
  | ok e =>
    obtain ⟨start, stop, ends⟩ := e
    cases hroom : s.room p with
    | true => simp [Spi.completeByte_eq hpend hroom, bind, Except.bind]
    | false =>
      simp only [Spi.completeByte, hpend, bind, Except.bind, Spi.bufAppend_eq]
      cases p.haveMosi <;> cases p.haveMiso <;>
        simp only [if_true, Bool.false_eq_true, if_false, Spi.emitAll_room, hroom]

theorem Spi.After.completeByte (h : Spi.After front s u) (tr : Bool) (lastEnd : Option Nat) :
    Run.Agrees (Spi.After front) (s.completeByte p tr lastEnd) (u.completeByte p tr lastEnd) := by
  obtain ⟨o, ho, rfl⟩ := h
  rw [Spi.completeByte_eq_bind, Spi.completeByte_eq_bind]
  refine .read rfl fun e => .ite (Spi.After.headerByte ?_ _) (.stop _)
  exact ⟨_, (ho.append _).append _, rfl⟩

theorem Spi.After.cutByte (h : Spi.After front s u) :
    Run.Agrees (Spi.After front) (s.cutByte p) (u.cutByte p) := by
  obtain ⟨o, ho, rfl⟩ := id h
  exact .ite (.read rfl fun b0 => (h.emit _ _).completeByte true _) (.ok h)

theorem Spi.After.summaries (h : Spi.After front s u) :
    Run.Agrees (Spi.After front) (s.summaries p) (u.summaries p) := by
  obtain ⟨o, ho, rfl⟩ := id h
  simp only [Spi.summaries]
  split
  · exact .ok h
  · have hsum := h.emit (spanOf s.tStart s.n) (.spiXferSum (s.xferSum p))
    have hcheck : Run.Agrees (Spi.After front) (Spi.headerCheck p _) (Spi.headerCheck p _) :=
      .ite (.ok hsum) (.ite (.ok (hsum.emit _ _)) (.read rfl fun c =>
        .ok (.ite (hsum.emit _ _) hsum)))
    refine .bind hcheck fun t v h => ?_
    obtain ⟨o, ho, rfl⟩ := h
    exact .ok ⟨_, ho.append _, rfl⟩

/-- The flag of a frame that is still open (45_aggregator.md R344). -/
theorem Spi.After.flagOpenFrame (h : Spi.After front s u) :
    Run.Agrees (Spi.After front) s.flagOpenFrame u.flagOpenFrame := by
  obtain ⟨o, ho, rfl⟩ := id h
  refine .ite ?_ (.ok h)
  dsimp only
  split
  · exact .ok (h.emit _ _)
  · exact .stop _

theorem Spi.After.frameCarry (h : Spi.After front s u) :
    Run.Agrees (Spi.After front) s.frameCarry u.frameCarry := by
  rw [Spi.frameCarry_eq, Spi.frameCarry_eq]
  obtain ⟨o, ho, rfl⟩ := id h
  refine .ite (.ok h) ?_
  dsimp only
  split
  · refine .read rfl fun w => Spi.After.flagOpenFrame ?_
    exact ⟨_, ho, rfl⟩
  · exact h.flagOpenFrame

theorem Spi.After.aggregate (h : Spi.After front s u) :
    Run.Agrees (Spi.After front) (s.aggregate p) (u.aggregate p) := by
  refine .bind h.summaries fun t v h => .bind h.frameCarry fun t v h => ?_
  obtain ⟨o, ho, rfl⟩ := h
  exact .ok ⟨_, ho, rfl⟩

theorem Spi.After.csDeassert (h : Spi.After front s u) :
    Run.Agrees (Spi.After front) (s.csDeassert p) (u.csDeassert p) := by
  obtain ⟨o, ho, rfl⟩ := id h
  refine .ite (.bind h.cutByte fun t v h => ?_) (.ok h)
  obtain ⟨o, ho, rfl⟩ := id h
  refine .bind (h.emit _ _).aggregate fun t v h => ?_
  obtain ⟨o, ho, rfl⟩ := h
  exact .ok ⟨_, ho, rfl⟩

theorem Spi.After.sckSample (h : Spi.After front s u) (x : SpiLevels) :
    Run.Agrees (Spi.After front) (s.sckSample p x) (u.sckSample p x) := by
  obtain ⟨o, ho, rfl⟩ := h
  have h : Spi.After front (s.shiftBits p x) (Spi.shiftBits p x { s with out := o }) := ⟨_, ho, rfl⟩
  exact .ite (h.completeByte false none) (.ok h)

theorem Spi.After.doRow (h : Spi.After front s u) (x : SpiLevels) (r : SpiRow) :
    Run.Agrees (Spi.After front) (s.doRow p x r) (u.doRow p x r) := by
  cases r with
  | baseline =>
    obtain ⟨o, ho, rfl⟩ := h
    exact .ok (.ite ⟨_, ho.concat _, rfl⟩ ⟨_, ho, rfl⟩)
  | csDeassert => exact h.csDeassert
  | csAssert =>
    obtain ⟨o, ho, rfl⟩ := h
    exact .ok ⟨_, ho.concat _, rfl⟩
  | sckSample => exact h.sckSample x
  | sckSampleF => exact h.sckSample x

theorem Spi.After.doRows (h : Spi.After front s u) (x : SpiLevels) (rows : List SpiRow) :
    Run.Agrees (Spi.After front) (Spi.doRows p x rows s) (Spi.doRows p x rows u) := by
  induction rows generalizing s u with
  | nil => exact .ok h
  | cons r rs ih => exact .bind (h.doRow x r) fun t v h => ih h

/-- A whole SPI step reads no event emitted before it. -/
theorem Spi.After.takeSample (h : Spi.After front s u) (x : SpiSample) :
    Run.Agrees (Spi.After front) (s.takeSample p x) (u.takeSample p x) := by
  obtain ⟨o, ho, rfl⟩ := id h
  refine .ite (.ite (.stop _) (.bind (h.doRows _ _) fun t v hv => .ok ?_)) (.stop _)
  obtain ⟨o', ho', rfl⟩ := hv
  exact ⟨_, ho.portEvents ho' p.boundStarts s.n, rfl⟩

end Sys2Proof.Machine

end

/-! ## The I2C stack with events in front -/

section

namespace Sys2Proof.Machine

open Sys2Proof

/-- The I2C stack `u` is `s` with the events `front` before its own. -/
def I2c.After (front : List OutEvent) (s u : I2c) : Prop :=
  ∃ out, HasFront front s.out out ∧ u = { s with out := out }

variable {front : List OutEvent} {p : I2cParams} {s u : I2c}

theorem I2c.After.emitAll (h : I2c.After front s u) (es : List OutEvent) :
    I2c.After front (s.emitAll es) (u.emitAll es) := by
  obtain ⟨o, ho, rfl⟩ := h
  exact ⟨_, ho.append es, rfl⟩

theorem I2c.After.emit (h : I2c.After front s u) (sp : Span) (e : Event) :
    I2c.After front (s.emit sp e) (u.emit sp e) := h.emitAll [⟨sp, e⟩]

theorem I2c.After.bufUpdate (h : I2c.After front s u) (k : Nat) (f : I2cByteRec → I2cByteRec) :
    Run.Agrees (I2c.After front) (s.bufUpdate k f) (u.bufUpdate k f) := by
  obtain ⟨o, ho, rfl⟩ := h
  exact .ite (.ok ⟨_, ho, rfl⟩) (.stop _)

theorem I2c.After.ite {c : Prop} [Decidable c] {s' u' : I2c} (h : I2c.After front s u)
    (h' : I2c.After front s' u') : I2c.After front (if c then s else s') (if c then u else u') := by
  split
  · exact h
  · exact h'

/-! ### The APDU (44_datalink_apdu.md R298 to R302) -/

theorem I2c.After.apduFinish (h : I2c.After front s u) (k : Nat) (d : Dir) (c : Bool) :
    Run.Agrees (I2c.After front) (s.apduFinish k d c) (u.apduFinish k d c) := by
  obtain ⟨o, ho, rfl⟩ := h
  exact .read rfl fun f => .ok ⟨_, ho, rfl⟩

/-- An APDU's command or status is looked up and reported (44_datalink_apdu.md R298). -/
theorem I2c.After.apduCmd (h : I2c.After front s u) (k : Nat) (v : Byte) (d : Dir) :
    Run.Agrees (I2c.After front) (s.apduCmd p k v d) (u.apduCmd p k v d) := by
  obtain ⟨o, ho, rfl⟩ := h
  refine .read rfl fun sp => .ok ?_
  cases lookupName (apduHead p d).1 v <;> exact ⟨_, ho.concat _, rfl⟩

theorem I2c.After.apduLen1 (h : I2c.After front s u) (k : Nat) (v : Byte) (d : Dir) :
    Run.Agrees (I2c.After front) (s.apduLen1 p k v d) (u.apduLen1 p k v d) := by
  obtain ⟨o, ho, rfl⟩ := h
  refine .read rfl fun r => .ite (I2c.After.apduFinish ?_ k d true) (.ok ?_) <;>
    exact ⟨_, ho.concat _, rfl⟩

theorem I2c.After.apduData (h : I2c.After front s u) (k : Nat) (v : Byte) (d : Dir) :
    Run.Agrees (I2c.After front) (s.apduData k v d) (u.apduData k v d) := by
  obtain ⟨o, ho, rfl⟩ := h
  refine .read rfl fun sp => .read rfl fun n => .ite (I2c.After.apduFinish ?_ k d true) (.ok ?_) <;>
    exact ⟨_, ho.concat _, rfl⟩

/-- The APDU's row by its state. -/
theorem I2c.After.apduByte (h : I2c.After front s u) (k : Nat) (v : Byte) (d : Dir) :
    Run.Agrees (I2c.After front) (s.apduByte p k v d) (u.apduByte p k v d) := by
  obtain ⟨o, ho, rfl⟩ := id h
  simp only [I2c.apduByte]
  cases s.ap.ast with
  | cmd => exact h.apduCmd k v d
  | param => exact .read rfl fun sp => .ok ⟨_, ho.concat _, rfl⟩
  | len0 => exact .read rfl fun r => .ok ⟨_, ho, rfl⟩
  | len1 => exact h.apduLen1 k v d
  | data => exact h.apduData k v d
  | done => exact .read rfl fun sp => .ok ⟨_, ho.concat _, rfl⟩

/-! ### The datalink frame (44_datalink_apdu.md R280 to R297) -/

theorem I2c.After.dlFinish (h : I2c.After front s u) (k : Nat) (d : Dir) (c : Bool) :
    Run.Agrees (I2c.After front) (s.dlFinish k d c) (u.dlFinish k d c) := by
  obtain ⟨o, ho, rfl⟩ := h
  exact .read rfl fun f => .ok ⟨_, ho, rfl⟩

theorem I2c.After.payloadBegin (h : I2c.After front s u) (d : Dir) :
    Run.Agrees (I2c.After front) (s.payloadBegin d) (u.payloadBegin d) := by
  obtain ⟨o, ho, rfl⟩ := h
  exact .read rfl fun c => .ok ⟨_, ho, rfl⟩

theorem I2c.After.dlPctr (h : I2c.After front s u) (k : Nat) (v : Byte) (d : Dir) :
    Run.Agrees (I2c.After front) (s.dlPctr k v d) (u.dlPctr k v d) := by
  obtain ⟨o, ho, rfl⟩ := h
  refine .read rfl fun sp => .read rfl fun n =>
    .ite (.ok ?_) (.ite (I2c.After.payloadBegin ?_ d) (.ok ?_)) <;> exact ⟨_, ho.append _, rfl⟩

theorem I2c.After.dlSctr (h : I2c.After front s u) (k : Nat) (v : Byte) (d : Dir) :
    Run.Agrees (I2c.After front) (s.dlSctr k v d) (u.dlSctr k v d) := by
  obtain ⟨o, ho, rfl⟩ := h
  refine .read rfl fun sp => .read rfl fun n => .ite (I2c.After.payloadBegin ?_ d) (.ok ?_) <;>
    exact ⟨_, ho.append _, rfl⟩

theorem I2c.After.cutApdu (h : I2c.After front s u) (k : Nat) (d : Dir) :
    Run.Agrees (I2c.After front) (s.cutApdu k d) (u.cutApdu k d) := by
  obtain ⟨o, ho, rfl⟩ := id h
  exact .ite (.read rfl fun f => .read rfl fun r => .read rfl fun q =>
    (h.emit _ _).apduFinish k d false) (.ok h)

theorem I2c.After.countPayload (h : I2c.After front s u) (k : Nat) (d : Dir) :
    Run.Agrees (I2c.After front) (s.countPayload k d) (u.countPayload k d) := by
  obtain ⟨o, ho, rfl⟩ := h
  refine .read rfl fun n => .ite (.bind (R := I2c.After front) (I2c.After.cutApdu ?_ k d)
    fun t v h => ?_) (.ok ?_)
  · exact ⟨_, ho, rfl⟩
  · obtain ⟨o, ho, rfl⟩ := h
    exact .ok ⟨_, ho, rfl⟩
  · exact ⟨_, ho, rfl⟩

theorem I2c.After.dlPay (h : I2c.After front s u) (k : Nat) (v : Byte) (d : Dir) :
    Run.Agrees (I2c.After front) (s.dlPay p k v d) (u.dlPay p k v d) := by
  rw [I2c.dlPay_eq, I2c.dlPay_eq]
  obtain ⟨o, ho, rfl⟩ := id h
  exact .read rfl fun sp => .ite (.bind (h.apduByte k v d) fun t w h => h.countPayload k d)
    ((h.emit _ _).countPayload k d)

/-- The frame's row by its state. -/
theorem I2c.After.dlByte (h : I2c.After front s u) (k j : Nat) (v : Byte) (d : Dir) :
    Run.Agrees (I2c.After front) (s.dlByte p k j v d) (u.dlByte p k j v d) := by
  obtain ⟨o, ho, rfl⟩ := id h
  simp only [I2c.dlByte]
  cases s.dl.dst with
  | fctr => exact .read rfl fun sp => .ok ⟨_, ho.append _, rfl⟩
  | len0 => exact .read rfl fun r => .ok ⟨_, ho, rfl⟩
  | len1 => exact .read rfl fun r => .ok ⟨_, ho.concat _, rfl⟩
  | pctr => exact h.dlPctr k v d
  | sctr => exact h.dlSctr k v d
  | pay => exact h.dlPay k v d
  | fcs0 => exact .read rfl fun r => .ok ⟨_, ho, rfl⟩
  | fcs1 =>
    refine .read rfl fun r => I2c.After.dlFinish ?_ k d true
    exact ⟨_, ho.concat _, rfl⟩
  | done => exact .read rfl fun sp => .ok ⟨_, ho.concat _, rfl⟩

/-! ### The end of a phase (44_datalink_apdu.md R303) -/

theorem I2c.After.endApdu (h : I2c.After front s u) (k : Nat) (d : Dir) :
    Run.Agrees (I2c.After front) (s.endApdu k d) (u.endApdu k d) := by
  obtain ⟨o, ho, rfl⟩ := id h
  have hopen : I2c.openApdu { s with out := o } = s.openApdu := rfl
  simp only [I2c.endApdu, hopen]
  cases s.openApdu with
  | none => exact .ok h
  | some a => exact .read rfl fun r => (h.emit _ _).apduFinish k d false

theorem I2c.After.endPhase (h : I2c.After front s u) :
    Run.Agrees (I2c.After front) s.endPhase u.endPhase := by
  obtain ⟨o, ho, rfl⟩ := id h
  simp only [I2c.endPhase]
  cases s.dl.dFirst with
  | none => exact .ok h
  | some f =>
    refine .ite (.ok h) (.read rfl fun last => .read rfl fun d => .bind (h.endApdu last d) ?_)
    intro t v h
    obtain ⟨o, ho, rfl⟩ := id h
    exact .read rfl fun r => (h.emit _ _).dlFinish last d false

/-! ### The link header (42_link_header.md R210 to R214) -/

theorem I2c.After.addrByteIn (h : I2c.After front s u) (k : Nat) (x : Byte) :
    Run.Agrees (I2c.After front) (s.addrByteIn p k x) (u.addrByteIn p k x) := by
  obtain ⟨o, ho, rfl⟩ := h
  refine .bind (R := I2c.After front) (I2c.After.bufUpdate ?_ k _) fun t v h => ?_
  · exact ⟨_, ho, rfl⟩
  · obtain ⟨o, ho, rfl⟩ := h
    exact .read rfl fun r => .ok ⟨_, ho.concat _, rfl⟩

/-- A register number is looked up and reported (42_link_header.md R212). -/
theorem I2c.After.regNum (h : I2c.After front s u) (k : Nat) (x : Byte) :
    Run.Agrees (I2c.After front) (s.regNum p k x) (u.regNum p k x) := by
  obtain ⟨o, ho, rfl⟩ := h
  refine .bind (R := I2c.After front) (I2c.After.bufUpdate ?_ k _) fun t v h => ?_
  · exact ⟨_, ho, rfl⟩
  · obtain ⟨o, ho, rfl⟩ := h
    refine .read rfl fun r => .ok ?_
    cases lookupName p.knownReg x <;> exact ⟨_, ho.concat _, rfl⟩

theorem I2c.After.regData (h : I2c.After front s u) (k : Nat) (v : Byte) :
    Run.Agrees (I2c.After front) (s.regData p k v) (u.regData p k v) := by
  obtain ⟨o, ho, rfl⟩ := h
  refine .read rfl fun d => .bind (R := I2c.After front) (I2c.After.bufUpdate ?_ k _)
    fun t w h => ?_
  · exact ⟨_, ho, rfl⟩
  · obtain ⟨o, ho, rfl⟩ := id h
    refine .read rfl fun r => ?_
    dsimp only
    split
    · exact .ok (.ite (h.emit _ _) h)
    · exact .ite ((h.emit _ _).dlByte k _ v d) (.ok ((h.emit _ _).emitAll _))

theorem I2c.After.headerByte (h : I2c.After front s u) (r : I2cByteRec) :
    Run.Agrees (I2c.After front) (s.headerByte p r) (u.headerByte p r) := by
  obtain ⟨o, ho, rfl⟩ := id h
  exact .read rfl fun k => .ite (h.addrByteIn k r.value)
    (.ite (h.bufUpdate k _) (.ite (h.regNum k r.value) (h.regData k r.value)))

/-! ### Bytes, the aggregator pass and the samplers -/

/-- Completing a byte: the pending bits, then a full buffer refuses the record, or the header
decoder takes it (41_byte_assembler.md R177, 20_memory.md R73). -/
theorem I2c.completeByte_eq_bind (p : I2cParams) (tr : Bool) (lastEnd : Option Nat) (s : I2c) :
    s.completeByte p tr lastEnd = pendingByte s.bitcnt s.bitStarts lastEnd >>= fun e =>
      if s.room p then (s.byteTaken tr e.1 e.2.1 e.2.2).headerByte p (s.pendingRec tr e.1 e.2.1)
      else .error (.refused (.maxXferBytes (p.maxXferBytes.getD 0))) := by
  cases hpend : pendingByte s.bitcnt s.bitStarts lastEnd with
  | error e => simp only [I2c.completeByte, hpend, bind, Except.bind]
  | ok e =>
    obtain ⟨start, stop, ends⟩ := e
    cases hroom : s.room p with
    | true => simp [I2c.completeByte_eq hpend hroom, bind, Except.bind]
    | false =>
      simp only [I2c.completeByte, hpend, bind, Except.bind, I2c.bufAppend_eq, I2c.emitAll_room,
        hroom, Bool.false_eq_true, if_false]

theorem I2c.After.completeByte (h : I2c.After front s u) (tr : Bool) (lastEnd : Option Nat) :
    Run.Agrees (I2c.After front) (s.completeByte p tr lastEnd) (u.completeByte p tr lastEnd) := by
  obtain ⟨o, ho, rfl⟩ := h
  rw [I2c.completeByte_eq_bind, I2c.completeByte_eq_bind]
  refine .read rfl fun e => .ite (I2c.After.headerByte ?_ _) (.stop _)
  exact ⟨_, ho.append _, rfl⟩

theorem I2c.After.clearBits (h : I2c.After front s u) :
    I2c.After front s.clearBits u.clearBits := by
  obtain ⟨o, ho, rfl⟩ := h
  exact ⟨_, ho, rfl⟩

theorem I2c.After.partialAtCondition (h : I2c.After front s u) :
    Run.Agrees (I2c.After front) (s.partialAtCondition p) (u.partialAtCondition p) := by
  obtain ⟨o, ho, rfl⟩ := id h
  exact .ite (.read rfl fun b0 =>
    .bind ((h.emit _ _).completeByte true _) fun t v h => .ok h.clearBits) (.ok h.clearBits)

theorem I2c.After.bit (h : I2c.After front s u) (x : I2cSample) :
    Run.Agrees (I2c.After front) (s.bit p x) (u.bit p x) := by
  obtain ⟨o, ho, rfl⟩ := h
  refine .ite (I2c.After.completeByte ?_ false none) (.ok ?_) <;> exact ⟨_, ho, rfl⟩

theorem I2c.After.writeAck (h : I2c.After front s u) (ack : Bool) :
    Run.Agrees (I2c.After front) (s.writeAck ack) (u.writeAck ack) := by
  obtain ⟨o, ho, rfl⟩ := id h
  simp only [I2c.writeAck]
  split
  · exact h.bufUpdate _ _
  · exact .ok h

theorem I2c.After.ackBit (h : I2c.After front s u) (x : I2cSample) :
    Run.Agrees (I2c.After front) (s.ackBit x) (u.ackBit x) := by
  obtain ⟨o, ho, rfl⟩ := id h
  exact .read rfl fun b7 => .read rfl fun w =>
    .bind ((h.emit _ _).writeAck _) fun t v h => .ok h.clearBits

theorem I2c.After.aggregate (h : I2c.After front s u) :
    I2c.After front (s.aggregate p) (u.aggregate p) := by
  obtain ⟨o, ho, rfl⟩ := h
  rw [I2c.aggregate_eq, I2c.aggregate_eq]
  exact ⟨_, ho.append _, rfl⟩

theorem I2c.After.rstartCond (h : I2c.After front s u) :
    Run.Agrees (I2c.After front) (s.rstartCond p) (u.rstartCond p) := by
  refine .bind h.partialAtCondition fun t v h => .bind h.endPhase fun t v h => ?_
  obtain ⟨o, ho, rfl⟩ := h
  exact .ok ⟨_, ho.concat _, rfl⟩

theorem I2c.After.stopCond (h : I2c.After front s u) :
    Run.Agrees (I2c.After front) (s.stopCond p) (u.stopCond p) := by
  refine .bind h.partialAtCondition fun t v h => .bind h.endPhase fun t v h => .ok ?_
  obtain ⟨o, ho, rfl⟩ := id h
  obtain ⟨o', ho', hagg⟩ := I2c.After.aggregate (p := p) ((h.emit _ _).emit _ _)
  rw [hagg]
  exact ⟨_, ho', rfl⟩

/-- The end of a step keeps what is in front (10_state.md R66). -/
theorem I2c.After.finish (h : I2c.After front s u) (x : I2cSample) {r r' : Run I2c}
    (hr : Run.Agrees (I2c.After front) r r') :
    Run.Agrees (I2c.After front) (s.finish p x r) (u.finish p x r') := by
  obtain ⟨o, ho, rfl⟩ := h
  refine .bind hr fun t v hv => .ok ?_
  obtain ⟨o', ho', rfl⟩ := hv
  exact ⟨_, ho.portEvents ho' p.boundStarts s.n, rfl⟩

theorem I2c.After.epilogue (h : I2c.After front s u) (x : I2cSample) :
    I2c.After front (s.epilogue x) (u.epilogue x) := by
  obtain ⟨o, ho, rfl⟩ := h
  exact ⟨_, ho, rfl⟩

theorem I2c.After.takeCond (h : I2c.After front s u) (x : I2cSample) (c : Option I2cCond) :
    Run.Agrees (I2c.After front) (s.takeCond p x c) (u.takeCond p x c) := by
  obtain ⟨o, ho, rfl⟩ := id h
  rcases c with _ | _ | _ | _ | _
  case none => exact .ok (h.epilogue x)
  case some.baseline => exact .ok ⟨_, ho, rfl⟩
  case some.start =>
    exact .ite (h.finish x h.rstartCond) (h.finish x (.ok ⟨_, (ho.concat _).concat _, rfl⟩))
  case some.stop => exact .ite (h.finish x h.stopCond) (.ok (h.epilogue x))
  case some.bit =>
    exact .ite (.ite (h.finish x (h.ackBit x)) (h.finish x (h.bit x))) (.ok (h.epilogue x))

/-- A whole I2C step reads no event emitted before it. -/
theorem I2c.After.takeSample (h : I2c.After front s u) (x : I2cSample) :
    Run.Agrees (I2c.After front) (s.takeSample p x) (u.takeSample p x) := by
  obtain ⟨o, ho, rfl⟩ := id h
  exact .ite (.stop _) (h.takeCond x _)

end Sys2Proof.Machine

end

/-! ## Reset, and runs after it (70_reset_and_hazards.md R400 to R404) -/

section

namespace Sys2Proof.Machine

open Sys2Proof

/-- The machine `s` with the events `a` and `b` before those of its stacks. -/
def State.withFront (a b : List OutEvent) (s : State) : State :=
  { s with
    spi := { s.spi with out := a ++ s.spi.out }
    i2c := { s.i2c with out := b ++ s.i2c.out } }

variable {a b : List OutEvent}

/-- An SPI operation that reads no event emitted before it does the same with events in front. -/
theorem onSpi_withFront (s : State) {f : SpiParams → Spi → Run Spi}
    (h : ∀ p t u, Spi.After a t u → Run.Agrees (Spi.After a) (f p t) (f p u)) :
    onSpi (s.withFront a b) f = thenNext (onSpi s f) (State.withFront a b) := by
  have hrun := h s.cfg.spi s.spi (s.withFront a b).spi ⟨_, rfl, rfl⟩
  have hcfg : (s.withFront a b).cfg = s.cfg := rfl
  rw [onSpi, onSpi, hcfg]
  generalize f s.cfg.spi s.spi = r at hrun ⊢
  generalize f s.cfg.spi (s.withFront a b).spi = r' at hrun ⊢
  cases hrun with
  | ok hafter =>
    obtain ⟨_, rfl, rfl⟩ := hafter
    rfl
  | stop e => cases e <;> rfl

/-- An I2C operation that reads no event emitted before it does the same with events in front. -/
theorem onI2c_withFront (s : State) {f : I2cParams → I2c → Run I2c}
    (h : ∀ p t u, I2c.After b t u → Run.Agrees (I2c.After b) (f p t) (f p u)) :
    onI2c (s.withFront a b) f = thenNext (onI2c s f) (State.withFront a b) := by
  have hrun := h s.cfg.i2c s.i2c (s.withFront a b).i2c ⟨_, rfl, rfl⟩
  have hcfg : (s.withFront a b).cfg = s.cfg := rfl
  rw [onI2c, onI2c, hcfg]
  generalize f s.cfg.i2c s.i2c = r at hrun ⊢
  generalize f s.cfg.i2c (s.withFront a b).i2c = r' at hrun ⊢
  cases hrun with
  | ok hafter =>
    obtain ⟨_, rfl, rfl⟩ := hafter
    rfl
  | stop e => cases e <;> rfl

/-- An input is taken alike with events in front. -/
theorem takeInput_withFront (i : PortInput) (s : State) :
    takeInput i (s.withFront a b) = thenNext (takeInput i s) (State.withFront a b) := by
  cases i with
  | spi w =>
    simp only [takeInput, spiStep_eq_onSpi]
    exact onSpi_withFront s fun p t u h => h.takeSample _
  | i2c w =>
    simp only [takeInput, i2cStep_eq_onI2c]
    exact onI2c_withFront s fun p t u h => h.takeSample _
  | reset => rfl
  | params c =>
    by_cases h : (s.spi.first = true ∨ c.spi = s.cfg.spi) ∧ (s.i2c.first = true ∨ c.i2c = s.cfg.i2c)
    · have htaken : takeInput (.params c) s = .next { s with cfg := c } := if_pos h
      rw [htaken]
      exact if_pos h
    · have hrefused : takeInput (.params c) s = .refused .paramsChanged := if_neg h
      rw [hrefused]
      exact if_neg h

/-- A step goes alike with events in front. -/
theorem step_withFront (s : State) :
    step (s.withFront a b) = thenNext (step s) (State.withFront a b) := by
  have hport : (s.withFront a b).port = s.port := rfl
  unfold step
  rw [hport]
  split
  · rfl
  · next i rest _ => exact takeInput_withFront i { s with port := rest }

/-- The first step of a run, and the run from where it leads. -/
theorem run_succ_of_next {s t : State} (h : step s = .next t) (k : Nat) :
    Host.Core.run Sys2Proof.core (k + 1) s = Host.Core.run Sys2Proof.core k t := by
  have hcore : Sys2Proof.core.step s = .next t := h
  simp only [Host.Core.run, hcore]

/-- A run goes alike with events in front. -/
theorem run_withFront (k : Nat) (s : State) :
    Host.Core.run Sys2Proof.core k (s.withFront a b) =
      thenNext (Host.Core.run Sys2Proof.core k s) (State.withFront a b) := by
  induction k generalizing s with
  | zero => rfl
  | succ k ih =>
    have hstep : Sys2Proof.core.step (s.withFront a b) =
        thenNext (Sys2Proof.core.step s) (State.withFront a b) := step_withFront s
    simp only [Host.Core.run, hstep]
    cases Sys2Proof.core.step s with
    | next t => exact ih t
    | fault e => rfl
    | refused e => rfl

/-- A waiting reset leads to the machine just reset under the same parameters, with the events
emitted so far in front. -/
theorem step_reset (s : State) (inputs : List PortInput) :
    step { s with port := .reset :: inputs } =
      .next ({ State.reset with cfg := s.cfg, port := inputs }.withFront s.spi.out s.i2c.out) := by
  have hspi : s.spi.out ++ Spi.reset.out = s.spi.out := List.append_nil _
  have hi2c : s.i2c.out ++ I2c.reset.out = s.i2c.out := List.append_nil _
  simp only [State.withFront, State.reset, hspi, hi2c]
  rfl

end Sys2Proof.Machine

open Sys2Proof Sys2Proof.Machine

/-- Settles O9: each stack after reset is sound, whatever its parameters. -/
theorem resetStateIsSound : Obligations.ResetStateIsSound := by
  unfold Obligations.ResetStateIsSound
  have hsound (c : Config) : { State.reset with cfg := c }.Inv :=
    ⟨Spi.reset_inv c.spi [], I2c.reset_inv c.i2c []⟩
  exact ⟨hsound Config.default, hsound⟩

/-- Settles O60: the row is one update of the machine, to the values of the table. -/
theorem resetGivesTheResetTable : Obligations.ResetGivesTheResetTable := by
  unfold Obligations.ResetGivesTheResetTable
  intro s
  rfl

/-- Settles O17: the reset leads to the machine just reset but for the events in front, and no step
reads those. -/
theorem resetForgetsThePast : Obligations.ResetForgetsThePast := by
  unfold Obligations.ResetForgetsThePast
  intro s inputs k
  rw [run_succ_of_next (step_reset s inputs)]
  exact run_withFront k _

end
